-- ==== Sys2Proof/Word.lean ====
section
/-! DEFINITION. The words of the management window and the bytes of its data lines. -/

namespace Sys2Proof

/-- A word of the management window (10.1). -/
abbrev Word := BitVec 16

/-- A byte on data lines 7 to 0 (R161). -/
abbrev Byte := BitVec 8

end Sys2Proof
end

