-- ==== Sys2Proof/Syntax.lean ====
section
/-! DEFINITION. The commands of the block: one constructor per row of spec/opcode_table.json. -/

namespace Sys2Proof

/-- Agent ports 0 to 7 (0.5). -/
abbrev Port := Fin 8

/-- Request tags 0 to 3 (0.5). -/
abbrev Tag := Fin 4

/-- Slots of the transaction table, 0 to 23 (0.5). -/
abbrev SlotId := Fin 24

/-- Line numbers 0 to 67,108,863 (0.2). -/
abbrev LineNo := Fin 67108864

/-- Numbers of the words of the management window (10.1). -/
abbrev WordNo := Fin 32

/-- The channel field of a frame (Fig. 12-2). -/
inductive Channel
  | request | notice | answer | outbound
  deriving DecidableEq, Repr

/-- The three channels from the agent to the part (Fig. 3-1). -/
inductive InChannel
  | request | notice | answer
  deriving DecidableEq, Repr

/-- The request kinds (Fig. 3-2). -/
inductive RequestKind
  | readShared | readExclusive | upgrade | streamRead | streamWrite
  deriving DecidableEq, Repr

/-- What is unknown about a message that fails the check of R43 (R43, R184). -/
inductive UnknownMessage
  /-- A kind code marked Undefined in its channel's column of Fig. 12-4. -/
  | undefinedKind (ch : InChannel) (code : BitVec 4)
  /-- A Hello whose profile field is neither Caching nor Streaming. -/
  | helloProfile (profile : BitVec 2)
  /-- An answer whose outcome field is 00. -/
  | answerOutcome
  /-- A message frame whose channel field is Outbound (R184). -/
  | outboundChannel (code : BitVec 4)
  deriving DecidableEq, Repr

/-- The commands of the block, in the order of the table. A message command is the arrival of a good frame
whose sequence bit is the expected one; a frame with the other bit is `secondCopyOfFrame` (R39, log 12).
The fifteen management commands stand for a write of their code to the start word: their operands are the
window's operand words (R162, log 7). -/
inductive Instr
  /-- HARD_RESET: RESET is asserted (R160). -/
  | hardReset
  /-- RESET_RELEASE: RESET is released with the WIDE strap at this level (R161). -/
  | resetRelease (wide : Bool)
  /-- RECEIVE_CLOCK_CHANGE: the receive clock is seen, or has stopped (R38). -/
  | receiveClockChange (p : Port) (present : Bool)
  /-- CLOCK_ABSENCE_TIMEOUT (R41). -/
  | clockAbsenceTimeout (p : Port)
  /-- BAD_FRAME: a frame with a wrong check code arrives (R39). -/
  | badFrame (p : Port)
  /-- ACKNOWLEDGE: a good Acknowledge frame naming a channel and a sequence bit (R40, R184). -/
  | acknowledge (p : Port) (ch : Channel) (seq : Bool)
  /-- RESEND: a good Resend frame (R39). -/
  | resend (p : Port)
  /-- IDLE: a good Idle frame (R39). -/
  | idle (p : Port)
  /-- ACK_TIMEOUT (R40). -/
  | ackTimeout (p : Port)
  /-- TRANSMIT_FRAME: the head of the outbound queue is transmitted (R40). -/
  | transmitFrame (p : Port)
  /-- READ_SHARED (R45). -/
  | readShared (p : Port) (tag : Tag) (line : LineNo)
  /-- READ_EXCLUSIVE (R45). -/
  | readExclusive (p : Port) (tag : Tag) (line : LineNo)
  /-- UPGRADE (R45). -/
  | upgrade (p : Port) (tag : Tag) (line : LineNo)
  /-- STREAM_READ (R45). -/
  | streamRead (p : Port) (tag : Tag) (line : LineNo)
  /-- STREAM_WRITE (R45). -/
  | streamWrite (p : Port) (tag : Tag) (line : LineNo)
  /-- HELLO: the profile claimed is the 2-bit field of Fig. 12-5 (R56). -/
  | hello (p : Port) (profile : BitVec 2)
  /-- GOODBYE (R58). -/
  | goodbye (p : Port)
  /-- RELEASE (R108). -/
  | release (p : Port) (line : LineNo)
  /-- RELEASE_DIRTY (R108). -/
  | releaseDirty (p : Port) (line : LineNo)
  /-- STREAM_DONE (R124). -/
  | streamDone (p : Port) (tag : Tag)
  /-- ANSWER: the probe slot is the 5-bit field, the outcome the 2-bit field of Fig. 12-5 (R130). -/
  | answer (p : Port) (slot : Fin 32) (gen : Bool) (line : LineNo) (outcome : BitVec 2)
  /-- UNKNOWN_MESSAGE_KIND (R43). -/
  | unknownMessageKind (p : Port) (what : UnknownMessage)
  /-- TAKE_QUEUE_HEAD: the arbiter serves a queue head (R76). -/
  | takeQueueHead
  /-- RESTART_PARKED: the arbiter serves the oldest Ready parked request (R89). -/
  | restartParked
  /-- START_SWEEP_RECALL: the arbiter serves the sweep engine (R149). -/
  | startSweepRecall
  /-- REPROBE: the slot's probe deadline expires in state First (R133). -/
  | reprobe (k : SlotId)
  /-- PROBE_TIMEOUT: the slot's probe deadline expires in state Second (R134). -/
  | probeTimeout (k : SlotId)
  /-- LEASE_TIMEOUT: the slot's lease deadline expires (R125). -/
  | leaseTimeout (k : SlotId)
  /-- SET_PORT_PROFILE (R55). -/
  | setPortProfile
  /-- EVICT_PORT (R59). -/
  | evictPort
  /-- ISOLATE_PORT (R64). -/
  | isolatePort
  /-- CLEAR_ISOLATION (R68). -/
  | clearIsolation
  /-- WRITE_REGION (R168). -/
  | writeRegion
  /-- QUIESCE (R177). -/
  | quiesce
  /-- RESUME (R179). -/
  | resume
  /-- FLUSH (R169). -/
  | flush
  /-- LOOKUP_LINE (R170). -/
  | lookupLine
  /-- NEXT_POISONED (R171). -/
  | nextPoisoned
  /-- CLEAR_POISON (R143). -/
  | clearPoison
  /-- CLEAR_ALL_POISON (R169). -/
  | clearAllPoison
  /-- SET_TIMING (R174). -/
  | setTiming
  /-- SET_POISON_THRESHOLD (R175). -/
  | setPoisonThreshold
  /-- CLEAR_DIRECTORY (R173). -/
  | clearDirectory
  /-- UNKNOWN_COMMAND_CODE: the start word is written with a code that names no command (R166). -/
  | unknownCommandCode (code : Word)
  /-- ABORT: the abort word is written (R165). -/
  | abort (value : Word)
  /-- ACKNOWLEDGE_CAUSE: the acknowledge word is written (R182). -/
  | acknowledgeCause (value : Word)
  /-- ENABLE_WORD_WRITE: the enable word is written (R181). -/
  | enableWordWrite (value : Word)
  /-- REGISTER_WRITE: a word of the window is written (R160). -/
  | registerWrite (w : WordNo) (value : Word)
  /-- LOW_BYTE_WRITE: in 8-bit mode, the low byte of a word is written (R161). -/
  | lowByteWrite (w : WordNo) (b : Byte)
  /-- LOW_BYTE_READ: in 8-bit mode, the low byte of a word is read (R161). -/
  | lowByteRead (w : WordNo)
  /-- SECOND_COPY_OF_FRAME: a message frame whose sequence bit is not the expected one (R39). -/
  | secondCopyOfFrame (p : Port) (ch : InChannel)
  /-- HIGH_BYTE_READ: in 8-bit mode, the high byte of a word is read (R161). -/
  | highByteRead (w : WordNo)
  deriving DecidableEq, Repr

end Sys2Proof
end

