-- ==== Sys2Proof/Decode.lean ====
section
/-! DEFINITION. The command a word of the table's bits spells. No row of spec/opcode_table.json gives bits
(every row's "fields" is empty and none has "fixed"), so no word spells a command. The bit layouts of frames
and of the window (Fig. 12-1 to 12-9) are in Machine/Formats.lean, Machine/Operands.lean and
Machine/Window.lean. -/

namespace Sys2Proof

/-- The rows of the table give no bits: no word spells a command. -/
def decodeTableWord (_nbits _w : Nat) : Option Instr := none

end Sys2Proof
end

