-- ==== Sys2Proof/Config.lean ====
section
/-! DEFINITION. What the part fixes, and the one free value of the model. -/

namespace Sys2Proof.Config

/-- A frame not acknowledged this many µs after its latest transmission is a failed attempt (R40). -/
def ackWait : Nat := 20

/-- A receive clock absent this many µs loses an Up link (R41). -/
def clockAbsence : Nat := 100

/-- Attempts on one frame, and bad frames in a row, that lose the link (R39, R40). -/
def maxFailures : Nat := 3

/-- Active transactions with sweep origin at most (R73, R79). -/
def sweepCap : Nat := 4

/-- Places of the parked list (R85). -/
def parkedPlaces : Nat := 16

/-- Probe interval after a hard reset, in µs (R132). -/
def probeIntervalReset : Nat := 250

/-- Lease interval after a hard reset, in µs (R125). -/
def leaseIntervalReset : Nat := 4000

/-- Poison threshold after a hard reset (R139). -/
def thresholdReset : Nat := 16

/-- DESIGN CHOICE (log 4). A FREE VALUE: which of several things the manual leaves in either order comes
first, and whether one that may wait comes at once or later. It has no body, so no proof can know it;
`State.freeCount` numbers its uses. -/
opaque freeChoice : Nat → Nat

end Sys2Proof.Config
end

