-- ==== Sys2Proof/Machine/State.lean ====
section
/-! DEFINITION. The state of the DC-816 as plain data, and the machine right after reset. -/

namespace Sys2Proof.Machine

open Sys2Proof

/-! ### Names -/

/-- Sets of the directory table, 0 to 2047 (R1). -/
abbrev SetIdx := Fin 2048

/-- Ways of a set, 0 to 7 (R1). -/
abbrev Way := Fin 8

/-- Entry tags, 0 to 32,767 (R1). -/
abbrev EntryTag := Fin 32768

/-- Page numbers, 0 to 1,048,575 (0.3). -/
abbrev Page := Fin 1048576

/-- Indexes of the region records (R23). -/
abbrev RegionIdx := Fin 8

/-- A set of ports, bit n standing for port n as in result word 1 of LookupLine (Fig. 12-9). -/
abbrev PortSet := BitVec 8

/-! ### Ports -/

/-- Profiles (Fig. 4-1). -/
inductive Profile
  | unused | caching | streaming
  deriving DecidableEq, Repr

/-- Port states, with the two progress flags of Fig. 4-1 in the states that have them. -/
inductive PortState
  | unused | offline | online
  | draining (jobDone : Bool)
  | isolated (cleanupDone : Bool)
  deriving DecidableEq, Repr

/-- Isolation reasons (Fig. 4-1). -/
inductive IsolationReason
  | none | probeTimeout | leaseTimeout | linkLost | repeatedHello | protocolError | command
  deriving DecidableEq, Repr

/-- The port record of Fig. 4-1. -/
structure PortRec where
  profile : Profile
  state : PortState
  reason : IsolationReason
  deriving DecidableEq, Repr

/-! ### Links -/

/-- Tag states (Fig. 3-5). -/
inductive TagState
  | free | outstanding | answering
  deriving DecidableEq, Repr

/-- A request waiting in a port's request queue (R46). -/
structure Request where
  tag : Tag
  kind : RequestKind
  line : LineNo
  deriving DecidableEq, Repr

/-- Reasons of Denied (Fig. 3-3). -/
inductive DeniedReason
  | kindInRegion | noRoom
  deriving DecidableEq, Repr

/-- Reasons of Refused (Fig. 3-3). -/
inductive RefusedReason
  | notOnline | draining | kindNotPermitted | halted
  deriving DecidableEq, Repr

/-- Reasons of Rejected (Fig. 3-3). -/
inductive RejectedReason
  | portUnused | profileMismatch
  deriving DecidableEq, Repr

/-- Responses (Fig. 3-3); the request tag is in the message. -/
inductive Response
  | grantShared
  | grantExclusive (fresh : Bool)
  | streamGo
  | untracked
  | denied (r : DeniedReason)
  | poisoned
  | retry
  | refused (r : RefusedReason)
  deriving DecidableEq, Repr

/-- Probe kinds (Fig. 3-3). -/
inductive ProbeKind
  | invalidate | downgrade
  deriving DecidableEq, Repr

/-- Part-to-agent messages (Fig. 3-3). The tag count of Welcome is always 4. -/
inductive OutMessage
  | response (tag : Tag) (r : Response)
  | probe (slot : SlotId) (gen : Bool) (line : LineNo) (kind : ProbeKind)
  | welcome (profile : Profile)
  | farewell
  | rejected (r : RejectedReason)
  deriving DecidableEq, Repr

/-- The frame in the resend buffer: its sequence bit and its message (R40). -/
structure SentFrame where
  seq : Bool
  msg : OutMessage
  deriving DecidableEq, Repr

/-- What a link interface keeps: the frame state of Fig. 3-4, the request queue (R46), the outbound queue
(R47) and the tag states (R44). `sentAt` is the time of the latest transmission of the buffered frame, which
R40 counts 20 µs from. `clockAbsentSince` is the receive-clock watch: `none` is Present. -/
structure Link where
  up : Bool
  expectedRequest : Bool
  expectedNotice : Bool
  expectedAnswer : Bool
  badFrames : Nat
  resend : Option SentFrame
  nextSeq : Bool
  attempts : Nat
  sentAt : Nat
  clockAbsentSince : Option Nat
  queue : List Request
  outbound : List OutMessage
  tags : Vector TagState 4
  deriving DecidableEq, Repr

/-- A frame the part puts on a port's transmit line (3.3). Idle frames are not recorded (log 11). -/
inductive WireFrame
  | message (seq : Bool) (msg : OutMessage)
  | acknowledge (ch : InChannel) (seq : Bool)
  | resend
  deriving DecidableEq, Repr

/-! ### Regions -/

/-- Attributes (Fig. 2-1). -/
inductive Attribute
  | untracked | tracked | streamInvalidate
  deriving DecidableEq, Repr

/-- A region record (Fig. 2-1). -/
structure Region where
  enabled : Bool
  base : Page
  limit : Page
  attr : Attribute
  deriving DecidableEq, Repr

/-! ### The directory table -/

/-- Poison causes (Fig. 1-2). -/
inductive PoisonCause
  | holderLost | leaseLost
  deriving DecidableEq, Repr

/-- The state of an entry with the fields of that state (Fig. 1-2, R2). -/
inductive EntryState
  | shared (sharers : PortSet)
  | exclusive (holder : Port)
  | poisoned (cause : PoisonCause) (port : Port)
  deriving DecidableEq, Repr

/-- A directory entry (Fig. 1-2). -/
structure Entry where
  tag : EntryTag
  state : EntryState
  deriving DecidableEq, Repr

/-- A set: its 8 ways and its recency order, most recent first (R1, R8). -/
structure SetRec where
  ways : Vector (Option Entry) 8
  recency : List Way
  deriving DecidableEq, Repr

/-- A set with every way empty. -/
def SetRec.empty : SetRec := { ways := Vector.replicate 8 none, recency := [] }

/-- The directory table: its sets in one canonical form (set numbers rising, no empty set listed; log 10) and
its two counts (R20, R21). -/
structure Directory where
  sets : List (SetIdx × SetRec)
  occupancy : Nat
  poisoned : Nat
  deriving DecidableEq, Repr

/-! ### Transactions -/

/-- Whose recall a SweepRecall is: a port's Drain or Cleanup job, the command's job, or an aborted command's
job (R149, R155, R158). -/
inductive SweepOwner
  | port (p : Port)
  | command
  | aborted
  deriving DecidableEq, Repr

/-- Who a transaction works for; a port origin carries the order of first taking (Fig. 5-3). -/
inductive Origin
  | port (p : Port) (tag : Tag) (order : Nat)
  | sweep (owner : SweepOwner)
  deriving DecidableEq, Repr

/-- Transaction kinds (Fig. 5-3). -/
inductive TxnKind
  | request (k : RequestKind)
  | sweepRecall
  deriving DecidableEq, Repr

/-- Phases (Fig. 5-4). -/
inductive Phase
  | victimProbing | probing | leased
  deriving DecidableEq, Repr

/-- Roles of a probed port (Fig. 8-1). -/
inductive Role
  | sharer | holder
  deriving DecidableEq, Repr

/-- Outcomes of a probe (Fig. 5-3). -/
inductive ProbeOutcome
  | clean | written | absent | lost
  deriving DecidableEq, Repr

/-- A member of a probe set; `outcome = none` is unanswered (R128). -/
structure Probe where
  port : Port
  kind : ProbeKind
  role : Role
  outcome : Option ProbeOutcome
  deriving DecidableEq, Repr

/-- A running deadline: when it was started and the interval it runs with (R132, R125). -/
structure Deadline where
  start : Nat
  interval : Nat
  deriving DecidableEq, Repr

/-- The recall targets of a SweepRecall (Fig. 5-3). -/
structure RecallTargets where
  ports : PortSet
  kind : ProbeKind
  role : Role
  deriving DecidableEq, Repr

/-- A transaction record (Fig. 5-3). `probed` is the set of ports the transaction has probed, which its
completion reports (R83 step 5). -/
structure Txn where
  origin : Origin
  kind : TxnKind
  line : LineNo
  victim : Option LineNo
  heldWay : Option Way
  phase : Option Phase
  probes : List Probe
  reprobed : Bool
  deadline : Option Deadline
  targets : Option RecallTargets
  response : Option Response
  probed : PortSet
  deriving DecidableEq, Repr

/-- A slot: its generation and, while active, its transaction (R79). -/
structure Slot where
  gen : Bool
  txn : Option Txn
  deriving DecidableEq, Repr

/-- What a parked request waits for (Fig. 5-5). -/
inductive ParkReason
  | line | set
  deriving DecidableEq, Repr

/-- A parked request (Fig. 5-5); `ready` is its status. -/
structure Parked where
  port : Port
  tag : Tag
  kind : RequestKind
  line : LineNo
  order : Nat
  reason : ParkReason
  ready : Bool
  deriving DecidableEq, Repr

/-! ### The sweep engine -/

/-- Sweep jobs (Fig. 9-2). -/
inductive Job
  | drain (p : Port)
  | cleanup (p : Port)
  | flush (base limit : Page)
  | regionChange (idx : RegionIdx) (rec : Region)
  | poisonClear
  deriving DecidableEq, Repr

/-- Walker positions (Fig. 9-1). -/
inductive Walker
  | idle
  | atSet (i : SetIdx)
  | past
  deriving DecidableEq, Repr

/-- Status of a line of the work list (R146). -/
inductive WorkStatus
  | pending | waiting | handled
  deriving DecidableEq, Repr

/-- The sweep engine's state (Fig. 9-1). -/
structure Sweep where
  jobs : List Job
  walker : Walker
  workList : List (LineNo × WorkStatus)
  jobCount : Nat
  deriving DecidableEq, Repr

/-! ### The management unit, the notification unit and the window -/

/-- Service states (R176). -/
inductive ServiceState
  | running | quiescing | quiesced | halted
  deriving DecidableEq, Repr

/-- The four commands that take time (10.2). -/
inductive LongCommand
  | quiesce | writeRegion | flush | clearAllPoison
  deriving DecidableEq, Repr

/-- Command statuses (Fig. 10-2). -/
inductive CommandStatus
  | done | wrongState | badOperand | aborted | rejectedBusy
  deriving DecidableEq, Repr

/-- The command unit (Fig. 10-2): it is Busy while a command is in progress. -/
structure CommandUnit where
  inProgress : Option LongCommand
  code : Word
  latched : Vector Word 6
  status : CommandStatus
  results : Vector Word 4
  deriving DecidableEq, Repr

/-- The ten causes, in priority order (Fig. 11-1). -/
inductive Cause
  | halted | portIsolated | linePoisoned | protocolError | cleanupDone
  | portLeft | portJoined | strayMessage | commandDone | thresholdNear
  deriving DecidableEq, Repr

/-- The notification unit: bit n−1 belongs to cause n (R180, Fig. 12-7). -/
structure Notification where
  pendingFlags : BitVec 10
  enables : BitVec 10
  deriving DecidableEq, Repr

/-- The window's own state (R160, R161): the WIDE sample, the holding bytes of 8-bit mode, the captured word
and the data lines 7 to 0 as a byte read last drove them. -/
structure Window where
  wide : Bool
  operands : Vector Word 6
  writeByte : Byte
  readCapture : Byte
  captured : Option WordNo
  dataOut : Byte
  deriving DecidableEq, Repr

/-! ### The whole state -/

/-- The state of the DC-816. `pending` is the queue of commands, first in first out; `now` counts ticks of the
1 µs timebase; `tx` holds the frames the latest command put on the transmit lines; `freeCount` numbers the
free choices made (log 4); `reported` is the set of ports that the probe unit has reported with ProbeTimeout and
whose isolation the port controller has not yet taken (R134, log 24); `lossReported` is the set of ports whose link
interface has lost the link and whose LinkLost the port controller has not yet taken (R41, R69, log 25). -/
structure State where
  pending : List Instr
  inReset : Bool
  now : Nat
  freeCount : Nat
  tx : List (Port × WireFrame)
  links : Vector Link 8
  ports : Vector PortRec 8
  regions : Vector Region 8
  dir : Directory
  slots : Vector Slot 24
  reported : PortSet
  lossReported : PortSet
  parked : List Parked
  rrPointer : Fin 9
  nextOrder : Nat
  sweep : Sweep
  service : ServiceState
  probeInterval : Nat
  leaseInterval : Nat
  threshold : Nat
  unit : CommandUnit
  notify : Notification
  window : Window
  deriving DecidableEq, Repr

/-- Faults. The spec gives the block no event that stops it. -/
inductive Fault
  /-- Raised by no command: the block has no fault. It stands because the interface asks for a type of
  faults. Safe: nothing answers it. -/
  | neverRaised
  deriving DecidableEq, Repr

/-- Refusals. -/
inductive Refusal
  /-- Raised by an arm of `exec` whose command has no meaning yet, with its mnemonic; no arm is in that case.
  Safe: the model stops. -/
  | notModelled (mnemonic : String)
  deriving DecidableEq, Repr

/-- A link after a hard reset (Fig. 3-4, R38, R44, R46, R47). -/
def Link.reset : Link where
  up := false
  expectedRequest := false
  expectedNotice := false
  expectedAnswer := false
  badFrames := 0
  resend := none
  nextSeq := false
  attempts := 0
  sentAt := 0
  clockAbsentSince := some 0
  queue := []
  outbound := []
  tags := Vector.replicate 4 .free

/-- A port record after a hard reset (R54). -/
def PortRec.reset : PortRec where
  profile := .unused
  state := .unused
  reason := .none

/-- A region record after a hard reset (R23). -/
def Region.reset : Region where
  enabled := false
  base := 0
  limit := 0
  attr := .untracked

/-- The machine right after reset: RESET has been released and nothing has arrived (0.11). Each value is the
one the state's own rule gives; `now`, `sentAt`, `code`, `dataOut`, `wide`, `nextOrder` and `freeCount` are
the model's (logs 4, 8, 9). -/
def State.reset : State where
  pending := []
  inReset := false
  now := 0
  freeCount := 0
  tx := []
  links := Vector.replicate 8 Link.reset
  ports := Vector.replicate 8 PortRec.reset
  regions := Vector.replicate 8 Region.reset
  dir := { sets := [], occupancy := 0, poisoned := 0 }
  slots := Vector.replicate 24 { gen := false, txn := none }
  reported := 0
  lossReported := 0
  parked := []
  rrPointer := 0
  nextOrder := 0
  sweep := { jobs := [], walker := .idle, workList := [], jobCount := 0 }
  service := .quiesced
  probeInterval := Config.probeIntervalReset
  leaseInterval := Config.leaseIntervalReset
  threshold := Config.thresholdReset
  unit := { inProgress := none, code := 0, latched := Vector.replicate 6 0, status := .done,
            results := Vector.replicate 4 0 }
  notify := { pendingFlags := 0, enables := 0 }
  window := { wide := true, operands := Vector.replicate 6 0, writeByte := 0, readCapture := 0,
              captured := none, dataOut := 0 }

end Sys2Proof.Machine
end

