-- ==== Sys2Proof/Machine/Flags.lean ====
section
/-! DEFINITION. The notification unit: cause flags, the IRQ line, the cause word (11). -/

namespace Sys2Proof.Machine

open Sys2Proof

/-- The cause number of Fig. 11-1. -/
def Cause.number : Cause → Nat
  | .halted => 1
  | .portIsolated => 2
  | .linePoisoned => 3
  | .protocolError => 4
  | .cleanupDone => 5
  | .portLeft => 6
  | .portJoined => 7
  | .strayMessage => 8
  | .commandDone => 9
  | .thresholdNear => 10

/-- The bit of a cause in the pending flags and in the enable word: bit n−1 for cause n (Fig. 12-7). -/
def causeBit (n : Nat) : BitVec 10 := 1#10 <<< (n - 1)

/-- The pending flag of a cause (R180). -/
def State.isPending (s : State) (c : Cause) : Bool := s.notify.pendingFlags.getLsbD (c.number - 1)

/-- The enable flag of a cause (R180). -/
def State.isEnabled (s : State) (c : Cause) : Bool := s.notify.enables.getLsbD (c.number - 1)

/-- Raise a cause: its pending flag is set, whatever its enable flag (R180). -/
def raise (c : Cause) (s : State) : State :=
  { s with notify := { s.notify with pendingFlags := s.notify.pendingFlags ||| causeBit c.number } }

/-- IRQ is asserted while some cause is both pending and enabled, and never while RESET is asserted (R181). -/
def State.irq (s : State) : Bool :=
  !s.inReset && decide (s.notify.pendingFlags &&& s.notify.enables ≠ 0)

/-- The numbers of the causes, highest priority first (Fig. 11-1). -/
def causeNumbers : List Nat := [1, 2, 3, 4, 5, 6, 7, 8, 9, 10]

/-- The cause word: the lowest number of a cause both pending and enabled, or 0 (R182). -/
def State.causeNumber (s : State) : Nat :=
  (causeNumbers.find? fun n => (s.notify.pendingFlags &&& s.notify.enables).getLsbD (n - 1)).getD 0

/-- A write of a cause number, 1 to 10, to the acknowledge word clears that cause's pending flag; any other
value, read whole, is ignored (R182, R185). -/
def acknowledgeFlag (v : Word) (s : State) : State :=
  if 1 ≤ v.toNat ∧ v.toNat ≤ 10 then
    { s with notify := { s.notify with pendingFlags := s.notify.pendingFlags &&& ~~~ causeBit v.toNat } }
  else s

/-- A write to the enable word replaces all ten enable flags; bits 15 to 10 are disregarded (R181, R185). -/
def writeEnables (v : Word) (s : State) : State :=
  { s with notify := { s.notify with enables := v.setWidth 10 } }

end Sys2Proof.Machine
end

