-- ==== Sys2Proof/Machine/Ops.lean ====
section
/-! DEFINITION. The named accessors of State, the shape of every command's meaning, the free order, the
completion of a command and the threshold test. -/

namespace Sys2Proof.Machine

open Sys2Proof

/-! ### Lists of all ports, ways and slots -/

/-- The ports, in increasing order. -/
def allPorts : List Port := [0, 1, 2, 3, 4, 5, 6, 7]

/-- The ways of a set, in increasing order. -/
def allWays : List Way := [0, 1, 2, 3, 4, 5, 6, 7]

/-- The region record indexes, in increasing order. -/
def allRegions : List RegionIdx := [0, 1, 2, 3, 4, 5, 6, 7]

/-- The slots, in increasing order. -/
def allSlots : List SlotId :=
  [0, 1, 2, 3, 4, 5, 6, 7, 8, 9, 10, 11, 12, 13, 14, 15, 16, 17, 18, 19, 20, 21, 22, 23]

/-! ### Accessors: the one home of each numbered thing -/

/-- The link interface of a port. -/
def State.link (s : State) (p : Port) : Link := s.links[p]

/-- Replace the link interface of a port. -/
def State.setLink (s : State) (p : Port) (l : Link) : State := { s with links := s.links.set p l }

/-- Change the link interface of a port. -/
def State.modifyLink (s : State) (p : Port) (f : Link → Link) : State := s.setLink p (f (s.link p))

/-- The record of a port (R54). -/
def State.port (s : State) (p : Port) : PortRec := s.ports[p]

/-- Replace the record of a port. -/
def State.setPort (s : State) (p : Port) (r : PortRec) : State := { s with ports := s.ports.set p r }

/-- A slot of the transaction table (R79). -/
def State.slot (s : State) (k : SlotId) : Slot := s.slots[k]

/-- Replace a slot. -/
def State.setSlot (s : State) (k : SlotId) (x : Slot) : State := { s with slots := s.slots.set k x }

/-- The transaction in a slot, if it is active. -/
def State.txn (s : State) (k : SlotId) : Option Txn := (s.slot k).txn

/-- Put a transaction record in a slot, its generation unchanged (R79). -/
def State.setTxn (s : State) (k : SlotId) (t : Txn) : State :=
  s.setSlot k { s.slot k with txn := some t }

/-- Change the transaction record of an active slot. -/
def State.modifyTxn (s : State) (k : SlotId) (f : Txn → Txn) : State :=
  match s.txn k with
  | some t => s.setTxn k (f t)
  | none => s

/-- Free a slot, its generation toggled (R79). -/
def State.freeSlot (s : State) (k : SlotId) : State :=
  s.setSlot k { gen := !(s.slot k).gen, txn := none }

/-- A region record (R23). -/
def State.region (s : State) (i : RegionIdx) : Region := s.regions[i]

/-- The tag state of a request tag of a port (R44). -/
def State.tagState (s : State) (p : Port) (t : Tag) : TagState := (s.link p).tags[t]

/-- Set the tag state of a request tag of a port. -/
def State.setTag (s : State) (p : Port) (t : Tag) (x : TagState) : State :=
  s.modifyLink p fun l => { l with tags := l.tags.set t x }

/-! ### Sets of ports -/

/-- The set of one port. -/
def PortSet.single (p : Port) : PortSet := 1#8 <<< p.val

/-- Membership in a set of ports. -/
def PortSet.has (S : PortSet) (p : Port) : Bool := S.getLsbD p.val

/-- The union of two sets of ports. -/
def PortSet.union (S T : PortSet) : PortSet := S ||| T

/-- A set of ports with one more; adding a member leaves it as it was (R2). -/
def PortSet.insert (S : PortSet) (p : Port) : PortSet := S ||| PortSet.single p

/-- The members of S that are not in T. -/
def PortSet.diff (S T : PortSet) : PortSet := S &&& ~~~ T

/-- The members of a set, in increasing order (0.6). -/
def PortSet.members (S : PortSet) : List Port := allPorts.filter fun p => PortSet.has S p

/-- The set of the ports for which a condition holds. -/
def portsWhere (f : Port → Bool) : PortSet :=
  allPorts.foldl (fun S p => if f p then PortSet.insert S p else S) 0

/-! ### The shape of a command's meaning -/

/-- The meaning of a command as an event: while RESET is asserted every block is held in its reset state and
the event changes nothing (0.11, R160); otherwise the event acts, and the record of transmitted frames begins
afresh (log 11). -/
def event (s : State) (act : State → State) : Host.Outcome State Fault Refusal :=
  .next (if s.inReset then s else act { s with tx := [] })

/-- Put a frame on a port's transmit line (3.3, log 11). -/
def transmit (p : Port) (f : WireFrame) (s : State) : State := { s with tx := s.tx ++ [(p, f)] }

/-! ### The free order -/

/-- The list in an order that the free value fixes: at each place the free value chooses among what is left.
A list of one thing or none consults nothing (log 4). -/
def shuffle : Nat → Nat → List α → List α
  | 0, _, l => l
  | n + 1, c, l =>
    if l.length ≤ 1 then l
    else
      let i := Config.freeChoice c % l.length
      match l[i]? with
      | some a => a :: shuffle n (c + 1) (l.eraseIdx i)
      | none => l

/-- Act on each thing of a list, in an order the manual leaves open (log 4). -/
def inFreeOrder (l : List α) (act : α → State → State) (s : State) : State :=
  (shuffle l.length s.freeCount l).foldl (fun s a => act a s)
    { s with freeCount := s.freeCount + l.length }

/-! ### Commands: start and completion -/

/-- The command unit is Busy (10.2). -/
def State.busy (s : State) : Bool := s.unit.inProgress.isSome

/-- The completion of a command: status and results are set, the unit becomes Idle, CommandDone is raised
(R164). -/
def completeCommand (st : CommandStatus) (r0 r1 r2 r3 : Word) (s : State) : State :=
  raise .commandDone
    { s with unit := { s.unit with inProgress := none, status := st, results := #v[r0, r1, r2, r3] } }

/-- The completion of a long command, if that command is the one in progress. -/
def completeLong (c : LongCommand) (st : CommandStatus) (r0 : Word) (s : State) : State :=
  if s.unit.inProgress = some c then completeCommand st r0 0 0 0 s else s

/-- The code of a service state (Fig. 12-7). -/
def ServiceState.code : ServiceState → Word
  | .running => 0
  | .quiescing => 1
  | .quiesced => 2
  | .halted => 3

/-! ### The poison threshold -/

/-- Entry to Halted: the cause Halted is raised, and a Quiesce in progress completes WrongState with result
word 0 showing Halted (R140, R178). -/
def enterHalted (s : State) : State :=
  completeLong .quiesce .wrongState ServiceState.halted.code (raise .halted { s with service := .halted })

/-- The threshold test on the poisoned count as it stands (R140, R141): ThresholdNear one below a threshold of
2 or more; Halted from Running or Quiescing at or above it. -/
def thresholdTest (s : State) : State :=
  let s1 := if 2 ≤ s.threshold ∧ s.dir.poisoned + 1 = s.threshold then raise .thresholdNear s else s
  if s1.threshold ≤ s1.dir.poisoned ∧ (s1.service = .running ∨ s1.service = .quiescing) then
    enterHalted s1
  else s1

/-- A rise of the poisoned count by one: LinePoisoned is raised and the new count tested (R21, R138). -/
def poisonRise (s : State) : State :=
  thresholdTest
    (raise .linePoisoned { s with dir := { s.dir with poisoned := s.dir.poisoned + 1 } })

end Sys2Proof.Machine
end

