-- ==== Sys2Proof/Machine/Regions.lean ====
section
/-! DEFINITION. Lines, pages, and the region table (0.2, 0.3, 2). -/

namespace Sys2Proof.Machine

open Sys2Proof

/-- The set of a line: its line number modulo 2048 (R1). -/
def setOf (l : LineNo) : SetIdx := ⟨l.val % 2048, Nat.mod_lt _ (by decide)⟩

/-- The entry tag of a line: its line number divided by 2048 (R1). -/
def entryTag (l : LineNo) : EntryTag := ⟨l.val / 2048, by have := l.isLt; omega⟩

/-- The line of a set and an entry tag (R1). -/
def lineOf (i : SetIdx) (t : EntryTag) : LineNo :=
  ⟨t.val * 2048 + i.val, by have := i.isLt; have := t.isLt; omega⟩

/-- The page of a line: its line number divided by 64 (2.2). -/
def pageOf (l : LineNo) : Page := ⟨l.val / 64, by have := l.isLt; omega⟩

/-- A record covers a page when it is enabled and the page lies from its base to its limit (R24). -/
def Region.covers (r : Region) (g : Page) : Bool :=
  r.enabled && decide (r.base ≤ g) && decide (g ≤ r.limit)

/-- The lowest-indexed record that covers a page, in a region table (R25). -/
def coveringRecord (table : Vector Region 8) (g : Page) : Option RegionIdx :=
  allRegions.find? fun i => Region.covers table[i] g

/-- The treatment of a line under a region table: that of the lowest-indexed covering record, or Untracked
(R25). -/
def attrUnder (table : Vector Region 8) (l : LineNo) : Attribute :=
  match coveringRecord table (pageOf l) with
  | some i => (table[i]).attr
  | none => .untracked

/-- The treatment of a line now (R25). -/
def State.attrOf (s : State) (l : LineNo) : Attribute := attrUnder s.regions l

/-- The prospective table of a region change: the current one with the named record replaced (2.5). -/
def prospective (table : Vector Region 8) (i : RegionIdx) (r : Region) : Vector Region 8 := table.set i r

/-- The response a line's treatment gives a request kind at once, or none where the request is served
(Fig. 2-4). -/
def attrResponse : Attribute → RequestKind → Option Response
  | .untracked, _ => some .untracked
  | .streamInvalidate, .readExclusive => some (.denied .kindInRegion)
  | .streamInvalidate, .upgrade => some (.denied .kindInRegion)
  | .streamInvalidate, .readShared => none
  | .streamInvalidate, .streamRead => none
  | .streamInvalidate, .streamWrite => none
  | .tracked, _ => none

/-- The probe kind with which a region change recalls an entry of a line whose treatment goes from the first to
the second, or none where it recalls nothing (Fig. 2-5, R31). -/
def regionRecallKind : Attribute → Attribute → EntryState → Option ProbeKind
  | .untracked, _, _ => none
  | _, _, .poisoned _ _ => none
  | .tracked, .streamInvalidate, .exclusive _ => some .downgrade
  | .tracked, .untracked, _ => some .invalidate
  | .streamInvalidate, .untracked, _ => some .invalidate
  | _, _, _ => none

/-- A line's treatment changes to Untracked or to StreamInvalidate, so that the region walk reads its entry by
a changing lookup (R31). -/
def tightens (now after : Attribute) : Bool :=
  decide (now ≠ after) && decide (after = .untracked ∨ after = .streamInvalidate)

end Sys2Proof.Machine
end

