-- ==== Sys2Proof/Machine/Directory.lean ====
section
/-! DEFINITION. The directory table: sets, entries, the port-state filter, recency, retirement, placement,
claims and the way search (1). -/

namespace Sys2Proof.Machine

open Sys2Proof

/-! ### Sets -/

/-- The set number i of a list of sets; a set not listed has every way empty (log 10). -/
def getSet : List (SetIdx × SetRec) → SetIdx → SetRec
  | [], _ => SetRec.empty
  | (j, r) :: rest, i => if j = i then r else getSet rest i

/-- The list of sets with set i replaced, in the canonical form: set numbers rising, no empty set (log 10). -/
def putSet : List (SetIdx × SetRec) → SetIdx → SetRec → List (SetIdx × SetRec)
  | [], i, r => if r = SetRec.empty then [] else [(i, r)]
  | (j, q) :: rest, i, r =>
    if i < j then (if r = SetRec.empty then (j, q) :: rest else (i, r) :: (j, q) :: rest)
    else if i = j then (if r = SetRec.empty then rest else (i, r) :: rest)
    else (j, q) :: putSet rest i r

/-- Set i of the directory table. -/
def State.dirSet (s : State) (i : SetIdx) : SetRec := getSet s.dir.sets i

/-- Replace set i of the directory table. -/
def State.setDirSet (s : State) (i : SetIdx) (r : SetRec) : State :=
  { s with dir := { s.dir with sets := putSet s.dir.sets i r } }

/-- What way w of set i holds (R1). -/
def State.way (s : State) (i : SetIdx) (w : Way) : Option Entry := (s.dirSet i).ways[w]

/-- The way of a line's set that holds the line's entry, by its entry tag (R4). -/
def State.findWay (s : State) (l : LineNo) : Option Way :=
  allWays.find? fun w =>
    match s.way (setOf l) w with
    | some e => decide (e.tag = entryTag l)
    | none => false

/-- The stored entry of a line, with its way; none is absent (R4). -/
def State.stored (s : State) (l : LineNo) : Option (Way × EntryState) :=
  match s.findWay l with
  | some w =>
    match s.way (setOf l) w with
    | some e => some (w, e.state)
    | none => none
  | none => none

/-- An entry is Poisoned. -/
def EntryState.isPoisoned : EntryState → Bool
  | .poisoned _ _ => true
  | .shared _ => false
  | .exclusive _ => false

/-- An entry records a port as sharer or as holder. -/
def EntryState.records (p : Port) : EntryState → Bool
  | .shared S => PortSet.has S p
  | .exclusive h => decide (h = p)
  | .poisoned _ _ => false

/-! ### Parked requests made Ready -/

/-- Make Ready every parked request waiting with reason Set on set i (R88). -/
def readySet (i : SetIdx) (s : State) : State :=
  { s with parked := s.parked.map fun q =>
      if q.reason = .set ∧ setOf q.line = i then { q with ready := true } else q }

/-- Make Ready every parked request waiting on line l, and every one waiting with reason Set on its set: what
the release of a claim on l does (R88). -/
def readyLine (l : LineNo) (s : State) : State :=
  readySet (setOf l)
    { s with parked := s.parked.map fun q =>
        if q.reason = .line ∧ q.line = l then { q with ready := true } else q }

/-! ### Changes of one way -/

/-- Retire the entry of way w of set i: the way is emptied and leaves the recency order, the counts fall, and
the emptying is reported for the parked list (R10). A way that is empty stays as it is. -/
def retire (i : SetIdx) (w : Way) (s : State) : State :=
  match s.way i w with
  | none => s
  | some e =>
    let r := s.dirSet i
    readySet i
      { s with dir :=
          { sets := putSet s.dir.sets i { ways := r.ways.set w none, recency := r.recency.erase w }
            occupancy := s.dir.occupancy - 1
            poisoned := if e.state.isPoisoned then s.dir.poisoned - 1 else s.dir.poisoned } }

/-- Place a new entry in way w of set i, which goes to the front of the recency order; the occupancy count rises
by one, and a Poisoned entry is a rise of the poisoned count (R16). Any entry still in the way is first retired
(R15). -/
def place (i : SetIdx) (w : Way) (e : Entry) (s : State) : State :=
  let s0 := retire i w s
  let r := s0.dirSet i
  let s1 :=
    { s0 with dir :=
        { s0.dir with
          sets := putSet s0.dir.sets i { ways := r.ways.set w (some e), recency := w :: r.recency.erase w }
          occupancy := s0.dir.occupancy + 1 } }
  if e.state.isPoisoned then poisonRise s1 else s1

/-- Change the state of the entry in way w of set i, its tag, its way and its place in the recency order
unchanged (R18, Fig. 1-6). -/
def rewrite (i : SetIdx) (w : Way) (x : EntryState) (s : State) : State :=
  match s.way i w with
  | none => s
  | some e =>
    let r := s.dirSet i
    s.setDirSet i { r with ways := r.ways.set w (some { e with state := x }) }

/-- Move way w of set i to the front of the recency order (R9). -/
def touch (i : SetIdx) (w : Way) (s : State) : State :=
  match s.way i w with
  | none => s
  | some _ =>
    let r := s.dirSet i
    s.setDirSet i { r with recency := w :: r.recency.erase w }

/-- Record a grant on the entry in way w of set i: its state becomes x and the way goes to the front (R9,
R18). -/
def grant (i : SetIdx) (w : Way) (x : EntryState) (s : State) : State := touch i w (rewrite i w x s)

/-- Convert the Exclusive entry in way w of set i, whose holder is h, to Poisoned with cause HolderLost (R6). -/
def convert (i : SetIdx) (w : Way) (h : Port) (s : State) : State :=
  poisonRise (rewrite i w (.poisoned .holderLost h) s)

/-! ### The port-state filter -/

/-- The port is Isolated. -/
def State.isIsolated (s : State) (p : Port) : Bool :=
  match (s.port p).state with
  | .isolated _ => true
  | .unused => false
  | .offline => false
  | .online => false
  | .draining _ => false

/-- The Isolated ports. -/
def State.isolatedPorts (s : State) : PortSet := portsWhere s.isIsolated

/-- What the filter stores at a changing lookup that reaches way w of set i: Isolated sharers are removed, an
entry left without sharers is retired, an Exclusive entry with an Isolated holder is converted (R5, R6). -/
def scrubWay (i : SetIdx) (w : Way) (s : State) : State :=
  match s.way i w with
  | none => s
  | some e =>
    match e.state with
    | .poisoned _ _ => s
    | .exclusive h => if s.isIsolated h then convert i w h s else s
    | .shared S =>
      let S' := PortSet.diff S s.isolatedPorts
      if S' = S then s
      else if S' = 0 then retire i w s
      else rewrite i w (.shared S') s

/-- What the filter stores at an observing lookup that reaches way w of set i: only the conversion (R6). -/
def convertWay (i : SetIdx) (w : Way) (s : State) : State :=
  match s.way i w with
  | none => s
  | some e =>
    match e.state with
    | .exclusive h => if s.isIsolated h then convert i w h s else s
    | .shared _ => s
    | .poisoned _ _ => s

/-- A changing lookup of a line: what it stores. What it reports is then the stored entry (R4 to R6). -/
def changingLookup (l : LineNo) (s : State) : State :=
  match s.findWay l with
  | some w => scrubWay (setOf l) w s
  | none => s

/-- An observing lookup of a line: what it stores. What it reports is `observed` (R4 to R6). -/
def observingLookup (l : LineNo) (s : State) : State :=
  match s.findWay l with
  | some w => convertWay (setOf l) w s
  | none => s

/-- What an observing lookup reports of a line: the stored entry without Isolated sharers, absent if none is
left (R5). -/
def State.observed (s : State) (l : LineNo) : Option (Way × EntryState) :=
  match s.stored l with
  | some (w, .shared S) =>
    let S' := PortSet.diff S s.isolatedPorts
    if S' = 0 then none else some (w, .shared S')
  | r => r

/-- The changing lookups of every way of a set, as the way search makes them (R12). -/
def scrubSet (i : SetIdx) (s : State) : State := allWays.foldl (fun s w => scrubWay i w s) s

/-! ### Claims and held ways -/

/-- The active transactions with their slots, in slot order. -/
def State.activeTxns (s : State) : List (SlotId × Txn) :=
  allSlots.filterMap fun k => (s.txn k).map fun t => (k, t)

/-- A transaction claims a line, as its line or as its victim line (R81). -/
def Txn.claims (t : Txn) (l : LineNo) : Bool := decide (t.line = l) || decide (t.victim = some l)

/-- The active transaction that claims a line, with its slot (R81). -/
def State.claimant (s : State) (l : LineNo) : Option (SlotId × Txn) :=
  s.activeTxns.find? fun kt => kt.2.claims l

/-- The line is claimed by an active transaction (R81). -/
def State.claimed (s : State) (l : LineNo) : Bool := (s.claimant l).isSome

/-- The way is held by a transaction (R11). -/
def State.held (s : State) (i : SetIdx) (w : Way) : Bool :=
  s.activeTxns.any fun kt => decide (setOf kt.2.line = i) && decide (kt.2.heldWay = some w)

/-! ### The way search -/

/-- The classes of way of Fig. 1-4. -/
inductive WayClass
  | free | eligible | poisoned | busy
  deriving DecidableEq, Repr

/-- The class of way w of set i (Fig. 1-4). -/
def State.classify (s : State) (i : SetIdx) (w : Way) : WayClass :=
  if s.held i w then .busy
  else
    match s.way i w with
    | none => .free
    | some e =>
      if s.claimed (lineOf i e.tag) then .busy
      else if e.state.isPoisoned then .poisoned
      else .eligible

/-- The outcomes of the way search (Fig. 1-5). -/
inductive SearchOutcome
  | free (w : Way)
  | victim (w : Way)
  | noRoomForNow
  | noRoom
  deriving DecidableEq, Repr

/-- The outcome of the way search of set i, after its lookups: the lowest-numbered Free way, else the Eligible
way furthest back in the recency order, else no room (Fig. 1-5, R13). -/
def State.searchOutcome (s : State) (i : SetIdx) : SearchOutcome :=
  match allWays.find? fun w => decide (s.classify i w = .free) with
  | some w => .free w
  | none =>
    match (s.dirSet i).recency.reverse.find? fun w => decide (s.classify i w = .eligible) with
    | some w => .victim w
    | none =>
      if allWays.any fun w => decide (s.classify i w = .busy) then .noRoomForNow else .noRoom

end Sys2Proof.Machine
end

