-- ==== Sys2Proof/Machine/Ports.lean ====
section
/-! DEFINITION. The outbound queue, responses and tags, and the port controller's tests for the end of a drain
and of a cleanup (3.5, 3.6, 4.4, 4.5). -/

namespace Sys2Proof.Machine

open Sys2Proof

/-- Queue a message at the tail of a port's outbound queue (R47). -/
def queueMessage (p : Port) (m : OutMessage) (s : State) : State :=
  s.modifyLink p fun l => { l with outbound := l.outbound ++ [m] }

/-- Queue a response: its tag becomes Answering (R44, R47). A request whose tag has been freed gets no response, and
the tag stays Free (R44). DESIGN CHOICE (log 25): so it is too where R60, R61, R84, R86 or R116 would queue a response by
the port's state, while the LinkLost of the port stands reported. -/
def respond (p : Port) (tag : Tag) (r : Response) (s : State) : State :=
  if s.tagState p tag = .free then s
  else (queueMessage p (.response tag r) s).setTag p tag .answering

/-- Queue the pending response of a completing transaction, as the state of its origin port decides: itself if
Online, Refused (Draining) in its place if Draining, nothing otherwise (R84, R47), and nothing in any state if the
request's tag has been freed (R44, log 25). -/
def respondAtCompletion (p : Port) (tag : Tag) (r : Response) (s : State) : State :=
  match (s.port p).state with
  | .online => respond p tag r s
  | .draining _ => respond p tag (.refused .draining) s
  | .unused => s
  | .offline => s
  | .isolated _ => s

/-- The port is Online. -/
def State.isOnline (s : State) (p : Port) : Bool := decide ((s.port p).state = .online)

/-- The origin port of a transaction, if its origin is a port. -/
def Txn.originPort (t : Txn) : Option Port :=
  match t.origin with
  | .port p _ _ => some p
  | .sweep _ => none

/-- The request tag of a transaction, if its origin is a port. -/
def Txn.originTag (t : Txn) : Option Tag :=
  match t.origin with
  | .port _ tag _ => some tag
  | .sweep _ => none

/-- Some active transaction has the port as its origin. -/
def State.hasOrigin (s : State) (p : Port) : Bool :=
  s.activeTxns.any fun kt => decide (kt.2.originPort = some p)

/-- A transaction has an unanswered probe to the port. -/
def Txn.awaits (t : Txn) (p : Port) : Bool :=
  t.probes.any fun m => decide (m.port = p) && m.outcome.isNone

/-- Some active transaction has an unanswered probe to the port. -/
def State.hasUnanswered (s : State) (p : Port) : Bool :=
  s.activeTxns.any fun kt => kt.2.awaits p

/-- Some active transaction has a port origin (R91). -/
def State.portWorkActive (s : State) : Bool :=
  s.activeTxns.any fun kt => kt.2.originPort.isSome

/-- The port controller's test for the end of a drain: when the drain walk has completed and no active
transaction comes from the port or awaits it, the port goes Offline, Farewell is queued and PortLeft raised
(R62). -/
def drainTest (p : Port) (s : State) : State :=
  match (s.port p).state with
  | .draining true =>
    if s.hasOrigin p || s.hasUnanswered p then s
    else
      raise .portLeft (queueMessage p .farewell (s.setPort p { s.port p with state := .offline }))
  | .draining false => s
  | .unused => s
  | .offline => s
  | .online => s
  | .isolated _ => s

/-- The port's Cleanup job is still in the sweep job queue. -/
def State.hasCleanupJob (s : State) (p : Port) : Bool :=
  s.sweep.jobs.any fun j => decide (j = .cleanup p)

/-- The port controller's test for the end of a cleanup: when the Cleanup job of a Caching port has completed
and no active transaction comes from the port, cleanup done becomes Yes and CleanupDone is raised (R67). -/
def cleanupTest (p : Port) (s : State) : State :=
  match (s.port p).state with
  | .isolated false =>
    if s.hasCleanupJob p || s.hasOrigin p then s
    else raise .cleanupDone (s.setPort p { s.port p with state := .isolated true })
  | .isolated true => s
  | .unused => s
  | .offline => s
  | .online => s
  | .draining _ => s

/-- The report of the transaction engine that no port-origin work remains: in Quiescing the service state
becomes Quiesced and the Quiesce completes Done (R91, R177). -/
def quiesceCheck (s : State) : State :=
  if s.service = .quiescing ∧ s.portWorkActive = false ∧ s.parked = [] then
    completeLong .quiesce .done ServiceState.quiesced.code { s with service := .quiesced }
  else s

end Sys2Proof.Machine
end

