-- ==== Sys2Proof/Machine/Sweep.lean ====
section
/-! DEFINITION. The sweep engine: jobs, the walker, the work list, the reports of released claims, completion,
conversion and abort of jobs (9). The walker goes on from a set that leaves it nothing to wait for at the same event,
or rests there until an event of its own, as the free value says (R146, log 5). A set that holds no entry gives an empty
work list, so the walk goes over the sets that hold entries, and the one it rests at. -/

namespace Sys2Proof.Machine

open Sys2Proof

/-! ### What a job matches, looks up and recalls -/

/-- The line's page lies in a page range (R152). -/
def inPages (base limit : Page) (l : LineNo) : Bool :=
  decide (base ≤ pageOf l) && decide (pageOf l ≤ limit)

/-- The kind with which a region change recalls a line's entry, under the current table (R31). -/
def State.regionRecall (s : State) (idx : RegionIdx) (r : Region) (l : LineNo) (x : EntryState) :
    Option ProbeKind :=
  regionRecallKind (s.attrOf l) (attrUnder (prospective s.regions idx r) l) x

/-- An entry of a line matches the job (Fig. 9-2). -/
def State.jobMatches (s : State) (j : Job) (l : LineNo) (x : EntryState) : Bool :=
  match j with
  | .drain p => x.records p
  | .cleanup p => x.records p
  | .flush base limit => !x.isPoisoned && inPages base limit l
  | .regionChange idx r => (s.regionRecall idx r l x).isSome
  | .poisonClear => x.isPoisoned

/-- The stored entry of a line records a port as sharer or as holder (R154). -/
def State.recordsPort (s : State) (l : LineNo) (p : Port) : Bool :=
  match s.stored l with
  | some (_, x) => x.records p
  | none => false

/-- The lookup the walker makes of a line for the job: an observing one, as for any entry of which it only decides
whether it matches, so that every visit converts an Exclusive entry of an Isolated holder (1.3, R138, R146); a changing
one for a RegionChange where the line's treatment tightens (R31). An entry that records a Cleanup's own port is left to
the Cleanup's edit, which is itself the lookup, made when the line is unclaimed (R154). DEDUCED (log 28). -/
def walkerLookup (j : Job) (l : LineNo) (s : State) : State :=
  match j with
  | .drain _ => observingLookup l s
  | .flush _ _ => observingLookup l s
  | .poisonClear => observingLookup l s
  | .regionChange idx r =>
    if tightens (s.attrOf l) (attrUnder (prospective s.regions idx r) l) then changingLookup l s
    else observingLookup l s
  | .cleanup p => if s.recordsPort l p then s else observingLookup l s

/-- The entry the walker judges a line by: as an observing lookup reports it for Drain, Flush and PoisonClear,
as stored for a RegionChange (after its changing lookup) and for a Cleanup (R146). -/
def State.jobEntry (s : State) (j : Job) (l : LineNo) : Option EntryState :=
  match j with
  | .drain _ => (s.observed l).map (·.2)
  | .flush _ _ => (s.observed l).map (·.2)
  | .poisonClear => (s.observed l).map (·.2)
  | .regionChange _ _ => (s.stored l).map (·.2)
  | .cleanup _ => (s.stored l).map (·.2)

/-- The walker's judgement of a line, after its lookup: the entry matches the job. -/
def State.judges (s : State) (j : Job) (l : LineNo) : Bool :=
  match s.jobEntry j l with
  | some x => s.jobMatches j l x
  | none => false

/-- A job whose work on an entry is a direct edit (Fig. 9-2). -/
def Job.edits : Job → Bool
  | .cleanup _ => true
  | .poisonClear => true
  | .drain _ => false
  | .flush _ _ => false
  | .regionChange _ _ => false

/-- The direct edit of a matching entry: a Cleanup edits by a changing lookup (R154); a PoisonClear retires the
entry and counts it (R157). -/
def directEdit (j : Job) (l : LineNo) (s : State) : State :=
  match j with
  | .cleanup _ => changingLookup l s
  | .poisonClear =>
    match s.findWay l with
    | some w =>
      let s1 := retire (setOf l) w s
      { s1 with sweep := { s1.sweep with jobCount := s1.sweep.jobCount + 1 } }
    | none => s
  | .drain _ => s
  | .flush _ _ => s
  | .regionChange _ _ => s

/-- The recall targets of a job for an entry as the recall's start lookup finds it (Fig. 9-3). -/
def State.recallTargets (s : State) (j : Job) (l : LineNo) (x : EntryState) : Option RecallTargets :=
  match j, x with
  | .drain p, .shared S => if PortSet.has S p then some ⟨PortSet.single p, .invalidate, .sharer⟩ else none
  | .drain p, .exclusive h => if h = p then some ⟨PortSet.single p, .invalidate, .holder⟩ else none
  | .flush _ _, .shared S => some ⟨S, .invalidate, .sharer⟩
  | .flush _ _, .exclusive h => some ⟨PortSet.single h, .invalidate, .holder⟩
  | .regionChange idx r, .shared S => (s.regionRecall idx r l x).map fun k => ⟨S, k, .sharer⟩
  | .regionChange idx r, .exclusive h =>
    (s.regionRecall idx r l x).map fun k => ⟨PortSet.single h, k, .holder⟩
  | _, .poisoned _ _ => none
  | .cleanup _, _ => none
  | .poisonClear, _ => none

/-- Whose recall a recall of the job is (R149). -/
def Job.owner : Job → SweepOwner
  | .drain p => .port p
  | .cleanup p => .port p
  | .flush _ _ => .command
  | .regionChange _ _ => .command
  | .poisonClear => .command

/-- The job is a command's job. -/
def Job.isCommand : Job → Bool
  | .flush _ _ => true
  | .regionChange _ _ => true
  | .poisonClear => true
  | .drain _ => false
  | .cleanup _ => false

/-! ### The walk -/

/-- The lines that have entries in a set, in increasing order of way (R147). -/
def State.linesOf (s : State) (i : SetIdx) : List LineNo :=
  allWays.filterMap fun w => (s.way i w).map fun e => lineOf i e.tag

/-- The status with which a matching line joins the work list (R146, R147). -/
def State.joinStatus (s : State) (j : Job) (l : LineNo) : WorkStatus :=
  if s.claimed l then .waiting else if j.edits then .handled else .pending

/-- The walker's arrival at set i: its lookups, the work list, and the direct edits of unclaimed lines (R146,
R147). -/
def arriveAt (j : Job) (i : SetIdx) (s : State) : State :=
  let lines := s.linesOf i
  let s1 := lines.foldl (fun s l => walkerLookup j l s) s
  let work := (lines.filter fun l => s1.judges j l).map fun l => (l, s1.joinStatus j l)
  let s2 := { s1 with sweep := { s1.sweep with walker := .atSet i, workList := work } }
  work.foldl (fun s lw => if lw.2 = .handled then directEdit j lw.1 s else s) s2

/-- Every line of the work list is Handled. -/
def State.allHandled (s : State) : Bool := s.sweep.workList.all fun lw => decide (lw.2 = .handled)

/-- The walker's visits to a list of sets, until one leaves it a line to wait for, or is the one it rests at; with
none left it is past the end (R146). -/
def visitSets (j : Job) (stop : Option SetIdx) : List SetIdx → State → State
  | [], s => { s with sweep := { s.sweep with walker := .past, workList := [] } }
  | i :: rest, s =>
    let s1 := arriveAt j i s
    if s1.allHandled = true ∧ stop ≠ some i then visitSets j stop rest s1 else s1

/-- The sets that hold entries, in increasing order. -/
def State.listedSets (s : State) : List SetIdx := s.dir.sets.map (·.1)

/-- The sets the walker has to visit from a set number on: the listed ones, up to the one it rests at. -/
def State.setsFrom (s : State) (start : Nat) (stop : Option SetIdx) : List SetIdx :=
  let beyond := s.listedSets.filter fun i => decide (start ≤ i.val)
  match stop with
  | none => beyond
  | some m => (beyond.filter fun i => decide (i < m)) ++ [m]

/-- The set at or beyond a set number that a number names, if it names one. -/
def restSet (start n : Nat) : Option SetIdx :=
  if h : n < 2048 then if start ≤ n then some ⟨n, h⟩ else none else none

/-- The walker goes on from a set number. Events of other blocks may come between any two of its arrivals: the free
value says at which set, if any, it rests (R146, log 5). -/
def walkOn (j : Job) (start : Nat) (s : State) : State :=
  let stop := restSet start (Config.freeChoice s.freeCount)
  visitSets j stop (s.setsFrom start stop) { s with freeCount := s.freeCount + 1 }

/-- The job at the head of the queue becomes the running job: job count 0, the walker arrives at set 0; with no
job the walker is Idle (R145). -/
def startRunning (s : State) : State :=
  match s.sweep.jobs with
  | [] => { s with sweep := { s.sweep with walker := .idle, workList := [] } }
  | j :: _ => walkOn j 0 { s with sweep := { s.sweep with jobCount := 0 } }

/-- An active SweepRecall belongs to the job (R151, R155). -/
def State.recallActive (s : State) (j : Job) : Bool :=
  s.activeTxns.any fun kt => decide (kt.2.origin = .sweep j.owner)

/-- The job count as a result word (Fig. 12-9). -/
def State.jobCountWord (s : State) : Word := BitVec.ofNat 16 s.sweep.jobCount

/-- The report of a completed job (R151): the port controller for Drain and Cleanup, the command unit for the
others; a RegionChange installs its record (R35). -/
def reportJob (j : Job) (s : State) : State :=
  match j with
  | .drain p =>
    match (s.port p).state with
    | .draining _ => drainTest p (s.setPort p { s.port p with state := .draining true })
    | .unused => s
    | .offline => s
    | .online => s
    | .isolated _ => s
  | .cleanup p => cleanupTest p s
  | .flush _ _ => completeLong .flush .done s.jobCountWord s
  | .poisonClear => completeLong .clearAllPoison .done s.jobCountWord s
  | .regionChange idx r =>
    completeLong .writeRegion .done s.jobCountWord { s with regions := s.regions.set idx r }

/-- Complete the running job if the walker is past the end and none of its recalls is active; the next job then
runs, and may complete at the same event (R151). -/
def completeJobs : Nat → State → State
  | 0, s => s
  | n + 1, s =>
    match s.sweep.jobs with
    | [] => s
    | j :: rest =>
      if s.sweep.walker = .past ∧ s.recallActive j = false then
        completeJobs n (startRunning (reportJob j { s with sweep := { s.sweep with jobs := rest } }))
      else s

/-- Complete whatever jobs can be completed. -/
def advance (s : State) : State := completeJobs s.sweep.jobs.length s

/-- Queue a job at the tail; on an empty queue it runs at once (R145). -/
def enqueueJob (j : Job) (s : State) : State :=
  let s1 := { s with sweep := { s.sweep with jobs := s.sweep.jobs ++ [j] } }
  if s.sweep.jobs = [] then advance (startRunning s1) else s1

/-- Set the status of a line of the work list. -/
def setWork (l : LineNo) (st : WorkStatus) (s : State) : State :=
  { s with sweep := { s.sweep with
      workList := s.sweep.workList.map fun lw => if lw.1 = l then (l, st) else lw } }

/-- The walker leaves its set if every line of the work list is Handled (R146). -/
def leaveIfHandled (s : State) : State :=
  match s.sweep.jobs, s.sweep.walker with
  | j :: _, .atSet i => if s.allHandled then advance (walkOn j (i.val + 1) s) else s
  | _, _ => s

/-- The walker rests between two arrivals: it stands at a set that leaves it nothing to wait for (R146, log 5). -/
def State.walkerRests (s : State) : Bool :=
  match s.sweep.jobs, s.sweep.walker with
  | _ :: _, .atSet _ => s.allHandled
  | _, _ => false

/-- The report to the sweep engine that the claim on line l is released: a line Waiting on claim is judged again
(R148). -/
def sweepRelease (l : LineNo) (s : State) : State :=
  match s.sweep.jobs with
  | [] => s
  | j :: _ =>
    if s.sweep.workList.any fun lw => decide (lw = (l, .waiting)) then
      let s1 := walkerLookup j l s
      if s1.judges j l then
        if j.edits then leaveIfHandled (setWork l .handled (directEdit j l s1))
        else setWork l .pending s1
      else leaveIfHandled (setWork l .handled s1)
    else s

/-- The release of the claim on line l, reported to the parked list and to the sweep engine (R81, R88, R148). -/
def releaseClaim (l : LineNo) (s : State) : State := sweepRelease l (readyLine l s)

/-- At the isolation of a port its Drain job, if one is in the queue, becomes a Cleanup job in its place: a
running one forms its work list afresh at the walker's set (R155). -/
def convertDrain (p : Port) (s : State) : State :=
  let jobs := s.sweep.jobs.map fun j => if j = .drain p then .cleanup p else j
  let s1 := { s with sweep := { s.sweep with jobs := jobs } }
  match s.sweep.jobs with
  | [] => s1
  | j :: _ =>
    if j = .drain p then
      match s.sweep.walker with
      | .atSet i => advance (walkOn (.cleanup p) i.val s1)
      | .past => advance s1
      | .idle => s1
    else s1

/-- Arrange the cleanup job of an isolated caching port: its Drain job converted, or a Cleanup job queued at the
tail (R67). -/
def arrangeCleanup (p : Port) (s : State) : State :=
  if s.sweep.jobs.any fun j => decide (j = .drain p) then convertDrain p s
  else enqueueJob (.cleanup p) s

/-- The active recalls of an aborted command's job run on as recalls of no job (R158). -/
def orphanRecalls (s : State) : State :=
  allSlots.foldl (fun s k =>
    s.modifyTxn k fun t => if t.origin = .sweep .command then { t with origin := .sweep .aborted } else t) s

/-- The job count an aborted command reports: that of its job if it is running, 0 if it has not walked (R158). -/
def State.abortedCount (s : State) : Word :=
  match s.sweep.jobs with
  | [] => 0
  | j :: _ => if j.isCommand then s.jobCountWord else 0

/-- Take the aborted command's job out of the queue; if it was running, the next job runs (R158). -/
def removeCommandJob (s : State) : State :=
  let s1 := orphanRecalls { s with sweep := { s.sweep with jobs := s.sweep.jobs.filter fun j => !j.isCommand } }
  match s.sweep.jobs with
  | [] => s1
  | j :: _ => if j.isCommand then advance (startRunning s1) else s1

/-- Active transactions whose origin is the sweep engine (R79). -/
def State.sweepActive (s : State) : Nat :=
  (s.activeTxns.filter fun kt => kt.2.originPort.isNone).length

/-- The first Pending line of the work list (R149). -/
def State.firstPending (s : State) : Option LineNo :=
  (s.sweep.workList.find? fun lw => decide (lw.2 = .pending)).map (·.1)

/-- The sweep engine competes for a slot: the running job is a Drain, Flush or RegionChange with a Pending line,
and fewer than 4 transactions have sweep origin (R149, Fig. 5-2). -/
def State.sweepCompetes (s : State) : Bool :=
  match s.sweep.jobs with
  | [] => false
  | j :: _ => !j.edits && s.firstPending.isSome && decide (s.sweepActive < Config.sweepCap)

end Sys2Proof.Machine
end

