-- ==== Sys2Proof/Machine/Transactions.lean ====
section
/-! DEFINITION. The transaction engine: completion, parking, probe phases, leases, and the steps of caching,
streaming and sweep transactions (5, 6, 7, 8). -/

namespace Sys2Proof.Machine

open Sys2Proof

/-- A transaction as it stands once it has claimed its line and before it has entered a phase (R79). -/
def Txn.start (o : Origin) (k : TxnKind) (l : LineNo) : Txn where
  origin := o
  kind := k
  line := l
  victim := none
  heldWay := none
  phase := none
  probes := []
  reprobed := false
  deadline := none
  targets := none
  response := none
  probed := 0

/-! ### Completion and parking -/

/-- The port controller's drain and cleanup tests for the ports a completion reports (R83 step 5, R62, R67). -/
def portTests (S : PortSet) (s : State) : State :=
  (PortSet.members S).foldl (fun s q => cleanupTest q (drainTest q s)) s

/-- The ports a transaction's completion reports: its origin port and the ports it has probed (R83 step 5). -/
def Txn.reported (t : Txn) : PortSet :=
  match t.originPort with
  | some p => PortSet.insert t.probed p
  | none => t.probed

/-- Steps 2 to 5 of a completion (R83): the pending response is queued as the origin's state decides, claims and
held way are let go with the slot, parked requests and the sweep engine hear of it, and the completion is
reported. -/
def finish (k : SlotId) (s : State) : State :=
  match s.txn k with
  | none => s
  | some t =>
    let s1 :=
      match t.origin, t.response with
      | .port p tag _, some r => respondAtCompletion p tag r s
      | .port _ _ _, none => s
      | .sweep _, _ => s
    let s2 := releaseClaim t.line (s1.freeSlot k)
    let s3 := portTests t.reported (advance s2)
    if t.originPort.isSome then quiesceCheck s3 else s3

/-- A completion with its response determined (R79, R83); its entry change has been made. -/
def complete (k : SlotId) (r : Option Response) (s : State) : State :=
  finish k (s.modifyTxn k fun t => { t with response := r })

/-- The place of a request in the parked list: in the order of first taking (R86). -/
def insertParked (q : Parked) : List Parked → List Parked
  | [] => [q]
  | r :: rest => if q.order < r.order then q :: r :: rest else r :: insertParked q rest

/-- A request joins the parked list, or is answered Retry if the list is full (R86). -/
def joinParked (q : Parked) (s : State) : State :=
  quiesceCheck
    (if Config.parkedPlaces ≤ s.parked.length then respondAtCompletion q.port q.tag .retry s
     else { s with parked := insertParked q s.parked })

/-- An active transaction parks with reason Set: it lets go what it holds, frees its slot and its request joins
the parked list as Waiting (R86). -/
def parkOnSet (k : SlotId) (s : State) : State :=
  match s.txn k with
  | none => s
  | some t =>
    let s1 := portTests t.reported (releaseClaim t.line (s.freeSlot k))
    match t.origin, t.kind with
    | .port p tag order, .request kind =>
      joinParked { port := p, tag := tag, kind := kind, line := t.line, order := order,
                   reason := .set, ready := false } s1
    | .port _ _ _, .sweepRecall => s1
    | .sweep _, _ => s1

/-! ### Probes -/

/-- The start of a probe phase: the members of the probe set, the deadline in state First with the probe
interval as it stands, and one probe queued to each target (R128, R132). -/
def issueProbes (k : SlotId) (ph : Phase) (l : LineNo) (g : RecallTargets) (s : State) : State :=
  let s1 := s.modifyTxn k fun t =>
    { t with
      phase := some ph
      probes := (PortSet.members g.ports).map fun q => { port := q, kind := g.kind, role := g.role, outcome := none }
      reprobed := false
      deadline := some { start := s.now, interval := s.probeInterval }
      probed := PortSet.union t.probed g.ports }
  (PortSet.members g.ports).foldl
    (fun s q => queueMessage q (.probe k (s.slot k).gen l g.kind) s) s1

/-- The line a transaction's probes name: the victim line in VictimProbing, its own line otherwise (R128). -/
def Txn.probedLine (t : Txn) : LineNo :=
  match t.phase, t.victim with
  | some .victimProbing, some v => v
  | _, _ => t.line

/-- The holders of an entry, with their role: every sharer, or the holder (R13). -/
def EntryState.holders : EntryState → PortSet × Role
  | .shared S => (S, .sharer)
  | .exclusive h => (PortSet.single h, .holder)
  | .poisoned _ _ => (0, .holder)

/-- A probed port has given the line up: any answer to ProbeInvalidate, or Absent to ProbeDowngrade (Fig. 6-2). -/
def Probe.gaveUp (m : Probe) : Bool :=
  match m.outcome, m.kind with
  | some .clean, .invalidate => true
  | some .written, .invalidate => true
  | some .absent, _ => true
  | some .clean, .downgrade => false
  | some .written, .downgrade => false
  | some .lost, _ => false
  | none, _ => false

/-- A probed port keeps a read-only copy: Clean or Written to ProbeDowngrade (Fig. 6-2). -/
def Probe.keptCopy (m : Probe) : Bool :=
  match m.outcome, m.kind with
  | some .clean, .downgrade => true
  | some .written, .downgrade => true
  | some .clean, .invalidate => false
  | some .written, .invalidate => false
  | some .absent, _ => false
  | some .lost, _ => false
  | none, _ => false

/-- What the outcomes of a probe set leave of an entry: each is applied to a port still recorded; none is an
entry with no sharer and no holder left (R93, Fig. 6-2). -/
def applyOutcomes (probes : List Probe) : EntryState → Option EntryState
  | .shared S =>
    let S' := PortSet.diff S (portsWhere fun q => probes.any fun m => decide (m.port = q) && m.gaveUp)
    if S' = 0 then none else some (.shared S')
  | .exclusive h =>
    if probes.any fun m => decide (m.port = h) && m.gaveUp then none
    else if probes.any fun m => decide (m.port = h) && m.keptCopy then some (.shared (PortSet.single h))
    else some (.exclusive h)
  | .poisoned c p => some (.poisoned c p)

/-- Store what the outcomes leave of the entry in way w of set i; an entry with nothing left is retired (R10). -/
def storeResidue (i : SetIdx) (w : Way) (x : Option EntryState) (s : State) : State :=
  match x with
  | some y => rewrite i w y s
  | none => retire i w s

/-! ### Grants -/

/-- The entry and the response a grant of a caching kind to port p gives, on what is left of the entry: none left
gives the placement on an absent line. The fresh flag is 0 when p is recorded in what is left (R95, R97, R98,
R100, R102 to R104, R107). Another port still holding the line Exclusive, or a Poisoned entry, gives no grant. -/
def grantResult (kind : RequestKind) (p : Port) (x : Option EntryState) : Option (EntryState × Response) :=
  match kind, x with
  | .readShared, none => some (.shared (PortSet.single p), .grantShared)
  | .readShared, some (.shared S) => some (.shared (PortSet.insert S p), .grantShared)
  | .readExclusive, none => some (.exclusive p, .grantExclusive true)
  | .readExclusive, some (.shared S) => some (.exclusive p, .grantExclusive (!PortSet.has S p))
  | .upgrade, none => some (.exclusive p, .grantExclusive true)
  | .upgrade, some (.shared S) => some (.exclusive p, .grantExclusive (!PortSet.has S p))
  | .readShared, some (.exclusive h) => if h = p then some (.exclusive p, .grantExclusive false) else none
  | .readExclusive, some (.exclusive h) => if h = p then some (.exclusive p, .grantExclusive false) else none
  | .upgrade, some (.exclusive h) => if h = p then some (.exclusive p, .grantExclusive false) else none
  | .readShared, some (.poisoned _ _) => none
  | .readExclusive, some (.poisoned _ _) => none
  | .upgrade, some (.poisoned _ _) => none
  | .streamRead, _ => none
  | .streamWrite, _ => none

/-- Grant on the entry in way w of set i, and complete; where no grant can be given the request ends in Retry
(log 16: no reachable state comes there). -/
def grantOn (k : SlotId) (p : Port) (kind : RequestKind) (i : SetIdx) (w : Way) (x : EntryState)
    (s : State) : State :=
  match grantResult kind p (some x) with
  | some (y, r) => complete k (some r) (grant i w y s)
  | none => complete k (some .retry) s

/-- A completion without a grant for a requester that is not Online: its response is Refused (Draining), which
an Isolated port is not sent (R84, R111, R112, R127). -/
def completeWithout (k : SlotId) (s : State) : State := complete k (some (.refused .draining)) s

/-! ### Leases -/

/-- The step that would enter Leased: with the origin Online, StreamGo is queued and the lease deadline started;
otherwise the transaction completes (R115, R127). An Online origin whose tag a link loss has freed gets no StreamGo and
has the lease all the same, which ends at the port's isolation (R44, R126, log 25). -/
def enterLease (k : SlotId) (p : Port) (s : State) : State :=
  if s.isOnline p then
    match (s.txn k).bind Txn.originTag with
    | some tag =>
      respond p tag .streamGo
        (s.modifyTxn k fun t =>
          { t with
            phase := some .leased
            response := none
            deadline := some { start := s.now, interval := s.leaseInterval } })
    | none => s
  else completeWithout k s

/-! ### Allocation -/

/-- The use of an empty way by the transaction for which it was found or emptied: the placement and grant of a
caching request, the reservation and lease of a StreamWrite; with the requester not Online nothing is placed
(R15, R16, R95, R119, R120, R127). -/
def takeWay (k : SlotId) (p : Port) (kind : RequestKind) (l : LineNo) (w : Way) (s : State) : State :=
  if kind = .streamWrite then enterLease k p (s.modifyTxn k fun t => { t with heldWay := some w })
  else if s.isOnline p then
    match grantResult kind p none with
    | some (y, r) =>
      complete k (some r) (place (setOf l) w { tag := entryTag l, state := y }
        (s.modifyTxn k fun t => { t with heldWay := none }))
    | none => complete k (some .retry) s
  else completeWithout k s

/-- The choice of way w as victim: the way is held, its line claimed as victim line, and its holders probed with
ProbeInvalidate (R13, R96, R119). -/
def recallVictim (k : SlotId) (i : SetIdx) (w : Way) (s : State) : State :=
  match s.way i w with
  | none => s
  | some e =>
    let v := lineOf i e.tag
    issueProbes k .victimProbing v ⟨e.state.holders.1, .invalidate, e.state.holders.2⟩
      (s.modifyTxn k fun t => { t with victim := some v, heldWay := some w })

/-- The way search for an absent line and what follows from it (R12, R95, R119); parking of a requester that is
not Online is replaced by completion (R84). -/
def allocate (k : SlotId) (p : Port) (kind : RequestKind) (l : LineNo) (s : State) : State :=
  let s1 := scrubSet (setOf l) s
  match s1.searchOutcome (setOf l) with
  | .free w => takeWay k p kind l w s1
  | .victim w => recallVictim k (setOf l) w s1
  | .noRoomForNow => if s1.isOnline p then parkOnSet k s1 else completeWithout k s1
  | .noRoom => complete k (some (.denied .noRoom)) s1

/-! ### The start of a request's own handling (check 5 of R76) -/

/-- A caching request at its start (Fig. 6-5). -/
def startCaching (k : SlotId) (p : Port) (kind : RequestKind) (l : LineNo) (s : State) : State :=
  let i := setOf l
  let s1 := changingLookup l s
  match s1.stored l with
  | none => allocate k p kind l s1
  | some (_, .poisoned _ _) => complete k (some .poisoned) s1
  | some (w, .exclusive h) =>
    if h = p then grantOn k p kind i w (.exclusive h) s1
    else
      issueProbes k .probing l
        ⟨PortSet.single h, if kind = .readShared then .downgrade else .invalidate, .holder⟩ s1
  | some (w, .shared S) =>
    let others := PortSet.diff S (PortSet.single p)
    if kind = .readShared ∨ others = 0 then grantOn k p kind i w (.shared S) s1
    else issueProbes k .probing l ⟨others, .invalidate, .sharer⟩ s1

/-- A StreamRead at its start (Fig. 7-4, R117). -/
def startStreamRead (k : SlotId) (p : Port) (l : LineNo) (s : State) : State :=
  let s1 := changingLookup l s
  match s1.stored l with
  | none => enterLease k p s1
  | some (_, .shared _) => enterLease k p s1
  | some (_, .exclusive h) => issueProbes k .probing l ⟨PortSet.single h, .downgrade, .holder⟩ s1
  | some (_, .poisoned _ _) => complete k (some .poisoned) s1

/-- A StreamWrite at its start (Fig. 7-4, R119, R121). -/
def startStreamWrite (k : SlotId) (p : Port) (l : LineNo) (s : State) : State :=
  let s1 := changingLookup l s
  match s1.stored l with
  | none => allocate k p .streamWrite l s1
  | some (_, .poisoned _ _) => complete k (some .poisoned) s1
  | some (w, x) =>
    issueProbes k .probing l ⟨x.holders.1, .invalidate, x.holders.2⟩
      (s1.modifyTxn k fun t => { t with heldWay := some w })

/-- A request's own handling at its start, by its kind. -/
def startHandling (k : SlotId) (p : Port) (kind : RequestKind) (l : LineNo) (s : State) : State :=
  match kind with
  | .readShared => startCaching k p .readShared l s
  | .readExclusive => startCaching k p .readExclusive l s
  | .upgrade => startCaching k p .upgrade l s
  | .streamRead => startStreamRead k p l s
  | .streamWrite => startStreamWrite k p l s

/-! ### The end of a phase -/

/-- The end of a victim recall: the victim way is looked up again; a Poisoned victim sends the search round
again, anything else empties the way for the transaction (R15, R96, R120). -/
def endVictimRecall (k : SlotId) (p : Port) (kind : RequestKind) (l : LineNo) (v : LineNo) (w : Way)
    (s : State) : State :=
  let i := setOf l
  let s1 := scrubWay i w s
  if ((s1.way i w).map fun e => e.state.isPoisoned) = some true then
    allocate k p kind l
      (releaseClaim v (s1.modifyTxn k fun t => { t with victim := none, heldWay := none }))
  else
    takeWay k p kind l w
      (releaseClaim v ((retire i w s1).modifyTxn k fun t => { t with victim := none }))

/-- The end of the Probing phase of a caching request (R93, R94, R100, R102, R103, R111 to R113). -/
def endCaching (k : SlotId) (p : Port) (kind : RequestKind) (l : LineNo) (probes : List Probe)
    (s : State) : State :=
  let i := setOf l
  let s1 := changingLookup l s
  match s1.stored l with
  | none =>
    if s1.isOnline p then
      let s2 := scrubSet i s1
      match s2.searchOutcome i with
      | .free w => takeWay k p kind l w s2
      | .victim _ => complete k (some .retry) s2
      | .noRoomForNow => complete k (some .retry) s2
      | .noRoom => complete k (some .retry) s2
    else completeWithout k s1
  | some (_, .poisoned _ _) => complete k (some .poisoned) s1
  | some (w, x) =>
    let left := applyOutcomes probes x
    if s1.isOnline p then
      match grantResult kind p left with
      | some (y, r) => complete k (some r) (grant i w y s1)
      | none => complete k (some .retry) (storeResidue i w left s1)
    else completeWithout k (storeResidue i w left s1)

/-- The end of the Probing phase of a StreamRead (Fig. 7-2, R127). -/
def endStreamRead (k : SlotId) (p : Port) (l : LineNo) (probes : List Probe) (s : State) : State :=
  let s1 := changingLookup l s
  match s1.stored l with
  | none => enterLease k p s1
  | some (_, .poisoned _ _) => complete k (some .poisoned) s1
  | some (w, x) => enterLease k p (storeResidue (setOf l) w (applyOutcomes probes x) s1)

/-- The end of the Probing phase of a StreamWrite: its entry is retired and the way kept as its reservation, or
the way let go from a Poisoned entry (Fig. 7-3, R127). -/
def endStreamWrite (k : SlotId) (p : Port) (l : LineNo) (probes : List Probe) (s : State) : State :=
  let s1 := changingLookup l s
  match s1.stored l with
  | none => enterLease k p s1
  | some (_, .poisoned _ _) =>
    complete k (some .poisoned) (s1.modifyTxn k fun t => { t with heldWay := none })
  | some (w, x) => enterLease k p (storeResidue (setOf l) w (applyOutcomes probes x) s1)

/-- The end of the Probing phase of a SweepRecall (R150, R32, R33). -/
def endRecall (k : SlotId) (l : LineNo) (probes : List Probe) (s : State) : State :=
  let s1 := changingLookup l s
  match s1.stored l with
  | none => complete k none s1
  | some (_, .poisoned _ _) => complete k none s1
  | some (w, x) => complete k none (storeResidue (setOf l) w (applyOutcomes probes x) s1)

/-- The end of the Probing phase of a request, by its kind. -/
def endProbing (k : SlotId) (p : Port) (kind : RequestKind) (l : LineNo) (probes : List Probe)
    (s : State) : State :=
  match kind with
  | .readShared => endCaching k p .readShared l probes s
  | .readExclusive => endCaching k p .readExclusive l probes s
  | .upgrade => endCaching k p .upgrade l probes s
  | .streamRead => endStreamRead k p l probes s
  | .streamWrite => endStreamWrite k p l probes s

/-- The end of a probe phase, with the transaction's next step at the same event: the probe set and the reprobed
mark are emptied and the deadline cancelled (R80, R130). -/
def phaseEnd (k : SlotId) (s : State) : State :=
  match s.txn k with
  | none => s
  | some t =>
    let s1 := s.setTxn k { t with phase := none, probes := [], reprobed := false, deadline := none }
    match t.origin, t.kind, t.phase with
    | .port p _ _, .request kind, some .victimProbing =>
      match t.victim, t.heldWay with
      | some v, some w => endVictimRecall k p kind t.line v w s1
      | _, _ => s1
    | .port p _ _, .request kind, some .probing => endProbing k p kind t.line t.probes s1
    | .sweep _, .sweepRecall, some .probing => endRecall k t.line t.probes s1
    | _, _, _ => s

/-- Every member of a probe set is answered (R80). -/
def Txn.allAnswered (t : Txn) : Bool := t.probes.all fun m => m.outcome.isSome

/-- Withdraw the messages of a probe still waiting in a port's outbound queue (R47, R130). -/
def withdraw (p : Port) (k : SlotId) (gen : Bool) (s : State) : State :=
  s.modifyLink p fun l =>
    { l with outbound := l.outbound.filter fun m =>
        match m with
        | .probe k' g' _ _ => !(decide (k' = k) && decide (g' = gen))
        | .response _ _ => true
        | .welcome _ => true
        | .farewell => true
        | .rejected _ => true }

/-- An answer is taken: its outcome is recorded, the probe's waiting messages withdrawn, and the phase ends if
this was its last unanswered member (R130). -/
def takeAnswer (k : SlotId) (p : Port) (o : ProbeOutcome) (s : State) : State :=
  let s1 := s.modifyTxn k fun t =>
    { t with probes := t.probes.map fun m =>
        if m.port = p ∧ m.outcome = none then { m with outcome := some o } else m }
  let s2 := withdraw p k (s.slot k).gen s1
  match s2.txn k with
  | some t => if t.allAnswered then phaseEnd k s2 else s2
  | none => s2

end Sys2Proof.Machine
end

