-- ==== Sys2Proof/Machine/Isolation.lean ====
section
/-! DEFINITION. The port controller's transitions: isolation, the entry to Draining, protocol errors, stray
messages and the loss of a link (4, 8.4, 7.6, 3.3, 3.7). -/

namespace Sys2Proof.Machine

open Sys2Proof

/-! ### Isolation -/

/-- The slots whose last unanswered probe the loss of port p answers (R137). -/
def State.endedByLoss (s : State) (p : Port) : List SlotId :=
  allSlots.filter fun k =>
    match s.txn k with
    | some t => t.awaits p && t.probes.all fun m => m.outcome.isSome || decide (m.port = p)
    | none => false

/-- The slots whose lease the isolation of port p ends (R126). -/
def State.leasedBy (s : State) (p : Port) : List SlotId :=
  allSlots.filter fun k =>
    match s.txn k with
    | some t => decide (t.phase = some .leased) && decide (t.originPort = some p)
    | none => false

/-- Mark Lost every unanswered probe to port p (R137). -/
def markLost (p : Port) (s : State) : State :=
  allSlots.foldl (fun s k =>
    s.modifyTxn k fun t =>
      { t with probes := t.probes.map fun m =>
          if m.port = p ∧ m.outcome = none then { m with outcome := some .lost } else m }) s

/-- The end of a lease by the isolation of its port p: a StreamWrite places a Poisoned entry, LeaseLost, in its
reserved way; then the transaction completes (R126, R17). -/
def endLeaseByIsolation (p : Port) (k : SlotId) (s : State) : State :=
  match s.txn k with
  | none => s
  | some t =>
    match t.kind, t.heldWay with
    | .request .streamWrite, some w =>
      complete k none
        (place (setOf t.line) w { tag := entryTag t.line, state := .poisoned .leaseLost p }
          (s.modifyTxn k fun t => { t with heldWay := none, deadline := none }))
    | _, _ => complete k none s

/-- What the isolation of port p ends in slot k: its lease, or a probe phase whose last probe became Lost. -/
def endByIsolation (p : Port) (k : SlotId) (s : State) : State :=
  match s.txn k with
  | none => s
  | some t => if t.phase = some .leased then endLeaseByIsolation p k s else phaseEnd k s

/-- The port's queues and its resend buffer are discarded and its tags freed, its link left up or down (R65). -/
def discardPort (p : Port) (s : State) : State :=
  s.modifyLink p fun l =>
    { l with outbound := [], resend := none, queue := [], tags := Vector.replicate 4 .free }

/-- The parked requests of a port leave the list (R87), which the transaction engine reports if it leaves no
port-origin work (R91). -/
def removeParked (p : Port) (s : State) : State :=
  quiesceCheck { s with parked := s.parked.filter fun q => decide (q.port ≠ p) }

/-- The effects of the isolation of port p (R65 to R67): its queues and parked requests go; its Cleanup job is
arranged; its unanswered probes become Lost and its leases end, in a free order (R137); the cleanup is tested.
The job is arranged before the probes are marked Lost (log 6). -/
def isolationEffects (p : Port) (s : State) : State :=
  let s1 := removeParked p (discardPort p s)
  let s2 := if (s1.port p).profile = .caching then arrangeCleanup p s1 else s1
  let ended := s2.endedByLoss p ++ s2.leasedBy p
  cleanupTest p (inFreeOrder ended (endByIsolation p) (markLost p s2))

/-- The report of ProbeTimeout for port p is done with. -/
def dropReport (p : Port) (s : State) : State :=
  { s with reported := PortSet.diff s.reported (PortSet.single p) }

/-- The report of LinkLost for port p is done with. -/
def dropLoss (p : Port) (s : State) : State :=
  { s with lossReported := PortSet.diff s.lossReported (PortSet.single p) }

/-- An isolation cause with a reason reaches port p: an Offline, Online or Draining port is isolated and
PortIsolated raised; an Isolated or Unused port is left as it is (R63). A ProbeTimeout or a LinkLost reported for the
port and not yet taken finds it Isolated then and changes nothing, so the report is dropped (R63, logs 24, 25). -/
def isolate (p : Port) (reason : IsolationReason) (s : State) : State :=
  let go :=
    isolationEffects p
      (raise .portIsolated
        (dropLoss p (dropReport p (s.setPort p { s.port p with state := .isolated false, reason := reason }))))
  match (s.port p).state with
  | .offline => go
  | .online => go
  | .draining _ => go
  | .unused => s
  | .isolated _ => s

/-- The port controller takes the ProbeTimeout reported for port p: the port is isolated, whether or not it has
answered since, and the report is done with (R134); on a port Isolated or Unused by then nothing comes of it (R63). -/
def takeReport (p : Port) (s : State) : State := dropReport p (isolate p .probeTimeout s)

/-- The probe unit reports ProbeTimeout for port p (R134). An answer of the port may arrive after the report and
before the port controller takes the isolation; the free value says whether the isolation is taken at the report
or stands reported (log 24). -/
def reportTimeout (p : Port) (s : State) : State :=
  let s1 := { s with freeCount := s.freeCount + 1, reported := PortSet.insert s.reported p }
  if Config.freeChoice s.freeCount % 2 = 0 then isolate p .probeTimeout s1 else s1

/-- A protocol error on port p: ProtocolError is raised and the port isolated (R52). -/
def protocolError (p : Port) (s : State) : State := isolate p .protocolError (raise .protocolError s)

/-- A stray message: StrayMessage is raised and nothing else changes (R53). -/
def strayMessage (s : State) : State := raise .strayMessage s

/-- The port controller takes the LinkLost reported for port p: an Online or Draining port is isolated, any other
left as it is, and the report is done with (R69). -/
def takeLoss (p : Port) (s : State) : State :=
  dropLoss p
    (match (s.port p).state with
    | .online => isolate p .linkLost s
    | .draining _ => isolate p .linkLost s
    | .unused => s
    | .offline => s
    | .isolated _ => s)

/-- The link interface of port p reports LinkLost. A drain may complete before the port controller takes the report;
the free value says whether it is taken at the loss or stands (R69, log 25). -/
def reportLoss (p : Port) (s : State) : State :=
  let s1 := { s with freeCount := s.freeCount + 1, lossReported := PortSet.insert s.lossReported p }
  if Config.freeChoice s.freeCount % 2 = 0 then takeLoss p s1 else s1

/-- A LinkLost that stands reported for port p is taken (log 25). -/
def settleLoss (p : Port) (s : State) : State := if PortSet.has s.lossReported p then takeLoss p s else s

/-- The loss of port p's Up link: it goes Down, its buffer and queues are emptied and its tags freed, and LinkLost is
reported (R41), which concerns an Online or Draining port alone (R69). -/
def linkLost (p : Port) (s : State) : State :=
  let s1 := s.modifyLink p fun l =>
    { l with up := false, resend := none, outbound := [], queue := [], tags := Vector.replicate 4 .free }
  match (s1.port p).state with
  | .online => reportLoss p s1
  | .draining _ => reportLoss p s1
  | .unused => s1
  | .offline => s1
  | .isolated _ => s1

/-! ### Draining -/

/-- Answer Refused (Draining) to each of a list of tags, in order (R60); a tag that a link loss has freed gets no
response (R44, log 25). -/
def refuseAll (p : Port) (tags : List Tag) (s : State) : State :=
  tags.foldl (fun s t => respond p t (.refused .draining) s) s

/-- The entry of an Online port to Draining: its parked requests and then its queued ones are answered Refused
(Draining), a Caching port's Drain job is queued, and the drain is tested (R60, R62). DESIGN CHOICE (log 27): the
report of R91 that no parked request is left comes before the Drain job's walk, and so before the threshold test of a
conversion that walk makes; R178 allows either order. -/
def enterDraining (p : Port) (s : State) : State :=
  let tags := (s.parked.filter fun q => decide (q.port = p)).map (·.tag) ++ (s.link p).queue.map (·.tag)
  let caching := decide ((s.port p).profile = .caching)
  let s1 := s.setPort p { s.port p with state := .draining (!caching) }
  let s2 := refuseAll p tags (s1.modifyLink p fun l => { l with queue := [] })
  let s3 := removeParked p s2
  drainTest p (if caching then enqueueJob (.drain p) s3 else s3)

end Sys2Proof.Machine
end

