-- ==== Sys2Proof/Machine/Links.lean ====
section
/-! DEFINITION. The frame layer, the arrival checks and what each message does at its arrival (3, 4.3, 4.4, 4.8,
6.6). -/

namespace Sys2Proof.Machine

open Sys2Proof

/-! ### Frames -/

/-- The expected sequence bit of an inbound channel (Fig. 3-4). -/
def Link.expected (l : Link) : InChannel → Bool
  | .request => l.expectedRequest
  | .notice => l.expectedNotice
  | .answer => l.expectedAnswer

/-- Toggle the expected sequence bit of an inbound channel (R39). -/
def Link.toggleExpected (l : Link) : InChannel → Link
  | .request => { l with expectedRequest := !l.expectedRequest }
  | .notice => { l with expectedNotice := !l.expectedNotice }
  | .answer => { l with expectedAnswer := !l.expectedAnswer }

/-- A link on entering Up (Fig. 3-4, R38). -/
def Link.enterUp (l : Link) : Link :=
  { l with
    up := true
    expectedRequest := false
    expectedNotice := false
    expectedAnswer := false
    badFrames := 0
    resend := none
    nextSeq := false
    attempts := 0 }

/-- The arrival of a good frame of any kind: a Down link goes Up if the receive clock is present and discards
the frame otherwise; on an Up link the bad-frame count goes to 0, and the frame acts (R38, R39). A LinkLost that still
stands reported is taken before the link goes Up, which the link interface reports after it (R38, R41, log 25). -/
def goodFrame (p : Port) (act : State → State) (s : State) : State :=
  let l := s.link p
  if l.up then act (s.setLink p { l with badFrames := 0 })
  else if l.clockAbsentSince = none then
    let s1 := settleLoss p s
    act (s1.setLink p (s1.link p).enterUp)
  else s

/-- The arrival of a frame with a wrong check code: on a Down link nothing; on an Up link the count rises, and
Resend is transmitted unless the count has reached 3, which loses the link (R38, R39). -/
def badFrameArrives (p : Port) (s : State) : State :=
  let l := s.link p
  if l.up then
    let s1 := s.setLink p { l with badFrames := l.badFrames + 1 }
    if Config.maxFailures ≤ l.badFrames + 1 then linkLost p s1 else transmit p .resend s1
  else s

/-- A failed attempt on the buffered frame: it is transmitted again, or the link is lost at the third (R40). -/
def failedAttempt (p : Port) (s : State) : State :=
  let l := s.link p
  match l.resend with
  | none => s
  | some f =>
    if l.attempts < Config.maxFailures then
      transmit p (.message f.seq f.msg) (s.setLink p { l with attempts := l.attempts + 1, sentAt := s.now })
    else linkLost p s

/-- A good Acknowledge frame: for the outbound channel and with the buffered frame's bit it empties the buffer;
otherwise it is disregarded (R40, R184). -/
def acknowledged (p : Port) (ch : Channel) (seq : Bool) (s : State) : State :=
  let l := s.link p
  match ch, l.resend with
  | .outbound, some f =>
    if f.seq = seq then s.setLink p { l with resend := none, nextSeq := !l.nextSeq, attempts := 0 } else s
  | _, _ => s

/-- The tag's state once its response has left the outbound queue: Free, but Outstanding for StreamGo (R44,
R116). -/
def tagAfter : Response → TagState
  | .streamGo => .outstanding
  | .grantShared => .free
  | .grantExclusive _ => .free
  | .untracked => .free
  | .denied _ => .free
  | .poisoned => .free
  | .retry => .free
  | .refused _ => .free

/-- The change of tag state a message brings about when it leaves the outbound queue (R44). -/
def tagLeaves (p : Port) (m : OutMessage) (s : State) : State :=
  match m with
  | .response tag r => s.setTag p tag (tagAfter r)
  | .probe _ _ _ _ => s
  | .welcome _ => s
  | .farewell => s
  | .rejected _ => s

/-- The transmission of the head of the outbound queue: with the link Up and the resend buffer empty it leaves
the queue, is framed with the next outbound bit, and is buffered with the attempt count at 1 (R40). -/
def transmitHead (p : Port) (s : State) : State :=
  let l := s.link p
  match l.up, l.resend, l.outbound with
  | true, none, m :: rest =>
    tagLeaves p m
      (transmit p (.message l.nextSeq m)
        (s.setLink p
          { l with outbound := rest, resend := some { seq := l.nextSeq, msg := m }, attempts := 1, sentAt := s.now }))
  | _, _, _ => s

/-- A message frame whose sequence bit is the expected one: it is acknowledged, the expected bit toggles, and the
message is handed on (R39). -/
def messageFrame (p : Port) (ch : InChannel) (act : State → State) (s : State) : State :=
  goodFrame p (fun s =>
    let l := s.link p
    act (transmit p (.acknowledge ch (l.expected ch)) (s.setLink p (l.toggleExpected ch)))) s

/-- A message frame with the other sequence bit: it is acknowledged again and discarded (R39). -/
def secondCopy (p : Port) (ch : InChannel) (s : State) : State :=
  goodFrame p (fun s => transmit p (.acknowledge ch (!((s.link p).expected ch))) s) s

/-! ### Arrival checks -/

/-- The port's state lets arriving messages through to the checks: Offline, Online or Draining (R42). -/
def State.listens (s : State) (p : Port) : Bool :=
  match (s.port p).state with
  | .offline => true
  | .online => true
  | .draining _ => true
  | .unused => false
  | .isolated _ => false

/-- Act on a message if the port listens; otherwise discard it unchecked (R42). -/
def ifListening (p : Port) (act : State → State) (s : State) : State := if s.listens p then act s else s

/-! ### Requests -/

/-- A request arrives: with its tag in use it is a protocol error; otherwise its tag becomes Outstanding, and it
joins the request queue of an Online port or is answered at once on an Offline or Draining one (R45, R70). -/
def requestArrives (p : Port) (kind : RequestKind) (tag : Tag) (line : LineNo) (s : State) : State :=
  if s.tagState p tag = .free then
    let s1 := s.setTag p tag .outstanding
    match (s.port p).state with
    | .online =>
      s1.modifyLink p fun l => { l with queue := l.queue ++ [{ tag := tag, kind := kind, line := line }] }
    | .offline => respond p tag (.refused .notOnline) s1
    | .draining _ => respond p tag (.refused .draining) s1
    | .unused => s
    | .isolated _ => s
  else protocolError p s

/-! ### Notices -/

/-- The profile a Hello's field names (Fig. 12-5). -/
def profileOf (f : BitVec 2) : Option Profile :=
  if f = 1 then some .caching else if f = 2 then some .streaming else none

/-- A message is a control message (Fig. 3-3). -/
def OutMessage.isControl : OutMessage → Bool
  | .welcome _ => true
  | .farewell => true
  | .rejected _ => true
  | .response _ _ => false
  | .probe _ _ _ _ => false

/-- A control message waits in the port's outbound queue (R48). -/
def State.controlWaits (s : State) (p : Port) : Bool := (s.link p).outbound.any OutMessage.isControl

/-- The port controller's disposal of a Hello that has passed the gate (R56, R57). -/
def helloTaken (p : Port) (f : Profile) (s : State) : State :=
  match (s.port p).state with
  | .offline =>
    if (s.port p).profile = f then
      raise .portJoined (queueMessage p (.welcome f) (s.setPort p { s.port p with state := .online }))
    else queueMessage p (.rejected .profileMismatch) s
  | .unused => queueMessage p (.rejected .portUnused) s
  | .online => isolate p .repeatedHello s
  | .draining _ => isolate p .repeatedHello s
  | .isolated _ => s

/-- A Hello arrives: discarded on an Isolated port; an undefined profile is a protocol error, on an Unused port
too, which is not isolated by it; discarded while a control message waits (R42, R43, R48, R63). -/
def helloArrives (p : Port) (f : BitVec 2) (s : State) : State :=
  if s.isIsolated p then s
  else
    match profileOf f with
    | none => protocolError p s
    | some q => if s.controlWaits p then s else helloTaken p q s

/-- A Goodbye arrives: an Online port enters Draining; otherwise it is discarded (R58). -/
def goodbyeArrives (p : Port) (s : State) : State :=
  if s.isOnline p then enterDraining p s else s

/-- The directory table's act on a Release or ReleaseDirty: by a changing lookup, the port is taken out of the
line's entry; the last sharer or the holder taken out retires it (R108, Fig. 6-6). -/
def applyRelease (p : Port) (l : LineNo) (s : State) : State :=
  let s1 := changingLookup l s
  match s1.stored l with
  | none => s1
  | some (_, .poisoned _ _) => s1
  | some (w, .exclusive h) => if h = p then retire (setOf l) w s1 else s1
  | some (w, .shared S) =>
    if PortSet.has S p then
      let S' := PortSet.diff S (PortSet.single p)
      if S' = 0 then retire (setOf l) w s1 else rewrite (setOf l) w (.shared S') s1
    else s1

/-- A Release or ReleaseDirty arrives: a protocol error on a Streaming port, else applied at once (R51, R108). -/
def releaseArrives (p : Port) (l : LineNo) (s : State) : State :=
  if (s.port p).profile = .streaming then protocolError p s else applyRelease p l s

/-- The slot of the Leased transaction of a port under a tag whose StreamGo has been transmitted (R51). -/
def State.leaseOf (s : State) (p : Port) (tag : Tag) : Option SlotId :=
  if s.tagState p tag = .outstanding then
    allSlots.find? fun k =>
      match s.txn k with
      | some t =>
        decide (t.phase = some .leased) && decide (t.originPort = some p) && decide (t.originTag = some tag)
      | none => false
  else none

/-- A StreamDone arrives: a protocol error on a Caching port; stray without a matching lease; otherwise the lease
ends, the transaction completes with no response and the tag becomes Free (R51, R124). -/
def streamDoneArrives (p : Port) (tag : Tag) (s : State) : State :=
  if (s.port p).profile = .caching then protocolError p s
  else
    match s.leaseOf p tag with
    | none => strayMessage s
    | some k =>
      complete k none ((s.setTag p tag .free).modifyTxn k fun t => { t with deadline := none })

/-! ### Answers -/

/-- The outcome an Answer's field names (Fig. 12-5). -/
def outcomeOf (f : BitVec 2) : Option ProbeOutcome :=
  if f = 1 then some .clean else if f = 2 then some .written else if f = 3 then some .absent else none

/-- The disposals of an answer by the checks of R50. -/
inductive AnswerVerdict
  | stray | error | taken (k : SlotId)
  deriving DecidableEq, Repr

/-- The checks of R50, in their order: slot and generation, an unanswered probe to the port, the line, Written
from a sharer. -/
def State.judgeAnswer (s : State) (p : Port) (slot : Fin 32) (gen : Bool) (l : LineNo)
    (o : ProbeOutcome) : AnswerVerdict :=
  if h : slot.val < 24 then
    let k : SlotId := ⟨slot.val, h⟩
    match s.txn k with
    | none => .stray
    | some t =>
      if (s.slot k).gen ≠ gen then .stray
      else
        match t.probes.find? fun m => decide (m.port = p) && m.outcome.isNone with
        | none => .stray
        | some m =>
          if t.probedLine ≠ l then .error
          else if o = .written ∧ m.role = .sharer ∧ m.kind = .invalidate then .error
          else .taken k
  else .stray

/-- An answer arrives: an undefined outcome is a protocol error (R43); else the checks of R50 dispose of it. -/
def answerArrives (p : Port) (slot : Fin 32) (gen : Bool) (l : LineNo) (f : BitVec 2)
    (s : State) : State :=
  match outcomeOf f with
  | none => protocolError p s
  | some o =>
    match s.judgeAnswer p slot gen l o with
    | .stray => strayMessage s
    | .error => protocolError p s
    | .taken k => takeAnswer k p o s

end Sys2Proof.Machine
end

