-- ==== Sys2Proof/Machine/Arbiter.lean ====
section
/-! DEFINITION. The slot arbiter, the start of requests and of sweep recalls, and the expiry of deadlines (5.1 to
5.3, 5.7, 8.3, 7.6, 9.3). -/

namespace Sys2Proof.Machine

open Sys2Proof

/-! ### The arbiter -/

/-- The lowest-numbered free slot (R73). -/
def State.freeSlotId (s : State) : Option SlotId := allSlots.find? fun k => (s.txn k).isNone

/-- The oldest Ready parked request (R73). -/
def State.oldestReady (s : State) : Option Parked := s.parked.find? fun q => q.ready

/-- The port's request queue has an eligible head (R72). -/
def State.headEligible (s : State) (p : Port) : Bool :=
  !(s.link p).queue.isEmpty
    && (match (s.port p).state with
        | .online => true
        | .draining _ => true
        | .unused => false
        | .offline => false
        | .isolated _ => false)
    && decide (s.service = .running ∨ s.service = .halted)

/-- The nine positions of the round-robin (Fig. 5-2). -/
def allPositions : List (Fin 9) := [0, 1, 2, 3, 4, 5, 6, 7, 8]

/-- The positions from the pointer upward, wrapping from 8 to 0 (R74). -/
def positionsFrom (ptr : Fin 9) : List (Fin 9) :=
  (allPositions.filter fun n => decide (ptr ≤ n)) ++ (allPositions.filter fun n => decide (n < ptr))

/-- The pointer after a position has been served (R74). -/
def nextPosition (n : Fin 9) : Fin 9 := if h : n.val + 1 < 9 then ⟨n.val + 1, h⟩ else 0

/-- A competitor is present at a position of the round-robin (Fig. 5-2). -/
def State.presentAt (s : State) (n : Fin 9) : Bool :=
  if h : n.val < 8 then s.headEligible ⟨n.val, h⟩ else s.sweepCompetes

/-- The position the round-robin serves (R74). -/
def State.roundRobin (s : State) : Option (Fin 9) :=
  (positionsFrom s.rrPointer).find? fun n => s.presentAt n

/-- Whom the arbiter serves next, with the slot it hands out (R73). -/
inductive HandOut
  | parked (k : SlotId) (q : Parked)
  | head (k : SlotId) (p : Port)
  | sweep (k : SlotId)
  deriving DecidableEq, Repr

/-- The arbiter's next hand-out: the lowest free slot to the oldest Ready parked request, else by round-robin
(R73). -/
def State.handOut (s : State) : Option HandOut :=
  match s.freeSlotId with
  | none => none
  | some k =>
    match s.oldestReady with
    | some q => some (.parked k q)
    | none =>
      match s.roundRobin with
      | none => none
      | some n => if h : n.val < 8 then some (.head k ⟨n.val, h⟩) else some (.sweep k)

/-! ### The start of a request -/

/-- A request kind is one the profile permits (R71). -/
def kindPermitted (f : Profile) (k : RequestKind) : Bool :=
  match f, k with
  | .caching, .readShared => true
  | .caching, .readExclusive => true
  | .caching, .upgrade => true
  | .streaming, .streamRead => true
  | .streaming, .streamWrite => true
  | .caching, .streamRead => false
  | .caching, .streamWrite => false
  | .streaming, .readShared => false
  | .streaming, .readExclusive => false
  | .streaming, .upgrade => false
  | .unused, _ => false

/-- A transaction that completes at the moment it is taken: its response is queued and its slot freed (R26, R71,
R76, R83). -/
def answerAtOnce (k : SlotId) (p : Port) (tag : Tag) (r : Response) (s : State) : State :=
  quiesceCheck (portTests (PortSet.single p) ((respondAtCompletion p tag r s).freeSlot k))

/-- A request whose claim fails parks with reason Line: its slot is freed at once (R78, R86). -/
def parkOnLine (k : SlotId) (q : Parked) (s : State) : State :=
  joinParked { q with reason := .line, ready := false } (s.freeSlot k)

/-- The start of a request in slot k by the checks of R76 in their order; a restarted one skips the first. -/
def startRequest (k : SlotId) (q : Parked) (fromQueue : Bool) (s : State) : State :=
  if fromQueue = true ∧ s.service = .halted then answerAtOnce k q.port q.tag (.refused .halted) s
  else if kindPermitted (s.port q.port).profile q.kind = false then
    answerAtOnce k q.port q.tag (.refused .kindNotPermitted) s
  else
    match attrResponse (s.attrOf q.line) q.kind with
    | some r => answerAtOnce k q.port q.tag r s
    | none =>
      if s.claimed q.line then parkOnLine k q s
      else
        startHandling k q.port q.kind q.line
          (s.setTxn k (Txn.start (.port q.port q.tag q.order) (.request q.kind) q.line))

/-- The arbiter serves a queue head: the request leaves its queue, takes its place in the order of first takings,
and is started; the pointer moves past its port (R72, R74). -/
def takeHead (s : State) : State :=
  match s.handOut with
  | some (.head k p) =>
    match (s.link p).queue with
    | [] => s
    | r :: rest =>
      startRequest k
        { port := p, tag := r.tag, kind := r.kind, line := r.line, order := s.nextOrder, reason := .line, ready := false }
        true
        { s.modifyLink p (fun l => { l with queue := rest }) with
          nextOrder := s.nextOrder + 1
          rrPointer := nextPosition ⟨p.val, by omega⟩ }
  | some (.parked _ _) => s
  | some (.sweep _) => s
  | none => s

/-- The arbiter serves the oldest Ready parked request: it leaves the list and is started; the pointer stays
(R74, R89). -/
def restartOldest (s : State) : State :=
  match s.handOut with
  | some (.parked k q) => startRequest k q false { s with parked := s.parked.erase q }
  | some (.head _ _) => s
  | some (.sweep _) => s
  | none => s

/-! ### The start of a sweep recall -/

/-- A recall counts for its job if the job is a Flush or a RegionChange (R149). -/
def countRecall (j : Job) (s : State) : State :=
  if j.isCommand then { s with sweep := { s.sweep with jobCount := s.sweep.jobCount + 1 } } else s

/-- A SweepRecall of job j for line l in slot k: on a claimed line it is handed back as not started and the line
waits; otherwise it claims the line, looks the entry up and probes its targets, or completes without any; the
line is Handled and the walker may leave its set (R75, R149). -/
def startRecall (k : SlotId) (j : Job) (l : LineNo) (s : State) : State :=
  if s.claimed l then setWork l .waiting (s.freeSlot k)
  else
    let s1 := setWork l .handled (s.setTxn k (Txn.start (.sweep j.owner) .sweepRecall l))
    let s2 := changingLookup l s1
    let s3 :=
      match (s2.stored l).bind fun wx => s2.recallTargets j l wx.2 with
      | some g =>
        issueProbes k .probing l g (countRecall j (s2.modifyTxn k fun t => { t with targets := some g }))
      | none => complete k none s2
    leaveIfHandled s3

/-- The arbiter serves the sweep engine: the first Pending line of the work list (R75, R149). -/
def serveSweep (s : State) : State :=
  match s.handOut with
  | some (.sweep k) =>
    match s.sweep.jobs, s.firstPending with
    | j :: _, some l => startRecall k j l { s with rrPointer := nextPosition 8 }
    | _, _ => s
  | some (.parked _ _) => s
  | some (.head _ _) => s
  | none => s

/-! ### Deadlines -/

/-- The interval of a deadline has passed (R132). -/
def Deadline.due (d : Deadline) (now : Nat) : Bool := decide (d.start + d.interval ≤ now)

/-- The transaction has a running deadline that is due. -/
def Txn.expired (t : Txn) (now : Nat) : Bool :=
  match t.deadline with
  | some d => d.due now
  | none => false

/-- The transaction is in a phase with probes. -/
def Txn.inProbePhase (t : Txn) : Bool := decide (t.phase = some .victimProbing ∨ t.phase = some .probing)

/-- The ports of a probe set not yet answered, in increasing order. -/
def Txn.unanswered (t : Txn) : List Port := allPorts.filter fun p => t.awaits p

/-- The expiry of slot k's probe deadline in state First: a reprobe to each unanswered port, the mark set, the
deadline restarted (R133). -/
def reprobeSlot (k : SlotId) (s : State) : State :=
  match s.txn k with
  | none => s
  | some t =>
    if t.inProbePhase && !t.reprobed && t.expired s.now then
      let gen := (s.slot k).gen
      let s1 := s.setTxn k
        { t with reprobed := true, deadline := some { start := s.now, interval := s.probeInterval } }
      (t.probes.filter fun m => m.outcome.isNone).foldl
        (fun s m => queueMessage m.port (.probe k gen t.probedLine m.kind) s) s1
    else s

/-- The expiry of slot k's probe deadline in state Second: the deadline is over, and ProbeTimeout is reported for
every unanswered port, in a free order (R134). -/
def probeTimeoutSlot (k : SlotId) (s : State) : State :=
  match s.txn k with
  | none => s
  | some t =>
    if t.inProbePhase && t.reprobed && t.expired s.now then
      inFreeOrder t.unanswered reportTimeout (s.setTxn k { t with deadline := none })
    else s

/-- The expiry of slot k's lease deadline: the origin port is isolated with reason LeaseTimeout (R125). -/
def leaseTimeoutSlot (k : SlotId) (s : State) : State :=
  match s.txn k with
  | none => s
  | some t =>
    if decide (t.phase = some .leased) && t.expired s.now then
      match t.originPort with
      | some p => isolate p .leaseTimeout s
      | none => s
    else s

/-! ### The timers of a link -/

/-- The acknowledgement wait of port p has run out on the buffered frame of an Up link (R40). -/
def State.ackOverdue (s : State) (p : Port) : Bool :=
  (s.link p).up && (s.link p).resend.isSome && decide ((s.link p).sentAt + Config.ackWait ≤ s.now)

/-- The receive clock of port p's Up link has been absent for 100 µs (R41). -/
def State.clockOverdue (s : State) (p : Port) : Bool :=
  (s.link p).up
    && (match (s.link p).clockAbsentSince with
        | some t => decide (t + Config.clockAbsence ≤ s.now)
        | none => false)

/-- The receive clock is seen, or has stopped: the watch becomes Present, or stands absent since that moment; a
clock already absent stays absent since its moment (R38). -/
def clockChange (p : Port) (present : Bool) (s : State) : State :=
  s.modifyLink p fun l =>
    if present then { l with clockAbsentSince := none }
    else
      match l.clockAbsentSince with
      | none => { l with clockAbsentSince := some s.now }
      | some _ => l

end Sys2Proof.Machine
end

