-- ==== Sys2Proof/Machine/Operands.lean ====
section
/-! DEFINITION. The operands of the management commands: the fields of the latched operand words and the operand
checks (Fig. 10-4, Fig. 12-8, R166, R185). A check that fails gives none. -/

namespace Sys2Proof.Machine

open Sys2Proof

/-- A latched operand word as a number. -/
def State.operand (s : State) (n : Fin 6) : Nat := (s.unit.latched[n]).toNat

/-- A high and low word pair as one number (R185). -/
def State.operandPair (s : State) (hi lo : Fin 6) : Nat := s.operand hi * 65536 + s.operand lo

/-- A port operand: BadOperand above 7. -/
def portOperand (v : Nat) : Option Port := if h : v < 8 then some ⟨v, h⟩ else none

/-- A profile operand: 0 Unused, 1 Caching, 2 Streaming. -/
def profileOperand (v : Nat) : Option Profile :=
  if v = 0 then some .unused else if v = 1 then some .caching else if v = 2 then some .streaming else none

/-- A record index operand: BadOperand above 7. -/
def indexOperand (v : Nat) : Option RegionIdx := if h : v < 8 then some ⟨v, h⟩ else none

/-- The treatment field of WriteRegion: 0 Untracked, 1 Tracked, 2 StreamInvalidate; 3 is BadOperand. -/
def attrOperand (v : Nat) : Option Attribute :=
  if v = 0 then some .untracked else if v = 1 then some .tracked
  else if v = 2 then some .streamInvalidate else none

/-- A page operand: BadOperand above 1,048,575. -/
def pageOperand (v : Nat) : Option Page := if h : v < 1048576 then some ⟨v, h⟩ else none

/-- A line operand: BadOperand above 67,108,863. -/
def lineOperand (v : Nat) : Option LineNo := if h : v < 67108864 then some ⟨v, h⟩ else none

/-- The port operand of the port commands, in operand word 0. -/
def State.opPort (s : State) : Option Port := portOperand (s.operand 0)

/-- The port and profile operands of SetPortProfile. -/
def State.opProfile (s : State) : Option (Port × Profile) :=
  match s.opPort, profileOperand (s.operand 1) with
  | some p, some f => some (p, f)
  | _, _ => none

/-- The operands of WriteRegion: the index in word 0; enabled in bit 15 and the treatment in bits 1 to 0 of word
1; the pages in words 2 to 5. Bits 14 to 2 of word 1 are disregarded (R185). -/
def State.opRegion (s : State) : Option (RegionIdx × Region) :=
  match indexOperand (s.operand 0), attrOperand (s.operand 1 % 4), pageOperand (s.operandPair 2 3),
      pageOperand (s.operandPair 4 5) with
  | some i, some a, some base, some limit =>
    some (i, { enabled := decide (32768 ≤ s.operand 1), base := base, limit := limit, attr := a })
  | _, _, _, _ => none

/-- The page range of Flush, in words 0 to 3. -/
def State.opRange (s : State) : Option (Page × Page) :=
  match pageOperand (s.operandPair 0 1), pageOperand (s.operandPair 2 3) with
  | some base, some limit => some (base, limit)
  | _, _ => none

/-- The line operand of LookupLine, NextPoisoned and ClearPoison, in words 0 and 1. -/
def State.opLine (s : State) : Option LineNo := lineOperand (s.operandPair 0 1)

/-- The intervals of SetTiming: the probe interval 1 to 4,095, the lease interval 1 to 65,535; the pair is rejected
whole (R174). -/
def State.opTiming (s : State) : Option (Nat × Nat) :=
  if 1 ≤ s.operand 0 ∧ s.operand 0 ≤ 4095 ∧ 1 ≤ s.operand 1 then some (s.operand 0, s.operand 1) else none

/-- The threshold of SetPoisonThreshold, 1 to 255. -/
def State.opThreshold (s : State) : Option Nat :=
  if 1 ≤ s.operand 0 ∧ s.operand 0 ≤ 255 then some (s.operand 0) else none

end Sys2Proof.Machine
end

