-- ==== Sys2Proof/Machine/Commands.lean ====
section
/-! DEFINITION. The command unit and what each management command does (10.2, 10.3, 10.5). -/

namespace Sys2Proof.Machine

open Sys2Proof

/-! ### Codes of the result words (12.2) -/

/-- Port state codes (12.2). -/
def PortState.code : PortState → Nat
  | .unused => 0
  | .offline => 1
  | .online => 2
  | .draining _ => 3
  | .isolated _ => 4

/-- Isolation reason codes (12.2). -/
def IsolationReason.code : IsolationReason → Nat
  | .none => 0
  | .probeTimeout => 1
  | .leaseTimeout => 2
  | .linkLost => 3
  | .repeatedHello => 4
  | .protocolError => 5
  | .command => 6

/-- Treatment codes (Fig. 12-8). -/
def Attribute.code : Attribute → Nat
  | .untracked => 0
  | .tracked => 1
  | .streamInvalidate => 2

/-- Poison cause codes (Fig. 12-9). -/
def PoisonCause.code : PoisonCause → Nat
  | .holderLost => 0
  | .leaseLost => 1

/-- A number as a word. -/
def word (n : Nat) : Word := BitVec.ofNat 16 n

/-- The port state of a port as a result word. -/
def State.portStateWord (s : State) (p : Port) : Word := word (s.port p).state.code

/-- The isolation reason of a port as a result word. -/
def State.reasonWord (s : State) (p : Port) : Word := word (s.port p).reason.code

/-- The poisoned count as a result word. -/
def State.poisonedWord (s : State) : Word := word s.dir.poisoned

/-- The service state as a result word. -/
def State.serviceWord (s : State) : Word := s.service.code

/-! ### The start of a command -/

/-- A write of a code to the start word: refused RejectedBusy while the unit is Busy (R163); otherwise the operand
words and the code are latched, the result words cleared, and the command carried out (R162). -/
def startCommand (code : Word) (body : State → State) (s : State) : State :=
  if s.busy then { s with unit := { s.unit with status := .rejectedBusy } }
  else
    body
      { s with unit :=
          { s.unit with code := code, latched := s.window.operands, results := Vector.replicate 4 0 } }

/-- The completion of a command whose operand check has failed (R162, R166). -/
def badOperand (s : State) : State := completeCommand .badOperand 0 0 0 0 s

/-- The completion of a command in a state it is not allowed in (R164). -/
def wrongState (s : State) : State := completeCommand .wrongState 0 0 0 0 s

/-- The unit becomes Busy with a long command (R162). -/
def beginLong (c : LongCommand) (s : State) : State :=
  { s with unit := { s.unit with inProgress := some c } }

/-! ### Port commands (R167) -/

/-- The completion of SetPortProfile and EvictPort: the port state as left in result word 0. -/
def completePort (st : CommandStatus) (p : Port) (s : State) : State :=
  completeCommand st (s.portStateWord p) 0 0 0 s

/-- The completion of IsolatePort and ClearIsolation: the port state and the isolation reason. -/
def completePortReason (st : CommandStatus) (p : Port) (s : State) : State :=
  completeCommand st (s.portStateWord p) (s.reasonWord p) 0 0 s

/-- The state an Unused or Offline port takes with a profile (R55). -/
def stateFor : Profile → PortState
  | .unused => .unused
  | .caching => .offline
  | .streaming => .offline

/-- SetPortProfile (R55). -/
def setPortProfile (s : State) : State :=
  match s.opProfile with
  | none => badOperand s
  | some (p, f) =>
    let set := completePort .done p (s.setPort p { s.port p with profile := f, state := stateFor f })
    match (s.port p).state with
    | .unused => set
    | .offline => set
    | .online => completePort .wrongState p s
    | .draining _ => completePort .wrongState p s
    | .isolated _ => completePort .wrongState p s

/-- EvictPort (R59). -/
def evictPort (s : State) : State :=
  match s.opPort with
  | none => badOperand s
  | some p =>
    if s.isOnline p then completePort .done p (enterDraining p s) else completePort .wrongState p s

/-- IsolatePort (R64). -/
def isolatePort (s : State) : State :=
  match s.opPort with
  | none => badOperand s
  | some p =>
    if (s.port p).state = .unused then completePortReason .wrongState p s
    else completePortReason .done p (isolate p .command s)

/-- ClearIsolation (R68). -/
def clearIsolation (s : State) : State :=
  match s.opPort with
  | none => badOperand s
  | some p =>
    if (s.port p).state = .isolated true then
      completePortReason .done p (s.setPort p { s.port p with state := .offline })
    else completePortReason .wrongState p s

/-! ### Commands with a sweep job -/

/-- WriteRegion (R168). -/
def writeRegion (s : State) : State :=
  match s.opRegion with
  | none => badOperand s
  | some (i, r) =>
    if s.service = .quiesced then enqueueJob (.regionChange i r) (beginLong .writeRegion s)
    else wrongState s

/-- Flush (R169). -/
def flush (s : State) : State :=
  match s.opRange with
  | none => badOperand s
  | some (base, limit) => enqueueJob (.flush base limit) (beginLong .flush s)

/-- ClearAllPoison (R169). -/
def clearAllPoison (s : State) : State := enqueueJob .poisonClear (beginLong .clearAllPoison s)

/-! ### Service state commands -/

/-- Quiesce (R177): Done at once in Quiesced; otherwise Quiescing, and Quiesced as soon as no port-origin work
remains. -/
def quiesce (s : State) : State :=
  if s.service = .quiesced then completeCommand .done s.serviceWord 0 0 0 s
  else quiesceCheck (beginLong .quiesce { s with service := .quiescing })

/-- Resume (R179). -/
def resume (s : State) : State :=
  if s.threshold ≤ s.dir.poisoned then wrongState s
  else completeCommand .done ServiceState.running.code s.poisonedWord 0 0 { s with service := .running }

/-! ### Directory commands -/

/-- Result word 0 of LookupLine (Fig. 12-9). -/
def lookupWord0 : Option (Way × EntryState) → Word
  | none => 0
  | some (w, .shared _) => word (1 + w.val * 16)
  | some (w, .exclusive h) => word (2 + w.val * 16 + h.val * 256)
  | some (w, .poisoned c p) => word (3 + w.val * 16 + p.val * 256 + c.code * 4096)

/-- Result word 1 of LookupLine: the sharer set (Fig. 12-9). -/
def lookupWord1 : Option (Way × EntryState) → Word
  | some (_, .shared S) => S.setWidth 16
  | some (_, .exclusive _) => 0
  | some (_, .poisoned _ _) => 0
  | none => 0

/-- Phase codes (Fig. 12-9). -/
def phaseCode : Option Phase → Nat
  | none => 0
  | some .victimProbing => 1
  | some .probing => 2
  | some .leased => 3

/-- Result word 2 of LookupLine: the claim on the line (Fig. 12-9, R79). -/
def State.lookupWord2 (s : State) (l : LineNo) : Word :=
  match s.claimant l with
  | none => 0
  | some (k, t) =>
    word (32768 + (if t.line = l then 0 else 16384) + k.val * 256 + phaseCode t.phase)

/-- Result word 3 of LookupLine: the line's treatment and the record that gave it (Fig. 12-9). -/
def State.lookupWord3 (s : State) (l : LineNo) : Word :=
  match coveringRecord s.regions (pageOf l) with
  | none => word (Attribute.untracked.code)
  | some i => word ((s.region i).attr.code + 16 + i.val * 256)

/-- LookupLine (R170). -/
def lookupLine (s : State) : State :=
  match s.opLine with
  | none => badOperand s
  | some l =>
    let s1 := observingLookup l s
    completeCommand .done (lookupWord0 (s1.observed l)) (lookupWord1 (s1.observed l)) (s1.lookupWord2 l)
      (s1.lookupWord3 l) s1

/-- The lines that have entries in the directory, set by set. -/
def State.entryLines (s : State) : List LineNo := s.listedSets.flatMap s.linesOf

/-- The Poisoned entry of a line, as its cause and port. -/
def State.poisonOf (s : State) (l : LineNo) : Option (PoisonCause × Port) :=
  match s.stored l with
  | some (_, .poisoned c p) => some (c, p)
  | some (_, .shared _) => none
  | some (_, .exclusive _) => none
  | none => none

/-- The lowest line number of a list. -/
def lowestLine : List LineNo → Option LineNo
  | [] => none
  | l :: rest =>
    match lowestLine rest with
    | none => some l
    | some m => some (if l ≤ m then l else m)

/-- A poison cause and port in bits 12 and 10 to 8 (Fig. 12-9). -/
def poisonBits (c : PoisonCause) (p : Port) : Nat := p.val * 256 + c.code * 4096

/-- NextPoisoned (R171). -/
def nextPoisoned (s : State) : State :=
  match s.opLine with
  | none => badOperand s
  | some l =>
    let lines := s.entryLines.filter fun m => decide (l ≤ m)
    let s1 := lines.foldl (fun s m => observingLookup m s) s
    match lowestLine (lines.filter fun m => (s1.poisonOf m).isSome) with
    | none => completeCommand .done 0 0 0 s1.poisonedWord s1
    | some m =>
      match s1.poisonOf m with
      | none => completeCommand .done 0 0 0 s1.poisonedWord s1
      | some (c, p) =>
        completeCommand .done (word (32768 + poisonBits c p)) (word (m.val / 65536)) (word (m.val % 65536))
          s1.poisonedWord s1

/-- ClearPoison (R143, R172). -/
def clearPoison (s : State) : State :=
  match s.opLine with
  | none => badOperand s
  | some l =>
    let s1 := changingLookup l s
    match s1.stored l with
    | some (w, .poisoned c p) =>
      let s2 := retire (setOf l) w s1
      completeCommand .done (word (poisonBits c p)) s2.poisonedWord 0 0 s2
    | some (_, .shared _) => wrongState s1
    | some (_, .exclusive _) => wrongState s1
    | none => wrongState s1

/-- Some port is Online, Draining or Isolated (R173). -/
def State.anyPortJoined (s : State) : Bool :=
  allPorts.any fun p =>
    match (s.port p).state with
    | .online => true
    | .draining _ => true
    | .isolated _ => true
    | .unused => false
    | .offline => false

/-- Every entry is retired: every way and every recency order is emptied, both counts become 0, and the emptying
is reported for each set that held an entry (R22). -/
def clearEntries (s : State) : State :=
  s.listedSets.foldl (fun s i => readySet i s)
    { s with dir := { sets := [], occupancy := 0, poisoned := 0 } }

/-- ClearDirectory (R173). -/
def clearDirectory (s : State) : State :=
  if s.service = .quiesced ∧ s.anyPortJoined = false then
    completeCommand .done (word s.dir.occupancy) 0 0 0 (clearEntries s)
  else wrongState s

/-! ### Parameters -/

/-- SetTiming (R174). -/
def setTiming (s : State) : State :=
  match s.opTiming with
  | none => badOperand s
  | some (a, b) => completeCommand .done 0 0 0 0 { s with probeInterval := a, leaseInterval := b }

/-- SetPoisonThreshold (R175, R141). -/
def setPoisonThreshold (s : State) : State :=
  match s.opThreshold with
  | none => badOperand s
  | some v =>
    let s1 := thresholdTest { s with threshold := v }
    completeCommand .done s1.poisonedWord 0 0 0 s1

/-! ### Abort -/

/-- The abort of a command with a sweep job: it completes Aborted with the job count, and its job leaves the queue
(R158, R165). -/
def abortJob (s : State) : State := removeCommandJob (completeCommand .aborted s.abortedCount 0 0 0 s)

/-- The abort of a Quiesce: the service state becomes Running, or Halted with the count at or above the threshold
(R165). -/
def abortQuiesce (s : State) : State :=
  if s.threshold ≤ s.dir.poisoned then
    completeCommand .aborted ServiceState.halted.code 0 0 0 (raise .halted { s with service := .halted })
  else completeCommand .aborted ServiceState.running.code 0 0 0 { s with service := .running }

/-- A write to the abort word: ignored while the unit is Idle (R165). -/
def abortCommand (s : State) : State :=
  match s.unit.inProgress with
  | none => s
  | some .quiesce => abortQuiesce s
  | some .writeRegion => abortJob s
  | some .flush => abortJob s
  | some .clearAllPoison => abortJob s

end Sys2Proof.Machine
end

