-- ==== Sys2Proof/Machine/Window.lean ====
section
/-! DEFINITION. The management window: what each word reads, and the accesses of 16-bit and 8-bit mode (10.1,
12.2). -/

namespace Sys2Proof.Machine

open Sys2Proof

/-! ### Reads (Fig. 12-6, Fig. 12-7) -/

/-- Status codes of the command status word (Fig. 12-7). -/
def CommandStatus.code : CommandStatus → Nat
  | .done => 0
  | .wrongState => 1
  | .badOperand => 2
  | .aborted => 3
  | .rejectedBusy => 4

/-- The command status word: bit 15 Busy, bits 2 to 0 the status. -/
def State.statusWord (s : State) : Word :=
  word ((if s.busy then 32768 else 0) + s.unit.status.code)

/-- Engine word 0: active transactions, and those with sweep origin in bits 10 to 8. -/
def State.engineWord0 (s : State) : Word := word (s.activeTxns.length + s.sweepActive * 256)

/-- Engine word 1: parked requests. -/
def State.engineWord1 (s : State) : Word := word s.parked.length

/-- Sweep status word 0: the walker in bits 13 and 12, its set in bits 10 to 0. -/
def State.sweepWord0 (s : State) : Word :=
  match s.sweep.walker with
  | .idle => 0
  | .atSet i => word (4096 + i.val)
  | .past => word 8192

/-- The code of a job in sweep status word 1. -/
def Job.code : Job → Nat
  | .drain _ => 1
  | .cleanup _ => 2
  | .flush _ _ => 3
  | .regionChange _ _ => 4
  | .poisonClear => 5

/-- The port of a Drain or Cleanup job, 0 otherwise. -/
def Job.portCode : Job → Nat
  | .drain p => p.val
  | .cleanup p => p.val
  | .flush _ _ => 0
  | .regionChange _ _ => 0
  | .poisonClear => 0

/-- Sweep status word 1: the running job, its port, and the number of jobs queued. -/
def State.sweepWord1 (s : State) : Word :=
  match s.sweep.jobs with
  | [] => 0
  | j :: _ => word (j.code + j.portCode * 16 + s.sweep.jobs.length * 256)

/-- The byte of a port detail word for one port: state in bits 2 to 0, reason in bits 6 to 4. -/
def State.portDetail (s : State) (p : Port) : Nat := (s.port p).state.code + (s.port p).reason.code * 16

/-- The port detail word of two ports (R183). -/
def State.detailWord (s : State) (p q : Port) : Word := word (s.portDetail p + s.portDetail q * 256)

/-- The value of a word of the window as it stands (R160, Fig. 12-6): write-only and undefined words read 0, and
every word reads 0 while RESET is asserted. -/
def State.readWord (s : State) (w : WordNo) : Word :=
  if s.inReset then 0
  else
    match w.val with
    | 0x00 => s.window.operands[0]
    | 0x01 => s.window.operands[1]
    | 0x02 => s.window.operands[2]
    | 0x03 => s.window.operands[3]
    | 0x04 => s.window.operands[4]
    | 0x05 => s.window.operands[5]
    | 0x08 => s.statusWord
    | 0x09 => s.unit.results[0]
    | 0x0A => s.unit.results[1]
    | 0x0B => s.unit.results[2]
    | 0x0C => s.unit.results[3]
    | 0x0D => s.service.code
    | 0x0E => word s.dir.occupancy
    | 0x0F => word s.dir.poisoned
    | 0x10 => s.engineWord0
    | 0x11 => s.engineWord1
    | 0x12 => s.sweepWord0
    | 0x13 => s.sweepWord1
    | 0x14 => word s.probeInterval
    | 0x15 => word s.leaseInterval
    | 0x16 => word s.threshold
    | 0x17 => word s.causeNumber
    | 0x19 => s.notify.enables.setWidth 16
    | 0x1A => s.detailWord 0 1
    | 0x1B => s.detailWord 2 3
    | 0x1C => s.detailWord 4 5
    | 0x1D => s.detailWord 6 7
    | _ => 0

/-- The low byte of a word. -/
def lowByte (v : Word) : Byte := v.setWidth 8

/-- The high byte of a word. -/
def highByte (v : Word) : Byte := (v >>> 8).setWidth 8

/-! ### Writes -/

/-- The command a code of the start word names, with its operand checks (Fig. 12-8); any other code completes
BadOperand (R166). -/
def commandBody (code : Word) : State → State :=
  match code.toNat with
  | 1 => setPortProfile
  | 2 => evictPort
  | 3 => isolatePort
  | 4 => clearIsolation
  | 5 => writeRegion
  | 6 => quiesce
  | 7 => resume
  | 8 => flush
  | 9 => lookupLine
  | 10 => nextPoisoned
  | 11 => clearPoison
  | 12 => clearAllPoison
  | 13 => setTiming
  | 14 => setPoisonThreshold
  | 15 => clearDirectory
  | _ => badOperand

/-- A word of the window is written whole (R160): an operand word takes the value, the start, abort, acknowledge
and enable words act, and any other word ignores the write. -/
def writeWord (w : WordNo) (v : Word) (s : State) : State :=
  if h : w.val < 6 then { s with window := { s.window with operands := s.window.operands.set w.val v } }
  else if w = 0x06 then startCommand v (commandBody v) s
  else if w = 0x07 then abortCommand s
  else if w = 0x18 then acknowledgeFlag v s
  else if w = 0x19 then writeEnables v s
  else s

/-- The word a write puts in a word of the window: in 16-bit mode the value itself; in 8-bit mode, where the
access writes the high byte, the value's high byte with the write byte as its low byte (R161). -/
def State.writtenWord (s : State) (v : Word) : Word :=
  if s.window.wide then v else highByte v ++ s.window.writeByte

/-- In 8-bit mode a write to the low byte of any word loads the write byte and changes no word (R161). -/
def writeLowByte (b : Byte) (s : State) : State :=
  if s.window.wide then s else { s with window := { s.window with writeByte := b } }

/-- In 8-bit mode a read of the low byte of word w drives it, captures the word's high byte as it stands, and
records w as the captured word (R161). -/
def readLowByte (w : WordNo) (s : State) : State :=
  if s.window.wide then s
  else
    { s with window :=
        { s.window with
          readCapture := highByte (s.readWord w), captured := some w, dataOut := lowByte (s.readWord w) } }

/-- In 8-bit mode a read of the high byte of the captured word drives the captured byte and ends the capture; of
any other word it drives the byte as it stands (R161). -/
def readHighByte (w : WordNo) (s : State) : State :=
  if s.window.wide then s
  else if s.window.captured = some w then
    { s with window := { s.window with captured := none, dataOut := s.window.readCapture } }
  else { s with window := { s.window with dataOut := highByte (s.readWord w) } }

end Sys2Proof.Machine
end

