-- ==== Sys2Proof/Machine/Engine.lean ====
section
/-! DEFINITION. The meanings of the rows of the slot arbiter and of the deadlines. -/

namespace Sys2Proof.Machine

open Sys2Proof

/-- TAKE_QUEUE_HEAD (R72, R73, R76). -/
def execTakeQueueHead (s : State) : Host.Outcome State Fault Refusal := event s takeHead

/-- RESTART_PARKED (R73, R89). -/
def execRestartParked (s : State) : Host.Outcome State Fault Refusal := event s restartOldest

/-- START_SWEEP_RECALL (R73, R75, R149). -/
def execStartSweepRecall (s : State) : Host.Outcome State Fault Refusal := event s serveSweep

/-- REPROBE (R133). -/
def execReprobe (k : SlotId) (s : State) : Host.Outcome State Fault Refusal := event s (reprobeSlot k)

/-- PROBE_TIMEOUT (R134). -/
def execProbeTimeout (k : SlotId) (s : State) : Host.Outcome State Fault Refusal :=
  event s (probeTimeoutSlot k)

/-- LEASE_TIMEOUT (R125). -/
def execLeaseTimeout (k : SlotId) (s : State) : Host.Outcome State Fault Refusal :=
  event s (leaseTimeoutSlot k)

end Sys2Proof.Machine
end

