-- ==== Sys2Proof/Machine/Management.lean ====
section
/-! DEFINITION. The meanings of the management commands and of the other accesses to the window. A management
command is a write of its code to the start word (Fig. 12-8). -/

namespace Sys2Proof.Machine

open Sys2Proof

/-- SET_PORT_PROFILE (R55, R167). -/
def execSetPortProfile (s : State) : Host.Outcome State Fault Refusal := event s (startCommand 1 setPortProfile)

/-- EVICT_PORT (R59, R167). -/
def execEvictPort (s : State) : Host.Outcome State Fault Refusal := event s (startCommand 2 evictPort)

/-- ISOLATE_PORT (R64, R167). -/
def execIsolatePort (s : State) : Host.Outcome State Fault Refusal := event s (startCommand 3 isolatePort)

/-- CLEAR_ISOLATION (R68, R167). -/
def execClearIsolation (s : State) : Host.Outcome State Fault Refusal := event s (startCommand 4 clearIsolation)

/-- WRITE_REGION (R168). -/
def execWriteRegion (s : State) : Host.Outcome State Fault Refusal := event s (startCommand 5 writeRegion)

/-- QUIESCE (R177). -/
def execQuiesce (s : State) : Host.Outcome State Fault Refusal := event s (startCommand 6 quiesce)

/-- RESUME (R179). -/
def execResume (s : State) : Host.Outcome State Fault Refusal := event s (startCommand 7 resume)

/-- FLUSH (R169). -/
def execFlush (s : State) : Host.Outcome State Fault Refusal := event s (startCommand 8 flush)

/-- LOOKUP_LINE (R170). -/
def execLookupLine (s : State) : Host.Outcome State Fault Refusal := event s (startCommand 9 lookupLine)

/-- NEXT_POISONED (R171). -/
def execNextPoisoned (s : State) : Host.Outcome State Fault Refusal := event s (startCommand 10 nextPoisoned)

/-- CLEAR_POISON (R143, R172). -/
def execClearPoison (s : State) : Host.Outcome State Fault Refusal := event s (startCommand 11 clearPoison)

/-- CLEAR_ALL_POISON (R169). -/
def execClearAllPoison (s : State) : Host.Outcome State Fault Refusal :=
  event s (startCommand 12 clearAllPoison)

/-- SET_TIMING (R174). -/
def execSetTiming (s : State) : Host.Outcome State Fault Refusal := event s (startCommand 13 setTiming)

/-- SET_POISON_THRESHOLD (R175). -/
def execSetPoisonThreshold (s : State) : Host.Outcome State Fault Refusal :=
  event s (startCommand 14 setPoisonThreshold)

/-- CLEAR_DIRECTORY (R173). -/
def execClearDirectory (s : State) : Host.Outcome State Fault Refusal :=
  event s (startCommand 15 clearDirectory)

/-- UNKNOWN_COMMAND_CODE: a code that names no command completes BadOperand (R166). -/
def execUnknownCommandCode (code : Word) (s : State) : Host.Outcome State Fault Refusal :=
  event s (startCommand code (commandBody code))

/-- ABORT: the value written is disregarded (R165, R185). -/
def execAbort (_value : Word) (s : State) : Host.Outcome State Fault Refusal := event s abortCommand

/-- ACKNOWLEDGE_CAUSE (R182). -/
def execAcknowledgeCause (value : Word) (s : State) : Host.Outcome State Fault Refusal :=
  event s fun s => acknowledgeFlag (s.writtenWord value) s

/-- ENABLE_WORD_WRITE (R181). -/
def execEnableWordWrite (value : Word) (s : State) : Host.Outcome State Fault Refusal :=
  event s fun s => writeEnables (s.writtenWord value) s

/-- REGISTER_WRITE (R160, R161). -/
def execRegisterWrite (w : WordNo) (value : Word) (s : State) : Host.Outcome State Fault Refusal :=
  event s fun s => writeWord w (s.writtenWord value) s

/-- LOW_BYTE_WRITE (R161). -/
def execLowByteWrite (_w : WordNo) (b : Byte) (s : State) : Host.Outcome State Fault Refusal :=
  event s (writeLowByte b)

/-- LOW_BYTE_READ (R161). -/
def execLowByteRead (w : WordNo) (s : State) : Host.Outcome State Fault Refusal := event s (readLowByte w)

/-- HIGH_BYTE_READ (R161). -/
def execHighByteRead (w : WordNo) (s : State) : Host.Outcome State Fault Refusal := event s (readHighByte w)

end Sys2Proof.Machine
end

