-- ==== Sys2Proof/Machine/Messages.lean ====
section
/-! DEFINITION. The meanings of the rows for arriving requests, notices and answers. -/

namespace Sys2Proof.Machine

open Sys2Proof

/-- READ_SHARED (R45, R70). -/
def execReadShared (p : Port) (tag : Tag) (line : LineNo) (s : State) : Host.Outcome State Fault Refusal :=
  event s (messageFrame p .request (ifListening p (requestArrives p .readShared tag line)))

/-- READ_EXCLUSIVE (R45, R70). -/
def execReadExclusive (p : Port) (tag : Tag) (line : LineNo) (s : State) : Host.Outcome State Fault Refusal :=
  event s (messageFrame p .request (ifListening p (requestArrives p .readExclusive tag line)))

/-- UPGRADE (R45, R70). -/
def execUpgrade (p : Port) (tag : Tag) (line : LineNo) (s : State) : Host.Outcome State Fault Refusal :=
  event s (messageFrame p .request (ifListening p (requestArrives p .upgrade tag line)))

/-- STREAM_READ (R45, R70). -/
def execStreamRead (p : Port) (tag : Tag) (line : LineNo) (s : State) : Host.Outcome State Fault Refusal :=
  event s (messageFrame p .request (ifListening p (requestArrives p .streamRead tag line)))

/-- STREAM_WRITE (R45, R70). -/
def execStreamWrite (p : Port) (tag : Tag) (line : LineNo) (s : State) : Host.Outcome State Fault Refusal :=
  event s (messageFrame p .request (ifListening p (requestArrives p .streamWrite tag line)))

/-- HELLO (R42, R43, R48, R56, R57). -/
def execHello (p : Port) (profile : BitVec 2) (s : State) : Host.Outcome State Fault Refusal :=
  event s (messageFrame p .notice (helloArrives p profile))

/-- GOODBYE (R58). -/
def execGoodbye (p : Port) (s : State) : Host.Outcome State Fault Refusal :=
  event s (messageFrame p .notice (ifListening p (goodbyeArrives p)))

/-- RELEASE (R51, R108). -/
def execRelease (p : Port) (line : LineNo) (s : State) : Host.Outcome State Fault Refusal :=
  event s (messageFrame p .notice (ifListening p (releaseArrives p line)))

/-- RELEASE_DIRTY: applied like a Release (R51, R108). -/
def execReleaseDirty (p : Port) (line : LineNo) (s : State) : Host.Outcome State Fault Refusal :=
  event s (messageFrame p .notice (ifListening p (releaseArrives p line)))

/-- STREAM_DONE (R51, R124). -/
def execStreamDone (p : Port) (tag : Tag) (s : State) : Host.Outcome State Fault Refusal :=
  event s (messageFrame p .notice (ifListening p (streamDoneArrives p tag)))

/-- ANSWER (R43, R50, R130). -/
def execAnswer (p : Port) (slot : Fin 32) (gen : Bool) (line : LineNo) (outcome : BitVec 2) (s : State) :
    Host.Outcome State Fault Refusal :=
  event s (messageFrame p .answer (ifListening p (answerArrives p slot gen line outcome)))

/-- UNKNOWN_MESSAGE_KIND: a protocol error on an Offline, Online or Draining port; an ill-formed Hello is one on
an Unused port too; a frame on the Outbound channel is not acknowledged (R42, R43, R184). -/
def execUnknownMessageKind (p : Port) (what : UnknownMessage) (s : State) :
    Host.Outcome State Fault Refusal :=
  match what with
  | .undefinedKind ch _ => event s (messageFrame p ch (ifListening p (protocolError p)))
  | .helloProfile _ => event s (messageFrame p .notice fun s => if s.isIsolated p then s else protocolError p s)
  | .answerOutcome => event s (messageFrame p .answer (ifListening p (protocolError p)))
  | .outboundChannel _ => event s (goodFrame p (ifListening p (protocolError p)))

end Sys2Proof.Machine
end

