-- ==== Sys2Proof/Machine/ResetLink.lean ====
section
/-! DEFINITION. The meanings of the reset rows and of the rows of the frame layer. -/

namespace Sys2Proof.Machine

open Sys2Proof

/-- HARD_RESET: every block goes to its reset state and is held there (R160, 0.11); the queue of commands and the
count of free choices are the model's and stay (log 13). -/
def execHardReset (s : State) : Host.Outcome State Fault Refusal :=
  .next { State.reset with pending := s.pending, freeCount := s.freeCount, inReset := true }

/-- RESET_RELEASE: RESET is released and WIDE sampled; every word has its reset value (R160, R161). With RESET not
asserted there is nothing to release (log 3). -/
def execResetRelease (wide : Bool) (s : State) : Host.Outcome State Fault Refusal :=
  .next
    (if s.inReset then
      { State.reset with
        pending := s.pending, freeCount := s.freeCount, window := { State.reset.window with wide := wide } }
    else s)

/-- RECEIVE_CLOCK_CHANGE (R38). -/
def execReceiveClockChange (p : Port) (present : Bool) (s : State) : Host.Outcome State Fault Refusal :=
  event s (clockChange p present)

/-- CLOCK_ABSENCE_TIMEOUT: an Up link whose clock has been absent for 100 µs is lost (R41). -/
def execClockAbsenceTimeout (p : Port) (s : State) : Host.Outcome State Fault Refusal :=
  event s fun s => if s.clockOverdue p then linkLost p s else s

/-- BAD_FRAME (R39). -/
def execBadFrame (p : Port) (s : State) : Host.Outcome State Fault Refusal :=
  event s (badFrameArrives p)

/-- ACKNOWLEDGE (R40, R184). -/
def execAcknowledge (p : Port) (ch : Channel) (seq : Bool) (s : State) : Host.Outcome State Fault Refusal :=
  event s (goodFrame p (acknowledged p ch seq))

/-- RESEND (R39, R40). -/
def execResend (p : Port) (s : State) : Host.Outcome State Fault Refusal :=
  event s (goodFrame p (failedAttempt p))

/-- IDLE (R39). -/
def execIdle (p : Port) (s : State) : Host.Outcome State Fault Refusal :=
  event s (goodFrame p fun s => s)

/-- ACK_TIMEOUT: 20 µs after the latest transmission of a frame still buffered on an Up link (R40). -/
def execAckTimeout (p : Port) (s : State) : Host.Outcome State Fault Refusal :=
  event s fun s => if s.ackOverdue p then failedAttempt p s else s

/-- TRANSMIT_FRAME (R40, R44, R116). -/
def execTransmitFrame (p : Port) (s : State) : Host.Outcome State Fault Refusal :=
  event s (transmitHead p)

/-- SECOND_COPY_OF_FRAME (R39). -/
def execSecondCopyOfFrame (p : Port) (ch : InChannel) (s : State) : Host.Outcome State Fault Refusal :=
  event s (secondCopy p ch)

end Sys2Proof.Machine
end

