-- ==== Sys2Proof/Machine/Dispatch.lean ====
section
/-! DEFINITION. One arm per command: the effect of a command on everything but the queue. -/

namespace Sys2Proof.Machine

open Sys2Proof

def exec (i : Instr) (s : State) : Host.Outcome State Fault Refusal :=
  match i with
  | .hardReset => Sys2Proof.Machine.execHardReset s
  | .resetRelease wide => Sys2Proof.Machine.execResetRelease wide s
  | .receiveClockChange p present => Sys2Proof.Machine.execReceiveClockChange p present s
  | .clockAbsenceTimeout p => Sys2Proof.Machine.execClockAbsenceTimeout p s
  | .badFrame p => Sys2Proof.Machine.execBadFrame p s
  | .acknowledge p ch seq => Sys2Proof.Machine.execAcknowledge p ch seq s
  | .resend p => Sys2Proof.Machine.execResend p s
  | .idle p => Sys2Proof.Machine.execIdle p s
  | .ackTimeout p => Sys2Proof.Machine.execAckTimeout p s
  | .transmitFrame p => Sys2Proof.Machine.execTransmitFrame p s
  | .readShared p tag line => Sys2Proof.Machine.execReadShared p tag line s
  | .readExclusive p tag line => Sys2Proof.Machine.execReadExclusive p tag line s
  | .upgrade p tag line => Sys2Proof.Machine.execUpgrade p tag line s
  | .streamRead p tag line => Sys2Proof.Machine.execStreamRead p tag line s
  | .streamWrite p tag line => Sys2Proof.Machine.execStreamWrite p tag line s
  | .hello p profile => Sys2Proof.Machine.execHello p profile s
  | .goodbye p => Sys2Proof.Machine.execGoodbye p s
  | .release p line => Sys2Proof.Machine.execRelease p line s
  | .releaseDirty p line => Sys2Proof.Machine.execReleaseDirty p line s
  | .streamDone p tag => Sys2Proof.Machine.execStreamDone p tag s
  | .answer p slot gen line outcome => Sys2Proof.Machine.execAnswer p slot gen line outcome s
  | .unknownMessageKind p what => Sys2Proof.Machine.execUnknownMessageKind p what s
  | .takeQueueHead => Sys2Proof.Machine.execTakeQueueHead s
  | .restartParked => Sys2Proof.Machine.execRestartParked s
  | .startSweepRecall => Sys2Proof.Machine.execStartSweepRecall s
  | .reprobe k => Sys2Proof.Machine.execReprobe k s
  | .probeTimeout k => Sys2Proof.Machine.execProbeTimeout k s
  | .leaseTimeout k => Sys2Proof.Machine.execLeaseTimeout k s
  | .setPortProfile => Sys2Proof.Machine.execSetPortProfile s
  | .evictPort => Sys2Proof.Machine.execEvictPort s
  | .isolatePort => Sys2Proof.Machine.execIsolatePort s
  | .clearIsolation => Sys2Proof.Machine.execClearIsolation s
  | .writeRegion => Sys2Proof.Machine.execWriteRegion s
  | .quiesce => Sys2Proof.Machine.execQuiesce s
  | .resume => Sys2Proof.Machine.execResume s
  | .flush => Sys2Proof.Machine.execFlush s
  | .lookupLine => Sys2Proof.Machine.execLookupLine s
  | .nextPoisoned => Sys2Proof.Machine.execNextPoisoned s
  | .clearPoison => Sys2Proof.Machine.execClearPoison s
  | .clearAllPoison => Sys2Proof.Machine.execClearAllPoison s
  | .setTiming => Sys2Proof.Machine.execSetTiming s
  | .setPoisonThreshold => Sys2Proof.Machine.execSetPoisonThreshold s
  | .clearDirectory => Sys2Proof.Machine.execClearDirectory s
  | .unknownCommandCode code => Sys2Proof.Machine.execUnknownCommandCode code s
  | .abort value => Sys2Proof.Machine.execAbort value s
  | .acknowledgeCause value => Sys2Proof.Machine.execAcknowledgeCause value s
  | .enableWordWrite value => Sys2Proof.Machine.execEnableWordWrite value s
  | .registerWrite w value => Sys2Proof.Machine.execRegisterWrite w value s
  | .lowByteWrite w b => Sys2Proof.Machine.execLowByteWrite w b s
  | .lowByteRead w => Sys2Proof.Machine.execLowByteRead w s
  | .secondCopyOfFrame p ch => Sys2Proof.Machine.execSecondCopyOfFrame p ch s
  | .highByteRead w => Sys2Proof.Machine.execHighByteRead w s

end Sys2Proof.Machine
end

