-- ==== Sys2Proof/Machine/Idle.lean ====
section
/-! DEFINITION. What the block does of itself on an empty queue: its own due events, and the tick of the 1 µs
timebase (0.7, R40, R41, R73, R125, R132). -/

namespace Sys2Proof.Machine

open Sys2Proof

/-- The arbiter's own event, if it has a hand-out to make (R73). -/
def State.arbiterEvent (s : State) : List Instr :=
  match s.handOut with
  | some (.parked _ _) => [.restartParked]
  | some (.head _ _) => [.takeQueueHead]
  | some (.sweep _) => [.startSweepRecall]
  | none => []

/-- A port's link can transmit the head of its outbound queue (R40). -/
def State.canTransmit (s : State) (p : Port) : Bool :=
  (s.link p).up && (s.link p).resend.isNone && !(s.link p).outbound.isEmpty

/-- The events of a port's link that are due (R40, R41). -/
def State.linkEvents (s : State) (p : Port) : List Instr :=
  (if s.canTransmit p then [.transmitFrame p] else [])
    ++ (if s.ackOverdue p then [.ackTimeout p] else [])
    ++ (if s.clockOverdue p then [.clockAbsenceTimeout p] else [])

/-- The expiry of a slot's deadline, if it is due (R125, R133, R134). -/
def State.slotEvents (s : State) (k : SlotId) : List Instr :=
  match s.txn k with
  | none => []
  | some t =>
    if t.expired s.now = false then []
    else if t.phase = some .leased then [.leaseTimeout k]
    else if t.inProbePhase then (if t.reprobed then [.probeTimeout k] else [.reprobe k])
    else []

/-- The block's own events that are due. -/
def State.ownEvents (s : State) : List Instr :=
  s.arbiterEvent ++ allPorts.flatMap s.linkEvents ++ allSlots.flatMap s.slotEvents

/-- What the block can do of itself: the port controller takes a standing report of ProbeTimeout or of LinkLost, the
walker goes on, an event of a table row comes, or the timebase ticks. -/
inductive OwnWork
  | timeout (p : Port)
  | loss (p : Port)
  | event (c : Instr)
  | walk
  | tick
  deriving DecidableEq, Repr

/-- What is due at this moment of the timebase: the standing reports and the block's own events (R134, R69). -/
def State.dueNow (s : State) : List OwnWork :=
  (PortSet.members s.reported).map .timeout ++ (PortSet.members s.lossReported).map .loss ++ s.ownEvents.map .event

/-- What the block may do next of itself. A resting walker may go on, and does not hold back the timebase (R146,
log 5). -/
def State.ownWork (s : State) : List OwnWork :=
  s.dueNow ++ if s.walkerRests then .walk :: if s.dueNow = [] then [.tick] else [] else []

/-- One of a list of things, by the free value when there are several (log 4). -/
def chooseOne (c : Nat) (l : List α) : Option α :=
  match l with
  | [] => none
  | [a] => some a
  | _ => l[Config.freeChoice c % l.length]?

/-- The timebase ticks. -/
def tick (s : State) : State := { s with now := s.now + 1, tx := [] }

/-- The block does one thing of itself; an event of a table row is put in the queue (log 2). -/
def doOwn (w : OwnWork) (s : State) : State :=
  match w with
  | .timeout p => takeReport p { s with tx := [] }
  | .loss p => takeLoss p { s with tx := [] }
  | .event c => { s with tx := [], pending := [c] }
  | .walk => leaveIfHandled { s with tx := [] }
  | .tick => tick s

/-- The step on an empty queue: while RESET is asserted nothing; else one thing the block has to do of itself; and if
there is none, the timebase ticks (log 2). -/
def idleStep (s : State) : State :=
  if s.inReset then s
  else
    match chooseOne s.freeCount s.ownWork with
    | some w => doOwn w { s with freeCount := s.freeCount + 1 }
    | none => tick s

end Sys2Proof.Machine
end

