-- ==== Sys2Proof/Machine/Step.lean ====
section
/-! DEFINITION. One step of the block: the command at the front of the queue, or the block's own time. -/

namespace Sys2Proof.Machine

open Sys2Proof

/-- A step takes the command at the front of the queue and runs it on the state with the queue's rest; on an
empty queue the block's own events and its timebase act (log 2). -/
def step (s : State) : Host.Outcome State Fault Refusal :=
  match s.pending with
  | c :: rest => exec c { s with pending := rest }
  | [] => .next (idleStep s)

/-- The state with the command a word of the table's bits spells put at the front of the queue. The table gives
no bits, so no word spells one. A program comes to run from reset as the commands put in the queue (log 1). -/
def State.withFetchWord (s : State) (nbits w : Nat) : State :=
  match decodeTableWord nbits w with
  | some c => { s with pending := c :: s.pending }
  | none => s

end Sys2Proof.Machine
end

