-- ==== Sys2Proof/WellFormed.lean ====
section
/-! DEFINITION. Which commands are well formed: the ones whose row is the row the table gives the event.
`exec` is total all the same: an ill-formed command names an event that another row of the table names. -/

namespace Sys2Proof

/-- The kind codes Fig. 12-4 defines in an inbound channel's column. -/
def kindDefined : InChannel → BitVec 4 → Bool
  | .request, c => decide (1 ≤ c.toNat ∧ c.toNat ≤ 5)
  | .notice, c => decide (1 ≤ c.toNat ∧ c.toNat ≤ 5)
  | .answer, c => decide (c.toNat = 1)

/-- The profile fields Fig. 12-5 names in a Hello: 01 Caching, 10 Streaming. -/
def profileNamed (f : BitVec 2) : Bool := decide (f = 1 ∨ f = 2)

/-- The outcome fields Fig. 12-5 names in an Answer: 01 Clean, 10 Written, 11 Absent. -/
def outcomeNamed (f : BitVec 2) : Bool := decide (f ≠ 0)

/-- The fifteen command codes of Fig. 12-8. -/
def commandCodeNamed (c : Word) : Bool := decide (1 ≤ c.toNat ∧ c.toNat ≤ 15)

/-- An unknown message is one that Fig. 12-4 or Fig. 12-5 leaves undefined (R43, R184). -/
def UnknownMessage.wellFormed : UnknownMessage → Bool
  | .undefinedKind ch code => !kindDefined ch code
  | .helloProfile f => !profileNamed f
  | .answerOutcome => true
  | .outboundChannel _ => true

/-- The words with a row of their own: start, abort, acknowledge and enable (Fig. 12-6). -/
def hasOwnRow (w : WordNo) : Bool := decide (w = 0x06 ∨ w = 0x07 ∨ w = 0x18 ∨ w = 0x19)

/-- A command is well formed when the table's row for the event is the command's own row. -/
def Instr.wellFormed : Instr → Bool
  | .hello _ f => profileNamed f
  | .answer _ _ _ _ f => outcomeNamed f
  | .unknownMessageKind _ m => m.wellFormed
  | .unknownCommandCode c => !commandCodeNamed c
  | .registerWrite w _ => !hasOwnRow w
  | .hardReset | .resetRelease _ | .receiveClockChange _ _ | .clockAbsenceTimeout _ | .badFrame _
  | .acknowledge _ _ _ | .resend _ | .idle _ | .ackTimeout _ | .transmitFrame _
  | .readShared _ _ _ | .readExclusive _ _ _ | .upgrade _ _ _ | .streamRead _ _ _ | .streamWrite _ _ _
  | .goodbye _ | .release _ _ | .releaseDirty _ _ | .streamDone _ _
  | .takeQueueHead | .restartParked | .startSweepRecall | .reprobe _ | .probeTimeout _ | .leaseTimeout _
  | .setPortProfile | .evictPort | .isolatePort | .clearIsolation | .writeRegion | .quiesce | .resume
  | .flush | .lookupLine | .nextPoisoned | .clearPoison | .clearAllPoison | .setTiming
  | .setPoisonThreshold | .clearDirectory | .abort _ | .acknowledgeCause _ | .enableWordWrite _
  | .lowByteWrite _ _ | .lowByteRead _ | .secondCopyOfFrame _ _ | .highByteRead _ => true

end Sys2Proof
end

