-- ==== Sys2Proof/Machine/Formats.lean ====
section
/-! DEFINITION. The bit layouts of frames on the agent link: how an inbound frame is read as a row of the table,
and the frame the part sends for each thing it transmits (12.1, R184). `exec` takes rows; these functions say
which row a frame is, and what bits `tx` stands for. -/

namespace Sys2Proof.Machine

open Sys2Proof

/-- A frame as bits: header, body and check code. A link-control frame has no body; it is 0 here. -/
structure RawFrame where
  header : BitVec 16
  body : BitVec 32
  check : BitVec 16
  deriving DecidableEq, Repr

/-! ### The check code -/

/-- One step of the division by x^16 + x^12 + x^5 + 1. -/
def crcStep (r : BitVec 16) (b : Bool) : BitVec 16 :=
  if r.msb != b then (r <<< 1) ^^^ 0x1021#16 else r <<< 1

/-- The bits of a field, most significant first. -/
def bitsOf (x : BitVec n) : List Bool := (List.range n).map fun i => x.getMsbD i

/-- The check code of a sequence of bits: register preset to FFFFH, remainder inverted (12.1). -/
def checkCode (bits : List Bool) : BitVec 16 := ~~~ (bits.foldl crcStep 0xFFFF#16)

/-- The frame class, header bits 15 and 14 (Fig. 12-1). -/
def RawFrame.cls (f : RawFrame) : BitVec 2 := f.header.extractLsb' 14 2

/-- The bits a frame's check code covers: header and body, or the header alone of a link-control frame. -/
def RawFrame.covered (f : RawFrame) : List Bool :=
  if f.cls = 0 then bitsOf f.header ++ bitsOf f.body else bitsOf f.header

/-- The frame's check code is right. -/
def RawFrame.good (f : RawFrame) : Bool := decide (f.check = checkCode f.covered)

/-! ### Inbound frames -/

/-- The channel field, header bits 13 and 12 (Fig. 12-2). -/
def RawFrame.channel (f : RawFrame) : Channel :=
  match (f.header.extractLsb' 12 2).toNat with
  | 0 => .request
  | 1 => .notice
  | 2 => .answer
  | _ => .outbound

/-- The sequence bit, header bit 11 (Fig. 12-2). -/
def RawFrame.seq (f : RawFrame) : Bool := f.header.getLsbD 11

/-- The kind code, header bits 10 to 7 (Fig. 12-2). -/
def RawFrame.kind (f : RawFrame) : BitVec 4 := f.header.extractLsb' 7 4

/-- Parameter bits 1 and 0: tag, profile or outcome (Fig. 12-5). -/
def RawFrame.low (f : RawFrame) : BitVec 2 := f.header.extractLsb' 0 2

/-- The request tag of a frame. -/
def RawFrame.tag (f : RawFrame) : Tag := f.low.toFin

/-- The line number, body bits 25 to 0 (Fig. 12-3). -/
def RawFrame.line (f : RawFrame) : LineNo := (f.body.extractLsb' 0 26).toFin

/-- The probe slot, body bits 31 to 27 (Fig. 12-3). -/
def RawFrame.probeSlot (f : RawFrame) : Fin 32 := (f.body.extractLsb' 27 5).toFin

/-- The probe generation, body bit 26 (Fig. 12-3). -/
def RawFrame.probeGen (f : RawFrame) : Bool := f.body.getLsbD 26

/-- The row of a message frame of the Request channel whose sequence bit is the expected one (Fig. 12-4). -/
def requestRow (p : Port) (f : RawFrame) : Instr :=
  match f.kind.toNat with
  | 1 => .readShared p f.tag f.line
  | 2 => .readExclusive p f.tag f.line
  | 3 => .upgrade p f.tag f.line
  | 4 => .streamRead p f.tag f.line
  | 5 => .streamWrite p f.tag f.line
  | _ => .unknownMessageKind p (.undefinedKind .request f.kind)

/-- The row of a message frame of the Notice channel. -/
def noticeRow (p : Port) (f : RawFrame) : Instr :=
  match f.kind.toNat with
  | 1 => if profileNamed f.low then .hello p f.low else .unknownMessageKind p (.helloProfile f.low)
  | 2 => .goodbye p
  | 3 => .release p f.line
  | 4 => .releaseDirty p f.line
  | 5 => .streamDone p f.tag
  | _ => .unknownMessageKind p (.undefinedKind .notice f.kind)

/-- The row of a message frame of the Answer channel. -/
def answerRow (p : Port) (f : RawFrame) : Instr :=
  match f.kind.toNat with
  | 1 =>
    if outcomeNamed f.low then .answer p f.probeSlot f.probeGen f.line f.low
    else .unknownMessageKind p .answerOutcome
  | _ => .unknownMessageKind p (.undefinedKind .answer f.kind)

/-- The sequence bit a link expects on a channel at a frame's arrival: 0 if the frame brings the link Up (R38). -/
def Link.expectedAt (l : Link) (ch : InChannel) : Bool := l.up && l.expected ch

/-- The row of the table that the arrival of a frame at port p is (R39, R184). DESIGN CHOICE (log 26): a link-control
frame is taken by its class, and an Acknowledge by its channel and sequence bit too; its other bits, which Fig. 12-2
gives as 0, are disregarded. -/
def State.inboundRow (s : State) (p : Port) (f : RawFrame) : Instr :=
  let inSequence (ch : InChannel) (row : Instr) : Instr :=
    if f.seq = (s.link p).expectedAt ch then row else .secondCopyOfFrame p ch
  if f.good = false then .badFrame p
  else
    match f.cls.toNat with
    | 0 =>
      match f.channel with
      | .request => inSequence .request (requestRow p f)
      | .notice => inSequence .notice (noticeRow p f)
      | .answer => inSequence .answer (answerRow p f)
      | .outbound => .unknownMessageKind p (.outboundChannel f.kind)
    | 1 => .acknowledge p f.channel f.seq
    | 2 => .resend p
    | _ => .idle p

/-! ### Outbound frames -/

/-- The 16 bits of a header (Fig. 12-2). -/
def headerBits (cls ch : BitVec 2) (seq : Bool) (kind : BitVec 4) (param : BitVec 7) : BitVec 16 :=
  cls ++ ch ++ BitVec.ofBool seq ++ kind ++ param

/-- The parameter field: bits 6 to 4, bits 3 to 2, bits 1 to 0 (Fig. 12-5). -/
def paramBits (hi : BitVec 3) (mid lo : BitVec 2) : BitVec 7 := hi ++ mid ++ lo

/-- The channel field of an inbound channel (Fig. 12-2). -/
def inChannelField : InChannel → BitVec 2
  | .request => 0
  | .notice => 1
  | .answer => 2

/-- The profile field (Fig. 12-5). -/
def Profile.field : Profile → BitVec 2
  | .unused => 0
  | .caching => 1
  | .streaming => 2

/-- The reason field of Denied (Fig. 12-5). -/
def DeniedReason.field : DeniedReason → BitVec 3
  | .kindInRegion => 1
  | .noRoom => 2

/-- The reason field of Refused (Fig. 12-5). -/
def RefusedReason.field : RefusedReason → BitVec 3
  | .notOnline => 1
  | .draining => 2
  | .kindNotPermitted => 3
  | .halted => 4

/-- The reason field of Rejected (Fig. 12-5). -/
def RejectedReason.field : RejectedReason → BitVec 3
  | .portUnused => 1
  | .profileMismatch => 2

/-- The kind code and the parameter bits 6 to 2 of a response (Fig. 12-4, Fig. 12-5). -/
def Response.fields : Response → BitVec 4 × BitVec 3 × BitVec 2
  | .grantShared => (1, 0, 0)
  | .grantExclusive fresh => (2, 0, if fresh then 1 else 0)
  | .streamGo => (3, 0, 0)
  | .untracked => (4, 0, 0)
  | .denied r => (5, r.field, 0)
  | .poisoned => (6, 0, 0)
  | .retry => (7, 0, 0)
  | .refused r => (8, r.field, 0)

/-- The kind code of a probe (Fig. 12-4). -/
def ProbeKind.field : ProbeKind → BitVec 4
  | .invalidate => 9
  | .downgrade => 10

/-- The kind code, the parameter field and the body of a message (Fig. 12-4, Fig. 12-5). -/
def OutMessage.fields : OutMessage → BitVec 4 × BitVec 7 × BitVec 32
  | .response tag r =>
    (r.fields.1, paramBits r.fields.2.1 r.fields.2.2 (BitVec.ofFin tag), 0)
  | .probe k gen l kind =>
    (kind.field, 0, BitVec.ofNat 5 k.val ++ BitVec.ofBool gen ++ BitVec.ofNat 26 l.val)
  | .welcome f => (11, paramBits 4 0 f.field, 0)
  | .farewell => (12, 0, 0)
  | .rejected r => (13, paramBits r.field 0 0, 0)

/-- A frame with its check code. -/
def sealFrame (header : BitVec 16) (body : BitVec 32) : RawFrame :=
  let f : RawFrame := { header := header, body := body, check := 0 }
  { f with check := checkCode f.covered }

/-- The bits of a transmitted frame (12.1). -/
def WireFrame.bits : WireFrame → RawFrame
  | .message seq m => sealFrame (headerBits 0 3 seq m.fields.1 m.fields.2.1) m.fields.2.2
  | .acknowledge ch seq => sealFrame (headerBits 1 (inChannelField ch) seq 0 0) 0
  | .resend => sealFrame (headerBits 2 0 false 0 0) 0

end Sys2Proof.Machine
end

