-- ==== Sys2Proof/Safety.lean ====
section
/-! DEFINITION. What it means for a state to be in order: the laws of the spec that every step keeps, one
predicate for each kind of state. They bound what a claim about every state need consider. -/

namespace Sys2Proof.Machine

open Sys2Proof

/-! ### The directory table (R1, R2, R8, R20, R21) -/

/-- Way w of the set holds an entry. -/
def SetRec.occupied (r : SetRec) (w : Way) : Bool := (r.ways[w]).isSome

/-- Way w of the set holds a Poisoned entry. -/
def SetRec.poisonedAt (r : SetRec) (w : Way) : Bool :=
  match r.ways[w] with
  | some e => e.state.isPoisoned
  | none => false

/-- The number of ways of the set that hold entries. -/
def SetRec.entryCount (r : SetRec) : Nat := allWays.countP r.occupied

/-- The number of ways of the set that hold Poisoned entries. -/
def SetRec.poisonCount (r : SetRec) : Nat := allWays.countP r.poisonedAt

/-- The entry has one of the three shapes of R2: a Shared entry has a sharer. -/
def EntryState.shaped : EntryState → Bool
  | .shared S => decide (S ≠ 0)
  | .exclusive _ => true
  | .poisoned _ _ => true

/-- A set in order: its recency order lists exactly its occupied ways, each once (R8), and its entries are
shaped (R2). -/
structure SetRec.Wf (r : SetRec) : Prop where
  recency_nodup : r.recency.Nodup
  recency_iff : ∀ w : Way, w ∈ r.recency ↔ r.occupied w = true
  shaped : ∀ (w : Way) (e : Entry), r.ways[w] = some e → e.state.shaped = true

/-- The directory table in order: the sets listed are in canonical form (log 10), each is in order, and the two
counts are the numbers of entries and of Poisoned entries (R20, R21). -/
structure Directory.Wf (d : Directory) : Prop where
  rising : (d.sets.map Prod.fst).Pairwise (· < ·)
  listed : ∀ x ∈ d.sets, x.2 ≠ SetRec.empty
  sets_wf : ∀ x ∈ d.sets, x.2.Wf
  occupancy_eq : d.occupancy = (d.sets.map fun x => x.2.entryCount).sum
  poisoned_eq : d.poisoned = (d.sets.map fun x => x.2.poisonCount).sum

/-! ### Ports (R54, R62, R63) -/

/-- A port record in order: the state is Unused exactly with profile Unused (R54); an Isolated port has a reason
(R63); the drain job of a draining Streaming port is done (R62). -/
structure PortRec.Wf (r : PortRec) : Prop where
  unused_iff : r.profile = .unused ↔ r.state = .unused
  isolated_reason : ∀ b, r.state = .isolated b → r.reason ≠ .none
  streaming_drain : ∀ b, r.state = .draining b → r.profile = .streaming → b = true

/-! ### Links (R39, R40) -/

/-- A link in order: an Up link has fewer than 3 bad frames in a row (R39); a frame is buffered only on an Up
link, with an attempt count of 1 to 3 (R40). -/
structure Link.Wf (l : Link) : Prop where
  bad_frames : l.up = true → l.badFrames < 3
  buffered_up : l.resend.isSome = true → l.up = true
  buffered_attempts : l.resend.isSome = true → 1 ≤ l.attempts ∧ l.attempts ≤ 3

/-! ### Transactions (R79, R81) -/

/-- No line is claimed by two active transactions (R81). -/
def State.ClaimsDisjoint (s : State) : Prop :=
  ∀ (k j : SlotId) (t u : Txn) (l : LineNo), s.txn k = some t → s.txn j = some u →
    t.claims l = true → u.claims l = true → k = j

/-- At most four active transactions have the sweep engine as origin (R73, R79). -/
def State.SweepCapKept (s : State) : Prop := s.sweepActive ≤ 4

/-! ### The parked list (R85) -/

/-- At most 16 requests are parked, in the order of their first taking. -/
structure ParkedWf (q : List Parked) : Prop where
  bound : q.length ≤ 16
  sorted : q.Pairwise fun a b => a.order ≤ b.order

/-! ### The management unit (R125, R132, R139, R140, R176, R177) -/

/-- The parameters lie in their ranges. -/
structure State.ParametersInRange (s : State) : Prop where
  probe : 1 ≤ s.probeInterval ∧ s.probeInterval ≤ 4095
  lease : 1 ≤ s.leaseInterval ∧ s.leaseInterval ≤ 65535
  threshold : 1 ≤ s.threshold ∧ s.threshold ≤ 255

/-- The service state is Quiescing exactly while a Quiesce is in progress. -/
def QuiesceTracked (v : ServiceState) (u : CommandUnit) : Prop :=
  v = .quiescing ↔ u.inProgress = some .quiesce

/-- A Running part has fewer Poisoned entries than the threshold. -/
def State.RunningBelowThreshold (s : State) : Prop :=
  s.service = .running → s.dir.poisoned < s.threshold

/-! ### Reset (R160) -/

/-- While RESET is asserted every block stands in its reset state; the queue and the count of free choices are
the model's own. -/
def State.HeldInReset (s : State) : Prop :=
  s.inReset = true →
    s = { State.reset with pending := s.pending, freeCount := s.freeCount, inReset := true }

/-! ### All of it -/

/-- A state in order. -/
structure State.Safe (s : State) : Prop where
  dir : s.dir.Wf
  ports : ∀ p : Port, (s.port p).Wf
  links : ∀ p : Port, (s.link p).Wf
  claims : s.ClaimsDisjoint
  sweepCap : s.SweepCapKept
  parked : ParkedWf s.parked
  parameters : s.ParametersInRange
  quiesce : QuiesceTracked s.service s.unit
  running : s.RunningBelowThreshold
  reset : s.HeldInReset

end Sys2Proof.Machine
end

