-- ==== Sys2Proof/Certificates/Slice0/Obligations.lean ====
section
/-! DEFINITION. The statements for the provers. The first part names the states the statements speak of; the
second part states them. -/

namespace Sys2Proof

/-! ### Kinds of command -/

/-- The command of a request kind. -/
def requestCommand (kind : RequestKind) (p : Port) (tag : Tag) (line : LineNo) : Instr :=
  match kind with
  | .readShared => .readShared p tag line
  | .readExclusive => .readExclusive p tag line
  | .upgrade => .upgrade p tag line
  | .streamRead => .streamRead p tag line
  | .streamWrite => .streamWrite p tag line

/-- The port and the channel of a command that is a message frame in sequence. -/
def Instr.message : Instr → Option (Port × InChannel)
  | .readShared p _ _ | .readExclusive p _ _ | .upgrade p _ _ | .streamRead p _ _ | .streamWrite p _ _ =>
    some (p, .request)
  | .hello p _ | .goodbye p | .release p _ | .releaseDirty p _ | .streamDone p _ => some (p, .notice)
  | .answer p _ _ _ _ => some (p, .answer)
  | .unknownMessageKind p (.undefinedKind ch _) => some (p, ch)
  | .unknownMessageKind p (.helloProfile _) => some (p, .notice)
  | .unknownMessageKind p .answerOutcome => some (p, .answer)
  | _ => none

/-- The message is a Hello, well formed or not. -/
def Instr.isHello : Instr → Bool
  | .hello _ _ => true
  | .unknownMessageKind _ (.helloProfile _) => true
  | _ => false

/-- The port of a command that is a good frame of any kind. -/
def Instr.goodFrameAt : Instr → Option Port
  | .acknowledge p _ _ | .resend p | .idle p | .secondCopyOfFrame p _ => some p
  | .unknownMessageKind p (.outboundChannel _) => some p
  | c => c.message.map Prod.fst

/-- The command code of a row that is a write of a fixed code to the start word. -/
def Instr.startCode : Instr → Option Word
  | .setPortProfile => some 1
  | .evictPort => some 2
  | .isolatePort => some 3
  | .clearIsolation => some 4
  | .writeRegion => some 5
  | .quiesce => some 6
  | .resume => some 7
  | .flush => some 8
  | .lookupLine => some 9
  | .nextPoisoned => some 10
  | .clearPoison => some 11
  | .clearAllPoison => some 12
  | .setTiming => some 13
  | .setPoisonThreshold => some 14
  | .clearDirectory => some 15
  | .unknownCommandCode code => some code
  | _ => none

/-- The command is a hard reset or its release. -/
def Instr.resets : Instr → Bool
  | .hardReset => true
  | .resetRelease _ => true
  | _ => false

end Sys2Proof

namespace Sys2Proof.Machine

open Sys2Proof

/-! ### The states in which commands act -/

/-- The state in which an event acts: the record of transmitted frames begins afresh (log 11). -/
def State.begun (s : State) : State := { s with tx := [] }

/-- Port p's link interface hears a good frame as the port stands: it is Up, or the frame brings it Up because the
receive clock is present and no LinkLost stands reported (R38, log 25). -/
def State.hears (s : State) (p : Port) : Bool :=
  (s.link p).up || (s.link p).clockAbsentSince.isNone && !PortSet.has s.lossReported p

/-- A link once it has heard a good frame: an Up link's bad-frame count is 0; a Down link is Up with the values
R38 gives. -/
def Link.heard (l : Link) : Link :=
  if l.up then { l with badFrames := 0 }
  else
    { l with
      up := true, expectedRequest := false, expectedNotice := false, expectedAnswer := false
      badFrames := 0, resend := none, nextSeq := false, attempts := 0 }

/-- The state once port p's link has heard a good frame. -/
def State.heard (s : State) (p : Port) : State := s.begun.setLink p (s.link p).heard

/-- The state in which a message of a channel acts at port p: its link has heard the frame, the expected bit of
the channel has toggled, and the frame is acknowledged with the bit it carried (R39). -/
def State.framed (s : State) (p : Port) (ch : InChannel) : State :=
  { s.setLink p ((s.link p).heard.toggleExpected ch) with
    tx := [(p, .acknowledge ch ((s.link p).heard.expected ch))] }

/-- A link that is lost: Down, its buffer and queues empty, its tags Free (R41). -/
def Link.lost (l : Link) : Link :=
  { l with
    up := false, resend := none, outbound := [], queue := []
    tags := #v[.free, .free, .free, .free] }

/-- The port is in state Offline, Online or Draining. -/
def State.joined (s : State) (p : Port) : Prop :=
  (s.port p).state = .offline ∨ (s.port p).state = .online ∨ ∃ d, (s.port p).state = .draining d

/-- A command that takes port p's Up link over a limit, with the link as it stands at the loss: the third bad
frame in a row, the third failed attempt by a Resend frame or by the acknowledgement wait, the receive clock absent
for 100 µs (R41). -/
inductive LinkLoss (s : State) (p : Port) : Instr → Link → Prop
  | badFrame (h : (s.link p).up = true) (h3 : 2 ≤ (s.link p).badFrames) :
      LinkLoss s p (.badFrame p) { s.link p with badFrames := (s.link p).badFrames + 1 }
  | resend (h : (s.link p).up = true) (f : SentFrame) (hf : (s.link p).resend = some f)
      (h3 : 3 ≤ (s.link p).attempts) : LinkLoss s p (.resend p) { s.link p with badFrames := 0 }
  | ackTimeout (h : (s.link p).up = true) (f : SentFrame) (hf : (s.link p).resend = some f)
      (h3 : 3 ≤ (s.link p).attempts) (hd : (s.link p).sentAt + 20 ≤ s.now) :
      LinkLoss s p (.ackTimeout p) (s.link p)
  | clockAbsence (h : (s.link p).up = true) (t : Nat) (ht : (s.link p).clockAbsentSince = some t)
      (hd : t + 100 ≤ s.now) : LinkLoss s p (.clockAbsenceTimeout p) (s.link p)

/-- The line that a transaction's probes and their answers name: its victim line in VictimProbing, its own line
otherwise (R50, R128). -/
inductive Txn.ProbesLine (t : Txn) : LineNo → Prop
  | victim (v : LineNo) (h : t.phase = some .victimProbing) (hv : t.victim = some v) : t.ProbesLine v
  | own (h : t.phase ≠ some .victimProbing) : t.ProbesLine t.line

/-- A message at port p that is a protocol error, with its channel: an unknown kind or field (R43), a request whose
tag is in use (R45), a notice that the port's profile does not permit (R51), an answer with another line than its
probe's or with Written from a sharer (R50). -/
inductive Breach (s : State) (p : Port) : Instr → InChannel → Prop
  | kind (ch : InChannel) (code : BitVec 4) : Breach s p (.unknownMessageKind p (.undefinedKind ch code)) ch
  | profile (f : BitVec 2) : Breach s p (.unknownMessageKind p (.helloProfile f)) .notice
  | outcome : Breach s p (.unknownMessageKind p .answerOutcome) .answer
  | tag (k : RequestKind) (tag : Tag) (l : LineNo) (h : s.tagState p tag ≠ .free) :
      Breach s p (requestCommand k p tag l) .request
  | release (l : LineNo) (h : (s.port p).profile = .streaming) : Breach s p (.release p l) .notice
  | releaseDirty (l : LineNo) (h : (s.port p).profile = .streaming) : Breach s p (.releaseDirty p l) .notice
  | streamDone (tag : Tag) (h : (s.port p).profile = .caching) : Breach s p (.streamDone p tag) .notice
  | line (k : SlotId) (t : Txn) (l' l : LineNo) (o : BitVec 2) (ho : o ≠ 0) (ht : s.txn k = some t)
      (ha : t.awaits p = true) (hn : t.ProbesLine l') (hl : l' ≠ l) :
      Breach s p (.answer p ⟨k.val, by omega⟩ (s.slot k).gen l o) .answer
  | written (k : SlotId) (t : Txn) (m : Probe) (l : LineNo) (ht : s.txn k = some t) (hn : t.ProbesLine l)
      (hm : t.probes.find? (fun m => decide (m.port = p) && m.outcome.isNone) = some m)
      (hr : m.role = .sharer) (hk : m.kind = .invalidate) :
      Breach s p (.answer p ⟨k.val, by omega⟩ (s.slot k).gen l 2) .answer

/-- A message at port p that is stray, with its channel: an answer that names no active transaction of its
generation or none with an unanswered probe to the port, a StreamDone without a lease whose StreamGo has been
transmitted (R50, R51). -/
inductive Stray (s : State) (p : Port) : Instr → InChannel → Prop
  | slot (n : Fin 32) (g : Bool) (l : LineNo) (o : BitVec 2) (ho : o ≠ 0) (h : 24 ≤ n.val) :
      Stray s p (.answer p n g l o) .answer
  | free (k : SlotId) (g : Bool) (l : LineNo) (o : BitVec 2) (ho : o ≠ 0) (h : s.txn k = none) :
      Stray s p (.answer p ⟨k.val, by omega⟩ g l o) .answer
  | generation (k : SlotId) (g : Bool) (l : LineNo) (o : BitVec 2) (ho : o ≠ 0) (h : (s.slot k).gen ≠ g) :
      Stray s p (.answer p ⟨k.val, by omega⟩ g l o) .answer
  | answered (k : SlotId) (t : Txn) (g : Bool) (l : LineNo) (o : BitVec 2) (ho : o ≠ 0) (ht : s.txn k = some t)
      (h : t.awaits p = false) : Stray s p (.answer p ⟨k.val, by omega⟩ g l o) .answer
  | tag (tag : Tag) (hp : (s.port p).profile ≠ .caching) (h : s.tagState p tag ≠ .outstanding) :
      Stray s p (.streamDone p tag) .notice
  | lease (tag : Tag) (hp : (s.port p).profile ≠ .caching)
      (h : ∀ (k : SlotId) (t : Txn), s.txn k = some t → t.phase = some .leased →
        t.originPort = some p → t.originTag ≠ some tag) :
      Stray s p (.streamDone p tag) .notice

/-- The state in which a command's own work begins on an idle unit: its code and the operand words are latched,
the result words are 0 (R162). -/
def State.started (s : State) (code : Word) : State :=
  { s with
    tx := []
    unit := { s.unit with code := code, latched := s.window.operands, results := #v[0, 0, 0, 0] } }

/-- The state as a command's completion leaves it: the unit Idle with a status and four results, CommandDone
pending (R164). -/
def State.completed (s : State) (st : CommandStatus) (r0 r1 r2 r3 : Word) : State :=
  { s with
    unit := { s.unit with inProgress := none, status := st, results := #v[r0, r1, r2, r3] }
    notify := { s.notify with pendingFlags := s.notify.pendingFlags ||| 0x100#10 } }

/-- The command unit takes a start word: RESET is not asserted and no command is in progress. -/
def State.takesCommand (s : State) : Prop := s.inReset = false ∧ s.unit.inProgress = none

/-- An operand word of the window as a number. -/
def State.word (s : State) (n : Fin 6) : Nat := (s.window.operands[n]).toNat

/-- Slot k is given back at once: free, its generation toggled (R79). -/
def State.givenBack (s : State) (k : SlotId) : State :=
  s.setSlot k { gen := !(s.slot k).gen, txn := none }

/-- A response is queued at the tail of port p's outbound queue, its tag Answering; a request whose tag is Free gets
none (R44, R47, log 25). -/
def State.answered (s : State) (p : Port) (tag : Tag) (r : Response) : State :=
  if s.tagState p tag = .free then s
  else
    s.setLink p
      { s.link p with
        outbound := (s.link p).outbound ++ [.response tag r]
        tags := (s.link p).tags.set tag .answering }

/-- A pair of operand words of the window as one number, high word first. -/
def State.wordPair (s : State) (hi lo : Fin 6) : Nat := s.word hi * 65536 + s.word lo

end Sys2Proof.Machine

open Sys2Proof Sys2Proof.Machine

/-! ### The queue, the block's own time, and reset -/

/-- The model's choice (log 1): commands wait in a queue, and a step takes the one at its front and is its `exec` on
the state with the queue's rest. -/
def Obligations.StepRunsTheFrontCommand : Prop :=
  ∀ (s : State) (c : Instr) (rest : List Instr), s.pending = c :: rest →
    step s = exec c { s with pending := rest }

/-- What the step on an empty queue makes of the state when the block does one thing of itself: it takes a standing
report, puts one of its own events in the queue, has the walker go on, or ticks (logs 2, 5, 24, 25). -/
def Sys2Proof.Machine.State.didOwn (s : State) : OwnWork → State
  | .timeout p =>
    { isolate p .probeTimeout { s with freeCount := s.freeCount + 1, tx := [] } with
      reported := PortSet.diff (isolate p .probeTimeout { s with freeCount := s.freeCount + 1, tx := [] }).reported
        (PortSet.single p) }
  | .loss p => takeLoss p { s with freeCount := s.freeCount + 1, tx := [] }
  | .event c => { s with freeCount := s.freeCount + 1, tx := [], pending := [c] }
  | .walk => leaveIfHandled { s with freeCount := s.freeCount + 1, tx := [] }
  | .tick => { s with freeCount := s.freeCount + 1, tx := [], now := s.now + 1 }

/-- The model's choice (logs 2, 5, 24, 25): on an empty queue the block does one thing of itself. It takes a
ProbeTimeout or a LinkLost that stands reported, which isolates its port whatever has arrived since; it puts one of its
own due events in the queue; its walker, resting at a set that leaves it nothing to wait for, goes on; with nothing
else than that to do it may tick its timebase, and with nothing at all it does. It stands still while RESET is asserted.
Its own events are the ones whose occasion has come: a frame to transmit, an acknowledgement or a receive clock overdue,
a deadline expired, a hand-out of the arbiter. -/
def Obligations.EmptyQueueRunsOwnEventsOrTicks : Prop :=
  (∀ s : State, s.pending = [] →
      (s.inReset = true → step s = .next s) ∧
        (s.inReset = false → s.ownWork = [] → step s = .next { s with now := s.now + 1, tx := [] }) ∧
        (s.inReset = false → s.ownWork ≠ [] → ∃ w ∈ s.ownWork, step s = .next (s.didOwn w))) ∧
    (∀ s : State,
      (∀ p, .timeout p ∈ s.ownWork ↔ PortSet.has s.reported p = true) ∧
        (∀ p, .loss p ∈ s.ownWork ↔ PortSet.has s.lossReported p = true) ∧
        (∀ c, .event c ∈ s.ownWork ↔ c ∈ s.ownEvents) ∧
        (.walk ∈ s.ownWork ↔ s.sweep.jobs ≠ [] ∧ (∃ i, s.sweep.walker = .atSet i) ∧
          ∀ x ∈ s.sweep.workList, x.2 = .handled) ∧
        (.tick ∈ s.ownWork ↔ .walk ∈ s.ownWork ∧ s.reported = 0 ∧ s.lossReported = 0 ∧ s.ownEvents = [])) ∧
    (∀ (s : State) (p : Port),
        (Instr.transmitFrame p ∈ s.ownEvents ↔
          (s.link p).up = true ∧ (s.link p).resend = none ∧ (s.link p).outbound ≠ []) ∧
        (Instr.ackTimeout p ∈ s.ownEvents ↔
          (s.link p).up = true ∧ (s.link p).resend ≠ none ∧ (s.link p).sentAt + 20 ≤ s.now) ∧
        (Instr.clockAbsenceTimeout p ∈ s.ownEvents ↔
          (s.link p).up = true ∧ ∃ t, (s.link p).clockAbsentSince = some t ∧ t + 100 ≤ s.now)) ∧
      (∀ (s : State) (k : SlotId) (t : Txn) (d : Deadline), s.txn k = some t → t.deadline = some d →
        (Instr.reprobe k ∈ s.ownEvents ↔
          d.start + d.interval ≤ s.now ∧ (t.phase = some .victimProbing ∨ t.phase = some .probing) ∧
            t.reprobed = false) ∧
        (Instr.probeTimeout k ∈ s.ownEvents ↔
          d.start + d.interval ≤ s.now ∧ (t.phase = some .victimProbing ∨ t.phase = some .probing) ∧
            t.reprobed = true) ∧
        (Instr.leaseTimeout k ∈ s.ownEvents ↔ d.start + d.interval ≤ s.now ∧ t.phase = some .leased)) ∧
      ∀ s : State,
        (Instr.restartParked ∈ s.ownEvents ↔ ∃ k q, s.handOut = some (.parked k q)) ∧
        (Instr.takeQueueHead ∈ s.ownEvents ↔ ∃ k p, s.handOut = some (.head k p)) ∧
        (Instr.startSweepRecall ∈ s.ownEvents ↔ ∃ k, s.handOut = some (.sweep k))

/-- Every command answers a next state: the spec gives the block no event that stops it. That a command leaves the
queue as it is, a reset too, is the model's choice (log 1, log 13), the queue being the model's own. -/
def Obligations.EveryCommandAnswersNext : Prop :=
  ∀ (c : Instr) (s : State), ∃ t, exec c s = .next t ∧ t.pending = s.pending

/-- While RESET is asserted no command but the reset rows changes anything, every word reads 0 and IRQ is
deasserted. -/
def Obligations.NothingActsWhileResetIsAsserted : Prop :=
  (∀ (c : Instr) (s : State), s.inReset = true → c.resets = false → exec c s = .next s) ∧
    ∀ s : State, s.inReset = true → s.irq = false ∧ ∀ w : WordNo, s.readWord w = 0

/-- HARD_RESET and RESET_RELEASE put every block in its reset state, and the WIDE strap is sampled at the release. The
model's choices: the queue and the count of free choices, which are the model's own, stay (log 13), and a RESET_RELEASE
with RESET not asserted changes nothing (log 3). -/
def Obligations.HardResetAndReleaseGiveTheResetState : Prop :=
  ∀ s : State,
    exec .hardReset s =
        .next { State.reset with pending := s.pending, freeCount := s.freeCount, inReset := true } ∧
      (∀ wide : Bool, s.inReset = true →
        exec (.resetRelease wide) s =
          .next { State.reset with
            pending := s.pending, freeCount := s.freeCount
            window := { State.reset.window with wide := wide } }) ∧
      ∀ wide : Bool, s.inReset = false → exec (.resetRelease wide) s = .next s

/-- The whole reset state. The spec gives every value but these, which are the model's: the WIDE sample (log 8); the
timebase count, the time since which the receive clock stands absent, the time of the latest transmission, the latched
command code, the byte on the data lines and the order counter (log 9); the count of free choices (log 4); the empty
queue, sets of standing reports and record of transmitted frames (log 1, logs 24 and 25, log 11). -/
def Obligations.ResetStateHoldsTheSpecsValues : Prop :=
  (∀ p : Port, State.reset.port p = { profile := .unused, state := .unused, reason := .none } ∧
      State.reset.link p =
        { up := false, expectedRequest := false, expectedNotice := false, expectedAnswer := false
          badFrames := 0, resend := none, nextSeq := false, attempts := 0, sentAt := 0
          clockAbsentSince := some 0, queue := [], outbound := [], tags := #v[.free, .free, .free, .free] }) ∧
    (∀ (i : SetIdx) (w : Way), State.reset.way i w = none ∧ (State.reset.dirSet i).recency = []) ∧
    State.reset.dir.occupancy = 0 ∧ State.reset.dir.poisoned = 0 ∧
    (∀ i : RegionIdx,
      State.reset.region i = { enabled := false, base := 0, limit := 0, attr := .untracked }) ∧
    (∀ k : SlotId, State.reset.slot k = { gen := false, txn := none }) ∧
    State.reset.parked = [] ∧ State.reset.rrPointer = 0 ∧ State.reset.nextOrder = 0 ∧
    State.reset.sweep = { jobs := [], walker := .idle, workList := [], jobCount := 0 } ∧
    State.reset.service = .quiesced ∧ State.reset.probeInterval = 250 ∧ State.reset.leaseInterval = 4000 ∧
    State.reset.threshold = 16 ∧
    State.reset.unit =
      { inProgress := none, code := 0, latched := #v[0, 0, 0, 0, 0, 0], status := .done, results := #v[0, 0, 0, 0] } ∧
    State.reset.notify = { pendingFlags := 0, enables := 0 } ∧
    State.reset.window =
      { wide := true, operands := #v[0, 0, 0, 0, 0, 0], writeByte := 0, readCapture := 0, captured := none
        dataOut := 0 } ∧
    State.reset.inReset = false ∧ State.reset.now = 0 ∧ State.reset.freeCount = 0 ∧ State.reset.pending = [] ∧
    State.reset.reported = 0 ∧ State.reset.lossReported = 0 ∧ State.reset.tx = []

/-! ### The laws every step keeps -/

/-- The reset state is in order: it meets every law of Safety.lean. -/
def Obligations.ResetStateIsSafe : Prop := State.reset.Safe

/-- Every step keeps the directory table in order: recency orders list exactly the occupied ways, entries are
shaped, the two counts count what they say, and the table keeps its canonical form. -/
def Obligations.DirectoryStaysInOrder : Prop :=
  ∀ s t : State, s.dir.Wf → step s = .next t → t.dir.Wf

/-- Every step keeps claims disjoint: no line is claimed by two active transactions. -/
def Obligations.ClaimsStayDisjoint : Prop :=
  ∀ s t : State, s.ClaimsDisjoint → step s = .next t → t.ClaimsDisjoint

/-- Every step keeps this: a Running part has fewer Poisoned entries than its threshold. -/
def Obligations.RunningStaysBelowTheThreshold : Prop :=
  ∀ s t : State, s.RunningBelowThreshold → step s = .next t → t.RunningBelowThreshold

/-- Every step keeps the port records and the links in order. -/
def Obligations.PortsAndLinksStayInOrder : Prop :=
  (∀ s t : State, (∀ p : Port, (s.port p).Wf) → step s = .next t → ∀ p : Port, (t.port p).Wf) ∧
    ∀ s t : State, (∀ p : Port, (s.link p).Wf) → step s = .next t → ∀ p : Port, (t.link p).Wf

/-- Every step keeps the sweep engine's transactions at most 4, the parked list at most 16 and in the order of first
taking, the parameters in their ranges, the part Quiescing exactly while a Quiesce is in progress, and every block in its
reset state while RESET is asserted. -/
def Obligations.BoundsAndResetAreKept : Prop :=
  (∀ s t : State, s.SweepCapKept → step s = .next t → t.SweepCapKept) ∧
    (∀ s t : State, ParkedWf s.parked → step s = .next t → ParkedWf t.parked) ∧
    (∀ s t : State, s.ParametersInRange → step s = .next t → t.ParametersInRange) ∧
    (∀ s t : State, QuiesceTracked s.service s.unit → step s = .next t → QuiesceTracked t.service t.unit) ∧
    ∀ s t : State, s.HeldInReset → step s = .next t → t.HeldInReset

/-- An Isolated port leaves Isolated only by a ClearIsolation that names it and finds its cleanup done and the unit
Idle, or by a hard reset: any other step, of a well-formed command at the front of the queue or of the part of itself on
an empty queue, leaves it Isolated, its profile and its isolation reason as they are, and its cleanup done once it is
done. -/
def Obligations.IsolatedPortsStayIsolated : Prop :=
  ∀ (s t : State) (p : Port) (d : Bool), (s.port p).state = .isolated d →
    (∀ c rest, s.pending = c :: rest → c.wellFormed = true ∧ c.resets = false ∧
      (c = .clearIsolation → s.word 0 ≠ p.val ∨ d = false ∨ s.unit.inProgress ≠ none)) →
    step s = .next t →
    (t.port p).profile = (s.port p).profile ∧ (t.port p).reason = (s.port p).reason ∧
      ((t.port p).state = .isolated d ∨ (t.port p).state = .isolated true)

/-- A command that acknowledges a cause: a write of its number to the acknowledge word, in 8-bit mode with the low byte
from the write holding register (R161, R181). -/
inductive Sys2Proof.Machine.Acknowledges (s : State) (x : Cause) : Instr → Prop
  | row (v r : Word)
      (hr : s.window.wide = true ∧ r = v ∨ s.window.wide = false ∧ r = v.extractLsb' 8 8 ++ s.window.writeByte)
      (h : r = BitVec.ofNat 16 x.number) : Acknowledges s x (.acknowledgeCause v)
  | word (v r : Word)
      (hr : s.window.wide = true ∧ r = v ∨ s.window.wide = false ∧ r = v.extractLsb' 8 8 ++ s.window.writeByte)
      (h : r = BitVec.ofNat 16 x.number) : Acknowledges s x (.registerWrite 0x18 v)

/-- A pending cause stays pending until it is itself acknowledged or the part is reset: through every other step, of a
command at the front of the queue, an acknowledgement of another cause among them, or of the part of itself on an empty
queue. -/
def Obligations.PendingCausesPersist : Prop :=
  ∀ (s t : State) (x : Cause), s.isPending x = true →
    (∀ c rest, s.pending = c :: rest → ¬ Acknowledges s x c ∧ c.resets = false) →
    step s = .next t → t.isPending x = true

/-! ### The frame layer -/

/-- On a Down link with no receive clock a good frame of any kind changes nothing; on a Down link a bad frame
changes nothing and is not counted. The model's choice (log 25): a good frame that brings a link Up while a LinkLost
stands reported for its port acts on the port as the taking of that report leaves it. -/
def Obligations.FramesOnASilentLinkAreDiscarded : Prop :=
  (∀ (s : State) (c : Instr) (p : Port), s.inReset = false → (s.link p).up = false → c.goodFrameAt = some p →
      ((s.link p).clockAbsentSince ≠ none → exec c s = .next s.begun) ∧
        ((s.link p).clockAbsentSince = none → PortSet.has s.lossReported p = true →
          exec c s = exec c (takeLoss p s.begun))) ∧
    ∀ (s : State) (p : Port), s.inReset = false → (s.link p).up = false → exec (.badFrame p) s = .next s.begun

/-- The receive-clock watch follows the clock: Present when it is seen; absent since the moment it stops, a clock
already absent staying absent since its own moment. A clock absent for less than 100 µs loses no link, and a Down
link is not lost. -/
def Obligations.ReceiveClockIsWatched : Prop :=
  ∀ (s : State) (p : Port), s.inReset = false →
    exec (.receiveClockChange p true) s =
        .next (s.begun.setLink p { s.link p with clockAbsentSince := none }) ∧
      ((s.link p).clockAbsentSince = none →
        exec (.receiveClockChange p false) s =
          .next (s.begun.setLink p { s.link p with clockAbsentSince := some s.now })) ∧
      ((s.link p).clockAbsentSince ≠ none → exec (.receiveClockChange p false) s = .next s.begun) ∧
      ((s.link p).up = false ∨ (s.link p).clockAbsentSince = none ∨
          (∃ t, (s.link p).clockAbsentSince = some t ∧ s.now < t + 100) →
        exec (.clockAbsenceTimeout p) s = .next s.begun)

namespace Sys2Proof

/-- The field of an inbound channel (Fig. 12-2). -/
def InChannel.number : InChannel → BitVec 2
  | .request => 0
  | .notice => 1
  | .answer => 2

/-- The field of a channel (Fig. 12-2). -/
def Channel.number : Channel → BitVec 2
  | .request => 0
  | .notice => 1
  | .answer => 2
  | .outbound => 3

end Sys2Proof

namespace Sys2Proof.Machine

/-- The bits of a frame that its check code covers, most significant first: the header, and the body of a message
frame (12.1). -/
def RawFrame.checked (f : RawFrame) : List Bool :=
  ((List.range 16).map fun n => f.header.getMsbD n) ++
    if f.header.extractLsb' 14 2 = 0 then (List.range 32).map fun n => f.body.getMsbD n else []

/-- A frame's check code is right: the remainder of its bits, the register preset to FFFFH, inverted (12.1). -/
def RawFrame.sound (f : RawFrame) : Prop := f.check = ~~~ (f.checked.foldl crcStep 0xFFFF#16)

/-- The line number in a body: bits 25 to 0 (Fig. 12-3). -/
def bodyLine (b : BitVec 32) : LineNo := (b.extractLsb' 0 26).toFin

/-- The row that a message frame at port p is when its sequence bit is the expected one: by its channel, its kind
code, parameter bits 1 and 0, and its body (Fig. 12-3 to Fig. 12-5, R43, R184). -/
inductive FrameRow (p : Port) : InChannel → BitVec 4 → BitVec 2 → BitVec 32 → Instr → Prop
  | readShared (g : BitVec 2) (b : BitVec 32) : FrameRow p .request 1 g b (.readShared p g.toFin (bodyLine b))
  | readExclusive (g : BitVec 2) (b : BitVec 32) : FrameRow p .request 2 g b (.readExclusive p g.toFin (bodyLine b))
  | upgrade (g : BitVec 2) (b : BitVec 32) : FrameRow p .request 3 g b (.upgrade p g.toFin (bodyLine b))
  | streamRead (g : BitVec 2) (b : BitVec 32) : FrameRow p .request 4 g b (.streamRead p g.toFin (bodyLine b))
  | streamWrite (g : BitVec 2) (b : BitVec 32) : FrameRow p .request 5 g b (.streamWrite p g.toFin (bodyLine b))
  | request (c : BitVec 4) (g : BitVec 2) (b : BitVec 32) (h : c = 0 ∨ 6 ≤ c.toNat) :
      FrameRow p .request c g b (.unknownMessageKind p (.undefinedKind .request c))
  | hello (g : BitVec 2) (b : BitVec 32) (h : g = 1 ∨ g = 2) : FrameRow p .notice 1 g b (.hello p g)
  | helloProfile (g : BitVec 2) (b : BitVec 32) (h : g = 0 ∨ g = 3) :
      FrameRow p .notice 1 g b (.unknownMessageKind p (.helloProfile g))
  | goodbye (g : BitVec 2) (b : BitVec 32) : FrameRow p .notice 2 g b (.goodbye p)
  | release (g : BitVec 2) (b : BitVec 32) : FrameRow p .notice 3 g b (.release p (bodyLine b))
  | releaseDirty (g : BitVec 2) (b : BitVec 32) : FrameRow p .notice 4 g b (.releaseDirty p (bodyLine b))
  | streamDone (g : BitVec 2) (b : BitVec 32) : FrameRow p .notice 5 g b (.streamDone p g.toFin)
  | notice (c : BitVec 4) (g : BitVec 2) (b : BitVec 32) (h : c = 0 ∨ 6 ≤ c.toNat) :
      FrameRow p .notice c g b (.unknownMessageKind p (.undefinedKind .notice c))
  | answer (g : BitVec 2) (b : BitVec 32) (h : g ≠ 0) :
      FrameRow p .answer 1 g b (.answer p (b.extractLsb' 27 5).toFin (b.getLsbD 26) (bodyLine b) g)
  | answerOutcome (b : BitVec 32) : FrameRow p .answer 1 0 b (.unknownMessageKind p .answerOutcome)
  | answerKind (c : BitVec 4) (g : BitVec 2) (b : BitVec 32) (h : c = 0 ∨ 2 ≤ c.toNat) :
      FrameRow p .answer c g b (.unknownMessageKind p (.undefinedKind .answer c))

/-- A request tag in parameter bits 1 and 0. -/
def tagBits (tag : Tag) : BitVec 2 := BitVec.ofNat 2 tag.val

/-- The kind code, the parameter field and the body that the part sends for a message (Fig. 12-3 to Fig. 12-5). -/
inductive SentAs : OutMessage → BitVec 4 → BitVec 7 → BitVec 32 → Prop
  | grantShared (tag : Tag) : SentAs (.response tag .grantShared) 1 (0#5 ++ tagBits tag) 0
  | grantExclusive (tag : Tag) (fresh : Bool) :
      SentAs (.response tag (.grantExclusive fresh)) 2 (0#4 ++ BitVec.ofBool fresh ++ tagBits tag) 0
  | streamGo (tag : Tag) : SentAs (.response tag .streamGo) 3 (0#5 ++ tagBits tag) 0
  | untracked (tag : Tag) : SentAs (.response tag .untracked) 4 (0#5 ++ tagBits tag) 0
  | kindInRegion (tag : Tag) : SentAs (.response tag (.denied .kindInRegion)) 5 (1#3 ++ 0#2 ++ tagBits tag) 0
  | noRoom (tag : Tag) : SentAs (.response tag (.denied .noRoom)) 5 (2#3 ++ 0#2 ++ tagBits tag) 0
  | poisoned (tag : Tag) : SentAs (.response tag .poisoned) 6 (0#5 ++ tagBits tag) 0
  | retry (tag : Tag) : SentAs (.response tag .retry) 7 (0#5 ++ tagBits tag) 0
  | notOnline (tag : Tag) : SentAs (.response tag (.refused .notOnline)) 8 (1#3 ++ 0#2 ++ tagBits tag) 0
  | draining (tag : Tag) : SentAs (.response tag (.refused .draining)) 8 (2#3 ++ 0#2 ++ tagBits tag) 0
  | kindNotPermitted (tag : Tag) :
      SentAs (.response tag (.refused .kindNotPermitted)) 8 (3#3 ++ 0#2 ++ tagBits tag) 0
  | halted (tag : Tag) : SentAs (.response tag (.refused .halted)) 8 (4#3 ++ 0#2 ++ tagBits tag) 0
  | invalidate (k : SlotId) (gen : Bool) (l : LineNo) :
      SentAs (.probe k gen l .invalidate) 9 0 (BitVec.ofNat 5 k.val ++ BitVec.ofBool gen ++ BitVec.ofNat 26 l.val)
  | downgrade (k : SlotId) (gen : Bool) (l : LineNo) :
      SentAs (.probe k gen l .downgrade) 10 0 (BitVec.ofNat 5 k.val ++ BitVec.ofBool gen ++ BitVec.ofNat 26 l.val)
  | welcomeCaching : SentAs (.welcome .caching) 11 (4#3 ++ 0#2 ++ 1#2) 0
  | welcomeStreaming : SentAs (.welcome .streaming) 11 (4#3 ++ 0#2 ++ 2#2) 0
  | farewell : SentAs .farewell 12 0 0
  | portUnused : SentAs (.rejected .portUnused) 13 (1#3 ++ 0#4) 0
  | profileMismatch : SentAs (.rejected .profileMismatch) 13 (2#3 ++ 0#4) 0

end Sys2Proof.Machine

/-- What the link-control frames and a second copy do on a link that hears them: Idle only counts as a good frame;
a second copy is acknowledged again and discarded; an Acknowledge with the buffered frame's bit empties the buffer,
toggles the next outbound bit and sets the attempt count to 0; any other Acknowledge is disregarded. And which row a
frame is by its bits: a bad frame if its check code is wrong; a message by its channel, kind code, parameter bits 1 and
0 and body, whatever its other bits, or a second copy if its sequence bit is not the expected one, which is 0 on a
Down link; a link-control frame by its class, whatever bits 10 to 0, and of Resend and Idle whatever bits 13 to 0, which
is the model's choice (log 26). And the bits of the frames the part sends, each with its check code; the division step
of the check code is that of x^16 + x^12 + x^5 + 1. -/
def Obligations.LinkControlFramesAct : Prop :=
  (∀ (r : BitVec 16) (b : Bool) (n : Fin 16), (crcStep r b).getLsbD n.val =
      ((decide (n.val ≠ 0) && r.getLsbD (n.val - 1)) ^^
        ((r.getLsbD 15 ^^ b) && decide (n.val = 0 ∨ n.val = 5 ∨ n.val = 12)))) ∧
  (∀ (s : State) (p : Port) (f : RawFrame),
    (¬ f.sound → s.inboundRow p f = .badFrame p) ∧
      (f.sound →
        (∀ (ch : InChannel) (seq : Bool) (c : BitVec 4) (x : BitVec 5) (g : BitVec 2) (i : Instr),
          f.header = 0#2 ++ ch.number ++ BitVec.ofBool seq ++ c ++ x ++ g → FrameRow p ch c g f.body i →
          (seq = ((s.link p).up && (s.link p).expected ch) → s.inboundRow p f = i) ∧
            (seq ≠ ((s.link p).up && (s.link p).expected ch) → s.inboundRow p f = .secondCopyOfFrame p ch)) ∧
        (∀ (seq : Bool) (c : BitVec 4) (x : BitVec 7), f.header = 0#2 ++ 3#2 ++ BitVec.ofBool seq ++ c ++ x →
          s.inboundRow p f = .unknownMessageKind p (.outboundChannel c)) ∧
        (∀ (ch : Channel) (seq : Bool) (x : BitVec 11), f.header = 1#2 ++ ch.number ++ BitVec.ofBool seq ++ x →
          s.inboundRow p f = .acknowledge p ch seq) ∧
        (∀ x : BitVec 14, f.header = 2#2 ++ x → s.inboundRow p f = .resend p) ∧
        ∀ x : BitVec 14, f.header = 3#2 ++ x → s.inboundRow p f = .idle p)) ∧
  (∀ w : WireFrame, w.bits.sound) ∧
  (∀ (seq : Bool) (m : OutMessage) (c : BitVec 4) (a : BitVec 7) (b : BitVec 32), SentAs m c a b →
    (WireFrame.message seq m).bits.header = 0#2 ++ 3#2 ++ BitVec.ofBool seq ++ c ++ a ∧
      (WireFrame.message seq m).bits.body = b) ∧
  (∀ (ch : InChannel) (seq : Bool),
    (WireFrame.acknowledge ch seq).bits.header = 1#2 ++ ch.number ++ BitVec.ofBool seq ++ 0#11) ∧
  WireFrame.resend.bits.header = 2#2 ++ 0#14 ∧
  ∀ (s : State) (p : Port), s.inReset = false → s.hears p = true →
    exec (.idle p) s = .next (s.heard p) ∧
      (∀ ch : InChannel,
        exec (.secondCopyOfFrame p ch) s =
          .next { s.heard p with tx := [(p, .acknowledge ch (!(s.link p).heard.expected ch))] }) ∧
      (∀ f : SentFrame, (s.link p).heard.resend = some f →
        exec (.acknowledge p .outbound f.seq) s =
          .next (s.begun.setLink p
            { (s.link p).heard with
              resend := none, nextSeq := !(s.link p).heard.nextSeq, attempts := 0 })) ∧
      ∀ (ch : Channel) (seq : Bool),
        (ch ≠ .outbound ∨ ∀ f, (s.link p).heard.resend = some f → f.seq ≠ seq) →
        exec (.acknowledge p ch seq) s = .next (s.heard p)

/-- With the link Up and the buffer empty the head of the outbound queue leaves it, is transmitted with the next
outbound bit and is buffered with the attempt count at 1; a response's tag becomes Free, a StreamGo's Outstanding.
Otherwise nothing is transmitted. -/
def Obligations.QueueHeadIsTransmittedAndHeld : Prop :=
  (∀ (s : State) (p : Port) (m : OutMessage) (rest : List OutMessage), s.inReset = false →
      (s.link p).up = true → (s.link p).resend = none → (s.link p).outbound = m :: rest →
      exec (.transmitFrame p) s =
        .next { s.setLink p
            { s.link p with
              outbound := rest
              resend := some { seq := (s.link p).nextSeq, msg := m }
              attempts := 1
              sentAt := s.now
              tags :=
                match m with
                | .response tag .streamGo => (s.link p).tags.set tag .outstanding
                | .response tag _ => (s.link p).tags.set tag .free
                | _ => (s.link p).tags } with
          tx := [(p, .message (s.link p).nextSeq m)] }) ∧
    ∀ (s : State) (p : Port), s.inReset = false →
      ((s.link p).up = false ∨ (s.link p).resend ≠ none ∨ (s.link p).outbound = []) →
      exec (.transmitFrame p) s = .next s.begun

/-- On an Up link a bad frame that is not the third in a row raises the count by one and has a Resend frame
transmitted; nothing else changes. A failed attempt below the third transmits the buffered frame again and raises
the attempt count, on a Resend frame and 20 µs after the latest transmission; without a buffered frame, or before
the 20 µs, nothing fails. -/
def Obligations.BadFramesAndFailedAttemptsAreRetried : Prop :=
  (∀ (s : State) (p : Port), s.inReset = false → (s.link p).up = true → (s.link p).badFrames < 2 →
      exec (.badFrame p) s =
        .next { s.setLink p { s.link p with badFrames := (s.link p).badFrames + 1 } with tx := [(p, .resend)] }) ∧
    ∀ (s : State) (p : Port), s.inReset = false →
      (∀ f : SentFrame, (s.link p).up = true → (s.link p).resend = some f → (s.link p).attempts < 3 →
        exec (.resend p) s =
            .next { s.setLink p
                { s.link p with
                  badFrames := 0, attempts := (s.link p).attempts + 1, sentAt := s.now } with
              tx := [(p, .message f.seq f.msg)] } ∧
          ((s.link p).sentAt + 20 ≤ s.now →
            exec (.ackTimeout p) s =
              .next { s.setLink p { s.link p with attempts := (s.link p).attempts + 1, sentAt := s.now } with
                tx := [(p, .message f.seq f.msg)] })) ∧
        (s.hears p = true → (s.link p).heard.resend = none → exec (.resend p) s = .next (s.heard p)) ∧
        ((s.link p).up = false ∨ (s.link p).resend = none ∨ s.now < (s.link p).sentAt + 20 →
          exec (.ackTimeout p) s = .next s.begun)

/-- At the loss of a link it goes Down with its buffer and queues empty and its tags Free, and LinkLost is reported;
the record of a port that is neither Online nor Draining stays. For an Online or Draining one the report is taken at
once or stands, which the model leaves to the free value (log 25). Its taking isolates a port that is Online or
Draining then, reason LinkLost; a port whose drain has completed meanwhile is Offline, its record stays and its Farewell
waits in the queue of the Down link. -/
def Obligations.LostLinkEmptiesAndIsolates : Prop :=
  (∀ (s : State) (p : Port) (c : Instr) (l : Link), s.inReset = false → LinkLoss s p c l →
      ((s.port p).state = .unused ∨ (s.port p).state = .offline ∨ (∃ d, (s.port p).state = .isolated d) →
        exec c s = .next (s.begun.setLink p l.lost)) ∧
        ((s.port p).state = .online ∨ (∃ d, (s.port p).state = .draining d) →
          ∃ t u, exec c s = .next t ∧
            u = { s.begun.setLink p l.lost with
              freeCount := s.freeCount + 1, lossReported := PortSet.insert s.lossReported p } ∧
            (t = u ∨ t = takeLoss p u))) ∧
    ∀ (s t : State) (p : Port), t = takeLoss p s →
      PortSet.has t.lossReported p = false ∧
        ((s.port p).state ≠ .online → (∀ d, (s.port p).state ≠ .draining d) →
          t = { s with lossReported := PortSet.diff s.lossReported (PortSet.single p) }) ∧
        ((s.port p).state = .online ∨ (∃ d, (s.port p).state = .draining d) →
          t = { isolate p .linkLost s with
              lossReported := PortSet.diff (isolate p .linkLost s).lossReported (PortSet.single p) } ∧
            (t.link p).up = (s.link p).up ∧ (t.link p).queue = [] ∧
            (∃ d, t.port p = { profile := (s.port p).profile, state := .isolated d, reason := .linkLost }) ∧
            t.isPending .portIsolated = true)

/-! ### Arriving messages -/

/-- A request with a Free tag on an Online port: its tag becomes Outstanding and it joins the tail of the port's
request queue. On an Offline or Draining port it is answered at its arrival, whatever its kind: Refused (NotOnline)
or Refused (Draining) is queued and the tag becomes Answering. Nothing else changes but the frame's own
bookkeeping. -/
def Obligations.RequestsAreQueuedOrAnsweredAtArrival : Prop :=
  (∀ (s : State) (p : Port) (kind : RequestKind) (tag : Tag) (line : LineNo), s.inReset = false →
      s.hears p = true → (s.port p).state = .online → s.tagState p tag = .free →
      exec (requestCommand kind p tag line) s =
        .next ((s.framed p .request).setLink p
          { (s.framed p .request).link p with
            tags := (s.link p).tags.set tag .outstanding
            queue := (s.link p).queue ++ [{ tag := tag, kind := kind, line := line }] })) ∧
    ∀ (s : State) (p : Port) (kind : RequestKind) (tag : Tag) (line : LineNo) (why : RefusedReason),
      s.inReset = false → s.hears p = true → s.tagState p tag = .free →
      ((s.port p).state = .offline ∧ why = .notOnline ∨ (∃ d, (s.port p).state = .draining d) ∧ why = .draining) →
      exec (requestCommand kind p tag line) s =
        .next ((s.framed p .request).setLink p
          { (s.framed p .request).link p with
            tags := (s.link p).tags.set tag .answering
            outbound := (s.link p).outbound ++ [.response tag (.refused why)] })

/-- A message on an Isolated port, and one other than Hello on an Unused port, is acknowledged and discarded
unchecked; a frame on the Outbound channel there is not even acknowledged. The model's reading (log 18): an
ill-formed Hello on an Unused port raises ProtocolError and isolates nothing. -/
def Obligations.MessagesOnClosedPortsAreDiscarded : Prop :=
  ∀ (s : State) (p : Port), s.inReset = false → s.hears p = true →
    (∀ (c : Instr) (ch : InChannel), c.message = some (p, ch) →
      ((∃ d, (s.port p).state = .isolated d) ∨ (s.port p).state = .unused ∧ c.isHello = false) →
      exec c s = .next (s.framed p ch)) ∧
      (∀ code : BitVec 4, (∃ d, (s.port p).state = .isolated d) ∨ (s.port p).state = .unused →
        exec (.unknownMessageKind p (.outboundChannel code)) s = .next (s.heard p)) ∧
      ∀ f : BitVec 2, (s.port p).state = .unused →
        exec (.unknownMessageKind p (.helloProfile f)) s = .next (raise .protocolError (s.framed p .notice))

/-- A Hello that no control message gates is disposed of by its port's state: an Offline port of that profile goes
Online with Welcome queued and PortJoined raised; of another profile it answers Rejected (ProfileMismatch); an
Unused port answers Rejected (PortUnused); an Online or Draining port is isolated with reason RepeatedHello. While a
control message waits the Hello is discarded. -/
def Obligations.HelloIsDisposedOfByPortState : Prop :=
  ∀ (s : State) (p : Port) (f : BitVec 2) (claimed : Profile), s.inReset = false → s.hears p = true →
    (f = 1 ∧ claimed = .caching ∨ f = 2 ∧ claimed = .streaming) →
    ((∀ m ∈ (s.link p).outbound, m.isControl = false) →
      ((s.port p).state = .offline → (s.port p).profile = claimed →
        exec (.hello p f) s =
          .next (raise .portJoined
            (((s.framed p .notice).setPort p { s.port p with state := .online }).setLink p
              { (s.framed p .notice).link p with outbound := (s.link p).outbound ++ [.welcome claimed] }))) ∧
      ((s.port p).state = .offline → (s.port p).profile ≠ claimed →
        exec (.hello p f) s =
          .next ((s.framed p .notice).setLink p
            { (s.framed p .notice).link p with
              outbound := (s.link p).outbound ++ [.rejected .profileMismatch] })) ∧
      ((s.port p).state = .unused →
        exec (.hello p f) s =
          .next ((s.framed p .notice).setLink p
            { (s.framed p .notice).link p with
              outbound := (s.link p).outbound ++ [.rejected .portUnused] })) ∧
      ((s.port p).state = .online ∨ (∃ d, (s.port p).state = .draining d) →
        exec (.hello p f) s = .next (isolate p .repeatedHello (s.framed p .notice)))) ∧
      ((∃ m ∈ (s.link p).outbound, m.isControl = true) → exec (.hello p f) s = .next (s.framed p .notice))

/-- A protocol error on an Offline, Online or Draining port: the message is acknowledged and discarded,
ProtocolError is raised, and the port is isolated with reason ProtocolError; a frame on the Outbound channel is
treated so without an acknowledgement. -/
def Obligations.ProtocolErrorsIsolateThePort : Prop :=
  ∀ (s : State) (p : Port), s.inReset = false → s.hears p = true → s.joined p →
    (∀ (c : Instr) (ch : InChannel), Breach s p c ch →
      exec c s = .next (isolate p .protocolError (raise .protocolError (s.framed p ch)))) ∧
      ∀ code : BitVec 4,
        exec (.unknownMessageKind p (.outboundChannel code)) s =
          .next (isolate p .protocolError (raise .protocolError (s.heard p)))

/-- A stray message raises StrayMessage and changes nothing else: the port's state, its tags, its queues and every
transaction stay as they are. -/
def Obligations.StrayMessagesOnlyRaiseTheirCause : Prop :=
  ∀ (s : State) (p : Port) (c : Instr) (ch : InChannel), s.inReset = false → s.hears p = true → s.joined p →
    Stray s p c ch →
    exec c s =
      .next { s.framed p ch with
        notify := { s.notify with pendingFlags := s.notify.pendingFlags ||| 0x080#10 } }

/-- An isolation cause on an Offline, Online or Draining port makes it Isolated with that reason and raises
PortIsolated; on an Unused or Isolated port it changes nothing. The port's outbound queue, the frame in its resend
buffer, its request queue and its parked requests are discarded and its tags are Free; its link stays Up or Down as it
was. Its unanswered probes in every active transaction are recorded Lost: no transaction awaits it, one with a probe
to another port unanswered goes on with the rest of its record as it was, and one whose last unanswered probe was to
this port ends its phase, as after any answer; leases of the port end. These endings come in an order the model leaves
free (log 4), after the Caching port's cleanup job has been arranged (log 6) and before the cleanup is tested. A
ProbeTimeout or a LinkLost reported for the port stands no longer (logs 24, 25). The cleanup job: a Drain job of the
port in the queue becomes its Cleanup job in its place, a running one forming its work list afresh at the walker's set;
without a Drain job a Cleanup job is queued. -/
def Obligations.IsolationTakesThePortOut : Prop :=
  (∀ (s : State) (p : Port) (reason : IsolationReason),
    (s.joined p → ∃ d,
      (isolate p reason s).port p =
          { profile := (s.port p).profile, state := .isolated d, reason := reason } ∧
        (isolate p reason s).isPending .portIsolated = true ∧
        ((isolate p reason s).link p).queue = [] ∧
        ((isolate p reason s).link p).up = (s.link p).up) ∧
      (¬ s.joined p → isolate p reason s = s)) ∧
    (∀ (s u : State) (p : Port) (reason : IsolationReason), s.joined p → s.dir.Wf → u = isolate p reason s →
      u.link p =
          { s.link p with
            outbound := [], resend := none, queue := [], tags := #v[.free, .free, .free, .free] } ∧
        PortSet.has u.reported p = false ∧ PortSet.has u.lossReported p = false ∧
        (∀ (k : SlotId) (t : Txn), u.txn k = some t → t.awaits p = false) ∧
        (∀ (k : SlotId) (t : Txn), s.txn k = some t → (t.phase = some .leased → t.originPort ≠ some p) →
          (∃ m ∈ t.probes, m.port ≠ p ∧ m.outcome = none) →
          u.slot k = { gen := (s.slot k).gen, txn := some { t with probes := t.probes.map fun m =>
            if m.port = p ∧ m.outcome = none then { m with outcome := some .lost } else m } })) ∧
    (∀ (s v : State) (p : Port) (reason : IsolationReason), s.joined p →
      v = quiesceCheck
        { (raise .portIsolated
            ((s.setPort p { s.port p with state := .isolated false, reason := reason }).setLink p
              { s.link p with
                outbound := [], resend := none, queue := [], tags := #v[.free, .free, .free, .free] })) with
          reported := PortSet.diff s.reported (PortSet.single p)
          lossReported := PortSet.diff s.lossReported (PortSet.single p)
          parked := s.parked.filter fun q => decide (q.port ≠ p) } →
      ∃ (a : State) (ended : List SlotId),
        a = (if (s.port p).profile = .caching then arrangeCleanup p v else v) ∧
          (∀ k : SlotId, k ∈ ended ↔ ∃ t, s.txn k = some t ∧
            (t.awaits p = true ∧ (∀ m ∈ t.probes, m.port ≠ p → m.outcome ≠ none) ∨
              t.phase = some .leased ∧ t.originPort = some p)) ∧
          isolate p reason s =
            cleanupTest p
              (ended.foldl (fun x k => endByIsolation p k x)
                { a with
                  freeCount := a.freeCount + ended.length
                  slots := a.slots.map fun x =>
                    { x with txn := x.txn.map fun t =>
                      { t with probes := t.probes.map fun m =>
                        if m.port = p ∧ m.outcome = none then { m with outcome := some .lost } else m } } })) ∧
    (∀ (s : State) (k : SlotId) (t : Txn) (p : Port), s.txn k = some t → t.phase ≠ some .leased →
      endByIsolation p k s = phaseEnd k s) ∧
    ∀ (s : State) (p : Port),
      ((.drain p) ∉ s.sweep.jobs → arrangeCleanup p s = enqueueJob (.cleanup p) s) ∧
        ∀ (j : Job) (rest : List Job) (t : State), s.sweep.jobs = j :: rest → .drain p ∈ s.sweep.jobs →
          t = { s with sweep := { s.sweep with
            jobs := s.sweep.jobs.map fun x => if x = .drain p then .cleanup p else x } } →
          (j ≠ .drain p → arrangeCleanup p s = t) ∧
            (j = .drain p → s.sweep.walker = .past → arrangeCleanup p s = advance t) ∧
            ∀ i, j = .drain p → s.sweep.walker = .atSet i →
              arrangeCleanup p s = advance (walkOn (.cleanup p) i.val t)

/-! ### Ports that leave, and notices -/

/-- The tags of port p's parked requests, oldest first, and then of its queued ones, head first (R60). -/
def Sys2Proof.Machine.State.waitingTags (s : State) (p : Port) : List Tag :=
  (s.parked.filter fun q => decide (q.port = p)).map (·.tag) ++ (s.link p).queue.map (·.tag)

/-- Those of the tags that get a response: not the ones a link loss has freed (R44, log 25). -/
def Sys2Proof.Machine.State.answeredTags (s : State) (p : Port) : List Tag :=
  (s.waitingTags p).filter fun g => decide (s.tagState p g ≠ .free)

/-- A Goodbye and an EvictPort take an Online port into Draining, by one and the same entry; EvictPort completes
Done with the port state in result word 0. A Goodbye on an Offline or Draining port is acknowledged and discarded: no
response, no cause. -/
def Obligations.GoodbyeAndEvictPortStartTheDrain : Prop :=
  (∀ (s : State) (p : Port), s.inReset = false → s.hears p = true →
    (s.port p).state = .offline ∨ (∃ d, (s.port p).state = .draining d) →
    exec (.goodbye p) s = .next (s.framed p .notice)) ∧
  ∀ (s : State) (p : Port), s.inReset = false → (s.port p).state = .online →
    (s.hears p = true → exec (.goodbye p) s = .next (enterDraining p (s.framed p .notice))) ∧
      (s.unit.inProgress = none → s.word 0 = p.val →
        exec .evictPort s =
          .next ((enterDraining p (s.started 2)).completed .done
            ((enterDraining p (s.started 2)).portStateWord p) 0 0 0))

/-- Entering Draining: the request queue and the port's parked requests go, and each is answered Refused (Draining),
parked ones first, its tag Answering, but for a tag that a link loss has freed, which gets no response and stays Free
(the model's choice, log 25); profile, reason and every slot stay. The report that no port-origin work is left
is made if it is due; then a Caching port's Drain job joins the tail of the job queue, and on an empty one begins at
once; then the drain is tested. That the report comes before the job's walk is the model's choice (log 27). A Streaming
port drains at once if no active transaction comes from it or awaits it: Offline, with Farewell queued behind the
responses and PortLeft raised. -/
def Obligations.EnteringDrainingAnswersAndDrains : Prop :=
  ∀ (s t : State) (p : Port), (s.port p).state = .online → t = enterDraining p s →
    (t.port p).profile = (s.port p).profile ∧ (t.port p).reason = (s.port p).reason ∧
      ((∃ d, (t.port p).state = .draining d) ∨ (t.port p).state = .offline) ∧
      (t.link p).queue = [] ∧ (t.link p).up = (s.link p).up ∧ t.slots = s.slots ∧
      ((s.link p).outbound ++ (s.answeredTags p).map fun g => .response g (.refused .draining)) <+:
        (t.link p).outbound ∧
      (∀ g : Tag, t.tagState p g = if g ∈ s.answeredTags p then .answering else s.tagState p g) ∧
      (∀ q ∈ t.parked, q.port ≠ p) ∧
      (∀ a b : State,
        a = refuseAll p (s.waitingTags p)
          ((s.setPort p { s.port p with state := .draining (decide ((s.port p).profile ≠ .caching)) }).setLink p
            { s.link p with queue := [] }) →
        b = quiesceCheck { a with parked := a.parked.filter fun q => decide (q.port ≠ p) } →
        ((s.port p).profile = .caching → t = drainTest p (enqueueJob (.drain p) b)) ∧
          ((s.port p).profile ≠ .caching → t = drainTest p b)) ∧
      (∀ (x : State) (g : Tag) (gs : List Tag), refuseAll p [] x = x ∧
        refuseAll p (g :: gs) x = refuseAll p gs (x.answered p g (.refused .draining))) ∧
      ((s.port p).profile = .caching → s.sweep.jobs ≠ [] →
        t.sweep.jobs = s.sweep.jobs ++ [.drain p] ∧ (t.port p).state = .draining false) ∧
      ((s.port p).profile ≠ .caching → s.hasOrigin p = false → s.hasUnanswered p = false →
        (t.port p).state = .offline ∧ t.isPending .portLeft = true ∧
          (t.link p).outbound = (s.link p).outbound ++
            ((s.answeredTags p).map fun g => .response g (.refused .draining)) ++ [.farewell]) ∧
      ((s.port p).profile ≠ .caching → s.hasOrigin p = true ∨ s.hasUnanswered p = true →
        (t.port p).state = .draining true)

/-- A Release or ReleaseDirty of a port that is not Streaming: by a changing lookup, the port is taken out of the
line's entry; the last sharer or the holder taken out retires it; an entry that does not record the port, a Poisoned
one, and an absent line stay as the lookup leaves them. -/
def Obligations.ReleaseTakesThePortOut : Prop :=
  ∀ (s u : State) (c : Instr) (p : Port) (l : LineNo), s.inReset = false → s.hears p = true → s.joined p →
    (s.port p).profile ≠ .streaming → c = .release p l ∨ c = .releaseDirty p l →
    u = changingLookup l (s.framed p .notice) →
    (∀ w, u.stored l = some (w, .exclusive p) → exec c s = .next (retire (setOf l) w u)) ∧
      (∀ w S, u.stored l = some (w, .shared S) → PortSet.has S p = true →
        (PortSet.diff S (PortSet.single p) = 0 → exec c s = .next (retire (setOf l) w u)) ∧
          (PortSet.diff S (PortSet.single p) ≠ 0 →
            exec c s = .next (rewrite (setOf l) w (.shared (PortSet.diff S (PortSet.single p))) u))) ∧
      ((∀ w x, u.stored l = some (w, x) → x.records p = false) → exec c s = .next u)

/-- A StreamDone on a lease whose StreamGo has been transmitted ends it: the slot is freed and its generation
toggled, the tag becomes Free, and the port's outbound queue gets no response; every other slot stays; every request
parked on the line, or with reason Set on its set, is Ready. -/
def Obligations.StreamDoneEndsTheLease : Prop :=
  ∀ (s : State) (p : Port) (tag : Tag) (k : SlotId), s.inReset = false → s.hears p = true → s.joined p →
    (s.port p).profile ≠ .caching → s.leaseOf p tag = some k →
    ∃ t, exec (.streamDone p tag) s = .next t ∧
      t.slot k = { gen := !(s.slot k).gen, txn := none } ∧ (∀ j : SlotId, j ≠ k → t.slot j = s.slot j) ∧
      t.tagState p tag = .free ∧
      (∀ x : Txn, s.txn k = some x → ∀ q ∈ t.parked,
        q.reason = .line ∧ q.line = x.line ∨ q.reason = .set ∧ setOf q.line = setOf x.line → q.ready = true) ∧
      ∃ n, (t.link p).outbound = (s.link p).outbound ++ List.replicate n .farewell

/-! ### Transactions -/

/-- An answer that passes the checks and names the line probed, the victim line in VictimProbing: its outcome is recorded against the probe, the probe's messages waiting in the
port's outbound queue are withdrawn, and, if no probe of the phase is left unanswered, the phase ends. -/
def Obligations.AnswerIsRecorded : Prop :=
  ∀ (s u : State) (p : Port) (k : SlotId) (t t' : Txn) (l : LineNo) (m : Probe) (f : BitVec 2) (o : ProbeOutcome),
    s.inReset = false → s.hears p = true → s.joined p → s.txn k = some t → t.ProbesLine l →
    t.probes.find? (fun m => decide (m.port = p) && m.outcome.isNone) = some m →
    (f = 1 ∧ o = .clean ∨ f = 2 ∧ o = .written ∨ f = 3 ∧ o = .absent) →
    ¬ (o = .written ∧ m.role = .sharer ∧ m.kind = .invalidate) →
    t' = { t with probes := t.probes.map fun m =>
      if m.port = p ∧ m.outcome = none then { m with outcome := some o } else m } →
    u = ((s.framed p .answer).setTxn k t').setLink p
      { (s.framed p .answer).link p with
        outbound := (s.link p).outbound.filter fun x =>
          match x with
          | .probe j g _ _ => !(decide (j = k) && decide (g = (s.slot k).gen))
          | _ => true } →
    ((∃ m ∈ t'.probes, m.outcome = none) →
      exec (.answer p ⟨k.val, by omega⟩ (s.slot k).gen l f) s = .next u) ∧
      ((∀ m ∈ t'.probes, m.outcome ≠ none) →
        exec (.answer p ⟨k.val, by omega⟩ (s.slot k).gen l f) s = .next (phaseEnd k u))

/-- The port controller's tests for a set of ports: of a drain and of a cleanup, port by port (R62, R67). -/
def Sys2Proof.Machine.State.tested (s : State) (S : PortSet) : State :=
  ((List.finRange 8).filter fun q => PortSet.has S q).foldl (fun x q => cleanupTest q (drainTest q x)) s

/-- Steps 3 to 5 of a completion in slot k: the slot given back, the claim released, the sweep engine's job completed if
it can be, and the ports of a set tested (R83). -/
def Sys2Proof.Machine.State.ended (s : State) (k : SlotId) (t : Txn) (S : PortSet) : State :=
  (advance (releaseClaim t.line (s.givenBack k))).tested S

/-- A completion, with a response or without one. For a port's transaction an Online origin is sent the response and a
Draining one Refused (Draining) in its place, the tag Answering; an origin in any other state, or whose tag a link loss
has freed (the model's choice, log 25), is sent no response and keeps its tags; the ports it has probed and its origin
are tested, and the end of port-origin work is reported if it has come. A recall's completion sends nothing and tests the ports it has probed. The slot is freed with its generation
toggled, other slots stay; every parked request that waited on the line, or with reason Set on its set, is Ready, and
the list is otherwise as it was; other links are only sent Farewells. The order of these effects is the model's reading
of R83 (log 15). -/
def Obligations.CompletionAnswersAndFreesTheSlot : Prop :=
  (∀ (s u : State) (k : SlotId) (t : Txn) (p : Port) (tag : Tag) (n : Nat) (r : Response),
    s.txn k = some t → t.origin = .port p tag n → u = complete k (some r) s →
    ((s.port p).state = .online →
        (s.tagState p tag ≠ .free →
          ((s.link p).outbound ++ [.response tag r]) <+: (u.link p).outbound ∧ u.tagState p tag = .answering) ∧
          u = quiesceCheck ((s.answered p tag r).ended k t (PortSet.insert t.probed p))) ∧
      ((∃ d, (s.port p).state = .draining d) →
        (s.tagState p tag ≠ .free →
          ((s.link p).outbound ++ [.response tag (.refused .draining)]) <+: (u.link p).outbound ∧
            u.tagState p tag = .answering) ∧
          u = quiesceCheck ((s.answered p tag (.refused .draining)).ended k t (PortSet.insert t.probed p))) ∧
      ((s.port p).state ≠ .online ∧ (∀ d, (s.port p).state ≠ .draining d) ∨ s.tagState p tag = .free →
        (u.link p).tags = (s.link p).tags ∧ u = quiesceCheck (s.ended k t (PortSet.insert t.probed p)) ∧
          ∃ m, (u.link p).outbound = (s.link p).outbound ++ List.replicate m .farewell) ∧
      ∀ q : Port, q ≠ p →
        ∃ m, u.link q = { s.link q with outbound := (s.link q).outbound ++ List.replicate m .farewell }) ∧
    (∀ (s u : State) (k : SlotId) (t : Txn), s.txn k = some t → u = complete k none s →
      (∀ p tag n, t.origin = .port p tag n → u = quiesceCheck (s.ended k t (PortSet.insert t.probed p))) ∧
        (∀ o, t.origin = .sweep o → u = s.ended k t t.probed) ∧
        ∀ q : Port,
          ∃ m, u.link q = { s.link q with outbound := (s.link q).outbound ++ List.replicate m .farewell }) ∧
    ∀ (s u : State) (k : SlotId) (t : Txn) (r : Option Response), s.txn k = some t → u = complete k r s →
      u.slot k = { gen := !(s.slot k).gen, txn := none } ∧ (∀ j : SlotId, j ≠ k → u.slot j = s.slot j) ∧
        (∀ q ∈ u.parked, q.reason = .line ∧ q.line = t.line ∨ q.reason = .set ∧ setOf q.line = setOf t.line →
          q.ready = true) ∧
        u.parked.map (fun q => { q with ready := true }) = s.parked.map fun q => { q with ready := true }

/-! ### The arbiter and the start of transactions -/

namespace Sys2Proof.Machine

/-- How far a position of the round-robin stands beyond the pointer, upward and wrapping from 8 to 0 (R74). -/
def State.beyond (s : State) (n : Fin 9) : Nat := (n.val + 9 - s.rrPointer.val) % 9

/-- The state once the head of port p's queue has been taken and leaves `rest`: it takes the next place in the
order of first takings, and the pointer moves past the port (R72, R74). -/
def State.taken (s : State) (p : Port) (rest : List Request) : State :=
  { s.setLink p { s.link p with queue := rest } with
    tx := [], nextOrder := s.nextOrder + 1, rrPointer := ⟨p.val + 1, by omega⟩ }

/-- The state once a parked request has left the list to be started again (R89). -/
def State.unparked (s : State) (q : Parked) : State := { s with tx := [], parked := s.parked.erase q }

/-- The kind is not one the port's profile permits (R71). -/
def State.mismatch (s : State) (p : Port) (kind : RequestKind) : Prop :=
  (s.port p).profile = .caching ∧ (kind = .streamRead ∨ kind = .streamWrite) ∨
    (s.port p).profile = .streaming ∧ (kind = .readShared ∨ kind = .readExclusive ∨ kind = .upgrade) ∨
    (s.port p).profile = .unused

/-- The response a permitted request's line gives at once: Untracked, or Denied (KindInRegion) to a ReadExclusive or
an Upgrade of a StreamInvalidate line (R26, Fig. 2-4). -/
inductive RegionAnswer (s : State) (kind : RequestKind) (line : LineNo) : Response → Prop
  | untracked (h : s.attrOf line = .untracked) : RegionAnswer s kind line .untracked
  | denied (h : s.attrOf line = .streamInvalidate) (hk : kind = .readExclusive ∨ kind = .upgrade) :
      RegionAnswer s kind line (.denied .kindInRegion)

/-- A request passes checks 2 and 3 of R76: its profile permits its kind and its line gives no answer at once. -/
def State.serves (s : State) (p : Port) (kind : RequestKind) (line : LineNo) : Prop :=
  ¬ s.mismatch p kind ∧ ∀ a, ¬ RegionAnswer s kind line a

/-- A transaction's record at its start (R79). -/
def openedTxn (o : Origin) (kind : TxnKind) (line : LineNo) : Txn where
  origin := o
  kind := kind
  line := line
  victim := none
  heldWay := none
  phase := none
  probes := []
  reprobed := false
  deadline := none
  targets := none
  response := none
  probed := 0

/-- A request joins the parked list in the order of first taking, or is answered Retry when all 16 places are taken
(R86). -/
def State.parkedWith (s : State) (q : Parked) : State :=
  if s.parked.length < 16 then
    { s with parked :=
        s.parked.takeWhile (fun r => decide (r.order ≤ q.order)) ++
          q :: s.parked.dropWhile (fun r => decide (r.order ≤ q.order)) }
  else s.answered q.port q.tag .retry

end Sys2Proof.Machine

/-- Whom the arbiter serves: nobody without a free slot; else, in the lowest free slot, the oldest Ready parked
request; else the competitor nearest beyond the round-robin pointer. A port competes with a queue head while it is
Online or Draining and the service state is Running or Halted; the sweep engine while its running job is not a
Cleanup or PoisonClear, has a Pending line, and fewer than 4 of its transactions are active. -/
def Obligations.ArbiterServesInOrder : Prop :=
  (∀ s : State, (∀ k : SlotId, s.txn k ≠ none) → s.handOut = none) ∧
    (∀ (s : State) (k : SlotId), s.txn k = none → (∀ j : SlotId, j < k → s.txn j ≠ none) →
      (∀ (q : Parked) (older younger : List Parked), s.parked = older ++ q :: younger → q.ready = true →
          (∀ r ∈ older, r.ready = false) → s.handOut = some (.parked k q)) ∧
        ((∀ q ∈ s.parked, q.ready = false) →
          (∀ p : Port, s.presentAt ⟨p.val, by omega⟩ = true →
            (∀ m, s.presentAt m = true → s.beyond ⟨p.val, by omega⟩ ≤ s.beyond m) →
            s.handOut = some (.head k p)) ∧
          (s.presentAt 8 = true → (∀ m, s.presentAt m = true → s.beyond 8 ≤ s.beyond m) →
            s.handOut = some (.sweep k)) ∧
          ((∀ m, s.presentAt m = false) → s.handOut = none))) ∧
    ∀ s : State,
      (∀ p : Port, s.presentAt ⟨p.val, by omega⟩ = true ↔
        (s.link p).queue ≠ [] ∧ ((s.port p).state = .online ∨ ∃ d, (s.port p).state = .draining d) ∧
          (s.service = .running ∨ s.service = .halted)) ∧
      (s.presentAt 8 = true ↔
        (∃ j rest, s.sweep.jobs = j :: rest ∧ (∀ p, j ≠ .cleanup p) ∧ j ≠ .poisonClear) ∧
          (∃ l, (l, .pending) ∈ s.sweep.workList) ∧ s.sweepActive < 4)

/-- TAKE_QUEUE_HEAD takes the head of an Online port's queue through the checks of R76, in their order: Refused
(Halted), Refused (KindNotPermitted), Untracked and Denied (KindInRegion) are answered at once (a request whose tag is
Free gets no response, R44 and log 25), the slot given back;
a request for a claimed line parks with reason Line; any other is started with its record in the slot. The pointer of
the round-robin moves past the port served. The model's choice (log 3): with no head to serve the command changes
nothing. -/
def Obligations.QueueHeadIsServed : Prop :=
  (∀ (s : State) (k : SlotId) (p : Port) (r : Request) (rest : List Request), s.inReset = false →
      s.handOut = some (.head k p) → (s.link p).queue = r :: rest → (s.port p).state = .online →
      (s.service = .halted →
        exec .takeQueueHead s =
          .next (((s.taken p rest).answered p r.tag (.refused .halted)).givenBack k)) ∧
        (s.service ≠ .halted → s.mismatch p r.kind →
          exec .takeQueueHead s =
            .next (((s.taken p rest).answered p r.tag (.refused .kindNotPermitted)).givenBack k)) ∧
        (s.service ≠ .halted → ¬ s.mismatch p r.kind → ∀ a, RegionAnswer s r.kind r.line a →
          exec .takeQueueHead s = .next (((s.taken p rest).answered p r.tag a).givenBack k)) ∧
        (s.service ≠ .halted → s.serves p r.kind r.line → s.claimed r.line = true →
          exec .takeQueueHead s =
            .next (((s.taken p rest).givenBack k).parkedWith
              { port := p, tag := r.tag, kind := r.kind, line := r.line, order := s.nextOrder
                reason := .line, ready := false })) ∧
        (s.service ≠ .halted → s.serves p r.kind r.line → s.claimed r.line = false →
          exec .takeQueueHead s =
            .next (startHandling k p r.kind r.line
              ((s.taken p rest).setTxn k
                (openedTxn (.port p r.tag s.nextOrder) (.request r.kind) r.line))))) ∧
    ∀ s : State, s.inReset = false → (∀ k p, s.handOut ≠ some (.head k p)) →
      exec .takeQueueHead s = .next s.begun

/-- RESTART_PARKED takes the oldest Ready parked request of an Online port through the checks of R76 but the first,
in any service state but Quiescing, where the same is followed by the report of R91: the request keeps its order,
and one that must park again returns to its place. The model's choices: a request whose tag a link loss has freed gets
no response (log 25), and with no Ready request to serve the command changes nothing (log 3). -/
def Obligations.ReadyRequestIsRestarted : Prop :=
  (∀ (s : State) (k : SlotId) (q : Parked), s.inReset = false → s.handOut = some (.parked k q) →
      (s.port q.port).state = .online →
      (s.service ≠ .quiescing → s.mismatch q.port q.kind →
        exec .restartParked s =
          .next (((s.unparked q).answered q.port q.tag (.refused .kindNotPermitted)).givenBack k)) ∧
        (s.service ≠ .quiescing → ¬ s.mismatch q.port q.kind → ∀ a, RegionAnswer s q.kind q.line a →
          exec .restartParked s = .next (((s.unparked q).answered q.port q.tag a).givenBack k)) ∧
        (s.serves q.port q.kind q.line → s.claimed q.line = true →
          exec .restartParked s =
            .next (quiesceCheck (((s.unparked q).givenBack k).parkedWith { q with reason := .line, ready := false }))) ∧
        (s.serves q.port q.kind q.line → s.claimed q.line = false →
          exec .restartParked s =
            .next (startHandling k q.port q.kind q.line
              ((s.unparked q).setTxn k
                (openedTxn (.port q.port q.tag q.order) (.request q.kind) q.line))))) ∧
    ∀ s : State, s.inReset = false → (∀ k q, s.handOut ≠ some (.parked k q)) →
      exec .restartParked s = .next s.begun

/-- The start of a phase with probes: the transaction records its phase, its unanswered probes, No as reprobed mark
and a deadline from now with the probe interval; one probe with the slot and its generation is queued to each target
and to no other port; nothing else changes. -/
def Obligations.PhaseStartQueuesItsProbes : Prop :=
  ∀ (s u : State) (k : SlotId) (t : Txn) (ph : Phase) (l : LineNo) (g : RecallTargets), s.txn k = some t →
    u = issueProbes k ph l g s →
    u.txn k = some { t with
        phase := some ph
        probes := (PortSet.members g.ports).map fun q =>
          { port := q, kind := g.kind, role := g.role, outcome := none }
        reprobed := false
        deadline := some { start := s.now, interval := s.probeInterval }
        probed := PortSet.union t.probed g.ports } ∧
      (∀ p : Port, u.link p =
        if PortSet.has g.ports p then
          { s.link p with
            outbound := (s.link p).outbound ++ [.probe k (s.slot k).gen l g.kind] }
        else s.link p) ∧
      (∀ j : SlotId, j ≠ k → u.slot j = s.slot j) ∧ (u.slot k).gen = (s.slot k).gen ∧
      u = { s with links := u.links, slots := u.slots }

/-- The start of a caching request on what a changing lookup finds of its line: allocation for an absent line,
Poisoned for a Poisoned one, a grant where no other port stands in the way, and otherwise probes to the holder
(ProbeDowngrade for a ReadShared, ProbeInvalidate else) or to the other sharers. -/
def Obligations.CachingRequestIsStarted : Prop :=
  ∀ (s u : State) (k : SlotId) (p : Port) (kind : RequestKind) (l : LineNo),
    kind = .readShared ∨ kind = .readExclusive ∨ kind = .upgrade → u = changingLookup l s →
    (u.stored l = none → startHandling k p kind l s = allocate k p kind l u) ∧
      (∀ w c q, u.stored l = some (w, .poisoned c q) →
        startHandling k p kind l s = complete k (some .poisoned) u) ∧
      (∀ w, u.stored l = some (w, .exclusive p) →
        startHandling k p kind l s =
          complete k (some (.grantExclusive false)) (grant (setOf l) w (.exclusive p) u)) ∧
      (∀ w h, u.stored l = some (w, .exclusive h) → h ≠ p →
        startHandling k p kind l s =
          issueProbes k .probing l
            ⟨PortSet.single h, if kind = .readShared then .downgrade else .invalidate, .holder⟩ u) ∧
      (∀ w S, u.stored l = some (w, .shared S) →
        (kind = .readShared →
          startHandling k p kind l s =
            complete k (some .grantShared) (grant (setOf l) w (.shared (PortSet.insert S p)) u)) ∧
          (kind ≠ .readShared → PortSet.diff S (PortSet.single p) = 0 →
            startHandling k p kind l s =
              complete k (some (.grantExclusive (!PortSet.has S p)))
                (grant (setOf l) w (.exclusive p) u)) ∧
          (kind ≠ .readShared → PortSet.diff S (PortSet.single p) ≠ 0 →
            startHandling k p kind l s =
              issueProbes k .probing l
                ⟨PortSet.diff S (PortSet.single p), .invalidate, .sharer⟩ u))

/-- The start of a streaming request: a StreamRead leases an absent or Shared line at once and downgrades a holder; a
StreamWrite allocates a way for an absent line, and holds the way of a Shared or Exclusive one while it probes every
holder with ProbeInvalidate; a Poisoned line answers Poisoned. The entry to Leased queues StreamGo to an Online
origin, its tag Answering, but none for a tag that a link loss has freed (the model's choice, log 25), and starts the
lease deadline with the lease interval; for any other origin the
transaction completes without it. -/
def Obligations.StreamingRequestIsStarted : Prop :=
  (∀ (s u : State) (k : SlotId) (p : Port) (l : LineNo), u = changingLookup l s →
      (u.stored l = none →
        startHandling k p .streamRead l s = enterLease k p u ∧
          startHandling k p .streamWrite l s = allocate k p .streamWrite l u) ∧
        (∀ w S, u.stored l = some (w, .shared S) →
          startHandling k p .streamRead l s = enterLease k p u ∧
            startHandling k p .streamWrite l s =
              issueProbes k .probing l ⟨S, .invalidate, .sharer⟩
                (u.modifyTxn k fun t => { t with heldWay := some w })) ∧
        (∀ w h, u.stored l = some (w, .exclusive h) →
          startHandling k p .streamRead l s =
              issueProbes k .probing l ⟨PortSet.single h, .downgrade, .holder⟩ u ∧
            startHandling k p .streamWrite l s =
              issueProbes k .probing l ⟨PortSet.single h, .invalidate, .holder⟩
                (u.modifyTxn k fun t => { t with heldWay := some w })) ∧
        ∀ w c q, u.stored l = some (w, .poisoned c q) →
          startHandling k p .streamRead l s = complete k (some .poisoned) u ∧
            startHandling k p .streamWrite l s = complete k (some .poisoned) u) ∧
    ∀ (s : State) (k : SlotId) (t : Txn) (p : Port) (tag : Tag) (n : Nat), s.txn k = some t →
      t.origin = .port p tag n →
      ((s.port p).state = .online →
        enterLease k p s =
          (s.setTxn k { t with
            phase := some .leased, response := none
            deadline := some { start := s.now, interval := s.leaseInterval } }).answered p tag .streamGo) ∧
        ((s.port p).state ≠ .online → enterLease k p s = complete k (some (.refused .draining)) s)

/-- The allocation of a way for an absent line, on the outcome of the way search after its lookups. These are a changing
lookup of every way of the set, 0 to 7: it stores an Exclusive entry of an Isolated holder as Poisoned, HolderLost, takes
the Isolated sharers out of a Shared one and retires it when none is left, and leaves any other and an empty way. On a Free way a
caching request of an Online port is placed and granted and a StreamWrite reserves the way and enters its lease; on a
victim the way is held, the victim's line claimed and its holders probed; with no room for now the request of an
Online port parks with reason Set; with none at all it is answered Denied (NoRoom). A transaction that parks so frees its
slot with the generation toggled, releases its claim, has its ports tested, and its request joins the list as Waiting,
in the order of first taking, or is answered Retry when 16 are parked, its tag Answering unless a link loss has freed it
(the model's choice, log 25); the end of port-origin work is reported if it has come. -/
def Obligations.AllocationFollowsTheSearch : Prop :=
  (∀ (s u v : State) (k : SlotId) (t : Txn) (p : Port) (tag : Tag) (n : Nat) (kind : RequestKind) (q : Parked),
    s.txn k = some t → t.origin = .port p tag n → t.kind = .request kind → (s.port p).state = .online →
    u = parkOnSet k s →
    q = { port := p, tag := tag, kind := kind, line := t.line, order := n, reason := .set, ready := false } →
    v = (releaseClaim t.line (s.givenBack k)).tested (PortSet.insert t.probed p) →
    u = quiesceCheck (v.parkedWith q) ∧
      u.slot k = { gen := !(s.slot k).gen, txn := none } ∧ (∀ j : SlotId, j ≠ k → u.slot j = s.slot j) ∧
      v.parked.length = s.parked.length ∧
      (s.parked.length < 16 → q ∈ u.parked ∧ u.parked.length = s.parked.length + 1) ∧
      (16 ≤ s.parked.length → u.parked = v.parked ∧
        u.tagState p tag = if s.tagState p tag = .free then .free else .answering) ∧
      ∀ r ∈ v.parked, r.reason = .line ∧ r.line = t.line ∨ r.reason = .set ∧ setOf r.line = setOf t.line →
        r.ready = true) ∧
  (∀ (s : State) (i : SetIdx), scrubSet i s = (List.finRange 8).foldl (fun x w => scrubWay i w x) s) ∧
  (∀ (s : State) (i : SetIdx) (w : Way),
    (s.way i w = none → scrubWay i w s = s) ∧
      ∀ e, s.way i w = some e →
        (∀ c q, e.state = .poisoned c q → scrubWay i w s = s) ∧
          (∀ h, e.state = .exclusive h →
            ((∀ d, (s.port h).state ≠ .isolated d) → scrubWay i w s = s) ∧
              ((∃ d, (s.port h).state = .isolated d) →
                scrubWay i w s = poisonRise (rewrite i w (.poisoned .holderLost h) s))) ∧
          ∀ S S', e.state = .shared S → S' = PortSet.diff S s.isolatedPorts →
            (S' = S → scrubWay i w s = s) ∧
              (S' ≠ S → S' = 0 → scrubWay i w s = retire i w s) ∧
              (S' ≠ S → S' ≠ 0 → scrubWay i w s = rewrite i w (.shared S') s)) ∧
  ∀ (s u : State) (k : SlotId) (p : Port) (kind : RequestKind) (l : LineNo), u = scrubSet (setOf l) s →
    (∀ w, u.searchOutcome (setOf l) = .free w →
      (kind = .readShared → (s.port p).state = .online →
        allocate k p kind l s =
          complete k (some .grantShared)
            (place (setOf l) w { tag := entryTag l, state := .shared (PortSet.single p) }
              (u.modifyTxn k fun t => { t with heldWay := none }))) ∧
        (kind = .readExclusive ∨ kind = .upgrade → (s.port p).state = .online →
          allocate k p kind l s =
            complete k (some (.grantExclusive true))
              (place (setOf l) w { tag := entryTag l, state := .exclusive p }
                (u.modifyTxn k fun t => { t with heldWay := none }))) ∧
        (kind = .streamWrite →
          allocate k p kind l s = enterLease k p (u.modifyTxn k fun t => { t with heldWay := some w })) ∧
        (kind ≠ .streamWrite → (s.port p).state ≠ .online →
          allocate k p kind l s = complete k (some (.refused .draining)) u)) ∧
      (∀ w e, u.searchOutcome (setOf l) = .victim w → u.way (setOf l) w = some e →
        allocate k p kind l s =
          issueProbes k .victimProbing (lineOf (setOf l) e.tag)
            ⟨e.state.holders.1, .invalidate, e.state.holders.2⟩
            (u.modifyTxn k fun t =>
              { t with victim := some (lineOf (setOf l) e.tag), heldWay := some w })) ∧
      (u.searchOutcome (setOf l) = .noRoomForNow →
        ((s.port p).state = .online → allocate k p kind l s = parkOnSet k u) ∧
          ((s.port p).state ≠ .online →
            allocate k p kind l s = complete k (some (.refused .draining)) u)) ∧
      (u.searchOutcome (setOf l) = .noRoom →
        allocate k p kind l s = complete k (some (.denied .noRoom)) u)

/-! ### The ends of phases -/

/-- The end of a phase of a request of port p on line l, s as it stands once the transaction's probe set and mark are
emptied and its deadline cancelled: a Poisoned line answers Poisoned; a caching request grants on what the outcomes
leave, or, its port no longer Online, stores that and is answered Refused (Draining); a streaming request stores it
and enters its lease. -/
def Obligations.ProbingEndsByKind : Prop :=
  ∀ (s b u : State) (k : SlotId) (t : Txn) (p : Port) (tag : Tag) (n : Nat) (kind : RequestKind),
    s.txn k = some t → t.origin = .port p tag n → t.kind = .request kind → t.phase = some .probing →
    b = s.setTxn k { t with phase := none, probes := [], reprobed := false, deadline := none } →
    u = changingLookup t.line b →
    (∀ w c q, u.stored t.line = some (w, .poisoned c q) →
      (kind ≠ .streamWrite → phaseEnd k s = complete k (some .poisoned) u) ∧
        (kind = .streamWrite →
          phaseEnd k s =
            complete k (some .poisoned) (u.modifyTxn k fun t => { t with heldWay := none }))) ∧
      (∀ w x, u.stored t.line = some (w, x) → x.isPoisoned = false →
        (kind = .streamRead ∨ kind = .streamWrite →
          phaseEnd k s =
            enterLease k p (storeResidue (setOf t.line) w (applyOutcomes t.probes x) u)) ∧
          (kind = .readShared ∨ kind = .readExclusive ∨ kind = .upgrade →
            ((u.port p).state = .online →
              ∀ y r, grantResult kind p (applyOutcomes t.probes x) = some (y, r) →
                phaseEnd k s = complete k (some r) (grant (setOf t.line) w y u)) ∧
              ((u.port p).state ≠ .online →
                phaseEnd k s =
                  complete k (some (.refused .draining))
                    (storeResidue (setOf t.line) w (applyOutcomes t.probes x) u)))) ∧
      (u.stored t.line = none →
        (kind = .streamRead ∨ kind = .streamWrite → phaseEnd k s = enterLease k p u) ∧
          (kind = .readShared ∨ kind = .readExclusive ∨ kind = .upgrade →
            ((u.port p).state ≠ .online → phaseEnd k s = complete k (some (.refused .draining)) u) ∧
              ((u.port p).state = .online →
                (∀ w y r, (scrubSet (setOf t.line) u).searchOutcome (setOf t.line) = .free w →
                  grantResult kind p none = some (y, r) →
                  phaseEnd k s =
                    complete k (some r)
                      (place (setOf t.line) w { tag := entryTag t.line, state := y }
                        ((scrubSet (setOf t.line) u).modifyTxn k fun t => { t with heldWay := none }))) ∧
                  ((∀ w, (scrubSet (setOf t.line) u).searchOutcome (setOf t.line) ≠ .free w) →
                    phaseEnd k s = complete k (some .retry) (scrubSet (setOf t.line) u)))))

/-- The end of a sweep recall and of a victim recall: a sweep recall stores what the outcomes leave of the entry and
completes; a victim way whose entry has become Poisoned is let go and the search made again, and any other is emptied
for the transaction, the claim on the victim line released in both. In the emptied way a caching request of an Online
port is placed and granted, a ReadShared Shared, the others Exclusive and fresh; one whose port is not Online places
nothing and is answered Refused (Draining); a StreamWrite holds the way and comes to the entry of its lease. -/
def Obligations.RecallsEnd : Prop :=
  (∀ (s : State) (k : SlotId) (p : Port) (l : LineNo) (w : Way),
      ((s.port p).state = .online →
        takeWay k p .readShared l w s =
            complete k (some .grantShared)
              (place (setOf l) w { tag := entryTag l, state := .shared (PortSet.single p) }
                (s.modifyTxn k fun t => { t with heldWay := none })) ∧
          ∀ kind, kind = .readExclusive ∨ kind = .upgrade →
            takeWay k p kind l w s =
              complete k (some (.grantExclusive true))
                (place (setOf l) w { tag := entryTag l, state := .exclusive p }
                  (s.modifyTxn k fun t => { t with heldWay := none }))) ∧
        ((s.port p).state ≠ .online → ∀ kind, kind ≠ .streamWrite →
          takeWay k p kind l w s = complete k (some (.refused .draining)) s) ∧
        takeWay k p .streamWrite l w s =
          enterLease k p (s.modifyTxn k fun t => { t with heldWay := some w })) ∧
  (∀ (s b u : State) (k : SlotId) (t : Txn) (o : SweepOwner), s.txn k = some t → t.origin = .sweep o →
      t.kind = .sweepRecall → t.phase = some .probing →
      b = s.setTxn k { t with phase := none, probes := [], reprobed := false, deadline := none } →
      u = changingLookup t.line b →
      (∀ w x, u.stored t.line = some (w, x) → x.isPoisoned = false →
        phaseEnd k s =
          complete k none (storeResidue (setOf t.line) w (applyOutcomes t.probes x) u)) ∧
        (u.stored t.line = none → phaseEnd k s = complete k none u) ∧
        ∀ w c q, u.stored t.line = some (w, .poisoned c q) → phaseEnd k s = complete k none u) ∧
    ∀ (s b u : State) (k : SlotId) (t : Txn) (p : Port) (tag : Tag) (n : Nat) (kind : RequestKind)
      (v : LineNo) (w : Way), s.txn k = some t → t.origin = .port p tag n → t.kind = .request kind →
      t.phase = some .victimProbing → t.victim = some v → t.heldWay = some w →
      b = s.setTxn k { t with phase := none, probes := [], reprobed := false, deadline := none } →
      u = scrubWay (setOf t.line) w b →
      (∀ e, u.way (setOf t.line) w = some e → e.state.isPoisoned = true →
        phaseEnd k s =
          allocate k p kind t.line
            (releaseClaim v (u.modifyTxn k fun t => { t with victim := none, heldWay := none }))) ∧
        ((∀ e, u.way (setOf t.line) w = some e → e.state.isPoisoned = false) →
          phaseEnd k s =
            takeWay k p kind t.line w
              (releaseClaim v
                ((retire (setOf t.line) w u).modifyTxn k fun t => { t with victim := none })))

/-- What the outcomes of a probe set leave of an entry, and what is granted on it. A probed port has given the line
up by any answer to ProbeInvalidate and by Absent to ProbeDowngrade, keeps a copy by Clean or Written to
ProbeDowngrade, and stays recorded when its probe is Lost. A ReadShared adds its port to the sharers or is the first;
a ReadExclusive or an Upgrade makes its port the holder, fresh unless it was a sharer. Where what is left is stored, the
entry's state is rewritten to it, and an entry with no sharer and no holder left is retired. -/
def Obligations.ProbeOutcomesDecideTheGrant : Prop :=
  (∀ (s : State) (i : SetIdx) (w : Way),
      (∀ y, storeResidue i w (some y) s = rewrite i w y s) ∧ storeResidue i w none s = retire i w s) ∧
  (∀ (h : Port) (m : Probe), m.port = h →
      (m.kind = .invalidate ∧ (m.outcome = some .clean ∨ m.outcome = some .written) ∨ m.outcome = some .absent →
        applyOutcomes [m] (.exclusive h) = none) ∧
        (m.kind = .downgrade ∧ (m.outcome = some .clean ∨ m.outcome = some .written) →
          applyOutcomes [m] (.exclusive h) = some (.shared (PortSet.single h))) ∧
        (m.outcome = some .lost → applyOutcomes [m] (.exclusive h) = some (.exclusive h))) ∧
    (∀ (S : PortSet) (probes : List Probe) (gone : Port → Prop),
      (∀ q, gone q ↔ ∃ m ∈ probes, m.port = q ∧
        (m.kind = .invalidate ∧ (m.outcome = some .clean ∨ m.outcome = some .written) ∨
          m.outcome = some .absent)) →
      ((∀ q, PortSet.has S q = true → gone q) → applyOutcomes probes (.shared S) = none) ∧
        ((∃ q, PortSet.has S q = true ∧ ¬ gone q) →
          ∃ S', applyOutcomes probes (.shared S) = some (.shared S') ∧
            ∀ q, PortSet.has S' q = true ↔ PortSet.has S q = true ∧ ¬ gone q)) ∧
      ∀ (p : Port) (S : PortSet) (kind : RequestKind),
        grantResult .readShared p none = some (.shared (PortSet.single p), .grantShared) ∧
          grantResult .readShared p (some (.shared S)) = some (.shared (PortSet.insert S p), .grantShared) ∧
          (kind = .readExclusive ∨ kind = .upgrade →
            grantResult kind p none = some (.exclusive p, .grantExclusive true) ∧
              grantResult kind p (some (.shared S)) =
                some (.exclusive p, .grantExclusive (!PortSet.has S p)))

/-! ### Sweep recalls and deadlines -/

namespace Sys2Proof.Machine

/-- A region change recalls an entry of a line, with this kind of probe: the line's attribute now, its attribute
after, the entry (Fig. 2-5). -/
inductive RegionRecall : Attribute → Attribute → EntryState → ProbeKind → Prop
  | narrowed (h : Port) : RegionRecall .tracked .streamInvalidate (.exclusive h) .downgrade
  | leftShared (now : Attribute) (hn : now ≠ .untracked) (S : PortSet) :
      RegionRecall now .untracked (.shared S) .invalidate
  | leftHeld (now : Attribute) (hn : now ≠ .untracked) (h : Port) :
      RegionRecall now .untracked (.exclusive h) .invalidate

/-- A line's attribute under the region table with record i replaced by r (2.5). -/
def State.attrAfter (s : State) (i : RegionIdx) (r : Region) (l : LineNo) : Attribute :=
  { s with regions := s.regions.set i r }.attrOf l

/-- An entry of line l matches a job (Fig. 9-2). -/
inductive Matching (s : State) (l : LineNo) : Job → EntryState → Prop
  | drain (p : Port) (x : EntryState) (h : x.records p = true) : Matching s l (.drain p) x
  | cleanup (p : Port) (x : EntryState) (h : x.records p = true) : Matching s l (.cleanup p) x
  | flush (base limit : Page) (x : EntryState) (hx : x.isPoisoned = false) (hb : base ≤ pageOf l)
      (hl : pageOf l ≤ limit) : Matching s l (.flush base limit) x
  | regionChange (i : RegionIdx) (r : Region) (x : EntryState) (k : ProbeKind)
      (h : RegionRecall (s.attrOf l) (s.attrAfter i r l) x k) : Matching s l (.regionChange i r) x
  | poisonClear (c : PoisonCause) (q : Port) : Matching s l .poisonClear (.poisoned c q)

/-- The walker finds that line l matches a job: by the entry as an observing lookup reports it for a Drain, a Flush
or a PoisonClear, by the stored entry for a Cleanup or a RegionChange (R146). -/
def State.finds (s : State) (l : LineNo) : Job → Prop
  | .drain p => ∃ w x, s.observed l = some (w, x) ∧ Matching s l (.drain p) x
  | .flush base limit => ∃ w x, s.observed l = some (w, x) ∧ Matching s l (.flush base limit) x
  | .poisonClear => ∃ w x, s.observed l = some (w, x) ∧ Matching s l .poisonClear x
  | .cleanup p => ∃ w x, s.stored l = some (w, x) ∧ Matching s l (.cleanup p) x
  | .regionChange i r => ∃ w x, s.stored l = some (w, x) ∧ Matching s l (.regionChange i r) x

/-- The job's work on an entry is a direct edit (Fig. 9-2). -/
def Job.direct : Job → Prop
  | .cleanup _ => True
  | .poisonClear => True
  | .drain _ => False
  | .flush _ _ => False
  | .regionChange _ _ => False

/-- The recall targets of a job for an entry of line l as the recall's start lookup finds it (Fig. 9-3). -/
inductive Targets (s : State) (l : LineNo) : Job → EntryState → RecallTargets → Prop
  | drainShared (p : Port) (S : PortSet) (h : PortSet.has S p = true) :
      Targets s l (.drain p) (.shared S) ⟨PortSet.single p, .invalidate, .sharer⟩
  | drainHeld (p : Port) : Targets s l (.drain p) (.exclusive p) ⟨PortSet.single p, .invalidate, .holder⟩
  | flushShared (base limit : Page) (S : PortSet) :
      Targets s l (.flush base limit) (.shared S) ⟨S, .invalidate, .sharer⟩
  | flushHeld (base limit : Page) (h : Port) :
      Targets s l (.flush base limit) (.exclusive h) ⟨PortSet.single h, .invalidate, .holder⟩
  | regionShared (i : RegionIdx) (r : Region) (S : PortSet) (k : ProbeKind)
      (hk : RegionRecall (s.attrOf l) (s.attrAfter i r l) (.shared S) k) :
      Targets s l (.regionChange i r) (.shared S) ⟨S, k, .sharer⟩
  | regionHeld (i : RegionIdx) (r : Region) (h : Port) (k : ProbeKind)
      (hk : RegionRecall (s.attrOf l) (s.attrAfter i r l) (.exclusive h) k) :
      Targets s l (.regionChange i r) (.exclusive h) ⟨PortSet.single h, k, .holder⟩

/-- The work list with line l given a status. -/
def State.marked (s : State) (l : LineNo) (st : WorkStatus) : State :=
  { s with sweep := { s.sweep with
    workList := s.sweep.workList.map fun x => if x.1 = l then (l, st) else x } }

/-- A slot's record with recall targets, in the state in which the job has counted the recall if it is a command's
(R149). -/
def State.recalling (s : State) (k : SlotId) (j : Job) (l : LineNo) (g : RecallTargets) : State :=
  { s.setTxn k { openedTxn (.sweep j.owner) .sweepRecall l with targets := some g } with
    sweep := { s.sweep with jobCount := s.sweep.jobCount + if j.isCommand then 1 else 0 } }

end Sys2Proof.Machine

/-- START_SWEEP_RECALL on the first Pending line of the running job: a claimed line gives the slot back and becomes
Waiting; an unclaimed one is claimed and Handled, and a changing lookup is made of it. Its targets (Fig. 9-3,
Fig. 2-5) are recorded and probed, and a Flush or RegionChange counts the recall; without any the recall completes at
once. While another line is not Handled the walker stays; at the last it leaves for the sets beyond its own (log 5). The release of a claim has a Waiting line judged again: one that no longer matches is Handled, one
that matches is Pending, or edited and Handled by a Cleanup or a PoisonClear; it makes Ready the requests parked on
the line or, with reason Set, on its set. The model's choice (log 3): with no sweep recall to serve the command
changes nothing. -/
def Obligations.SweepRecallIsStarted : Prop :=
  (∀ (s b u : State) (k : SlotId) (j : Job) (rest : List Job) (l : LineNo), s.inReset = false →
      s.handOut = some (.sweep k) → s.sweep.jobs = j :: rest → s.firstPending = some l →
      (s.claimed l = true →
        exec .startSweepRecall s =
          .next { (s.givenBack k).marked l .waiting with tx := [], rrPointer := 0 }) ∧
        (s.claimed l = false →
          b = { (s.setTxn k (openedTxn (.sweep j.owner) .sweepRecall l)).marked l .handled with
            tx := [], rrPointer := 0 } →
          u = changingLookup l b →
          (∀ w x g, u.stored l = some (w, x) → Targets u l j x g →
            exec .startSweepRecall s =
                .next (leaveIfHandled (issueProbes k .probing l g (u.recalling k j l g))) ∧
              ((∃ y ∈ s.sweep.workList, y.1 ≠ l ∧ y.2 ≠ .handled) →
                ∃ t, exec .startSweepRecall s = .next t ∧
                  t = issueProbes k .probing l g (u.recalling k j l g) ∧
                  t.sweep = { (s.marked l .handled).sweep with
                    jobCount := s.sweep.jobCount + if j.isCommand then 1 else 0 })) ∧
            ((∀ w x g, u.stored l = some (w, x) → ¬ Targets u l j x g) →
              exec .startSweepRecall s = .next (leaveIfHandled (complete k none u)) ∧
                ∀ i : SetIdx, s.sweep.walker = .atSet i →
                  (∃ y ∈ s.sweep.workList, y.1 ≠ l ∧ y.2 ≠ .handled) →
                  ∃ t, exec .startSweepRecall s = .next t ∧
                    t.slot k = { gen := !(s.slot k).gen, txn := none } ∧
                    t.sweep = (s.marked l .handled).sweep))) ∧
    (∀ s : State, s.inReset = false → (∀ k, s.handOut ≠ some (.sweep k)) →
      exec .startSweepRecall s = .next s.begun) ∧
    (∀ s : State,
      ((∃ y ∈ s.sweep.workList, y.2 ≠ .handled) → leaveIfHandled s = s) ∧
        ∀ (j : Job) (rest : List Job) (i : SetIdx), s.sweep.jobs = j :: rest → s.sweep.walker = .atSet i →
          (∀ y ∈ s.sweep.workList, y.2 = .handled) →
          leaveIfHandled s =
            advance (walkOn j (i.val + 1) s)) ∧
    (∀ (s : State) (l : LineNo), releaseClaim l s =
      sweepRelease l
        { s with parked := s.parked.map fun q : Parked =>
          { q with
            ready := q.ready || decide (q.reason = .line ∧ q.line = l ∨
              q.reason = .set ∧ Machine.setOf q.line = Machine.setOf l) } }) ∧
    ∀ (s : State) (l : LineNo),
      ((l, .waiting) ∉ s.sweep.workList ∨ s.sweep.jobs = [] → sweepRelease l s = s) ∧
        ∀ (j : Job) (rest : List Job) (u : State), s.sweep.jobs = j :: rest → (l, .waiting) ∈ s.sweep.workList →
          u = walkerLookup j l s →
          (¬ u.finds l j → sweepRelease l s = leaveIfHandled (u.marked l .handled)) ∧
            (u.finds l j → ¬ j.direct → sweepRelease l s = u.marked l .pending) ∧
            (u.finds l j → j.direct →
              sweepRelease l s = leaveIfHandled ((directEdit j l u).marked l .handled))

/-- The expiry of a due deadline: a first probe deadline marks the transaction, runs again with the probe interval
and repeats each unanswered probe, for the victim line in VictimProbing; a second one reports ProbeTimeout for every
port still unanswered, so that each that is not Unused or Isolated is isolated, reason ProbeTimeout, or stands reported
(log 24), and a port that has answered or was never probed is neither reported nor isolated by it; a lease deadline
isolates its port, reason LeaseTimeout. A report stands until its port is Isolated, whatever arrives meanwhile. The
model's choice (log 3): a command whose deadline is not due changes nothing. -/
def Obligations.DeadlinesExpire : Prop :=
  (∀ (s : State) (k : SlotId) (t : Txn) (d : Deadline), s.inReset = false → s.txn k = some t →
      t.deadline = some d → d.start + d.interval ≤ s.now →
      (t.phase = some .probing ∨ t.phase = some .victimProbing →
        (t.reprobed = false →
          ∀ l, t.ProbesLine l → ∃ u, exec (.reprobe k) s = .next u ∧
            u.txn k = some { t with
              reprobed := true, deadline := some { start := s.now, interval := s.probeInterval } } ∧
            (∀ p : Port, u.link p = { s.link p with
              outbound := (s.link p).outbound ++
                (t.probes.filter fun m => m.outcome.isNone && decide (m.port = p)).map fun m =>
                  .probe k (s.slot k).gen l m.kind }) ∧
            u = { s.begun with links := u.links, slots := u.slots } ∧
            (∀ j : SlotId, j ≠ k → u.slot j = s.slot j) ∧ (u.slot k).gen = (s.slot k).gen) ∧
          (t.reprobed = true →
            ∃ u, exec (.probeTimeout k) s = .next u ∧
              ∀ p : Port,
                (t.awaits p = true → s.joined p →
                  PortSet.has u.reported p = true ∨
                    (∃ c, (u.port p).state = .isolated c) ∧ (u.port p).reason = .probeTimeout) ∧
                  (t.awaits p = false →
                    PortSet.has u.reported p = PortSet.has s.reported p ∧
                      (u.port p).reason = (s.port p).reason ∧
                      ((∃ c, (u.port p).state = .isolated c) → ∃ c, (s.port p).state = .isolated c)))) ∧
        ∀ p : Port, t.phase = some .leased → t.originPort = some p →
          exec (.leaseTimeout k) s = .next (isolate p .leaseTimeout s.begun)) ∧
    (∀ (c : Instr) (s u : State) (p : Port), c.wellFormed = true → c ≠ .clearIsolation → c.resets = false →
      PortSet.has s.reported p = true → exec c s = .next u →
      PortSet.has u.reported p = true ∨ ∃ d, (u.port p).state = .isolated d) ∧
    ∀ (s : State) (k : SlotId), s.inReset = false →
      (∀ t d, s.txn k = some t → t.deadline = some d → s.now < d.start + d.interval) →
      exec (.reprobe k) s = .next s.begun ∧ exec (.probeTimeout k) s = .next s.begun ∧
        exec (.leaseTimeout k) s = .next s.begun

/-- The isolation of a port ends its leases: each Leased transaction of the port leaves its slot, the generation
toggled; a StreamWrite's reserved way takes a Poisoned entry, LeaseLost, with the port as poison port. Its parked
requests are gone and its tags Free. -/
def Obligations.IsolationEndsLeases : Prop :=
  (∀ (s u : State) (p : Port) (reason : IsolationReason), s.joined p → u = isolate p reason s →
      (∀ (k : SlotId) (t : Txn), s.txn k = some t → t.phase = some .leased → t.originPort = some p →
        u.slot k = { gen := !(s.slot k).gen, txn := none }) ∧
        (∀ q ∈ u.parked, q.port ≠ p) ∧ ∀ g : Tag, u.tagState p g = .free) ∧
    ∀ (s : State) (k : SlotId) (t : Txn) (p : Port) (w : Way), s.txn k = some t → t.phase = some .leased →
      t.kind = .request .streamWrite → t.heldWay = some w →
      endByIsolation p k s =
        complete k none
          (place (setOf t.line) w { tag := entryTag t.line, state := .poisoned .leaseLost p }
            (s.setTxn k { t with heldWay := none, deadline := none }))

/-! ### The directory table and the region table -/

/-- The lookups of a line. Of an absent or a Poisoned line neither kind stores anything. An Exclusive entry is stored
as Poisoned, HolderLost, by either kind when its holder is Isolated, and left otherwise. Of a Shared entry a changing
lookup takes the Isolated sharers out, retiring the entry when none is left; an observing lookup stores nothing and
reports the entry without them. -/
def Obligations.LookupsFilterIsolatedPorts : Prop :=
  (∀ (s : State) (p : Port), PortSet.has s.isolatedPorts p = true ↔ ∃ d, (s.port p).state = .isolated d) ∧
    ∀ (s : State) (l : LineNo), s.dir.Wf →
      (s.stored l = none → changingLookup l s = s ∧ observingLookup l s = s ∧ s.observed l = none) ∧
        (∀ w c q, s.stored l = some (w, .poisoned c q) →
          changingLookup l s = s ∧ observingLookup l s = s ∧ s.observed l = some (w, .poisoned c q)) ∧
        (∀ w h, s.stored l = some (w, .exclusive h) →
          ((∀ d, (s.port h).state ≠ .isolated d) →
            changingLookup l s = s ∧ observingLookup l s = s ∧ s.observed l = some (w, .exclusive h)) ∧
            ((∃ d, (s.port h).state = .isolated d) →
              changingLookup l s = poisonRise (rewrite (setOf l) w (.poisoned .holderLost h) s) ∧
                observingLookup l s = changingLookup l s ∧
                (changingLookup l s).stored l = some (w, .poisoned .holderLost h))) ∧
        ∀ w S S', s.stored l = some (w, .shared S) → S' = PortSet.diff S s.isolatedPorts →
          observingLookup l s = s ∧ (S' = 0 → s.observed l = none ∧ changingLookup l s = retire (setOf l) w s) ∧
            (S' ≠ 0 → s.observed l = some (w, .shared S')) ∧ (S' = S → S ≠ 0 → changingLookup l s = s) ∧
            (S' ≠ S → S' ≠ 0 → changingLookup l s = rewrite (setOf l) w (.shared S') s)

/-- The edits of the directory table. A retirement empties its way, takes it out of its set's recency order, lowers
the counts and makes the requests parked with reason Set on that set Ready; a placement fills an empty way, held or
reserved before or not, which goes to the front, and raises the occupancy count, a Poisoned entry's the poisoned count
too with LinePoisoned and the threshold test; a rewriting changes an entry's state alone; a grant also moves its
way to the front. No other way and no other set's order changes. -/
def Obligations.DirectoryEditsTouchOneWay : Prop :=
  ∀ (s : State) (i : SetIdx) (w : Way), s.dir.Wf →
    (∀ (e : Entry) (t : State), s.way i w = some e → t = retire i w s →
      t.way i w = none ∧ (∀ j v, j ≠ i ∨ v ≠ w → t.way j v = s.way j v) ∧
        (t.dirSet i).recency = (s.dirSet i).recency.erase w ∧
        (∀ j, j ≠ i → (t.dirSet j).recency = (s.dirSet j).recency) ∧
        t.dir.occupancy + 1 = s.dir.occupancy ∧
        t.dir.poisoned + (if e.state.isPoisoned then 1 else 0) = s.dir.poisoned ∧
        t.parked = s.parked.map (fun q : Parked =>
          if q.reason = .set ∧ Machine.setOf q.line = i then { q with ready := true } else q) ∧
        t = { s with dir := t.dir, parked := t.parked }) ∧
      (∀ (e : Entry) (t : State), s.way i w = none → e.state.isPoisoned = false → t = place i w e s →
        t.way i w = some e ∧ (∀ j v, j ≠ i ∨ v ≠ w → t.way j v = s.way j v) ∧
          (t.dirSet i).recency = w :: (s.dirSet i).recency ∧
          (∀ j, j ≠ i → (t.dirSet j).recency = (s.dirSet j).recency) ∧
          t.dir.occupancy = s.dir.occupancy + 1 ∧ t.dir.poisoned = s.dir.poisoned ∧
          t = { s with dir := t.dir }) ∧
      (∀ (e : Entry) (t : State), s.way i w = none → e.state.isPoisoned = true → t = place i w e s →
        t.way i w = some e ∧ (∀ j v, j ≠ i ∨ v ≠ w → t.way j v = s.way j v) ∧
          (t.dirSet i).recency = w :: (s.dirSet i).recency ∧
          (∀ j, j ≠ i → (t.dirSet j).recency = (s.dirSet j).recency) ∧
          t.dir.occupancy = s.dir.occupancy + 1 ∧ t.dir.poisoned = s.dir.poisoned + 1 ∧
          t.isPending .linePoisoned = true ∧
          t = poisonRise { s with dir := { t.dir with poisoned := s.dir.poisoned } }) ∧
      (∀ (e : Entry) (x : EntryState) (t : State), s.way i w = some e → t = rewrite i w x s →
        t.way i w = some { e with state := x } ∧ (∀ j v, j ≠ i ∨ v ≠ w → t.way j v = s.way j v) ∧
          (∀ j, (t.dirSet j).recency = (s.dirSet j).recency) ∧ t.dir.occupancy = s.dir.occupancy ∧
          t.dir.poisoned = s.dir.poisoned ∧ t = { s with dir := t.dir }) ∧
      ∀ (e : Entry) (x : EntryState) (t : State), s.way i w = some e → t = grant i w x s →
        t.way i w = some { e with state := x } ∧ (∀ j v, j ≠ i ∨ v ≠ w → t.way j v = s.way j v) ∧
          (t.dirSet i).recency = w :: (s.dirSet i).recency.erase w ∧
          (∀ j, j ≠ i → (t.dirSet j).recency = (s.dirSet j).recency) ∧
          t.dir.occupancy = s.dir.occupancy ∧ t.dir.poisoned = s.dir.poisoned ∧ t = { s with dir := t.dir }

/-- A rise of the poisoned count: the count goes up by one, LinePoisoned is raised, and the new count is tested.
The threshold test raises ThresholdNear one below a threshold of 2 or more; at or above the threshold it takes a
Running or Quiescing part to Halted, raises Halted, and completes a Quiesce in progress WrongState showing Halted;
otherwise it leaves service state and command unit. The directory is left as it is. -/
def Obligations.ThresholdTestHaltsThePart : Prop :=
  (∀ s : State, poisonRise s =
      thresholdTest (raise .linePoisoned { s with dir := { s.dir with poisoned := s.dir.poisoned + 1 } })) ∧
    ∀ s t : State, t = thresholdTest s →
      (2 ≤ s.threshold → s.dir.poisoned + 1 = s.threshold → t.isPending .thresholdNear = true) ∧
        (s.threshold ≤ s.dir.poisoned → s.service = .running ∨ s.service = .quiescing →
          t.service = .halted ∧ t.isPending .halted = true ∧
            (s.unit.inProgress = some .quiesce →
              t.unit = { s.unit with
                inProgress := none, status := .wrongState, results := #v[3, 0, 0, 0] } ∧
                t.isPending .commandDone = true) ∧
            (s.unit.inProgress ≠ some .quiesce → t.unit = s.unit)) ∧
        (s.dir.poisoned < s.threshold ∨ s.service = .quiesced ∨ s.service = .halted →
          t.service = s.service ∧ t.unit = s.unit) ∧
        (s.dir.poisoned + 1 < s.threshold → t = s) ∧
        t = { s with service := t.service, unit := t.unit, notify := t.notify }

/-- The class of a way, and the outcome of the way search: a held way, and one whose line is claimed, are Busy; an
empty way is Free; a Poisoned entry's way is Poisoned, any other's Eligible. The search takes the lowest Free way;
without one, the Eligible way furthest back in the recency order; without either, there is no room for now if a way
is Busy, and no room if every way is Poisoned. -/
def Obligations.WaySearchPicksByClass : Prop :=
  (∀ (s : State) (i : SetIdx) (w : Way),
      (s.held i w = true → s.classify i w = .busy) ∧
        (s.held i w = false →
          (s.way i w = none → s.classify i w = .free) ∧
            ∀ e, s.way i w = some e →
              (s.claimed (lineOf i e.tag) = true → s.classify i w = .busy) ∧
                (s.claimed (lineOf i e.tag) = false →
                  (e.state.isPoisoned = true → s.classify i w = .poisoned) ∧
                    (e.state.isPoisoned = false → s.classify i w = .eligible)))) ∧
    (∀ (s : State) (i : SetIdx) (w : Way),
      s.held i w = true ↔ ∃ k t, s.txn k = some t ∧ setOf t.line = i ∧ t.heldWay = some w) ∧
    (∀ (s : State) (l : LineNo),
      s.claimed l = true ↔ ∃ k t, s.txn k = some t ∧ (t.line = l ∨ t.victim = some l)) ∧
      ∀ (s : State) (i : SetIdx),
        (∀ w, s.classify i w = .free → (∀ v, v < w → s.classify i v ≠ .free) →
          s.searchOutcome i = .free w) ∧
          ((∀ w, s.classify i w ≠ .free) →
            (∀ w nearer farther, (s.dirSet i).recency = nearer ++ w :: farther → s.classify i w = .eligible →
              (∀ v ∈ farther, s.classify i v ≠ .eligible) → s.searchOutcome i = .victim w) ∧
              ((∀ w, s.classify i w ≠ .eligible) → (∃ w, s.classify i w = .busy) →
                s.searchOutcome i = .noRoomForNow) ∧
              ((∀ w, s.classify i w = .poisoned) → s.searchOutcome i = .noRoom))

/-- The treatment of a line is that of the lowest-indexed enabled record whose pages include the line's page, and
Untracked where no record covers it. A line's set and entry tag are its number modulo and divided by 2048, its page
its number divided by 64. -/
def Obligations.LowestCoveringRecordTreatsALine : Prop :=
  (∀ (s : State) (l : LineNo) (i : RegionIdx), (s.region i).enabled = true →
      (s.region i).base ≤ pageOf l → pageOf l ≤ (s.region i).limit →
      (∀ j, j < i → (s.region j).enabled = false ∨ pageOf l < (s.region j).base ∨ (s.region j).limit < pageOf l) →
      s.attrOf l = (s.region i).attr) ∧
    (∀ (s : State) (l : LineNo),
      (∀ j, (s.region j).enabled = false ∨ pageOf l < (s.region j).base ∨ (s.region j).limit < pageOf l) →
      s.attrOf l = .untracked) ∧
      ∀ l : LineNo, (setOf l).val = l.val % 2048 ∧ (entryTag l).val = l.val / 2048 ∧
        (pageOf l).val = l.val / 64 ∧ lineOf (setOf l) (entryTag l) = l

/-! ### The command unit -/

/-- A write to the start word while the command unit is Busy is refused: the status becomes RejectedBusy and the unit
stays Busy; nothing else changes, so neither the command in progress, its latched operands, its results, the service
state nor any cause is affected; the command status word reads Busy with RejectedBusy. A completion then sets its own
status. -/
def Obligations.BusyUnitRefusesEveryCommand : Prop :=
  (∀ (s : State) (c : Instr) (code : Word) (x : LongCommand), s.inReset = false → s.unit.inProgress = some x →
      c.startCode = some code ∨ c = .registerWrite 0x06 code →
      exec c s = .next { s.begun with unit := { s.unit with status := .rejectedBusy } }) ∧
    (∀ (s : State) (x : LongCommand), s.inReset = false → s.unit.inProgress = some x →
      s.unit.status = .rejectedBusy → s.busy = true ∧ s.readWord 0x08 = 0x8004#16) ∧
      ∀ (s : State) (x : LongCommand) (st : CommandStatus) (r : Word), s.unit.inProgress = some x →
        completeLong x st r s = s.completed st r 0 0 0

/-- The operand check comes first: a command with an operand that its check refuses, and a code that names no command,
completes BadOperand with results 0 whatever the part's state, and changes nothing else. -/
def Obligations.OperandCheckComesFirst : Prop :=
  ∀ s : State, s.takesCommand →
    (∀ (c : Instr) (code : Word), c.startCode = some code →
      (c = .evictPort ∨ c = .isolatePort ∨ c = .clearIsolation) ∧ 8 ≤ s.word 0 ∨
        c = .setPortProfile ∧ (8 ≤ s.word 0 ∨ 3 ≤ s.word 1) ∨
        c = .writeRegion ∧
          (8 ≤ s.word 0 ∨ s.word 1 % 4 = 3 ∨ 1048576 ≤ s.wordPair 2 3 ∨ 1048576 ≤ s.wordPair 4 5) ∨
        c = .flush ∧ (1048576 ≤ s.wordPair 0 1 ∨ 1048576 ≤ s.wordPair 2 3) ∨
        (c = .lookupLine ∨ c = .nextPoisoned ∨ c = .clearPoison) ∧ 67108864 ≤ s.wordPair 0 1 ∨
        c = .setTiming ∧ (s.word 0 = 0 ∨ 4096 ≤ s.word 0 ∨ s.word 1 = 0) ∨
        c = .setPoisonThreshold ∧ (s.word 0 = 0 ∨ 256 ≤ s.word 0) ∨
        c = .unknownCommandCode code ∧ (code.toNat = 0 ∨ 16 ≤ code.toNat) →
      exec c s = .next ((s.started code).completed .badOperand 0 0 0 0))

/-- The port commands. SetPortProfile gives an Unused or Offline port the profile, and the state Unused or Offline
with it; IsolatePort isolates any port but an Unused one; ClearIsolation takes an Isolated port whose cleanup is done
to Offline. In any other port state the command completes WrongState and the port stays. Result word 0 shows the port
state as left; for the last two commands result word 1 shows the isolation reason. -/
def Obligations.PortCommandsActByPortState : Prop :=
  ∀ (s : State) (p : Port), s.takesCommand → s.word 0 = p.val →
    (∀ f : Profile, (s.word 1 = 0 ∧ f = .unused ∨ s.word 1 = 1 ∧ f = .caching ∨ s.word 1 = 2 ∧ f = .streaming) →
      ((s.port p).state = .unused ∨ (s.port p).state = .offline →
        exec .setPortProfile s =
          .next (((s.started 1).setPort p
            { profile := f
              state := if f = .unused then .unused else .offline
              reason := (s.port p).reason }).completed .done (if f = .unused then 0 else 1) 0 0 0)) ∧
        ((s.port p).state ≠ .unused → (s.port p).state ≠ .offline →
          exec .setPortProfile s =
            .next ((s.started 1).completed .wrongState (s.portStateWord p) 0 0 0))) ∧
      ((s.port p).state ≠ .online →
        exec .evictPort s = .next ((s.started 2).completed .wrongState (s.portStateWord p) 0 0 0)) ∧
      (s.joined p →
        exec .isolatePort s = .next ((isolate p .command (s.started 3)).completed .done 4 6 0 0)) ∧
      ((∃ d, (s.port p).state = .isolated d) →
        exec .isolatePort s = .next ((s.started 3).completed .done 4 (s.reasonWord p) 0 0)) ∧
      ((s.port p).state = .unused →
        exec .isolatePort s = .next ((s.started 3).completed .wrongState 0 (s.reasonWord p) 0 0)) ∧
      ((s.port p).state = .isolated true →
        exec .clearIsolation s =
          .next (((s.started 4).setPort p { s.port p with state := .offline }).completed .done 1
            (s.reasonWord p) 0 0)) ∧
      ((s.port p).state ≠ .isolated true →
        exec .clearIsolation s =
          .next ((s.started 4).completed .wrongState (s.portStateWord p) (s.reasonWord p) 0 0))

namespace Sys2Proof.Machine

/-- A command's sweep job has nothing to do: the directory lists no entry, no job is queued, and no recall of a
command's job is active. -/
def State.settled (s : State) : Prop :=
  s.dir.sets = [] ∧ s.sweep.jobs = [] ∧ ∀ k t, s.txn k = some t → t.origin ≠ .sweep .command

/-- The sweep engine once its last job has left the queue after one walk, that job having counted nothing. -/
def State.walked (s : State) : State :=
  { s with
    freeCount := s.freeCount + 1
    sweep := { jobs := [], walker := .idle, workList := [], jobCount := 0 } }

/-- A command in progress whose job's walker rests at a set, nothing found so far (log 5). -/
def State.resting (s : State) (c : LongCommand) (j : Job) (m : SetIdx) : State :=
  { s with
    freeCount := s.freeCount + 1
    unit := { s.unit with inProgress := some c }
    sweep := { jobs := [j], walker := .atSet m, workList := [], jobCount := 0 } }

/-- The sets a walker visits from a set number on: those that hold entries, up to the set it rests at, if any (log 5). -/
def State.route (s : State) (n : Nat) : Option SetIdx → List SetIdx
  | none => (s.dir.sets.map Prod.fst).filter fun i => decide (n ≤ i.val)
  | some m => ((s.dir.sets.map Prod.fst).filter fun i => decide (n ≤ i.val ∧ i < m)) ++ [m]

/-- A record installed in the region table. -/
def State.withRegion (s : State) (i : RegionIdx) (r : Region) : State := { s with regions := s.regions.set i r }

end Sys2Proof.Machine

/-- WriteRegion in Quiesced, Flush and ClearAllPoison make the unit Busy and queue their job at the tail; WriteRegion
in any other service state completes WrongState. On an empty queue the job runs at once: job count 0, the walker on its
way from set 0. At its arrival at a set the walker looks up every entry, by an observing lookup, but by a changing one
where a RegionChange tightens the line's treatment, and it leaves the entries that record a Cleanup's own port to the
Cleanup's edit (log 28). It lists the matching lines in order of way: Waiting if claimed, else Pending, or Handled with
its edit made by a Cleanup (a changing lookup) or a PoisonClear (retired and counted). It goes on from a set whose lines are all Handled; but it may rest at any one, between
two arrivals, as the free value says, and the sets without entries that it does not rest at are passed over (log 5). So
with an empty directory and no recall of a command left the command completes Done at once, count 0, or the walker rests
at some set. Past the end, with no recall of the job active, the job leaves the queue and reports, and the next one runs:
a drain or a cleanup has its port tested, a Flush and a PoisonClear complete Done with the job count, and so does a
RegionChange once its record is installed. -/
def Obligations.SweepCommandsQueueTheirJobs : Prop :=
  (∀ s : State, s.takesCommand →
      (∀ (i : RegionIdx) (r : Region), s.word 0 = i.val → r.enabled = decide (32768 ≤ s.word 1) →
        (s.word 1 % 4 = 0 ∧ r.attr = .untracked ∨ s.word 1 % 4 = 1 ∧ r.attr = .tracked ∨
          s.word 1 % 4 = 2 ∧ r.attr = .streamInvalidate) →
        s.wordPair 2 3 = r.base.val → s.wordPair 4 5 = r.limit.val →
        (s.service = .quiesced →
          exec .writeRegion s =
              .next (enqueueJob (.regionChange i r)
                { s.started 5 with unit := { (s.started 5).unit with inProgress := some .writeRegion } }) ∧
            (s.settled →
              exec .writeRegion s = .next (((s.started 5).walked.withRegion i r).completed .done 0 0 0 0) ∨
                ∃ m, exec .writeRegion s = .next ((s.started 5).resting .writeRegion (.regionChange i r) m))) ∧
          (s.service ≠ .quiesced →
            exec .writeRegion s = .next ((s.started 5).completed .wrongState 0 0 0 0))) ∧
        (∀ base limit : Page, s.wordPair 0 1 = base.val → s.wordPair 2 3 = limit.val →
          exec .flush s =
              .next (enqueueJob (.flush base limit)
                { s.started 8 with unit := { (s.started 8).unit with inProgress := some .flush } }) ∧
            (s.settled →
              exec .flush s = .next ((s.started 8).walked.completed .done 0 0 0 0) ∨
                ∃ m, exec .flush s = .next ((s.started 8).resting .flush (.flush base limit) m))) ∧
        exec .clearAllPoison s =
            .next (enqueueJob .poisonClear
              { s.started 12 with unit := { (s.started 12).unit with inProgress := some .clearAllPoison } }) ∧
          (s.settled →
            exec .clearAllPoison s = .next ((s.started 12).walked.completed .done 0 0 0 0) ∨
              ∃ m, exec .clearAllPoison s = .next ((s.started 12).resting .clearAllPoison .poisonClear m))) ∧
    (∀ (s : State) (j : Job),
      (s.sweep.jobs ≠ [] → enqueueJob j s = { s with sweep := { s.sweep with jobs := s.sweep.jobs ++ [j] } }) ∧
        (s.sweep.jobs = [] →
          enqueueJob j s =
            advance (walkOn j 0 { s with sweep := { s.sweep with jobs := [j], jobCount := 0 } }))) ∧
    (∀ (s : State) (j : Job) (n : Nat), ∃ stop : Option SetIdx, (∀ m, stop = some m → n ≤ m.val) ∧
      walkOn j n s = visitSets j stop (s.route n stop) { s with freeCount := s.freeCount + 1 }) ∧
    (∀ (s : State) (j : Job) (stop : Option SetIdx),
      visitSets j stop [] s = { s with sweep := { s.sweep with walker := .past, workList := [] } } ∧
        ∀ (i : SetIdx) (rest : List SetIdx),
          ((∀ x ∈ (arriveAt j i s).sweep.workList, x.2 = .handled) → stop ≠ some i →
            visitSets j stop (i :: rest) s = visitSets j stop rest (arriveAt j i s)) ∧
            ((∃ x ∈ (arriveAt j i s).sweep.workList, x.2 ≠ .handled) ∨ stop = some i →
              visitSets j stop (i :: rest) s = arriveAt j i s)) ∧
    (∀ (s u : State) (j : Job) (i : SetIdx) (lines : List LineNo),
      lines = (List.finRange 8).filterMap (fun w => (s.way i w).map fun e => lineOf i e.tag) →
      u = lines.foldl (fun x l => walkerLookup j l x) s →
      ∃ work : List (LineNo × WorkStatus), (work.map Prod.fst).Sublist lines ∧
        (∀ l st, (l, st) ∈ work ↔ l ∈ lines ∧ u.finds l j ∧
          (u.claimed l = true ∧ st = .waiting ∨
            u.claimed l = false ∧ (j.direct ∧ st = .handled ∨ ¬ j.direct ∧ st = .pending))) ∧
        arriveAt j i s =
          (work.filter fun x => decide (x.2 = .handled)).foldl (fun x y => directEdit j y.1 x)
            { u with sweep := { u.sweep with walker := .atSet i, workList := work } }) ∧
    (∀ (s : State) (l : LineNo) (p : Port) (base limit : Page) (i : RegionIdx) (r : Region),
      walkerLookup (.drain p) l s = observingLookup l s ∧
        walkerLookup (.flush base limit) l s = observingLookup l s ∧
        walkerLookup .poisonClear l s = observingLookup l s ∧
        (∀ w x, s.stored l = some (w, x) → x.records p = true → walkerLookup (.cleanup p) l s = s) ∧
        ((∀ w x, s.stored l = some (w, x) → x.records p = false) →
          walkerLookup (.cleanup p) l s = observingLookup l s) ∧
        (s.attrAfter i r l ≠ s.attrOf l → s.attrAfter i r l ≠ .tracked →
          walkerLookup (.regionChange i r) l s = changingLookup l s) ∧
        (s.attrAfter i r l = s.attrOf l ∨ s.attrAfter i r l = .tracked →
          walkerLookup (.regionChange i r) l s = observingLookup l s) ∧
        directEdit (.cleanup p) l s = changingLookup l s ∧
        ∀ w c q, s.stored l = some (w, .poisoned c q) →
          directEdit .poisonClear l s =
            { retire (setOf l) w s with sweep := { s.sweep with jobCount := s.sweep.jobCount + 1 } }) ∧
    (∀ s : State,
      (s.sweep.jobs = [] → advance s = s ∧
          startRunning s = { s with sweep := { s.sweep with walker := .idle, workList := [] } }) ∧
        ∀ (j : Job) (rest : List Job), s.sweep.jobs = j :: rest →
          startRunning s =
              walkOn j 0 { s with sweep := { s.sweep with jobCount := 0 } } ∧
            (s.sweep.walker ≠ .past ∨ (∃ k t, s.txn k = some t ∧ t.origin = .sweep j.owner) → advance s = s) ∧
            (s.sweep.walker = .past → (∀ k t, s.txn k = some t → t.origin ≠ .sweep j.owner) →
              advance s =
                advance (startRunning (reportJob j { s with sweep := { s.sweep with jobs := rest } })))) ∧
    ∀ (s : State) (p : Port),
      (∀ d, (s.port p).state = .draining d →
        reportJob (.drain p) s = drainTest p (s.setPort p { s.port p with state := .draining true })) ∧
        ((s.port p).state = .draining true →
          (s.hasOrigin p = true ∨ s.hasUnanswered p = true → drainTest p s = s) ∧
            (s.hasOrigin p = false → s.hasUnanswered p = false →
              drainTest p s =
                raise .portLeft
                  ((s.setPort p { s.port p with state := .offline }).setLink p
                    { s.link p with outbound := (s.link p).outbound ++ [.farewell] }))) ∧
        reportJob (.cleanup p) s = cleanupTest p s ∧
        ((s.port p).state = .isolated false →
          (.cleanup p ∈ s.sweep.jobs ∨ s.hasOrigin p = true → cleanupTest p s = s) ∧
            (.cleanup p ∉ s.sweep.jobs → s.hasOrigin p = false →
              cleanupTest p s =
                raise .cleanupDone (s.setPort p { s.port p with state := .isolated true }))) ∧
        (∀ base limit : Page, s.unit.inProgress = some .flush →
          reportJob (.flush base limit) s =
            s.completed .done (BitVec.ofNat 16 s.sweep.jobCount) 0 0 0) ∧
        (s.unit.inProgress = some .clearAllPoison →
          reportJob .poisonClear s = s.completed .done (BitVec.ofNat 16 s.sweep.jobCount) 0 0 0) ∧
        ∀ (i : RegionIdx) (r : Region), s.unit.inProgress = some .writeRegion →
          reportJob (.regionChange i r) s =
            (s.withRegion i r).completed .done (BitVec.ofNat 16 s.sweep.jobCount) 0 0 0

namespace Sys2Proof.Machine

/-- The sweep engine without the command's job: the other jobs in their order, the recalls of a command's job recalls of
no job (R158). -/
def State.withoutCommandJob (s : State) : State :=
  { s with
    sweep := { s.sweep with jobs := s.sweep.jobs.filter fun j => !j.isCommand }
    slots := s.slots.map fun x => { x with txn := x.txn.map fun t =>
      if t.origin = (.sweep .command) then { t with origin := (.sweep .aborted) } else t } }

end Sys2Proof.Machine

/-- An abort write ends the command in progress with status Aborted. An aborted sweep job leaves the queue and its
record is not installed; result word 0 is its job count, or 0 if it had not begun. The other jobs keep their order; if
the aborted one was running, the next runs from set 0; recalls of the aborted job run on as recalls of no job. An aborted
Quiesce leaves the part Running, or Halted with Halted raised at or above the threshold. On an Idle unit the write is
ignored. -/
def Obligations.AbortEndsTheCommandInProgress : Prop :=
  ∀ (s : State) (v : Word), s.inReset = false →
    (s.unit.inProgress = none → exec (.abort v) s = .next s.begun) ∧
      (∀ x, s.unit.inProgress = some x → x ≠ .quiesce →
        (s.sweep.jobs = [] →
          exec (.abort v) s = .next ((s.begun.completed .aborted 0 0 0 0).withoutCommandJob)) ∧
          ∀ j rest, s.sweep.jobs = j :: rest →
            (j.isCommand = false →
              exec (.abort v) s = .next ((s.begun.completed .aborted 0 0 0 0).withoutCommandJob)) ∧
              (j.isCommand = true →
                exec (.abort v) s =
                  .next (advance (startRunning
                    ((s.begun.completed .aborted (BitVec.ofNat 16 s.sweep.jobCount) 0 0 0).withoutCommandJob))))) ∧
      (∀ x, s.unit.inProgress = some x → x ≠ .quiesce →
        ∃ t, exec (.abort v) s = .next t ∧ t.unit.inProgress = none ∧ t.unit.status = .aborted ∧
          (∀ j rest, s.sweep.jobs = j :: rest →
            t.unit.results =
              #v[if j.isCommand then BitVec.ofNat 16 s.sweep.jobCount else 0, 0, 0, 0]) ∧
          t.isPending .commandDone = true ∧ t.regions = s.regions ∧
          (∀ j ∈ t.sweep.jobs, j.isCommand = false)) ∧
      (s.unit.inProgress = some .quiesce →
        (s.dir.poisoned < s.threshold →
          exec (.abort v) s =
            .next ({ s.begun with service := .running }.completed .aborted 0 0 0 0)) ∧
          (s.threshold ≤ s.dir.poisoned →
            exec (.abort v) s =
              .next ((raise .halted { s.begun with service := .halted }).completed .aborted 3 0 0 0)))

/-- Quiesce in Quiesced completes Done at once; in any other service state it becomes Quiesced and completes Done at
once if no port-origin transaction is active and no request is parked, and Quiescing with the unit Busy otherwise. In
Quiescing the report that neither is left, made at the completion, parking or departure that brings that about, makes the
state Quiesced and completes the Quiesce Done, result word 0 Quiesced; otherwise it changes nothing.
Resume completes WrongState at or above the poison threshold; below it the part is Running, result word 1 the poisoned
count. SetTiming sets both intervals; SetPoisonThreshold sets the threshold, applies the threshold test to the count
as it stands, and completes Done with the count. -/
def Obligations.ServiceStateAndParametersAreCommanded : Prop :=
  (∀ s : State,
    (s.service = .quiescing → s.unit.inProgress = some .quiesce → s.parked = [] →
      (∀ k t, s.txn k = some t → ∀ p tag n, t.origin ≠ .port p tag n) →
      quiesceCheck s = { s with service := .quiesced }.completed .done 2 0 0 0) ∧
      (s.service ≠ .quiescing ∨ s.parked ≠ [] ∨ (∃ k t p tag n, s.txn k = some t ∧ t.origin = .port p tag n) →
        quiesceCheck s = s)) ∧
  ∀ s : State, s.takesCommand →
    (s.service = .quiesced → exec .quiesce s = .next ((s.started 6).completed .done 2 0 0 0)) ∧
      (s.service ≠ .quiesced → s.portWorkActive = false → s.parked = [] →
        exec .quiesce s = .next ({ s.started 6 with service := .quiesced }.completed .done 2 0 0 0)) ∧
      (s.service ≠ .quiesced → s.portWorkActive = true ∨ s.parked ≠ [] →
        exec .quiesce s =
          .next { s.started 6 with
            service := .quiescing, unit := { (s.started 6).unit with inProgress := some .quiesce } }) ∧
      (s.threshold ≤ s.dir.poisoned →
        exec .resume s = .next ((s.started 7).completed .wrongState 0 0 0 0)) ∧
      (s.dir.poisoned < s.threshold →
        exec .resume s =
          .next ({ s.started 7 with service := .running }.completed .done 0
            (BitVec.ofNat 16 s.dir.poisoned) 0 0)) ∧
      (1 ≤ s.word 0 → s.word 0 ≤ 4095 → 1 ≤ s.word 1 →
        exec .setTiming s =
          .next ({ s.started 13 with probeInterval := s.word 0, leaseInterval := s.word 1 }.completed .done
            0 0 0 0)) ∧
      (1 ≤ s.word 0 → s.word 0 ≤ 255 →
        exec .setPoisonThreshold s =
          .next ((thresholdTest { s.started 14 with threshold := s.word 0 }).completed .done
            (BitVec.ofNat 16 s.dir.poisoned) 0 0 0))

namespace Sys2Proof.Machine

/-- The code of a phase in result word 2 of LookupLine (Fig. 12-9). -/
def Txn.phaseNumber (t : Txn) : Nat :=
  match t.phase with
  | none => 0
  | some .victimProbing => 1
  | some .probing => 2
  | some .leased => 3

/-- Result word 2 of LookupLine: 0 for an unclaimed line; else bit 15, bit 14 for a claim as victim line, the slot in
bits 12 to 8 and the phase in bits 1 and 0 (Fig. 12-9). -/
inductive ClaimShown (s : State) (l : LineNo) : Word → Prop
  | unclaimed (h : ∀ k t, s.txn k = some t → t.line ≠ l ∧ t.victim ≠ some l) : ClaimShown s l 0
  | line (k : SlotId) (t : Txn) (ht : s.txn k = some t) (h : t.line = l) :
      ClaimShown s l (BitVec.ofNat 16 (32768 + k.val * 256 + t.phaseNumber))
  | victim (k : SlotId) (t : Txn) (ht : s.txn k = some t) (hl : t.line ≠ l) (h : t.victim = some l) :
      ClaimShown s l (BitVec.ofNat 16 (32768 + 16384 + k.val * 256 + t.phaseNumber))

/-- The code of an attribute in result word 3 of LookupLine (Fig. 12-9, Fig. 12-8). -/
def Attribute.number : Attribute → Nat
  | .untracked => 0
  | .tracked => 1
  | .streamInvalidate => 2

/-- An enabled record whose pages include the line's page (R24). -/
def State.covering (s : State) (i : RegionIdx) (l : LineNo) : Prop :=
  (s.region i).enabled = true ∧ (s.region i).base ≤ pageOf l ∧ pageOf l ≤ (s.region i).limit

/-- Result word 3 of LookupLine: the line's attribute in bits 1 and 0; bit 4 and the index in bits 10 to 8 of the
record that gives it, if one covers the line (Fig. 12-9, R25). -/
inductive RecordShown (s : State) (l : LineNo) : Word → Prop
  | uncovered (h : ∀ i, ¬ s.covering i l) : RecordShown s l 0
  | covered (i : RegionIdx) (h : s.covering i l) (hi : ∀ j, j < i → ¬ s.covering j l) :
      RecordShown s l (BitVec.ofNat 16 ((s.region i).attr.number + 16 + i.val * 256))

/-- The stored entry of the line is Exclusive and its holder is Isolated. -/
def State.heldByIsolated (s : State) (l : LineNo) (w : Way) (h : Port) : Prop :=
  s.stored l = some (w, .exclusive h) ∧ ∃ d, (s.port h).state = .isolated d

end Sys2Proof.Machine

/-- LookupLine completes Done with what an observing lookup reports, the claim on the line and its attribute with the
record that gives it. NextPoisoned converts each Exclusive entry at or above its operand whose holder is Isolated, and
changes no other entry, no way and no recency order; it completes Done with the lowest Poisoned line at or above its
operand, its cause and port, and the poisoned count, or with the count alone when there is none. -/
def Obligations.DirectoryReadsReport : Prop :=
  ∀ (s : State) (l : LineNo), s.takesCommand → s.wordPair 0 1 = l.val →
    (∀ u : State, s.ClaimsDisjoint → u = observingLookup l (s.started 9) →
      (∃ c r, ClaimShown u l c ∧ RecordShown u l r) ∧
      ∀ c r, ClaimShown u l c → RecordShown u l r →
        (u.observed l = none → exec .lookupLine s = .next (u.completed .done 0 0 c r)) ∧
        (∀ w S, u.observed l = some (w, .shared S) →
          exec .lookupLine s =
            .next (u.completed .done (BitVec.ofNat 16 (1 + w.val * 16)) (S.setWidth 16) c r)) ∧
        (∀ w h, u.observed l = some (w, .exclusive h) →
          exec .lookupLine s =
            .next (u.completed .done (BitVec.ofNat 16 (2 + w.val * 16 + h.val * 256)) 0 c r)) ∧
        ∀ w x q, u.observed l = some (w, .poisoned x q) →
          exec .lookupLine s =
            .next (u.completed .done
              (BitVec.ofNat 16 (3 + w.val * 16 + q.val * 256 + if x = .leaseLost then 4096 else 0)) 0 c r)) ∧
      (s.dir.Wf →
        ∃ t, exec .nextPoisoned s = .next t ∧ t.unit.status = .done ∧ t.unit.inProgress = none ∧
          t.isPending .commandDone = true ∧
          ((∀ m, l ≤ m → t.poisonOf m = none) →
            t.unit.results = #v[0, 0, 0, BitVec.ofNat 16 t.dir.poisoned]) ∧
          (∀ m c q, l ≤ m → t.poisonOf m = some (c, q) → (∀ n, l ≤ n → n < m → t.poisonOf n = none) →
            t.unit.results =
              #v[BitVec.ofNat 16 (32768 + q.val * 256 + if c = .leaseLost then 4096 else 0),
                BitVec.ofNat 16 (m.val / 65536), BitVec.ofNat 16 (m.val % 65536),
                BitVec.ofNat 16 t.dir.poisoned]) ∧
          (∀ m w h, l ≤ m → s.heldByIsolated m w h → t.stored m = some (w, .poisoned .holderLost h)) ∧
          (∀ m, (m < l ∨ ∀ w h, ¬ s.heldByIsolated m w h) → t.stored m = s.stored m) ∧
          (∀ j : SetIdx, (t.dirSet j).recency = (s.dirSet j).recency) ∧ t.dir.occupancy = s.dir.occupancy ∧
          t = { s.begun with dir := t.dir, service := t.service, unit := t.unit, notify := t.notify })

/-- ClearPoison retires a Poisoned line's entry, found by a changing lookup, and completes Done with its port and cause
and the poisoned count after it; for any other line it completes WrongState. ClearDirectory, in Quiesced with no port
Online, Draining or Isolated, empties the directory and both counts and completes Done with the number of entries; in
any other case it completes WrongState. -/
def Obligations.DirectoryClearsRetireEntries : Prop :=
  ∀ s : State, s.takesCommand →
    (∀ (l : LineNo) (u : State), s.wordPair 0 1 = l.val → u = changingLookup l (s.started 11) →
      (∀ w c q, u.stored l = some (w, .poisoned c q) →
        exec .clearPoison s =
          .next ((retire (setOf l) w u).completed .done
            (BitVec.ofNat 16 (q.val * 256 + if c = .leaseLost then 4096 else 0))
            (BitVec.ofNat 16 (retire (setOf l) w u).dir.poisoned) 0 0)) ∧
        ((∀ w c q, u.stored l ≠ some (w, .poisoned c q)) →
          exec .clearPoison s = .next (u.completed .wrongState 0 0 0 0))) ∧
      (s.service = .quiesced →
        (∀ p : Port, (s.port p).state = .unused ∨ (s.port p).state = .offline) →
        ∃ t : State, exec .clearDirectory s =
            .next (t.completed .done (BitVec.ofNat 16 s.dir.occupancy) 0 0 0) ∧
          t = { s.started 15 with dir := { sets := [], occupancy := 0, poisoned := 0 }, parked := t.parked } ∧
          t.parked = s.parked.map fun q : Parked => { q with ready := q.ready || decide (q.reason = .set ∧
            Machine.setOf q.line ∈ s.dir.sets.map Prod.fst) }) ∧
      (s.service ≠ .quiesced ∨
          (∃ p : Port, (s.port p).state ≠ .unused ∧ (s.port p).state ≠ .offline) →
        exec .clearDirectory s = .next ((s.started 15).completed .wrongState 0 0 0 0))

/-! ### The notification unit and the window -/

/-- The cause word, IRQ, the acknowledge word and the enable word. The cause word reads the lowest cause number both
pending and enabled, or 0, and IRQ is asserted exactly while there is one. A write of 1 to 10 to the acknowledge word
clears that cause alone and any other value nothing; a write to the enable word replaces all ten enable flags, reads
back, and clears no pending flag. In 8-bit mode the word is written with the write byte as its low byte (R161);
that the access then carries the high byte alone, the low byte of its operand disregarded, is the model's choice
(log 7). -/
def Obligations.CausesAreShownAcknowledgedAndEnabled : Prop :=
  ∀ s : State, s.inReset = false →
    (∀ x : Cause, s.isPending x = true → s.isEnabled x = true →
      (∀ y : Cause, y.number < x.number → s.isPending y = false ∨ s.isEnabled y = false) →
      s.readWord 0x17 = BitVec.ofNat 16 x.number ∧ s.irq = true) ∧
      ((∀ x : Cause, s.isPending x = false ∨ s.isEnabled x = false) → s.readWord 0x17 = 0 ∧ s.irq = false) ∧
      ∀ v r : Word,
        s.window.wide = true ∧ r = v ∨ s.window.wide = false ∧ r = v.extractLsb' 8 8 ++ s.window.writeByte →
        (∀ x : Cause, r = BitVec.ofNat 16 x.number →
          exec (.acknowledgeCause v) s =
            .next { s.begun with notify :=
              { s.notify with pendingFlags := s.notify.pendingFlags &&& ~~~ (1#10 <<< (x.number - 1)) } }) ∧
          (r.toNat = 0 ∨ 11 ≤ r.toNat → exec (.acknowledgeCause v) s = .next s.begun) ∧
          ∃ t, exec (.enableWordWrite v) s = .next t ∧
            t = { s.begun with notify := { s.notify with enables := t.notify.enables } } ∧
            (∀ x : Cause, t.isEnabled x = r.getLsbD (x.number - 1)) ∧
            t.readWord 0x19 = r &&& 0x03FF#16

namespace Sys2Proof.Machine

/-- The codes of the command statuses (Fig. 12-7). -/
def CommandStatus.number : CommandStatus → Nat
  | .done => 0
  | .wrongState => 1
  | .badOperand => 2
  | .aborted => 3
  | .rejectedBusy => 4

/-- The codes of the service states (Fig. 12-7). -/
def ServiceState.number : ServiceState → Nat
  | .running => 0
  | .quiescing => 1
  | .quiesced => 2
  | .halted => 3

/-- The code of the running job, and the port of a Drain or a Cleanup, in their places in sweep status word 1
(Fig. 12-7). -/
def Job.shown : Job → Nat
  | .drain p => 1 + p.val * 16
  | .cleanup p => 2 + p.val * 16
  | .flush _ _ => 3
  | .regionChange _ _ => 4
  | .poisonClear => 5

/-- The codes of the port states (12.2). -/
def PortState.number : PortState → Nat
  | .unused => 0
  | .offline => 1
  | .online => 2
  | .draining _ => 3
  | .isolated _ => 4

/-- The codes of the isolation reasons (12.2). -/
def IsolationReason.number : IsolationReason → Nat
  | .none => 0
  | .probeTimeout => 1
  | .leaseTimeout => 2
  | .linkLost => 3
  | .repeatedHello => 4
  | .protocolError => 5
  | .command => 6

/-- A port's byte of its port detail word: state in bits 2 to 0, reason in bits 6 to 4 (R183, Fig. 12-7). -/
def State.detailByte (s : State) (p : Port) : Nat := (s.port p).state.number + (s.port p).reason.number * 16

/-- The transaction comes from the sweep engine. -/
def Txn.fromSweep (t : Txn) : Bool :=
  match t.origin with
  | .sweep _ => true
  | .port _ _ _ => false

end Sys2Proof.Machine

/-- The accesses to the window. In 16-bit mode a write puts its value in an operand word, and is ignored on a word
that is readable only or undefined. In 8-bit mode a low-byte write loads the write byte and changes no word; a
high-byte write, which the model carries as a write whose low byte is disregarded (log 7), writes the word whole with
the write byte; a low-byte read drives the byte and captures the high one, which a high-byte read of that word then
drives, ending the capture. The byte accesses of 8-bit mode change nothing in 16-bit mode: none exists there, and that
the model's rows then do nothing is its choice (log 7). Each word reads as Fig. 12-6 and Fig. 12-7 have it: operand
words, command status, results, service state, the two counts, engine words, sweep status words, intervals and
threshold, port detail words; a word that is writable only or not defined reads 0. -/
def Obligations.WindowAccessesMoveWordsAndBytes : Prop :=
  ∀ (s : State) (w : WordNo) (v : Word) (b : Byte), s.inReset = false →
    (s.window.wide = true →
      (∀ h : w.val < 6,
        exec (.registerWrite w v) s =
          .next { s.begun with window := { s.window with operands := s.window.operands.set w.val v } }) ∧
        (6 ≤ w.val → hasOwnRow w = false → exec (.registerWrite w v) s = .next s.begun) ∧
        exec (.lowByteWrite w b) s = .next s.begun ∧ exec (.lowByteRead w) s = .next s.begun ∧
        exec (.highByteRead w) s = .next s.begun) ∧
      (s.window.wide = false →
        (∀ h : w.val < 6,
          exec (.registerWrite w v) s =
            .next { s.begun with window := { s.window with
              operands := s.window.operands.set w.val (v.extractLsb' 8 8 ++ s.window.writeByte) } }) ∧
          (6 ≤ w.val → hasOwnRow w = false → exec (.registerWrite w v) s = .next s.begun) ∧
          exec (.lowByteWrite w b) s = .next { s.begun with window := { s.window with writeByte := b } } ∧
          exec (.lowByteRead w) s =
            .next { s.begun with window := { s.window with
              readCapture := (s.readWord w).extractLsb' 8 8
              captured := some w
              dataOut := (s.readWord w).extractLsb' 0 8 } } ∧
          (s.window.captured = some w →
            exec (.highByteRead w) s =
              .next { s.begun with window := { s.window with
                captured := none, dataOut := s.window.readCapture } }) ∧
          (s.window.captured ≠ some w →
            exec (.highByteRead w) s =
              .next { s.begun with window := { s.window with
                dataOut := (s.readWord w).extractLsb' 8 8 } })) ∧
      (∀ h : w.val < 6, s.readWord w = s.window.operands[w.val]) ∧
      (w = 0x06 ∨ w = 0x07 ∨ w = 0x18 ∨ w = 0x1E ∨ w = 0x1F → s.readWord w = 0) ∧
      s.readWord 0x08 =
        BitVec.ofNat 16 ((if s.unit.inProgress = none then 0 else 32768) + s.unit.status.number) ∧
      (∀ n : Fin 4, w.val = 9 + n.val → s.readWord w = s.unit.results[n.val]) ∧
      s.readWord 0x0D = BitVec.ofNat 16 s.service.number ∧
      s.readWord 0x0E = BitVec.ofNat 16 s.dir.occupancy ∧ s.readWord 0x0F = BitVec.ofNat 16 s.dir.poisoned ∧
      s.readWord 0x10 =
        BitVec.ofNat 16 (((List.finRange 24).countP fun k => (s.txn k).isSome) +
          ((List.finRange 24).countP fun k => ((s.txn k).map Txn.fromSweep).getD false) * 256) ∧
      s.readWord 0x11 = BitVec.ofNat 16 s.parked.length ∧
      (s.sweep.walker = .idle → s.readWord 0x12 = 0) ∧
      (∀ i : SetIdx, s.sweep.walker = .atSet i → s.readWord 0x12 = BitVec.ofNat 16 (4096 + i.val)) ∧
      (s.sweep.walker = .past → s.readWord 0x12 = 0x2000#16) ∧
      (s.sweep.jobs = [] → s.readWord 0x13 = 0) ∧
      (∀ (j : Job) (rest : List Job), s.sweep.jobs = j :: rest →
        s.readWord 0x13 = BitVec.ofNat 16 (j.shown + s.sweep.jobs.length * 256)) ∧
      s.readWord 0x14 = BitVec.ofNat 16 s.probeInterval ∧ s.readWord 0x15 = BitVec.ofNat 16 s.leaseInterval ∧
      s.readWord 0x16 = BitVec.ofNat 16 s.threshold ∧
      s.readWord 0x1A = BitVec.ofNat 16 (s.detailByte 0 + s.detailByte 1 * 256) ∧
      s.readWord 0x1B = BitVec.ofNat 16 (s.detailByte 2 + s.detailByte 3 * 256) ∧
      s.readWord 0x1C = BitVec.ofNat 16 (s.detailByte 4 + s.detailByte 5 * 256) ∧
      s.readWord 0x1D = BitVec.ofNat 16 (s.detailByte 6 + s.detailByte 7 * 256)
end

