-- ==== Sys2Proof/Laws/State.lean ====
section
/-! SUPPORT. The fields of a state after each elementary update: one lemma per field and update, all by rfl; and
the numbered things read back after they are replaced. -/

namespace Sys2Proof.Machine

open Sys2Proof

/-! ### setLink -/

@[simp] theorem State.setLink_pending (s : State) (p : Port) (l : Link) : (s.setLink p l).pending = s.pending := rfl
@[simp] theorem State.setLink_inReset (s : State) (p : Port) (l : Link) : (s.setLink p l).inReset = s.inReset := rfl
@[simp] theorem State.setLink_now (s : State) (p : Port) (l : Link) : (s.setLink p l).now = s.now := rfl
@[simp] theorem State.setLink_freeCount (s : State) (p : Port) (l : Link) : (s.setLink p l).freeCount = s.freeCount := rfl
@[simp] theorem State.setLink_tx (s : State) (p : Port) (l : Link) : (s.setLink p l).tx = s.tx := rfl
@[simp] theorem State.setLink_ports (s : State) (p : Port) (l : Link) : (s.setLink p l).ports = s.ports := rfl
@[simp] theorem State.setLink_regions (s : State) (p : Port) (l : Link) : (s.setLink p l).regions = s.regions := rfl
@[simp] theorem State.setLink_dir (s : State) (p : Port) (l : Link) : (s.setLink p l).dir = s.dir := rfl
@[simp] theorem State.setLink_reported (s : State) (p : Port) (l : Link) : (s.setLink p l).reported = s.reported := rfl
@[simp] theorem State.setLink_lossReported (s : State) (p : Port) (l : Link) : (s.setLink p l).lossReported = s.lossReported := rfl
@[simp] theorem State.setLink_slots (s : State) (p : Port) (l : Link) : (s.setLink p l).slots = s.slots := rfl
@[simp] theorem State.setLink_parked (s : State) (p : Port) (l : Link) : (s.setLink p l).parked = s.parked := rfl
@[simp] theorem State.setLink_rrPointer (s : State) (p : Port) (l : Link) : (s.setLink p l).rrPointer = s.rrPointer := rfl
@[simp] theorem State.setLink_nextOrder (s : State) (p : Port) (l : Link) : (s.setLink p l).nextOrder = s.nextOrder := rfl
@[simp] theorem State.setLink_sweep (s : State) (p : Port) (l : Link) : (s.setLink p l).sweep = s.sweep := rfl
@[simp] theorem State.setLink_service (s : State) (p : Port) (l : Link) : (s.setLink p l).service = s.service := rfl
@[simp] theorem State.setLink_probeInterval (s : State) (p : Port) (l : Link) : (s.setLink p l).probeInterval = s.probeInterval := rfl
@[simp] theorem State.setLink_leaseInterval (s : State) (p : Port) (l : Link) : (s.setLink p l).leaseInterval = s.leaseInterval := rfl
@[simp] theorem State.setLink_threshold (s : State) (p : Port) (l : Link) : (s.setLink p l).threshold = s.threshold := rfl
@[simp] theorem State.setLink_unit (s : State) (p : Port) (l : Link) : (s.setLink p l).unit = s.unit := rfl
@[simp] theorem State.setLink_notify (s : State) (p : Port) (l : Link) : (s.setLink p l).notify = s.notify := rfl
@[simp] theorem State.setLink_window (s : State) (p : Port) (l : Link) : (s.setLink p l).window = s.window := rfl

/-! ### dropReport -/

@[simp] theorem dropReport_port (s : State) (p q : Port) : (dropReport p s).port q = s.port q := rfl
@[simp] theorem dropReport_link (s : State) (p q : Port) : (dropReport p s).link q = s.link q := rfl
@[simp] theorem dropReport_slot (s : State) (p : Port) (k : SlotId) : (dropReport p s).slot k = s.slot k := rfl
@[simp] theorem dropReport_txn (s : State) (p : Port) (k : SlotId) : (dropReport p s).txn k = s.txn k := rfl
@[simp] theorem dropReport_parked (s : State) (p : Port) : (dropReport p s).parked = s.parked := rfl
@[simp] theorem dropReport_sweep (s : State) (p : Port) : (dropReport p s).sweep = s.sweep := rfl
@[simp] theorem dropReport_dir (s : State) (p : Port) : (dropReport p s).dir = s.dir := rfl
@[simp] theorem dropReport_notify (s : State) (p : Port) : (dropReport p s).notify = s.notify := rfl
@[simp] theorem dropReport_service (s : State) (p : Port) : (dropReport p s).service = s.service := rfl
@[simp] theorem dropReport_unit (s : State) (p : Port) : (dropReport p s).unit = s.unit := rfl

/-! ### dropLoss -/

@[simp] theorem dropLoss_port (s : State) (p q : Port) : (dropLoss p s).port q = s.port q := rfl
@[simp] theorem dropLoss_link (s : State) (p q : Port) : (dropLoss p s).link q = s.link q := rfl
@[simp] theorem dropLoss_slot (s : State) (p : Port) (k : SlotId) : (dropLoss p s).slot k = s.slot k := rfl
@[simp] theorem dropLoss_txn (s : State) (p : Port) (k : SlotId) : (dropLoss p s).txn k = s.txn k := rfl
@[simp] theorem dropLoss_parked (s : State) (p : Port) : (dropLoss p s).parked = s.parked := rfl
@[simp] theorem dropLoss_sweep (s : State) (p : Port) : (dropLoss p s).sweep = s.sweep := rfl
@[simp] theorem dropLoss_dir (s : State) (p : Port) : (dropLoss p s).dir = s.dir := rfl
@[simp] theorem dropLoss_notify (s : State) (p : Port) : (dropLoss p s).notify = s.notify := rfl
@[simp] theorem dropLoss_service (s : State) (p : Port) : (dropLoss p s).service = s.service := rfl
@[simp] theorem dropLoss_unit (s : State) (p : Port) : (dropLoss p s).unit = s.unit := rfl

/-! ### setPort -/

@[simp] theorem State.setPort_pending (s : State) (p : Port) (r : PortRec) : (s.setPort p r).pending = s.pending := rfl
@[simp] theorem State.setPort_inReset (s : State) (p : Port) (r : PortRec) : (s.setPort p r).inReset = s.inReset := rfl
@[simp] theorem State.setPort_now (s : State) (p : Port) (r : PortRec) : (s.setPort p r).now = s.now := rfl
@[simp] theorem State.setPort_freeCount (s : State) (p : Port) (r : PortRec) : (s.setPort p r).freeCount = s.freeCount := rfl
@[simp] theorem State.setPort_tx (s : State) (p : Port) (r : PortRec) : (s.setPort p r).tx = s.tx := rfl
@[simp] theorem State.setPort_links (s : State) (p : Port) (r : PortRec) : (s.setPort p r).links = s.links := rfl
@[simp] theorem State.setPort_regions (s : State) (p : Port) (r : PortRec) : (s.setPort p r).regions = s.regions := rfl
@[simp] theorem State.setPort_dir (s : State) (p : Port) (r : PortRec) : (s.setPort p r).dir = s.dir := rfl
@[simp] theorem State.setPort_reported (s : State) (p : Port) (r : PortRec) : (s.setPort p r).reported = s.reported := rfl
@[simp] theorem State.setPort_lossReported (s : State) (p : Port) (r : PortRec) : (s.setPort p r).lossReported = s.lossReported := rfl
@[simp] theorem State.setPort_slots (s : State) (p : Port) (r : PortRec) : (s.setPort p r).slots = s.slots := rfl
@[simp] theorem State.setPort_parked (s : State) (p : Port) (r : PortRec) : (s.setPort p r).parked = s.parked := rfl
@[simp] theorem State.setPort_rrPointer (s : State) (p : Port) (r : PortRec) : (s.setPort p r).rrPointer = s.rrPointer := rfl
@[simp] theorem State.setPort_nextOrder (s : State) (p : Port) (r : PortRec) : (s.setPort p r).nextOrder = s.nextOrder := rfl
@[simp] theorem State.setPort_sweep (s : State) (p : Port) (r : PortRec) : (s.setPort p r).sweep = s.sweep := rfl
@[simp] theorem State.setPort_service (s : State) (p : Port) (r : PortRec) : (s.setPort p r).service = s.service := rfl
@[simp] theorem State.setPort_probeInterval (s : State) (p : Port) (r : PortRec) : (s.setPort p r).probeInterval = s.probeInterval := rfl
@[simp] theorem State.setPort_leaseInterval (s : State) (p : Port) (r : PortRec) : (s.setPort p r).leaseInterval = s.leaseInterval := rfl
@[simp] theorem State.setPort_threshold (s : State) (p : Port) (r : PortRec) : (s.setPort p r).threshold = s.threshold := rfl
@[simp] theorem State.setPort_unit (s : State) (p : Port) (r : PortRec) : (s.setPort p r).unit = s.unit := rfl
@[simp] theorem State.setPort_notify (s : State) (p : Port) (r : PortRec) : (s.setPort p r).notify = s.notify := rfl
@[simp] theorem State.setPort_window (s : State) (p : Port) (r : PortRec) : (s.setPort p r).window = s.window := rfl

/-! ### setSlot -/

@[simp] theorem State.setSlot_pending (s : State) (k : SlotId) (x : Slot) : (s.setSlot k x).pending = s.pending := rfl
@[simp] theorem State.setSlot_inReset (s : State) (k : SlotId) (x : Slot) : (s.setSlot k x).inReset = s.inReset := rfl
@[simp] theorem State.setSlot_now (s : State) (k : SlotId) (x : Slot) : (s.setSlot k x).now = s.now := rfl
@[simp] theorem State.setSlot_freeCount (s : State) (k : SlotId) (x : Slot) : (s.setSlot k x).freeCount = s.freeCount := rfl
@[simp] theorem State.setSlot_tx (s : State) (k : SlotId) (x : Slot) : (s.setSlot k x).tx = s.tx := rfl
@[simp] theorem State.setSlot_links (s : State) (k : SlotId) (x : Slot) : (s.setSlot k x).links = s.links := rfl
@[simp] theorem State.setSlot_ports (s : State) (k : SlotId) (x : Slot) : (s.setSlot k x).ports = s.ports := rfl
@[simp] theorem State.setSlot_regions (s : State) (k : SlotId) (x : Slot) : (s.setSlot k x).regions = s.regions := rfl
@[simp] theorem State.setSlot_dir (s : State) (k : SlotId) (x : Slot) : (s.setSlot k x).dir = s.dir := rfl
@[simp] theorem State.setSlot_reported (s : State) (k : SlotId) (x : Slot) : (s.setSlot k x).reported = s.reported := rfl
@[simp] theorem State.setSlot_lossReported (s : State) (k : SlotId) (x : Slot) : (s.setSlot k x).lossReported = s.lossReported := rfl
@[simp] theorem State.setSlot_parked (s : State) (k : SlotId) (x : Slot) : (s.setSlot k x).parked = s.parked := rfl
@[simp] theorem State.setSlot_rrPointer (s : State) (k : SlotId) (x : Slot) : (s.setSlot k x).rrPointer = s.rrPointer := rfl
@[simp] theorem State.setSlot_nextOrder (s : State) (k : SlotId) (x : Slot) : (s.setSlot k x).nextOrder = s.nextOrder := rfl
@[simp] theorem State.setSlot_sweep (s : State) (k : SlotId) (x : Slot) : (s.setSlot k x).sweep = s.sweep := rfl
@[simp] theorem State.setSlot_service (s : State) (k : SlotId) (x : Slot) : (s.setSlot k x).service = s.service := rfl
@[simp] theorem State.setSlot_probeInterval (s : State) (k : SlotId) (x : Slot) : (s.setSlot k x).probeInterval = s.probeInterval := rfl
@[simp] theorem State.setSlot_leaseInterval (s : State) (k : SlotId) (x : Slot) : (s.setSlot k x).leaseInterval = s.leaseInterval := rfl
@[simp] theorem State.setSlot_threshold (s : State) (k : SlotId) (x : Slot) : (s.setSlot k x).threshold = s.threshold := rfl
@[simp] theorem State.setSlot_unit (s : State) (k : SlotId) (x : Slot) : (s.setSlot k x).unit = s.unit := rfl
@[simp] theorem State.setSlot_notify (s : State) (k : SlotId) (x : Slot) : (s.setSlot k x).notify = s.notify := rfl
@[simp] theorem State.setSlot_window (s : State) (k : SlotId) (x : Slot) : (s.setSlot k x).window = s.window := rfl

/-! ### setDirSet -/

@[simp] theorem State.setDirSet_pending (s : State) (i : SetIdx) (r : SetRec) : (s.setDirSet i r).pending = s.pending := rfl
@[simp] theorem State.setDirSet_inReset (s : State) (i : SetIdx) (r : SetRec) : (s.setDirSet i r).inReset = s.inReset := rfl
@[simp] theorem State.setDirSet_now (s : State) (i : SetIdx) (r : SetRec) : (s.setDirSet i r).now = s.now := rfl
@[simp] theorem State.setDirSet_freeCount (s : State) (i : SetIdx) (r : SetRec) : (s.setDirSet i r).freeCount = s.freeCount := rfl
@[simp] theorem State.setDirSet_tx (s : State) (i : SetIdx) (r : SetRec) : (s.setDirSet i r).tx = s.tx := rfl
@[simp] theorem State.setDirSet_links (s : State) (i : SetIdx) (r : SetRec) : (s.setDirSet i r).links = s.links := rfl
@[simp] theorem State.setDirSet_ports (s : State) (i : SetIdx) (r : SetRec) : (s.setDirSet i r).ports = s.ports := rfl
@[simp] theorem State.setDirSet_regions (s : State) (i : SetIdx) (r : SetRec) : (s.setDirSet i r).regions = s.regions := rfl
@[simp] theorem State.setDirSet_reported (s : State) (i : SetIdx) (r : SetRec) : (s.setDirSet i r).reported = s.reported := rfl
@[simp] theorem State.setDirSet_lossReported (s : State) (i : SetIdx) (r : SetRec) : (s.setDirSet i r).lossReported = s.lossReported := rfl
@[simp] theorem State.setDirSet_slots (s : State) (i : SetIdx) (r : SetRec) : (s.setDirSet i r).slots = s.slots := rfl
@[simp] theorem State.setDirSet_parked (s : State) (i : SetIdx) (r : SetRec) : (s.setDirSet i r).parked = s.parked := rfl
@[simp] theorem State.setDirSet_rrPointer (s : State) (i : SetIdx) (r : SetRec) : (s.setDirSet i r).rrPointer = s.rrPointer := rfl
@[simp] theorem State.setDirSet_nextOrder (s : State) (i : SetIdx) (r : SetRec) : (s.setDirSet i r).nextOrder = s.nextOrder := rfl
@[simp] theorem State.setDirSet_sweep (s : State) (i : SetIdx) (r : SetRec) : (s.setDirSet i r).sweep = s.sweep := rfl
@[simp] theorem State.setDirSet_service (s : State) (i : SetIdx) (r : SetRec) : (s.setDirSet i r).service = s.service := rfl
@[simp] theorem State.setDirSet_probeInterval (s : State) (i : SetIdx) (r : SetRec) : (s.setDirSet i r).probeInterval = s.probeInterval := rfl
@[simp] theorem State.setDirSet_leaseInterval (s : State) (i : SetIdx) (r : SetRec) : (s.setDirSet i r).leaseInterval = s.leaseInterval := rfl
@[simp] theorem State.setDirSet_threshold (s : State) (i : SetIdx) (r : SetRec) : (s.setDirSet i r).threshold = s.threshold := rfl
@[simp] theorem State.setDirSet_unit (s : State) (i : SetIdx) (r : SetRec) : (s.setDirSet i r).unit = s.unit := rfl
@[simp] theorem State.setDirSet_notify (s : State) (i : SetIdx) (r : SetRec) : (s.setDirSet i r).notify = s.notify := rfl
@[simp] theorem State.setDirSet_window (s : State) (i : SetIdx) (r : SetRec) : (s.setDirSet i r).window = s.window := rfl

/-! ### raise -/

@[simp] theorem raise_pending (s : State) (c : Cause) : (raise c s).pending = s.pending := rfl
@[simp] theorem raise_inReset (s : State) (c : Cause) : (raise c s).inReset = s.inReset := rfl
@[simp] theorem raise_now (s : State) (c : Cause) : (raise c s).now = s.now := rfl
@[simp] theorem raise_freeCount (s : State) (c : Cause) : (raise c s).freeCount = s.freeCount := rfl
@[simp] theorem raise_tx (s : State) (c : Cause) : (raise c s).tx = s.tx := rfl
@[simp] theorem raise_links (s : State) (c : Cause) : (raise c s).links = s.links := rfl
@[simp] theorem raise_ports (s : State) (c : Cause) : (raise c s).ports = s.ports := rfl
@[simp] theorem raise_regions (s : State) (c : Cause) : (raise c s).regions = s.regions := rfl
@[simp] theorem raise_dir (s : State) (c : Cause) : (raise c s).dir = s.dir := rfl
@[simp] theorem raise_reported (s : State) (c : Cause) : (raise c s).reported = s.reported := rfl
@[simp] theorem raise_lossReported (s : State) (c : Cause) : (raise c s).lossReported = s.lossReported := rfl
@[simp] theorem raise_slots (s : State) (c : Cause) : (raise c s).slots = s.slots := rfl
@[simp] theorem raise_parked (s : State) (c : Cause) : (raise c s).parked = s.parked := rfl
@[simp] theorem raise_rrPointer (s : State) (c : Cause) : (raise c s).rrPointer = s.rrPointer := rfl
@[simp] theorem raise_nextOrder (s : State) (c : Cause) : (raise c s).nextOrder = s.nextOrder := rfl
@[simp] theorem raise_sweep (s : State) (c : Cause) : (raise c s).sweep = s.sweep := rfl
@[simp] theorem raise_service (s : State) (c : Cause) : (raise c s).service = s.service := rfl
@[simp] theorem raise_probeInterval (s : State) (c : Cause) : (raise c s).probeInterval = s.probeInterval := rfl
@[simp] theorem raise_leaseInterval (s : State) (c : Cause) : (raise c s).leaseInterval = s.leaseInterval := rfl
@[simp] theorem raise_threshold (s : State) (c : Cause) : (raise c s).threshold = s.threshold := rfl
@[simp] theorem raise_unit (s : State) (c : Cause) : (raise c s).unit = s.unit := rfl
@[simp] theorem raise_window (s : State) (c : Cause) : (raise c s).window = s.window := rfl

/-! ### transmit -/

@[simp] theorem transmit_pending (s : State) (p : Port) (f : WireFrame) : (transmit p f s).pending = s.pending := rfl
@[simp] theorem transmit_inReset (s : State) (p : Port) (f : WireFrame) : (transmit p f s).inReset = s.inReset := rfl
@[simp] theorem transmit_now (s : State) (p : Port) (f : WireFrame) : (transmit p f s).now = s.now := rfl
@[simp] theorem transmit_freeCount (s : State) (p : Port) (f : WireFrame) : (transmit p f s).freeCount = s.freeCount := rfl
@[simp] theorem transmit_links (s : State) (p : Port) (f : WireFrame) : (transmit p f s).links = s.links := rfl
@[simp] theorem transmit_ports (s : State) (p : Port) (f : WireFrame) : (transmit p f s).ports = s.ports := rfl
@[simp] theorem transmit_regions (s : State) (p : Port) (f : WireFrame) : (transmit p f s).regions = s.regions := rfl
@[simp] theorem transmit_dir (s : State) (p : Port) (f : WireFrame) : (transmit p f s).dir = s.dir := rfl
@[simp] theorem transmit_reported (s : State) (p : Port) (f : WireFrame) : (transmit p f s).reported = s.reported := rfl
@[simp] theorem transmit_lossReported (s : State) (p : Port) (f : WireFrame) : (transmit p f s).lossReported = s.lossReported := rfl
@[simp] theorem transmit_slots (s : State) (p : Port) (f : WireFrame) : (transmit p f s).slots = s.slots := rfl
@[simp] theorem transmit_parked (s : State) (p : Port) (f : WireFrame) : (transmit p f s).parked = s.parked := rfl
@[simp] theorem transmit_rrPointer (s : State) (p : Port) (f : WireFrame) : (transmit p f s).rrPointer = s.rrPointer := rfl
@[simp] theorem transmit_nextOrder (s : State) (p : Port) (f : WireFrame) : (transmit p f s).nextOrder = s.nextOrder := rfl
@[simp] theorem transmit_sweep (s : State) (p : Port) (f : WireFrame) : (transmit p f s).sweep = s.sweep := rfl
@[simp] theorem transmit_service (s : State) (p : Port) (f : WireFrame) : (transmit p f s).service = s.service := rfl
@[simp] theorem transmit_probeInterval (s : State) (p : Port) (f : WireFrame) : (transmit p f s).probeInterval = s.probeInterval := rfl
@[simp] theorem transmit_leaseInterval (s : State) (p : Port) (f : WireFrame) : (transmit p f s).leaseInterval = s.leaseInterval := rfl
@[simp] theorem transmit_threshold (s : State) (p : Port) (f : WireFrame) : (transmit p f s).threshold = s.threshold := rfl
@[simp] theorem transmit_unit (s : State) (p : Port) (f : WireFrame) : (transmit p f s).unit = s.unit := rfl
@[simp] theorem transmit_notify (s : State) (p : Port) (f : WireFrame) : (transmit p f s).notify = s.notify := rfl
@[simp] theorem transmit_window (s : State) (p : Port) (f : WireFrame) : (transmit p f s).window = s.window := rfl

/-! ### completeCommand -/

@[simp] theorem completeCommand_pending (s : State) (st : CommandStatus) (a b c d : Word) : (completeCommand st a b c d s).pending = s.pending := rfl
@[simp] theorem completeCommand_inReset (s : State) (st : CommandStatus) (a b c d : Word) : (completeCommand st a b c d s).inReset = s.inReset := rfl
@[simp] theorem completeCommand_now (s : State) (st : CommandStatus) (a b c d : Word) : (completeCommand st a b c d s).now = s.now := rfl
@[simp] theorem completeCommand_freeCount (s : State) (st : CommandStatus) (a b c d : Word) : (completeCommand st a b c d s).freeCount = s.freeCount := rfl
@[simp] theorem completeCommand_tx (s : State) (st : CommandStatus) (a b c d : Word) : (completeCommand st a b c d s).tx = s.tx := rfl
@[simp] theorem completeCommand_links (s : State) (st : CommandStatus) (a b c d : Word) : (completeCommand st a b c d s).links = s.links := rfl
@[simp] theorem completeCommand_ports (s : State) (st : CommandStatus) (a b c d : Word) : (completeCommand st a b c d s).ports = s.ports := rfl
@[simp] theorem completeCommand_regions (s : State) (st : CommandStatus) (a b c d : Word) : (completeCommand st a b c d s).regions = s.regions := rfl
@[simp] theorem completeCommand_dir (s : State) (st : CommandStatus) (a b c d : Word) : (completeCommand st a b c d s).dir = s.dir := rfl
@[simp] theorem completeCommand_reported (s : State) (st : CommandStatus) (a b c d : Word) : (completeCommand st a b c d s).reported = s.reported := rfl
@[simp] theorem completeCommand_lossReported (s : State) (st : CommandStatus) (a b c d : Word) : (completeCommand st a b c d s).lossReported = s.lossReported := rfl
@[simp] theorem completeCommand_slots (s : State) (st : CommandStatus) (a b c d : Word) : (completeCommand st a b c d s).slots = s.slots := rfl
@[simp] theorem completeCommand_parked (s : State) (st : CommandStatus) (a b c d : Word) : (completeCommand st a b c d s).parked = s.parked := rfl
@[simp] theorem completeCommand_rrPointer (s : State) (st : CommandStatus) (a b c d : Word) : (completeCommand st a b c d s).rrPointer = s.rrPointer := rfl
@[simp] theorem completeCommand_nextOrder (s : State) (st : CommandStatus) (a b c d : Word) : (completeCommand st a b c d s).nextOrder = s.nextOrder := rfl
@[simp] theorem completeCommand_sweep (s : State) (st : CommandStatus) (a b c d : Word) : (completeCommand st a b c d s).sweep = s.sweep := rfl
@[simp] theorem completeCommand_service (s : State) (st : CommandStatus) (a b c d : Word) : (completeCommand st a b c d s).service = s.service := rfl
@[simp] theorem completeCommand_probeInterval (s : State) (st : CommandStatus) (a b c d : Word) : (completeCommand st a b c d s).probeInterval = s.probeInterval := rfl
@[simp] theorem completeCommand_leaseInterval (s : State) (st : CommandStatus) (a b c d : Word) : (completeCommand st a b c d s).leaseInterval = s.leaseInterval := rfl
@[simp] theorem completeCommand_threshold (s : State) (st : CommandStatus) (a b c d : Word) : (completeCommand st a b c d s).threshold = s.threshold := rfl
@[simp] theorem completeCommand_window (s : State) (st : CommandStatus) (a b c d : Word) : (completeCommand st a b c d s).window = s.window := rfl

/-! ### The numbered things read back -/

@[simp] theorem State.link_setLink_same (s : State) (p : Port) (l : Link) : (s.setLink p l).link p = l := by
  simp [State.link, State.setLink]

theorem State.link_setLink_ne (s : State) {p q : Port} (l : Link) (h : q ≠ p) :
    (s.setLink p l).link q = s.link q := by
  have : p.val ≠ q.val := fun e => h (Fin.ext e.symm)
  simp [State.link, State.setLink, this]

theorem State.link_setLink (s : State) (p q : Port) (l : Link) :
    (s.setLink p l).link q = if q = p then l else s.link q := by
  split
  · next h => subst h; simp
  · next h => exact State.link_setLink_ne s l h

@[simp] theorem State.setLink_setLink (s : State) (p : Port) (l m : Link) :
    (s.setLink p l).setLink p m = s.setLink p m := by
  simp [State.setLink]

@[simp] theorem State.port_setPort_same (s : State) (p : Port) (r : PortRec) : (s.setPort p r).port p = r := by
  simp [State.port, State.setPort]

theorem State.port_setPort_ne (s : State) {p q : Port} (r : PortRec) (h : q ≠ p) :
    (s.setPort p r).port q = s.port q := by
  have : p.val ≠ q.val := fun e => h (Fin.ext e.symm)
  simp [State.port, State.setPort, this]

theorem State.port_setPort (s : State) (p q : Port) (r : PortRec) :
    (s.setPort p r).port q = if q = p then r else s.port q := by
  split
  · next h => subst h; simp
  · next h => exact State.port_setPort_ne s r h

@[simp] theorem State.slot_setSlot_same (s : State) (k : SlotId) (x : Slot) : (s.setSlot k x).slot k = x := by
  simp [State.slot, State.setSlot]

@[simp] theorem State.setSlot_setSlot (s : State) (k : SlotId) (x y : Slot) :
    (s.setSlot k x).setSlot k y = s.setSlot k y := by
  simp [State.setSlot]

theorem State.slot_setSlot_ne (s : State) {k j : SlotId} (x : Slot) (h : j ≠ k) :
    (s.setSlot k x).slot j = s.slot j := by
  have : k.val ≠ j.val := fun e => h (Fin.ext e.symm)
  simp [State.slot, State.setSlot, this]

theorem State.slot_setSlot (s : State) (k j : SlotId) (x : Slot) :
    (s.setSlot k x).slot j = if j = k then x else s.slot j := by
  split
  · next h => subst h; simp
  · next h => exact State.slot_setSlot_ne s x h

/-- A transaction read back after its slot is filled, or another's. -/
theorem State.txn_setTxn (s : State) (k j : SlotId) (t : Txn) :
    (s.setTxn k t).txn j = if j = k then some t else s.txn j := by
  unfold State.setTxn State.txn
  rw [State.slot_setSlot]
  split <;> rfl

/-- A transaction read back after a slot is freed. -/
theorem State.txn_freeSlot (s : State) (k j : SlotId) :
    (s.freeSlot k).txn j = if j = k then none else s.txn j := by
  unfold State.freeSlot State.txn
  rw [State.slot_setSlot]
  split <;> rfl

/-- A transaction read back after the record of a slot is changed. -/
theorem State.txn_modifyTxn (s : State) (k j : SlotId) (f : Txn → Txn) :
    (s.modifyTxn k f).txn j = if j = k then (s.txn k).map f else s.txn j := by
  unfold State.modifyTxn
  split
  · next t h => rw [State.txn_setTxn, h]; rfl
  · next h =>
    split
    · next e => rw [e, h]; rfl
    · rfl

/-! ### The readers that look only at one field -/

@[simp] theorem State.setPort_link (s : State) (p : Port) (r : PortRec) (q : Port) : (s.setPort p r).link q = s.link q := rfl
@[simp] theorem State.setSlot_link (s : State) (k : SlotId) (x : Slot) (q : Port) : (s.setSlot k x).link q = s.link q := rfl
@[simp] theorem State.setDirSet_link (s : State) (i : SetIdx) (r : SetRec) (q : Port) : (s.setDirSet i r).link q = s.link q := rfl
@[simp] theorem raise_link (s : State) (c : Cause) (q : Port) : (raise c s).link q = s.link q := rfl
@[simp] theorem transmit_link (s : State) (p : Port) (f : WireFrame) (q : Port) : (transmit p f s).link q = s.link q := rfl
@[simp] theorem completeCommand_link (s : State) (st : CommandStatus) (a b c d : Word) (q : Port) : (completeCommand st a b c d s).link q = s.link q := rfl
@[simp] theorem State.setLink_port (s : State) (p : Port) (l : Link) (q : Port) : (s.setLink p l).port q = s.port q := rfl
@[simp] theorem State.setSlot_port (s : State) (k : SlotId) (x : Slot) (q : Port) : (s.setSlot k x).port q = s.port q := rfl
@[simp] theorem State.setDirSet_port (s : State) (i : SetIdx) (r : SetRec) (q : Port) : (s.setDirSet i r).port q = s.port q := rfl
@[simp] theorem raise_port (s : State) (c : Cause) (q : Port) : (raise c s).port q = s.port q := rfl
@[simp] theorem transmit_port (s : State) (p : Port) (f : WireFrame) (q : Port) : (transmit p f s).port q = s.port q := rfl
@[simp] theorem completeCommand_port (s : State) (st : CommandStatus) (a b c d : Word) (q : Port) : (completeCommand st a b c d s).port q = s.port q := rfl
@[simp] theorem State.setLink_slot (s : State) (p : Port) (l : Link) (j : SlotId) : (s.setLink p l).slot j = s.slot j := rfl
@[simp] theorem State.setPort_slot (s : State) (p : Port) (r : PortRec) (j : SlotId) : (s.setPort p r).slot j = s.slot j := rfl
@[simp] theorem State.setDirSet_slot (s : State) (i : SetIdx) (r : SetRec) (j : SlotId) : (s.setDirSet i r).slot j = s.slot j := rfl
@[simp] theorem raise_slot (s : State) (c : Cause) (j : SlotId) : (raise c s).slot j = s.slot j := rfl
@[simp] theorem transmit_slot (s : State) (p : Port) (f : WireFrame) (j : SlotId) : (transmit p f s).slot j = s.slot j := rfl
@[simp] theorem completeCommand_slot (s : State) (st : CommandStatus) (a b c d : Word) (j : SlotId) : (completeCommand st a b c d s).slot j = s.slot j := rfl
@[simp] theorem State.setLink_txn (s : State) (p : Port) (l : Link) (j : SlotId) : (s.setLink p l).txn j = s.txn j := rfl
@[simp] theorem State.setPort_txn (s : State) (p : Port) (r : PortRec) (j : SlotId) : (s.setPort p r).txn j = s.txn j := rfl
@[simp] theorem State.setDirSet_txn (s : State) (i : SetIdx) (r : SetRec) (j : SlotId) : (s.setDirSet i r).txn j = s.txn j := rfl
@[simp] theorem raise_txn (s : State) (c : Cause) (j : SlotId) : (raise c s).txn j = s.txn j := rfl
@[simp] theorem transmit_txn (s : State) (p : Port) (f : WireFrame) (j : SlotId) : (transmit p f s).txn j = s.txn j := rfl
@[simp] theorem completeCommand_txn (s : State) (st : CommandStatus) (a b c d : Word) (j : SlotId) : (completeCommand st a b c d s).txn j = s.txn j := rfl
@[simp] theorem State.setLink_dirSet (s : State) (p : Port) (l : Link) (m : SetIdx) : (s.setLink p l).dirSet m = s.dirSet m := rfl
@[simp] theorem State.setPort_dirSet (s : State) (p : Port) (r : PortRec) (m : SetIdx) : (s.setPort p r).dirSet m = s.dirSet m := rfl
@[simp] theorem State.setSlot_dirSet (s : State) (k : SlotId) (x : Slot) (m : SetIdx) : (s.setSlot k x).dirSet m = s.dirSet m := rfl
@[simp] theorem raise_dirSet (s : State) (c : Cause) (m : SetIdx) : (raise c s).dirSet m = s.dirSet m := rfl
@[simp] theorem transmit_dirSet (s : State) (p : Port) (f : WireFrame) (m : SetIdx) : (transmit p f s).dirSet m = s.dirSet m := rfl
@[simp] theorem completeCommand_dirSet (s : State) (st : CommandStatus) (a b c d : Word) (m : SetIdx) : (completeCommand st a b c d s).dirSet m = s.dirSet m := rfl

end Sys2Proof.Machine
end

