-- ==== Sys2Proof/Laws/Directory.lean ====
section
/-! SUPPORT. The directory table: its list of sets as a map from set numbers, its counts as sums, and what
retirement, placement and the changes of one way keep. -/

namespace Sys2Proof.Machine

open Sys2Proof

/-! ### Counting -/

/-- Two tests that differ at one member of a list count alike but for that member. -/
theorem countP_change {α : Type} (l : List α) (hn : l.Nodup) (a : α) (ha : a ∈ l) (f g : α → Bool)
    (h : ∀ b ∈ l, b ≠ a → f b = g b) :
    l.countP g + (f a).toNat = l.countP f + (g a).toNat := by
  induction l with
  | nil => cases ha
  | cons b l ih =>
    rw [List.nodup_cons] at hn
    by_cases e : b = a
    · subst e
      have : l.countP f = l.countP g := by
        apply List.countP_congr
        intro c hc
        rw [h c (List.mem_cons_of_mem _ hc) (fun e => hn.1 (e ▸ hc))]
      rw [List.countP_cons, List.countP_cons, this]
      cases f b <;> cases g b <;> simp
    · have hb := h b (List.mem_cons_self ..) e
      have ha' : a ∈ l := by
        rcases List.mem_cons.mp ha with h1 | h1
        · exact absurd h1.symm e
        · exact h1
      have := ih hn.2 ha' fun c hc => h c (List.mem_cons_of_mem _ hc)
      rw [List.countP_cons, List.countP_cons, hb]
      omega

theorem allWays_nodup : allWays.Nodup := by decide

theorem mem_allWays (w : Way) : w ∈ allWays := by
  revert w; decide

theorem allSlots_nodup : allSlots.Nodup := by decide

theorem mem_allSlots (k : SlotId) : k ∈ allSlots := by
  revert k; decide

theorem mem_allPorts (p : Port) : p ∈ allPorts := by
  revert p; decide

/-! ### The list of sets -/

theorem getSet_of_lt {l : List (SetIdx × SetRec)} {i : SetIdx} (h : ∀ x ∈ l, i < x.1) :
    getSet l i = SetRec.empty := by
  induction l with
  | nil => rfl
  | cons x l ih =>
    obtain ⟨j, r⟩ := x
    have hj : i < j := h (j, r) (List.mem_cons_self ..)
    rw [getSet, if_neg (ne_of_gt hj)]
    exact ih fun y hy => h y (List.mem_cons_of_mem _ hy)

/-- Set j of a list whose set i was replaced, i being another set. -/
theorem getSet_putSet_ne (l : List (SetIdx × SetRec)) {i j : SetIdx} (r : SetRec) (h : j ≠ i) :
    getSet (putSet l i r) j = getSet l j := by
  have h' : i ≠ j := fun e => h e.symm
  induction l with
  | nil =>
    unfold putSet
    split <;> simp [getSet, h']
  | cons x l ih =>
    obtain ⟨k, q⟩ := x
    unfold putSet
    split
    · split
      · rfl
      · simp [getSet, h']
    · split
      · next e =>
        subst e
        split <;> simp [getSet, h']
      · by_cases e : k = j
        · simp [getSet, e]
        · simp [getSet, e, ih]

/-- Set i of a list in canonical order, after it was replaced. -/
theorem getSet_putSet_same (l : List (SetIdx × SetRec)) (i : SetIdx) (r : SetRec)
    (hl : (l.map Prod.fst).Pairwise (· < ·)) : getSet (putSet l i r) i = r := by
  induction l with
  | nil =>
    unfold putSet
    split
    · next e => exact e.symm
    · simp [getSet]
  | cons x l ih =>
    obtain ⟨k, q⟩ := x
    rw [List.map_cons, List.pairwise_cons] at hl
    have hk : ∀ y ∈ l, k < y.1 := fun y hy => hl.1 y.1 (List.mem_map_of_mem hy)
    unfold putSet
    split
    · next hik =>
      split
      · next e =>
        rw [e]
        exact getSet_of_lt fun y hy => by
          rcases List.mem_cons.mp hy with rfl | h
          · exact hik
          · exact lt_trans hik (hk y h)
      · simp [getSet]
    · split
      · next e =>
        subst e
        split
        · next e => rw [e]; exact getSet_of_lt hk
        · simp [getSet]
      · next h1 h2 =>
        have : ¬ k = i := fun e => h2 e.symm
        simp [getSet, this, ih hl.2]

/-- A member of a list whose set i was replaced. -/
theorem mem_putSet {l : List (SetIdx × SetRec)} {i : SetIdx} {r : SetRec} {x : SetIdx × SetRec}
    (h : x ∈ putSet l i r) : (x = (i, r) ∧ r ≠ SetRec.empty) ∨ x ∈ l := by
  induction l with
  | nil =>
    unfold putSet at h
    split at h
    · cases h
    · next e => exact Or.inl ⟨by simpa using h, e⟩
  | cons y l ih =>
    obtain ⟨k, q⟩ := y
    unfold putSet at h
    split at h
    · split at h
      · exact Or.inr h
      · next e =>
        rcases List.mem_cons.mp h with h | h
        · exact Or.inl ⟨h, e⟩
        · exact Or.inr h
    · split at h
      · split at h
        · exact Or.inr (List.mem_cons_of_mem _ h)
        · next e =>
          rcases List.mem_cons.mp h with h | h
          · exact Or.inl ⟨h, e⟩
          · exact Or.inr (List.mem_cons_of_mem _ h)
      · rcases List.mem_cons.mp h with h | h
        · exact Or.inr (h ▸ List.mem_cons_self ..)
        · rcases ih h with h | h
          · exact Or.inl h
          · exact Or.inr (List.mem_cons_of_mem _ h)

/-- Replacing a set keeps the canonical order. -/
theorem putSet_rising (l : List (SetIdx × SetRec)) (i : SetIdx) (r : SetRec)
    (hl : (l.map Prod.fst).Pairwise (· < ·)) : ((putSet l i r).map Prod.fst).Pairwise (· < ·) := by
  induction l with
  | nil =>
    unfold putSet
    split <;> simp
  | cons x l ih =>
    obtain ⟨k, q⟩ := x
    have hl' := hl
    rw [List.map_cons, List.pairwise_cons] at hl
    unfold putSet
    split
    · next hik =>
      split
      · exact hl'
      · rw [List.map_cons, List.pairwise_cons]
        refine ⟨fun a ha => ?_, hl'⟩
        rw [List.map_cons] at ha
        rcases List.mem_cons.mp ha with h | h
        · exact h ▸ hik
        · exact lt_trans hik (hl.1 a h)
    · split
      · next e =>
        subst e
        split
        · exact hl.2
        · rw [List.map_cons, List.pairwise_cons]
          exact hl
      · next h1 h2 =>
        rw [List.map_cons, List.pairwise_cons]
        refine ⟨fun a ha => ?_, ih hl.2⟩
        obtain ⟨y, hy, rfl⟩ := List.mem_map.mp ha
        rcases mem_putSet hy with ⟨rfl, _⟩ | h
        · exact lt_of_le_of_ne (not_lt.mp h1) fun e => h2 e.symm
        · exact hl.1 _ (List.mem_map_of_mem h)

/-- A sum over the sets, after set i was replaced. -/
theorem sum_putSet (l : List (SetIdx × SetRec)) (i : SetIdx) (r : SetRec) (f : SetRec → Nat)
    (hf : f SetRec.empty = 0) (hl : (l.map Prod.fst).Pairwise (· < ·)) :
    ((putSet l i r).map fun x => f x.2).sum + f (getSet l i) = (l.map fun x => f x.2).sum + f r := by
  induction l with
  | nil =>
    unfold putSet
    split
    · next e => subst e; simp [getSet, hf]
    · simp [getSet, hf]
  | cons x l ih =>
    obtain ⟨k, q⟩ := x
    rw [List.map_cons, List.pairwise_cons] at hl
    have hk : ∀ y ∈ l, k < y.1 := fun y hy => hl.1 y.1 (List.mem_map_of_mem hy)
    unfold putSet
    split
    · next hik =>
      have : getSet ((k, q) :: l) i = SetRec.empty := getSet_of_lt fun y hy => by
        rcases List.mem_cons.mp hy with rfl | h
        · exact hik
        · exact lt_trans hik (hk y h)
      rw [this, hf]
      split
      · next e => subst e; rw [hf]
      · simp; omega
    · split
      · next e =>
        subst e
        simp only [getSet]
        split
        · next e => subst e; simp [hf]; omega
        · simp; omega
      · next h1 h2 =>
        have : ¬ k = i := fun e => h2 e.symm
        simp only [getSet, if_neg this, List.map_cons, List.sum_cons]
        have := ih hl.2
        omega

/-- A set of a list, with what holds of every listed set and of the empty one. -/
theorem getSet_ind (P : SetRec → Prop) (l : List (SetIdx × SetRec)) (i : SetIdx)
    (h : ∀ x ∈ l, P x.2) (h0 : P SetRec.empty) : P (getSet l i) := by
  induction l with
  | nil => exact h0
  | cons x l ih =>
    obtain ⟨j, r⟩ := x
    rw [getSet]
    split
    · exact h (j, r) (List.mem_cons_self ..)
    · exact ih fun y hy => h y (List.mem_cons_of_mem _ hy)

/-! ### One set -/

theorem SetRec.empty_way (w : Way) : SetRec.empty.ways[w] = none := by
  revert w; decide

theorem SetRec.empty_wf : SetRec.empty.Wf where
  recency_nodup := List.nodup_nil
  recency_iff w := by
    unfold SetRec.occupied
    rw [SetRec.empty_way]
    simp [SetRec.empty]
  shaped w e h := by
    rw [SetRec.empty_way] at h
    cases h

/-- The ways of a set after one is replaced. -/
theorem ways_set (v : Vector (Option Entry) 8) (w u : Way) (x : Option Entry) :
    (v.set w x)[u] = if u = w then x else v[u] := by
  by_cases e : u = w
  · subst e; simp
  · have : w.val ≠ u.val := fun h => e (Fin.ext h.symm)
    simp [e, this]

/-- The counts of a set after one way is replaced. -/
theorem SetRec.entryCount_set (r : SetRec) (w : Way) (x : Option Entry) (rc : List Way) :
    (SetRec.mk (r.ways.set w x) rc).entryCount + (r.occupied w).toNat
      = r.entryCount + x.isSome.toNat := by
  have := countP_change allWays allWays_nodup w (mem_allWays w) r.occupied
    (SetRec.mk (r.ways.set w x) rc).occupied
    (fun u _ hu => by simp only [SetRec.occupied]; rw [ways_set, if_neg hu])
  have h2 : (SetRec.mk (r.ways.set w x) rc).occupied w = x.isSome := by
    simp only [SetRec.occupied]; rw [ways_set, if_pos rfl]
  rw [h2] at this
  exact this

/-- Whether what a way holds is Poisoned. -/
def poisonedIn : Option Entry → Bool
  | some e => e.state.isPoisoned
  | none => false

theorem SetRec.poisonedAt_eq (r : SetRec) (w : Way) : r.poisonedAt w = poisonedIn r.ways[w] := by
  unfold SetRec.poisonedAt poisonedIn
  rfl

theorem SetRec.poisonCount_set (r : SetRec) (w : Way) (x : Option Entry) (rc : List Way) :
    (SetRec.mk (r.ways.set w x) rc).poisonCount + (poisonedIn r.ways[w]).toNat
      = r.poisonCount + (poisonedIn x).toNat := by
  have := countP_change allWays allWays_nodup w (mem_allWays w) r.poisonedAt
    (SetRec.mk (r.ways.set w x) rc).poisonedAt
    (fun u _ hu => by
      rw [SetRec.poisonedAt_eq, SetRec.poisonedAt_eq]
      show _ = poisonedIn (r.ways.set w x)[u]
      rw [ways_set, if_neg hu])
  rw [SetRec.poisonedAt_eq, SetRec.poisonedAt_eq] at this
  have h2 : (SetRec.mk (r.ways.set w x) rc).ways[w] = x := by
    show (r.ways.set w x)[w] = x
    rw [ways_set, if_pos rfl]
  rw [h2] at this
  exact this

/-- A set with way w emptied stays in order. -/
theorem SetRec.Wf.emptied {r : SetRec} (h : r.Wf) (w : Way) :
    (SetRec.mk (r.ways.set w none) (r.recency.erase w)).Wf where
  recency_nodup := h.recency_nodup.erase w
  recency_iff u := by
    rw [h.recency_nodup.mem_erase_iff, h.recency_iff]
    simp only [SetRec.occupied]
    rw [ways_set]
    split
    · next e => simp [e]
    · next e => simp [e]
  shaped u e hu := by
    change (r.ways.set w none)[u] = some e at hu
    rw [ways_set] at hu
    split at hu
    · cases hu
    · exact h.shaped u e hu

/-- A set with a shaped entry put in way w, at the front of the recency order, stays in order. -/
theorem SetRec.Wf.filled {r : SetRec} (h : r.Wf) (w : Way) (e : Entry) (he : e.state.shaped = true) :
    (SetRec.mk (r.ways.set w (some e)) (w :: r.recency.erase w)).Wf where
  recency_nodup := by
    rw [List.nodup_cons]
    exact ⟨fun hm => ((h.recency_nodup.mem_erase_iff).mp hm).1 rfl, h.recency_nodup.erase w⟩
  recency_iff u := by
    rw [List.mem_cons, h.recency_nodup.mem_erase_iff, h.recency_iff]
    simp only [SetRec.occupied]
    rw [ways_set]
    split
    · next e => simp [e]
    · next e => simp [e]
  shaped u x hu := by
    change (r.ways.set w (some e))[u] = some x at hu
    rw [ways_set] at hu
    split at hu
    · cases hu; exact he
    · exact h.shaped u x hu

/-- A set whose occupied way w takes another shaped entry, its recency order unchanged, stays in order. -/
theorem SetRec.Wf.rewritten {r : SetRec} (h : r.Wf) (w : Way) (e : Entry) (ho : r.occupied w = true)
    (he : e.state.shaped = true) : (SetRec.mk (r.ways.set w (some e)) r.recency).Wf where
  recency_nodup := h.recency_nodup
  recency_iff u := by
    show u ∈ r.recency ↔ _
    rw [h.recency_iff]
    simp only [SetRec.occupied]
    rw [ways_set]
    split
    · next e =>
      subst e
      unfold SetRec.occupied at ho
      exact ⟨fun _ => rfl, fun _ => ho⟩
    · rfl
  shaped u x hu := by
    change (r.ways.set w (some e))[u] = some x at hu
    rw [ways_set] at hu
    split at hu
    · cases hu; exact he
    · exact h.shaped u x hu

/-- A set whose occupied way w goes to the front of the recency order stays in order. -/
theorem SetRec.Wf.touched {r : SetRec} (h : r.Wf) (w : Way) (ho : r.occupied w = true) :
    (SetRec.mk r.ways (w :: r.recency.erase w)).Wf where
  recency_nodup := by
    rw [List.nodup_cons]
    exact ⟨fun hm => ((h.recency_nodup.mem_erase_iff).mp hm).1 rfl, h.recency_nodup.erase w⟩
  recency_iff u := by
    show u ∈ w :: r.recency.erase w ↔ r.occupied u = true
    rw [List.mem_cons, h.recency_nodup.mem_erase_iff, h.recency_iff]
    constructor
    · rintro (rfl | h)
      · exact ho
      · exact h.2
    · intro hu
      by_cases e : u = w
      · exact Or.inl e
      · exact Or.inr ⟨e, hu⟩
  shaped u x hu := h.shaped u x hu

/-! ### The table -/

/-- Each set of a table in order is in order. -/
theorem Directory.Wf.set_wf {d : Directory} (h : d.Wf) (i : SetIdx) : (getSet d.sets i).Wf :=
  getSet_ind _ _ _ h.sets_wf SetRec.empty_wf

/-- A table with one set replaced stays in order, if its counts follow. -/
theorem Directory.Wf.putSet {d : Directory} (h : d.Wf) (i : SetIdx) (r : SetRec) (hr : r.Wf) (o p : Nat)
    (ho : o + (getSet d.sets i).entryCount = d.occupancy + r.entryCount)
    (hp : p + (getSet d.sets i).poisonCount = d.poisoned + r.poisonCount) :
    (Directory.mk (Machine.putSet d.sets i r) o p).Wf where
  rising := putSet_rising _ _ _ h.rising
  listed x hx := by
    rcases mem_putSet hx with ⟨rfl, hne⟩ | hx
    · exact hne
    · exact h.listed x hx
  sets_wf x hx := by
    rcases mem_putSet hx with ⟨rfl, _⟩ | hx
    · exact hr
    · exact h.sets_wf x hx
  occupancy_eq := by
    have := sum_putSet d.sets i r SetRec.entryCount (by decide) h.rising
    have := h.occupancy_eq
    show o = ((Machine.putSet d.sets i r).map fun x => x.2.entryCount).sum
    omega
  poisoned_eq := by
    have := sum_putSet d.sets i r SetRec.poisonCount (by decide) h.rising
    have := h.poisoned_eq
    show p = ((Machine.putSet d.sets i r).map fun x => x.2.poisonCount).sum
    omega

/-- A count of the listed sets bounds the count of one set. -/
theorem getSet_le_sum (l : List (SetIdx × SetRec)) (i : SetIdx) (f : SetRec → Nat) (hf : f SetRec.empty = 0) :
    f (getSet l i) ≤ (l.map fun x => f x.2).sum := by
  induction l with
  | nil => simp [getSet, hf]
  | cons x l ih =>
    obtain ⟨j, r⟩ := x
    simp only [getSet, List.map_cons, List.sum_cons]
    split <;> omega

theorem Directory.Wf.entryCount_le {d : Directory} (h : d.Wf) (i : SetIdx) :
    (getSet d.sets i).entryCount ≤ d.occupancy := by
  rw [h.occupancy_eq]; exact getSet_le_sum _ _ SetRec.entryCount (by decide)

theorem Directory.Wf.poisonCount_le {d : Directory} (h : d.Wf) (i : SetIdx) :
    (getSet d.sets i).poisonCount ≤ d.poisoned := by
  rw [h.poisoned_eq]; exact getSet_le_sum _ _ SetRec.poisonCount (by decide)

/-- The table of a hard reset is in order. -/
theorem Directory.reset_wf : (Directory.mk [] 0 0).Wf where
  rising := List.Pairwise.nil
  listed x hx := by cases hx
  sets_wf x hx := by cases hx
  occupancy_eq := rfl
  poisoned_eq := rfl

/-! ### What the operations on one way do to the table -/

@[simp] theorem readySet_dir (i : SetIdx) (s : State) : (readySet i s).dir = s.dir := rfl

@[simp] theorem readyLine_dir (l : LineNo) (s : State) : (readyLine l s).dir = s.dir := rfl

@[simp] theorem enterHalted_dir (s : State) : (enterHalted s).dir = s.dir := by
  unfold enterHalted completeLong
  split <;> rfl

/-- The threshold test changes no entry and no count (R140). -/
@[simp] theorem thresholdTest_dir (s : State) : (thresholdTest s).dir = s.dir := by
  simp only [thresholdTest]
  split <;> split <;> simp

/-- A rise of the poisoned count by one is all it does to the table (R21). -/
theorem poisonRise_dir (s : State) :
    (poisonRise s).dir = { s.dir with poisoned := s.dir.poisoned + 1 } := by
  unfold poisonRise
  rw [thresholdTest_dir]
  rfl

/-- Retirement keeps the table in order (R8, R10, R20, R21). -/
theorem retire_dir_wf {s : State} (h : s.dir.Wf) (i : SetIdx) (w : Way) : (retire i w s).dir.Wf := by
  unfold retire
  split
  · exact h
  · next e he =>
    rw [readySet_dir]
    have hw : (getSet s.dir.sets i).ways[w] = some e := he
    have ho : (getSet s.dir.sets i).occupied w = true := by unfold SetRec.occupied; rw [hw]; rfl
    have h1 := SetRec.entryCount_set (getSet s.dir.sets i) w none ((getSet s.dir.sets i).recency.erase w)
    have h2 := SetRec.poisonCount_set (getSet s.dir.sets i) w none ((getSet s.dir.sets i).recency.erase w)
    have h3 := h.entryCount_le i
    have h4 := h.poisonCount_le i
    rw [ho] at h1
    rw [hw] at h2
    refine h.putSet i _ ((h.set_wf i).emptied w) _ _ ?_ ?_
    · simp only [Bool.toNat_true, Option.isSome_none, Bool.toNat_false] at h1
      omega
    · simp only [poisonedIn, Bool.toNat_false] at h2
      cases hp : e.state.isPoisoned
      · rw [hp] at h2
        simp only [Bool.toNat_false] at h2
        simp only [Bool.false_eq_true, if_false]
        omega
      · rw [hp] at h2
        simp only [Bool.toNat_true] at h2
        simp only [if_true]
        omega

/-- After retirement the way is empty. -/
theorem retire_way {s : State} (h : s.dir.Wf) (i : SetIdx) (w : Way) : (retire i w s).way i w = none := by
  unfold retire
  split
  · next he => exact he
  · next e he =>
    show (getSet (putSet s.dir.sets i _) i).ways[w] = none
    rw [getSet_putSet_same _ _ _ h.rising]
    show ((s.dirSet i).ways.set w none)[w] = none
    rw [ways_set, if_pos rfl]

/-- Placement of a shaped entry keeps the table in order (R16, R20, R21). -/
theorem place_dir_wf {s : State} (h : s.dir.Wf) (i : SetIdx) (w : Way) (e : Entry)
    (he : e.state.shaped = true) : (place i w e s).dir.Wf := by
  have h0 := retire_dir_wf h i w
  have hw : (getSet (retire i w s).dir.sets i).ways[w] = none := retire_way h i w
  have ho : (getSet (retire i w s).dir.sets i).occupied w = false := by
    unfold SetRec.occupied; rw [hw]; rfl
  have h1 := SetRec.entryCount_set (getSet (retire i w s).dir.sets i) w (some e)
    (w :: (getSet (retire i w s).dir.sets i).recency.erase w)
  have h2 := SetRec.poisonCount_set (getSet (retire i w s).dir.sets i) w (some e)
    (w :: (getSet (retire i w s).dir.sets i).recency.erase w)
  rw [ho] at h1
  rw [hw] at h2
  simp only [Bool.toNat_true, Option.isSome_some, Bool.toNat_false] at h1
  simp only [poisonedIn, Bool.toNat_false] at h2
  unfold place
  simp only
  split
  · next hp =>
    rw [poisonRise_dir]
    rw [hp, Bool.toNat_true] at h2
    refine h0.putSet i _ ((h0.set_wf i).filled w e he) _ _ ?_ ?_
    · show (retire i w s).dir.occupancy + 1 + _ = _
      omega
    · show (retire i w s).dir.poisoned + 1 + _ = _
      omega
  · next hp =>
    rw [Bool.eq_false_iff.mpr hp, Bool.toNat_false] at h2
    refine h0.putSet i _ ((h0.set_wf i).filled w e he) _ _ ?_ ?_
    · omega
    · omega

/-- A change of the state of an entry between shaped states neither of which is Poisoned keeps the table in
order (R18). -/
theorem rewrite_dir_wf {s : State} (h : s.dir.Wf) (i : SetIdx) (w : Way) (x : EntryState)
    (hx : x.shaped = true) (hp : x.isPoisoned = false)
    (hs : ∀ e, s.way i w = some e → e.state.isPoisoned = false) : (rewrite i w x s).dir.Wf := by
  unfold rewrite
  split
  · exact h
  · next e he =>
    have hw : (getSet s.dir.sets i).ways[w] = some e := he
    have ho : (getSet s.dir.sets i).occupied w = true := by unfold SetRec.occupied; rw [hw]; rfl
    have h1 := SetRec.entryCount_set (getSet s.dir.sets i) w (some { e with state := x })
      (getSet s.dir.sets i).recency
    have h2 := SetRec.poisonCount_set (getSet s.dir.sets i) w (some { e with state := x })
      (getSet s.dir.sets i).recency
    rw [ho] at h1
    rw [hw] at h2
    simp only [poisonedIn, hp, hs e he, Bool.toNat_false] at h2
    simp only [Bool.toNat_true, Option.isSome_some] at h1
    refine h.putSet i _ ((h.set_wf i).rewritten w _ ho hx) _ _ ?_ ?_
    · omega
    · omega

/-- Moving a way to the front of the recency order keeps the table in order (R9). -/
theorem touch_dir_wf {s : State} (h : s.dir.Wf) (i : SetIdx) (w : Way) : (touch i w s).dir.Wf := by
  unfold touch
  split
  · exact h
  · next e he =>
    have hw : (getSet s.dir.sets i).ways[w] = some e := he
    have ho : (getSet s.dir.sets i).occupied w = true := by unfold SetRec.occupied; rw [hw]; rfl
    refine h.putSet i _ ((h.set_wf i).touched w ho) _ _ ?_ ?_
    · show _ + _ = _ + _; rfl
    · show _ + _ = _ + _; rfl

/-- The conversion of an Exclusive entry keeps the table in order (R6, R21). -/
theorem convert_dir_wf {s : State} (h : s.dir.Wf) (i : SetIdx) (w : Way) (p : Port) (e : Entry)
    (he : s.way i w = some e) (hp : e.state.isPoisoned = false) : (convert i w p s).dir.Wf := by
  unfold convert
  rw [poisonRise_dir]
  have hw : (getSet s.dir.sets i).ways[w] = some e := he
  have ho : (getSet s.dir.sets i).occupied w = true := by unfold SetRec.occupied; rw [hw]; rfl
  have h1 := SetRec.entryCount_set (getSet s.dir.sets i) w (some { e with state := .poisoned .holderLost p })
    (getSet s.dir.sets i).recency
  have h2 := SetRec.poisonCount_set (getSet s.dir.sets i) w (some { e with state := .poisoned .holderLost p })
    (getSet s.dir.sets i).recency
  rw [ho] at h1
  rw [hw] at h2
  have hq : EntryState.isPoisoned (.poisoned .holderLost p) = true := rfl
  simp only [poisonedIn, hp, hq, Bool.toNat_false, Bool.toNat_true] at h2
  simp only [Bool.toNat_true, Option.isSome_some] at h1
  have hr : rewrite i w (.poisoned .holderLost p) s
      = s.setDirSet i { s.dirSet i with
          ways := (s.dirSet i).ways.set w (some { e with state := .poisoned .holderLost p }) } := by
    unfold rewrite; rw [he]
  rw [hr]
  refine h.putSet i _ ((h.set_wf i).rewritten w _ ho rfl) _ _ ?_ ?_
  · show s.dir.occupancy + _ = _
    omega
  · show s.dir.poisoned + 1 + _ = _
    omega

end Sys2Proof.Machine
end

