-- ==== Sys2Proof/Laws/Moves.lean ====
section
/-! SUPPORT. What a command can do, said once: every operation of the model is a chain of elementary moves. A
move carries what is known where it is made (the way held a non-Poisoned entry, the slot was free, the line was
unclaimed …), so a law that every move keeps is kept by every command. Moves are of two levels: an inner move
(level false) is one that happens as a consequence inside an event; an outer move (level true) may also take a
slot, bring a link up or down, and make a port join, drain or be isolated. -/

namespace Sys2Proof.Machine

open Sys2Proof

/-- What the consequences of an event can do to a port record: a drain goes on or ends, a cleanup ends. -/
def PortRec.Quiet (r q : PortRec) : Prop :=
  q.profile = r.profile ∧ q.reason = r.reason ∧
    (q.state = r.state ∨ (∃ b, r.state = .draining b ∧ (q.state = .draining true ∨ q.state = .offline)) ∨
      (r.state = .isolated false ∧ q.state = .isolated true))

/-- What the consequences of an event can do to a link: its queue is kept or emptied, it stays Up or Down, and its
receive-clock watch is kept. -/
def Link.Quiet (l m : Link) : Prop :=
  m.up = l.up ∧ m.clockAbsentSince = l.clockAbsentSince ∧ (m.queue = l.queue ∨ m.queue = [])

/-- Every pending flag set before is set after. -/
def Notification.Rises (n m : Notification) : Prop :=
  ∀ i, n.pendingFlags.getLsbD i = true → m.pendingFlags.getLsbD i = true

/-- An elementary move of the state, of a level. -/
inductive Move (b : Bool) : State → State → Prop
  /-- The flags change, no pending flag being cleared. -/
  | notify (s : State) (x : Notification) (h : s.notify.Rises x) : Move b s { s with notify := x }
  /-- The record of transmitted frames changes. -/
  | tx (s : State) (hb : b = true) (x : List (Port × WireFrame)) : Move b s { s with tx := x }
  /-- A link changes quietly, staying in order. -/
  | link (s : State) (p : Port) (l : Link) (h : (s.link p).Wf → l.Wf) (hq : (s.link p).Quiet l) :
      Move b s (s.setLink p l)
  /-- A link changes in any way, staying in order. -/
  | linkOuter (s : State) (hb : b = true) (p : Port) (l : Link) (h : (s.link p).Wf → l.Wf) :
      Move b s (s.setLink p l)
  /-- A port record changes quietly, staying in order. -/
  | port (s : State) (p : Port) (r : PortRec) (h : (s.port p).Wf → r.Wf) (hq : (s.port p).Quiet r) :
      Move b s (s.setPort p r)
  /-- The record of a port that is not Isolated changes, staying in order. -/
  | portOuter (s : State) (hb : b = true) (p : Port) (r : PortRec) (h : (s.port p).Wf → r.Wf)
      (hi : ∀ x, (s.port p).state ≠ .isolated x) : Move b s (s.setPort p r)
  /-- A way is retired. -/
  | retire (s : State) (i : SetIdx) (w : Way) : Move b s (retire i w s)
  /-- A shaped entry is placed. -/
  | place (s : State) (i : SetIdx) (w : Way) (e : Entry) (h : e.state.shaped = true) : Move b s (place i w e s)
  /-- A non-Poisoned entry takes a shaped non-Poisoned state. -/
  | rewrite (s : State) (i : SetIdx) (w : Way) (x : EntryState) (hx : x.shaped = true)
      (hp : x.isPoisoned = false) (hs : ∀ e, s.way i w = some e → e.state.isPoisoned = false) :
      Move b s (rewrite i w x s)
  /-- A way goes to the front of its set's recency order. -/
  | touch (s : State) (i : SetIdx) (w : Way) : Move b s (touch i w s)
  /-- An entry that is not Poisoned is converted. -/
  | convert (s : State) (i : SetIdx) (w : Way) (p : Port) (e : Entry) (he : s.way i w = some e)
      (hp : e.state.isPoisoned = false) : Move b s (convert i w p s)
  /-- The directory table is emptied. -/
  | clear (s : State) : Move b s { s with dir := { sets := [], occupancy := 0, poisoned := 0 } }
  /-- A transaction takes a free slot and claims an unclaimed line; the sweep engine's cap holds. -/
  | startTxn (s : State) (hb : b = true) (k : SlotId) (t : Txn) (hk : s.txn k = none) (hl : s.claimed t.line = false)
      (hv : t.victim = none) (hs : t.originPort.isNone = true → s.sweepActive < 4) : Move b s (s.setTxn k t)
  /-- A transaction's record changes, its line and the side of its origin unchanged, its victim kept or let go. -/
  | changeTxn (s : State) (k : SlotId) (t u : Txn) (hk : s.txn k = some t) (hl : u.line = t.line)
      (ho : u.originPort.isNone = t.originPort.isNone) (hv : u.victim = t.victim ∨ u.victim = none) :
      Move b s (s.setTxn k u)
  /-- A transaction claims an unclaimed victim line. -/
  | victim (s : State) (k : SlotId) (t u : Txn) (v : LineNo) (hk : s.txn k = some t) (hl : u.line = t.line)
      (ho : u.originPort.isNone = t.originPort.isNone) (hv : u.victim = some v)
      (hc : s.claimed v = false) : Move b s (s.setTxn k u)
  /-- A slot is freed; inside an event, one that holds a transaction. -/
  | freeSlot (s : State) (k : SlotId) (h : b = true ∨ s.txn k ≠ none) : Move b s (s.freeSlot k)
  /-- A ProbeTimeout is reported for ports, or reports are done with for ports that are Isolated. -/
  | reported (s : State) (hb : b = true) (x : PortSet)
      (h : ∀ p, PortSet.has s.reported p = true → PortSet.has x p = true ∨
        ∃ d, (s.port p).state = .isolated d) : Move b s { s with reported := x }
  /-- A LinkLost is reported, or a report is done with. -/
  | lossReported (s : State) (hb : b = true) (x : PortSet) : Move b s { s with lossReported := x }
  /-- The parked list changes, staying in order. -/
  | parked (s : State) (q : List Parked) (h : ParkedWf s.parked → ParkedWf q) : Move b s { s with parked := q }
  /-- The sweep engine's state changes. -/
  | sweep (s : State) (x : Sweep) : Move b s { s with sweep := x }
  /-- The service state and the command unit change together: no command begins, and Running is entered only
  below the threshold. -/
  | service (s : State) (v : ServiceState) (u : CommandUnit)
      (h : QuiesceTracked s.service s.unit → QuiesceTracked v u)
      (hr : v = .running → s.service = .running ∨ s.dir.poisoned < s.threshold)
      (hu : u.inProgress = s.unit.inProgress ∨ u.inProgress = none) :
      Move b s { s with service := v, unit := u }
  /-- The poison threshold changes, and is tested. -/
  | threshold (s : State) (v : Nat) (h : 1 ≤ v ∧ v ≤ 255) : Move b s (thresholdTest { s with threshold := v })
  /-- The region table changes. -/
  | regions (s : State) (x : Vector Region 8) : Move b s { s with regions := x }
  /-- Both intervals change. -/
  | timing (s : State) (x y : Nat) (hx : 1 ≤ x ∧ x ≤ 4095) (hy : 1 ≤ y ∧ y ≤ 65535) :
      Move b s { s with probeInterval := x, leaseInterval := y }
  /-- The round-robin pointer and the order of first takings move on. -/
  | intake (s : State) (ptr : Fin 9) (n : Nat) : Move b s { s with rrPointer := ptr, nextOrder := n }
  /-- Free choices are counted. -/
  | freeCount (s : State) (n : Nat) : Move b s { s with freeCount := n }
  /-- The window's own state changes. -/
  | window (s : State) (x : Window) : Move b s { s with window := x }

/-- A chain of moves. -/
abbrev Moves (b : Bool) : State → State → Prop := Relation.ReflTransGen (Move b)

theorem Moves.then {b : Bool} {a s t : State} (h : Moves b a s) (m : Move b s t) : Moves b a t := h.tail m

/-- An inner move is an outer one. -/
theorem Move.lift {b : Bool} {s t : State} (m : Move false s t) : Move b s t := by
  cases m with
  | linkOuter hb => cases hb
  | portOuter hb => cases hb
  | startTxn hb => cases hb
  | reported hb => cases hb
  | lossReported hb => cases hb
  | tx hb => cases hb
  | link p l h hq => exact .link _ _ _ h hq
  | port p r h hq => exact .port _ _ _ h hq
  | changeTxn k t u hk hl ho hv => exact .changeTxn _ _ t _ hk hl ho hv
  | victim k t u v hk hl ho hv hc => exact .victim _ _ t _ v hk hl ho hv hc
  | convert i w p e he hp => exact .convert _ _ _ _ e he hp
  | freeSlot k h => exact .freeSlot _ _ (Or.inr (h.resolve_left (by decide)))
  | _ => constructor <;> assumption

theorem Moves.lift {b : Bool} {s t : State} (m : Moves false s t) : Moves b s t := by
  induction m with
  | refl => exact .refl
  | tail _ m ih => exact ih.tail m.lift

theorem Moves.fold {b : Bool} {a : State} {α : Type} (f : State → α → State)
    (hf : ∀ s x, Moves b a s → Moves b a (f s x)) (l : List α) {s : State} (h : Moves b a s) :
    Moves b a (l.foldl f s) := by
  induction l generalizing s with
  | nil => exact h
  | cons x l ih => exact ih (hf s x h)

variable {b : Bool} {a s : State}

/-! ### Flags, frames and links -/

theorem raise_rises (c : Cause) (s : State) : s.notify.Rises (raise c s).notify := by
  intro i hi
  show (s.notify.pendingFlags ||| causeBit c.number).getLsbD i = true
  rw [BitVec.getLsbD_or, hi, Bool.true_or]

/-- A raised cause is pending (R180). -/
theorem raise_isPending (c : Cause) (s : State) : (raise c s).isPending c = true := by
  show (s.notify.pendingFlags ||| causeBit c.number).getLsbD (c.number - 1) = true
  rw [BitVec.getLsbD_or]
  cases c <;> simp [Cause.number, causeBit]

theorem raise_moves (c : Cause) (h : Moves b a s) : Moves b a (raise c s) :=
  h.then (.notify _ _ (raise_rises c s))

theorem transmit_moves (p : Port) (f : WireFrame) (h : Moves true a s) : Moves true a (transmit p f s) :=
  h.then (.tx _ rfl _)

theorem setLink_moves (p : Port) (l : Link) (hl : (s.link p).Wf → l.Wf) (hq : (s.link p).Quiet l)
    (h : Moves b a s) : Moves b a (s.setLink p l) := h.then (.link _ _ _ hl hq)

theorem setLink_outer (p : Port) (l : Link) (hl : (s.link p).Wf → l.Wf) (h : Moves true a s) :
    Moves true a (s.setLink p l) := h.then (.linkOuter _ rfl _ _ hl)

theorem setPort_moves (p : Port) (r : PortRec) (hr : (s.port p).Wf → r.Wf) (hq : (s.port p).Quiet r)
    (h : Moves b a s) : Moves b a (s.setPort p r) := h.then (.port _ _ _ hr hq)

theorem setPort_outer (p : Port) (r : PortRec) (hr : (s.port p).Wf → r.Wf)
    (hi : ∀ x, (s.port p).state ≠ .isolated x) (h : Moves true a s) : Moves true a (s.setPort p r) :=
  h.then (.portOuter _ rfl _ _ hr hi)

/-- A change of a link that keeps whether it is Up, its receive-clock watch and its queue. -/
theorem Link.Quiet.same {l m : Link} (hu : m.up = l.up) (hc : m.clockAbsentSince = l.clockAbsentSince)
    (hq : m.queue = l.queue) : l.Quiet m :=
  ⟨hu, hc, Or.inl hq⟩

theorem setTag_moves (p : Port) (t : Tag) (x : TagState) (h : Moves b a s) : Moves b a (s.setTag p t x) :=
  setLink_moves _ _ (fun hl => ⟨hl.1, hl.2, hl.3⟩) (.same rfl rfl rfl) h

theorem queueMessage_moves (p : Port) (m : OutMessage) (h : Moves b a s) : Moves b a (queueMessage p m s) :=
  setLink_moves _ _ (fun hl => ⟨hl.1, hl.2, hl.3⟩) (.same rfl rfl rfl) h

theorem respond_moves (p : Port) (t : Tag) (r : Response) (h : Moves b a s) : Moves b a (respond p t r s) := by
  unfold respond
  split
  · exact h
  · exact setTag_moves _ _ _ (queueMessage_moves _ _ h)

theorem respondAtCompletion_moves (p : Port) (t : Tag) (r : Response) (h : Moves b a s) :
    Moves b a (respondAtCompletion p t r s) := by
  unfold respondAtCompletion
  split
  · exact respond_moves _ _ _ h
  · exact respond_moves _ _ _ h
  · exact h
  · exact h
  · exact h

/-! ### The parked list -/

theorem parkedWf_map {q : List Parked} (f : Parked → Parked) (hf : ∀ x, (f x).order = x.order)
    (h : ParkedWf q) : ParkedWf (q.map f) where
  bound := by rw [List.length_map]; exact h.bound
  sorted := by
    rw [List.pairwise_map]
    exact h.sorted.imp fun {x y} hxy => by rw [hf, hf]; exact hxy

theorem parkedWf_sublist {q r : List Parked} (hr : r.Sublist q) (h : ParkedWf q) : ParkedWf r where
  bound := le_trans hr.length_le h.bound
  sorted := h.sorted.sublist hr

theorem readySet_moves (i : SetIdx) (h : Moves b a s) : Moves b a (readySet i s) :=
  h.then (.parked _ _ (parkedWf_map _ fun x => by split <;> rfl))

theorem readyLine_moves (l : LineNo) (h : Moves b a s) : Moves b a (readyLine l s) :=
  readySet_moves _ (h.then (.parked _ _ (parkedWf_map _ fun x => by split <;> rfl)))

theorem insertParked_length (x : Parked) (q : List Parked) : (insertParked x q).length = q.length + 1 := by
  induction q with
  | nil => rfl
  | cons y q ih =>
    unfold insertParked
    split
    · rfl
    · simp [ih]

theorem mem_insertParked {x y : Parked} {q : List Parked} (h : y ∈ insertParked x q) : y = x ∨ y ∈ q := by
  induction q with
  | nil => simpa [insertParked] using h
  | cons z q ih =>
    unfold insertParked at h
    split at h
    · exact List.mem_cons.mp h
    · rcases List.mem_cons.mp h with h | h
      · exact Or.inr (h ▸ List.mem_cons_self ..)
      · rcases ih h with h | h
        · exact Or.inl h
        · exact Or.inr (List.mem_cons_of_mem _ h)

theorem insertParked_sorted (x : Parked) (q : List Parked)
    (h : q.Pairwise fun a b => a.order ≤ b.order) :
    (insertParked x q).Pairwise fun a b => a.order ≤ b.order := by
  induction q with
  | nil => simp [insertParked]
  | cons y q ih =>
    have h' := h
    rw [List.pairwise_cons] at h
    unfold insertParked
    split
    · next e =>
      rw [List.pairwise_cons]
      refine ⟨fun z hz => ?_, h'⟩
      rcases List.mem_cons.mp hz with rfl | hz
      · exact le_of_lt e
      · exact le_trans (le_of_lt e) (h.1 z hz)
    · next e =>
      rw [List.pairwise_cons]
      refine ⟨fun z hz => ?_, ih h.2⟩
      rcases mem_insertParked hz with rfl | hz
      · exact not_lt.mp e
      · exact h.1 z hz

/-! ### Command completion -/

/-- A completion where no Quiesce can be in progress. -/
theorem completeCommand_moves (st : CommandStatus) (w x y z : Word)
    (hq : QuiesceTracked s.service s.unit → s.service ≠ .quiescing) (h : Moves b a s) :
    Moves b a (completeCommand st w x y z s) :=
  raise_moves _ (h.then (.service s s.service
    { s.unit with inProgress := none, status := st, results := #v[w, x, y, z] }
    (fun hs => by
      have := hq hs
      constructor
      · intro e; exact absurd e this
      · intro e; cases e)
    (fun e => Or.inl e) (Or.inr rfl)))

theorem completeLong_moves (c : LongCommand) (st : CommandStatus) (w : Word) (hc : c ≠ .quiesce)
    (h : Moves b a s) : Moves b a (completeLong c st w s) := by
  unfold completeLong
  split
  · next e =>
    refine completeCommand_moves _ _ _ _ _ (fun hq hs => ?_) h
    have := hq.mp hs
    rw [e] at this
    cases this
    exact hc rfl
  · exact h

/-- No command is in progress after moves from a state with none. -/
theorem thresholdTest_inProgress (s : State) : (thresholdTest s).unit.inProgress = s.unit.inProgress ∨
    (thresholdTest s).unit.inProgress = none := by
  have h : ∀ s, (enterHalted s).unit.inProgress = s.unit.inProgress ∨ (enterHalted s).unit.inProgress = none := by
    intro s
    unfold enterHalted completeLong
    split
    · exact Or.inr rfl
    · exact Or.inl rfl
  simp only [thresholdTest]
  split <;> split
  · exact h _
  · exact Or.inl rfl
  · exact h _
  · exact Or.inl rfl

@[simp] theorem retire_unit (i : SetIdx) (w : Way) (s : State) : (retire i w s).unit = s.unit := by
  unfold retire
  split <;> rfl

@[simp] theorem rewrite_unit (i : SetIdx) (w : Way) (x : EntryState) (s : State) :
    (rewrite i w x s).unit = s.unit := by
  unfold rewrite
  split <;> rfl

@[simp] theorem touch_unit (i : SetIdx) (w : Way) (s : State) : (touch i w s).unit = s.unit := by
  unfold touch
  split <;> rfl

theorem Move.inProgress {s t : State} (m : Move b s t) :
    t.unit.inProgress = s.unit.inProgress ∨ t.unit.inProgress = none := by
  cases m with
  | retire i w => exact Or.inl (by rw [retire_unit])
  | rewrite i w x => exact Or.inl (by rw [rewrite_unit])
  | touch i w => exact Or.inl (by rw [touch_unit])
  | place i w e h =>
    unfold Machine.place
    simp only
    split
    · unfold poisonRise
      refine (thresholdTest_inProgress _).imp (fun h => ?_) id
      rw [h]
      show (Machine.retire i w s).unit.inProgress = _
      rw [retire_unit]
    · exact Or.inl (by show (Machine.retire i w s).unit.inProgress = _; rw [retire_unit])
  | convert i w p e he hp =>
    unfold Machine.convert poisonRise
    refine (thresholdTest_inProgress _).imp (fun h => ?_) id
    rw [h]
    show (Machine.rewrite i w _ s).unit.inProgress = _
    rw [rewrite_unit]
  | threshold v h => exact thresholdTest_inProgress _
  | service v u h hr hu => exact hu
  | _ => exact Or.inl rfl

theorem Moves.idle {s t : State} (m : Moves b s t) (h : s.unit.inProgress = none) : t.unit.inProgress = none := by
  induction m with
  | refl => exact h
  | tail _ m ih =>
    rcases m.inProgress with e | e
    · rw [e, ih]
    · exact e

/-- A completion after moves from a state with no command in progress. -/
theorem completeIdle_moves (st : CommandStatus) (w x y z : Word) (ha : a.unit.inProgress = none)
    (h : Moves b a s) : Moves b a (completeCommand st w x y z s) :=
  completeCommand_moves _ _ _ _ _ (fun hq hs => by
    have := hq.mp hs
    rw [h.idle ha] at this
    cases this) h

/-! ### The directory table -/

theorem retire_moves (i : SetIdx) (w : Way) (h : Moves b a s) : Moves b a (retire i w s) := h.then (.retire _ _ _)

theorem place_moves (i : SetIdx) (w : Way) (e : Entry) (he : e.state.shaped = true) (h : Moves b a s) :
    Moves b a (place i w e s) := h.then (.place _ _ _ _ he)

/-- A recording of a grant is a rewrite and a touch. -/
theorem grant_moves (i : SetIdx) (w : Way) (x : EntryState) (hx : x.shaped = true) (hp : x.isPoisoned = false)
    (hs : ∀ e, s.way i w = some e → e.state.isPoisoned = false) (h : Moves b a s) : Moves b a (grant i w x s) :=
  (h.then (.rewrite _ _ _ _ hx hp hs)).then (.touch _ _ _)

theorem scrubWay_moves (i : SetIdx) (w : Way) (h : Moves b a s) : Moves b a (scrubWay i w s) := by
  unfold scrubWay
  split
  · exact h
  · next e he =>
    split
    · exact h
    · next p hp =>
      split
      · exact h.then (.convert _ _ _ _ e he (by rw [hp]; rfl))
      · exact h
    · next S hS =>
      simp only
      split
      · exact h
      · split
        · exact retire_moves _ _ h
        · next hne =>
          refine h.then (.rewrite _ _ _ _ (by simp only [EntryState.shaped]; exact decide_eq_true hne) rfl ?_)
          intro e' he'
          rw [he] at he'
          cases he'
          rw [hS]; rfl

theorem convertWay_moves (i : SetIdx) (w : Way) (h : Moves b a s) : Moves b a (convertWay i w s) := by
  unfold convertWay
  split
  · exact h
  · next e he =>
    split
    · next p hp =>
      split
      · exact h.then (.convert _ _ _ _ e he (by rw [hp]; rfl))
      · exact h
    · exact h
    · exact h

theorem changingLookup_moves (l : LineNo) (h : Moves b a s) : Moves b a (changingLookup l s) := by
  unfold changingLookup
  split
  · exact scrubWay_moves _ _ h
  · exact h

theorem observingLookup_moves (l : LineNo) (h : Moves b a s) : Moves b a (observingLookup l s) := by
  unfold observingLookup
  split
  · exact convertWay_moves _ _ h
  · exact h

theorem scrubSet_moves (i : SetIdx) (h : Moves b a s) : Moves b a (scrubSet i s) :=
  Moves.fold _ (fun _ w h => scrubWay_moves i w h) _ h

/-- The entry a stored lookup reports is what its way holds. -/
theorem stored_way {s : State} {l : LineNo} {w : Way} {x : EntryState} (h : s.stored l = some (w, x)) :
    ∃ e, s.way (setOf l) w = some e ∧ e.state = x := by
  unfold State.stored at h
  split at h
  · split at h
    · next e he =>
      cases h
      exact ⟨e, he, rfl⟩
    · cases h
  · cases h

theorem stored_notPoisoned {s : State} {l : LineNo} {w : Way} {x : EntryState} (h : s.stored l = some (w, x))
    (hx : x.isPoisoned = false) : ∀ e, s.way (setOf l) w = some e → e.state.isPoisoned = false := by
  obtain ⟨e, he, rfl⟩ := stored_way h
  intro e' he'
  rw [he] at he'
  cases he'
  exact hx

theorem storeResidue_moves (i : SetIdx) (w : Way) (x : Option EntryState)
    (hx : ∀ y, x = some y → y.shaped = true ∧ y.isPoisoned = false)
    (hs : ∀ e, s.way i w = some e → e.state.isPoisoned = false) (h : Moves b a s) :
    Moves b a (storeResidue i w x s) := by
  unfold storeResidue
  split
  · next y => exact h.then (.rewrite _ _ _ _ (hx y rfl).1 (hx y rfl).2 hs)
  · exact retire_moves _ _ h

/-! ### Sets of ports -/

theorem single_ne_zero (p : Port) : PortSet.single p ≠ 0 := by
  revert p; decide

theorem insert_ne_zero (S : PortSet) (p : Port) : PortSet.insert S p ≠ 0 := by
  intro h
  change (S ||| PortSet.single p : BitVec 8) = 0#8 at h
  rw [BitVec.or_eq_zero_iff] at h
  exact single_ne_zero p h.2

/-! ### Port tests and reports -/

theorem drainTest_moves (p : Port) (h : Moves b a s) : Moves b a (drainTest p s) := by
  unfold drainTest
  split
  · next hp =>
    split
    · exact h
    · refine raise_moves _ (queueMessage_moves _ _ (setPort_moves _ _ (fun hw => ?_)
        ⟨rfl, rfl, Or.inr (Or.inl ⟨_, hp, Or.inr rfl⟩)⟩ h))
      refine ⟨⟨fun e => ?_, fun e => (by cases e)⟩, (by intro b e; cases e), (by intro b e; cases e)⟩
      have := hw.unused_iff.mp e
      rw [hp] at this
      cases this
  · exact h
  · exact h
  · exact h
  · exact h
  · exact h

theorem cleanupTest_moves (p : Port) (h : Moves b a s) : Moves b a (cleanupTest p s) := by
  unfold cleanupTest
  split
  · next hp =>
    split
    · exact h
    · refine raise_moves _ (setPort_moves _ _ (fun hw => ?_) ⟨rfl, rfl, Or.inr (Or.inr ⟨hp, rfl⟩)⟩ h)
      refine ⟨⟨fun e => ?_, fun e => (by cases e)⟩, fun b _ => ?_, (by intro b e; cases e)⟩
      · have := hw.unused_iff.mp e
        rw [hp] at this
        cases this
      · exact hw.isolated_reason _ hp
  · exact h
  · exact h
  · exact h
  · exact h
  · exact h

theorem quiesceCheck_moves (h : Moves b a s) : Moves b a (quiesceCheck s) := by
  unfold quiesceCheck
  split
  · next hq =>
    unfold completeLong
    split
    · next hc =>
      exact raise_moves _ (h.then (.service s .quiesced
        { s.unit with inProgress := none, status := .done, results := #v[ServiceState.quiesced.code, 0, 0, 0] }
        (fun _ => ⟨fun e => (by cases e), fun e => (by cases e)⟩) (fun e => by cases e) (Or.inr rfl)))
    · next hc =>
      refine h.then (.service s .quiesced s.unit (fun hw => ?_) (fun e => by cases e) (Or.inl rfl))
      exact absurd (hw.mp hq.1) hc
  · exact h

/-! ### The sweep engine -/

theorem walkerLookup_moves (j : Job) (l : LineNo) (h : Moves b a s) : Moves b a (walkerLookup j l s) := by
  unfold walkerLookup
  split
  · exact observingLookup_moves _ h
  · exact observingLookup_moves _ h
  · exact observingLookup_moves _ h
  · split
    · exact changingLookup_moves _ h
    · exact observingLookup_moves _ h
  · split
    · exact h
    · exact observingLookup_moves _ h

theorem directEdit_moves (j : Job) (l : LineNo) (h : Moves b a s) : Moves b a (directEdit j l s) := by
  unfold directEdit
  split
  · exact changingLookup_moves _ h
  · split
    · exact (retire_moves _ _ h).then (.sweep _ _)
    · exact h
  · exact h
  · exact h
  · exact h

theorem arriveAt_moves (j : Job) (i : SetIdx) (h : Moves b a s) : Moves b a (arriveAt j i s) := by
  unfold arriveAt
  simp only
  refine Moves.fold _ (fun s x h => ?_) _ ((Moves.fold _ (fun s l h => walkerLookup_moves j l h) _ h).then
    (.sweep _ _))
  split
  · exact directEdit_moves _ _ h
  · exact h

theorem visitSets_moves (j : Job) (m : Option SetIdx) (l : List SetIdx) (h : Moves b a s) :
    Moves b a (visitSets j m l s) := by
  induction l generalizing s with
  | nil => exact h.then (.sweep _ _)
  | cons i l ih =>
    unfold visitSets
    simp only
    split
    · exact ih (arriveAt_moves _ _ h)
    · exact arriveAt_moves _ _ h

theorem walkOn_moves (j : Job) (n : Nat) (h : Moves b a s) : Moves b a (walkOn j n s) :=
  visitSets_moves _ _ _ (h.then (.freeCount _ _))

theorem startRunning_moves (h : Moves b a s) : Moves b a (startRunning s) := by
  unfold startRunning
  split
  · exact h.then (.sweep _ _)
  · exact walkOn_moves _ _ (h.then (.sweep _ _))

theorem reportJob_moves (j : Job) (h : Moves b a s) : Moves b a (reportJob j s) := by
  unfold reportJob
  split
  · split
    · next p b hp =>
      refine drainTest_moves _ (setPort_moves _ _ (fun hw => ?_)
        ⟨rfl, rfl, Or.inr (Or.inl ⟨_, hp, Or.inl rfl⟩)⟩ h)
      refine ⟨⟨fun e => ?_, fun e => (by cases e)⟩, (by intro b e; cases e), fun b e _ => (by cases e; rfl)⟩
      have := hw.unused_iff.mp e
      rw [hp] at this
      cases this
    · exact h
    · exact h
    · exact h
    · exact h
  · exact cleanupTest_moves _ h
  · exact completeLong_moves _ _ _ (by decide) h
  · exact completeLong_moves _ _ _ (by decide) h
  · exact completeLong_moves _ _ _ (by decide) (h.then (.regions _ _))

theorem completeJobs_moves (n : Nat) (h : Moves b a s) : Moves b a (completeJobs n s) := by
  induction n generalizing s with
  | zero => exact h
  | succ n ih =>
    unfold completeJobs
    split
    · exact h
    · split
      · exact ih (startRunning_moves (reportJob_moves _ (h.then (.sweep _ _))))
      · exact h

theorem advance_moves (h : Moves b a s) : Moves b a (advance s) := completeJobs_moves _ h

theorem enqueueJob_moves (j : Job) (h : Moves b a s) : Moves b a (enqueueJob j s) := by
  unfold enqueueJob
  simp only
  split
  · exact advance_moves (startRunning_moves (h.then (.sweep _ _)))
  · exact h.then (.sweep _ _)

theorem setWork_moves (l : LineNo) (st : WorkStatus) (h : Moves b a s) : Moves b a (setWork l st s) :=
  h.then (.sweep _ _)

theorem leaveIfHandled_moves (h : Moves b a s) : Moves b a (leaveIfHandled s) := by
  unfold leaveIfHandled
  split
  · split
    · exact advance_moves (walkOn_moves _ _ h)
    · exact h
  · exact h

theorem sweepRelease_moves (l : LineNo) (h : Moves b a s) : Moves b a (sweepRelease l s) := by
  unfold sweepRelease
  split
  · exact h
  · split
    · simp only
      split
      · split
        · exact leaveIfHandled_moves (setWork_moves _ _ (directEdit_moves _ _ (walkerLookup_moves _ _ h)))
        · exact setWork_moves _ _ (walkerLookup_moves _ _ h)
      · exact leaveIfHandled_moves (setWork_moves _ _ (walkerLookup_moves _ _ h))
    · exact h

theorem releaseClaim_moves (l : LineNo) (h : Moves b a s) : Moves b a (releaseClaim l s) :=
  sweepRelease_moves _ (readyLine_moves _ h)

theorem convertDrain_moves (p : Port) (h : Moves b a s) : Moves b a (convertDrain p s) := by
  unfold convertDrain
  simp only
  split
  · exact h.then (.sweep _ _)
  · split
    · split
      · exact advance_moves (walkOn_moves _ _ (h.then (.sweep _ _)))
      · exact advance_moves (h.then (.sweep _ _))
      · exact h.then (.sweep _ _)
    · exact h.then (.sweep _ _)

theorem arrangeCleanup_moves (p : Port) (h : Moves b a s) : Moves b a (arrangeCleanup p s) := by
  unfold arrangeCleanup
  split
  · exact convertDrain_moves _ h
  · exact enqueueJob_moves _ h

/-! ### Transactions -/

/-- A change of a record that keeps its line, the side of its origin, and its victim or lets that go. -/
theorem modifyTxn_moves (k : SlotId) (f : Txn → Txn) (hl : ∀ t, (f t).line = t.line)
    (ho : ∀ t, (f t).originPort.isNone = t.originPort.isNone)
    (hv : ∀ t, (f t).victim = t.victim ∨ (f t).victim = none) (h : Moves b a s) :
    Moves b a (s.modifyTxn k f) := by
  unfold State.modifyTxn
  split
  · next t ht => exact h.then (.changeTxn _ _ t _ ht (hl t) (ho t) (hv t))
  · exact h

theorem orphanRecalls_moves (h : Moves b a s) : Moves b a (orphanRecalls s) := by
  refine Moves.fold _ (fun s k h => modifyTxn_moves _ _ ?_ ?_ ?_ h) _ h
  · intro t; split <;> rfl
  · intro t
    split
    · next e => unfold Txn.originPort; rw [e]
    · rfl
  · intro t; split <;> exact Or.inl rfl

theorem removeCommandJob_moves (h : Moves b a s) : Moves b a (removeCommandJob s) := by
  unfold removeCommandJob
  simp only
  split
  · exact orphanRecalls_moves (h.then (.sweep _ _))
  · split
    · exact advance_moves (startRunning_moves (orphanRecalls_moves (h.then (.sweep _ _))))
    · exact orphanRecalls_moves (h.then (.sweep _ _))

theorem portTests_moves (S : PortSet) (h : Moves b a s) : Moves b a (portTests S s) :=
  Moves.fold _ (fun _ _ h => cleanupTest_moves _ (drainTest_moves _ h)) _ h

theorem freeSlot_moves (k : SlotId) (hk : b = true ∨ s.txn k ≠ none) (h : Moves b a s) :
    Moves b a (s.freeSlot k) := h.then (.freeSlot _ _ hk)

/-- A response changes no slot. -/
theorem respond_slots (p : Port) (t : Tag) (r : Response) (s : State) : (respond p t r s).slots = s.slots := by
  unfold respond
  split <;> rfl

/-- A response reads no slot and changes none. -/
theorem respondAtCompletion_slots (p : Port) (t : Tag) (r : Response) (s : State) :
    (respondAtCompletion p t r s).slots = s.slots := by
  unfold respondAtCompletion
  split <;> first | rfl | exact respond_slots _ _ _ _

theorem txn_of_slots {s t : State} (h : t.slots = s.slots) (k : SlotId) : t.txn k = s.txn k := by
  unfold State.txn State.slot
  rw [h]

theorem finish_moves (k : SlotId) (h : Moves b a s) : Moves b a (finish k s) := by
  unfold finish
  split
  · exact h
  · next t ht =>
    simp only
    have hk : (match t.origin, t.response with
        | .port p tag _, some r => respondAtCompletion p tag r s
        | .port _ _ _, none => s
        | .sweep _, _ => s : State).txn k ≠ none := by
      rw [txn_of_slots (s := s), ht]
      · exact Option.some_ne_none t
      · split
        · exact respondAtCompletion_slots _ _ _ _
        · rfl
        · rfl
    have h1 : Moves b a (match t.origin, t.response with
        | .port p tag _, some r => respondAtCompletion p tag r s
        | .port _ _ _, none => s
        | .sweep _, _ => s) := by
      split
      · exact respondAtCompletion_moves _ _ _ h
      · exact h
      · exact h
    have h2 := portTests_moves t.reported (advance_moves (releaseClaim_moves t.line (freeSlot_moves k (Or.inr hk) h1)))
    split
    · exact quiesceCheck_moves h2
    · exact h2

theorem complete_moves (k : SlotId) (r : Option Response) (h : Moves b a s) : Moves b a (complete k r s) :=
  finish_moves _ (modifyTxn_moves _ _ (fun _ => rfl) (fun _ => rfl) (fun _ => Or.inl rfl) h)

theorem joinParked_moves (q : Parked) (h : Moves b a s) : Moves b a (joinParked q s) := by
  unfold joinParked
  refine quiesceCheck_moves ?_
  split
  · exact respondAtCompletion_moves _ _ _ h
  · next e =>
    refine h.then (.parked _ _ fun hw => ⟨?_, insertParked_sorted _ _ hw.sorted⟩)
    rw [insertParked_length]
    have : ¬ (16 ≤ s.parked.length) := e
    omega

theorem parkOnSet_moves (k : SlotId) (h : Moves b a s) : Moves b a (parkOnSet k s) := by
  unfold parkOnSet
  split
  · exact h
  · next t ht =>
    simp only
    have h1 := portTests_moves t.reported (releaseClaim_moves t.line
      (freeSlot_moves k (Or.inr (by rw [ht]; exact Option.some_ne_none t)) h))
    split
    · exact joinParked_moves _ h1
    · exact h1
    · exact h1

theorem issueProbes_moves (k : SlotId) (ph : Phase) (l : LineNo) (g : RecallTargets) (h : Moves b a s) :
    Moves b a (issueProbes k ph l g s) := by
  unfold issueProbes
  simp only
  exact Moves.fold _ (fun _ _ h => queueMessage_moves _ _ h) _
    (modifyTxn_moves _ _ (fun _ => rfl) (fun _ => rfl) (fun _ => Or.inl rfl) h)

theorem applyOutcomes_spec (m : List Probe) (x : EntryState) (hx : x.isPoisoned = false) (y : EntryState)
    (h : applyOutcomes m x = some y) : y.shaped = true ∧ y.isPoisoned = false := by
  cases x with
  | shared S =>
    simp only [applyOutcomes] at h
    split at h
    · cases h
    · next hne =>
      cases h
      exact ⟨decide_eq_true hne, rfl⟩
  | exclusive p =>
    simp only [applyOutcomes] at h
    split at h
    · cases h
    · split at h
      · cases h
        exact ⟨decide_eq_true (single_ne_zero p), rfl⟩
      · cases h
        exact ⟨rfl, rfl⟩
  | poisoned c p => cases hx

theorem grantResult_spec (kind : RequestKind) (p : Port) (x : Option EntryState) (y : EntryState)
    (r : Response) (h : grantResult kind p x = some (y, r)) : y.shaped = true ∧ y.isPoisoned = false := by
  unfold grantResult at h
  split at h <;> first
    | (cases h; exact ⟨decide_eq_true (single_ne_zero p), rfl⟩)
    | (cases h; exact ⟨decide_eq_true (insert_ne_zero _ p), rfl⟩)
    | (cases h; exact ⟨rfl, rfl⟩)
    | (split at h <;> cases h; exact ⟨rfl, rfl⟩)
    | cases h

theorem grantOn_moves (k : SlotId) (p : Port) (kind : RequestKind) (i : SetIdx) (w : Way) (x : EntryState)
    (hs : ∀ e, s.way i w = some e → e.state.isPoisoned = false) (h : Moves b a s) :
    Moves b a (grantOn k p kind i w x s) := by
  unfold grantOn
  split
  · next y r hg =>
    have := grantResult_spec _ _ _ _ _ hg
    exact complete_moves _ _ (grant_moves _ _ _ this.1 this.2 hs h)
  · exact complete_moves _ _ h

theorem completeWithout_moves (k : SlotId) (h : Moves b a s) : Moves b a (completeWithout k s) :=
  complete_moves _ _ h

theorem enterLease_moves (k : SlotId) (p : Port) (h : Moves b a s) : Moves b a (enterLease k p s) := by
  unfold enterLease
  split
  · split
    · exact respond_moves _ _ _ (modifyTxn_moves _ _ (fun _ => rfl) (fun _ => rfl) (fun _ => Or.inl rfl) h)
    · exact h
  · exact completeWithout_moves _ h

theorem takeWay_moves (k : SlotId) (p : Port) (kind : RequestKind) (l : LineNo) (w : Way) (h : Moves b a s) :
    Moves b a (takeWay k p kind l w s) := by
  unfold takeWay
  split
  · exact enterLease_moves _ _ (modifyTxn_moves _ _ (fun _ => rfl) (fun _ => rfl) (fun _ => Or.inl rfl) h)
  · split
    · split
      · next y r hg =>
        exact complete_moves _ _ (place_moves _ _ _ (grantResult_spec _ _ _ _ _ hg).1
          (modifyTxn_moves _ _ (fun _ => rfl) (fun _ => rfl) (fun _ => Or.inl rfl) h))
      · exact complete_moves _ _ h
    · exact completeWithout_moves _ h

/-- The way search chooses as victim a way whose entry's line is unclaimed (R12, R13). -/
theorem searchOutcome_victim {s : State} {i : SetIdx} {w : Way} (h : s.searchOutcome i = .victim w) (e : Entry)
    (he : s.way i w = some e) : s.claimed (lineOf i e.tag) = false := by
  unfold State.searchOutcome at h
  split at h
  · cases h
  · split at h
    · next w' hw =>
      cases h
      have := of_decide_eq_true (List.find?_some (p := fun w => decide (s.classify i w = .eligible)) hw)
      unfold State.classify at this
      rw [he] at this
      split at this
      · cases this
      · simp only at this
        split at this
        · cases this
        · next hc => exact Bool.eq_false_iff.mpr hc
    · split at h <;> cases h

theorem recallVictim_moves (k : SlotId) (i : SetIdx) (w : Way)
    (hc : ∀ e, s.way i w = some e → s.claimed (lineOf i e.tag) = false) (h : Moves b a s) :
    Moves b a (recallVictim k i w s) := by
  unfold recallVictim
  split
  · exact h
  · next e he =>
    refine issueProbes_moves _ _ _ _ ?_
    unfold State.modifyTxn
    split
    · next t ht => exact h.then (.victim _ _ t _ _ ht rfl rfl rfl (hc e he))
    · exact h

theorem allocate_moves (k : SlotId) (p : Port) (kind : RequestKind) (l : LineNo) (h : Moves b a s) :
    Moves b a (allocate k p kind l s) := by
  unfold allocate
  have h1 := scrubSet_moves (setOf l) h
  simp only
  split
  · exact takeWay_moves _ _ _ _ _ h1
  · next w hw => exact recallVictim_moves _ _ _ (fun e he => searchOutcome_victim hw e he) h1
  · split
    · exact parkOnSet_moves _ h1
    · exact completeWithout_moves _ h1
  · exact complete_moves _ _ h1

theorem startCaching_moves (k : SlotId) (p : Port) (kind : RequestKind) (l : LineNo) (h : Moves b a s) :
    Moves b a (startCaching k p kind l s) := by
  unfold startCaching
  have h1 := changingLookup_moves l h
  simp only
  split
  · exact allocate_moves _ _ _ _ h1
  · exact complete_moves _ _ h1
  · next w q hs =>
    split
    · exact grantOn_moves _ _ _ _ _ _ (stored_notPoisoned hs rfl) h1
    · exact issueProbes_moves _ _ _ _ h1
  · next w S hs =>
    split
    · exact grantOn_moves _ _ _ _ _ _ (stored_notPoisoned hs rfl) h1
    · exact issueProbes_moves _ _ _ _ h1

theorem startStreamRead_moves (k : SlotId) (p : Port) (l : LineNo) (h : Moves b a s) :
    Moves b a (startStreamRead k p l s) := by
  unfold startStreamRead
  have h1 := changingLookup_moves l h
  simp only
  split
  · exact enterLease_moves _ _ h1
  · exact enterLease_moves _ _ h1
  · exact issueProbes_moves _ _ _ _ h1
  · exact complete_moves _ _ h1

theorem startStreamWrite_moves (k : SlotId) (p : Port) (l : LineNo) (h : Moves b a s) :
    Moves b a (startStreamWrite k p l s) := by
  unfold startStreamWrite
  have h1 := changingLookup_moves l h
  simp only
  split
  · exact allocate_moves _ _ _ _ h1
  · exact complete_moves _ _ h1
  · exact issueProbes_moves _ _ _ _
      (modifyTxn_moves _ _ (fun _ => rfl) (fun _ => rfl) (fun _ => Or.inl rfl) h1)

theorem startHandling_moves (k : SlotId) (p : Port) (kind : RequestKind) (l : LineNo) (h : Moves b a s) :
    Moves b a (startHandling k p kind l s) := by
  unfold startHandling
  split
  · exact startCaching_moves _ _ _ _ h
  · exact startCaching_moves _ _ _ _ h
  · exact startCaching_moves _ _ _ _ h
  · exact startStreamRead_moves _ _ _ h
  · exact startStreamWrite_moves _ _ _ h

theorem endVictimRecall_moves (k : SlotId) (p : Port) (kind : RequestKind) (l v : LineNo) (w : Way)
    (h : Moves b a s) : Moves b a (endVictimRecall k p kind l v w s) := by
  unfold endVictimRecall
  have h1 := scrubWay_moves (setOf l) w h
  simp only
  split
  · exact allocate_moves _ _ _ _ (releaseClaim_moves _
      (modifyTxn_moves _ _ (fun _ => rfl) (fun _ => rfl) (fun _ => Or.inr rfl) h1))
  · exact takeWay_moves _ _ _ _ _ (releaseClaim_moves _
      (modifyTxn_moves _ _ (fun _ => rfl) (fun _ => rfl) (fun _ => Or.inr rfl) (retire_moves _ _ h1)))

theorem isPoisoned_false_of_ne {x : EntryState} (h : ∀ c p, x ≠ .poisoned c p) : x.isPoisoned = false := by
  cases x with
  | shared S => rfl
  | exclusive p => rfl
  | poisoned c p => exact absurd rfl (h c p)

theorem endCaching_moves (k : SlotId) (p : Port) (kind : RequestKind) (l : LineNo) (m : List Probe)
    (h : Moves b a s) : Moves b a (endCaching k p kind l m s) := by
  unfold endCaching
  have h1 := changingLookup_moves l h
  simp only
  split
  · split
    · have h2 := scrubSet_moves (setOf l) h1
      split
      · exact takeWay_moves _ _ _ _ _ h2
      · exact complete_moves _ _ h2
      · exact complete_moves _ _ h2
      · exact complete_moves _ _ h2
    · exact completeWithout_moves _ h1
  · exact complete_moves _ _ h1
  · next w x hne hs =>
    have hx : x.isPoisoned = false := isPoisoned_false_of_ne hne
    have hw := stored_notPoisoned hs hx
    have hr := applyOutcomes_spec m x hx
    split
    · split
      · next y r hg =>
        have := grantResult_spec _ _ _ _ _ hg
        exact complete_moves _ _ (grant_moves _ _ _ this.1 this.2 hw h1)
      · exact complete_moves _ _ (storeResidue_moves _ _ _ hr hw h1)
    · exact completeWithout_moves _ (storeResidue_moves _ _ _ hr hw h1)

theorem endStreamRead_moves (k : SlotId) (p : Port) (l : LineNo) (m : List Probe) (h : Moves b a s) :
    Moves b a (endStreamRead k p l m s) := by
  unfold endStreamRead
  have h1 := changingLookup_moves l h
  simp only
  split
  · exact enterLease_moves _ _ h1
  · exact complete_moves _ _ h1
  · next w x hne hs =>
    have hx : x.isPoisoned = false := isPoisoned_false_of_ne hne
    exact enterLease_moves _ _ (storeResidue_moves _ _ _ (applyOutcomes_spec m x hx)
      (stored_notPoisoned hs hx) h1)

theorem endStreamWrite_moves (k : SlotId) (p : Port) (l : LineNo) (m : List Probe) (h : Moves b a s) :
    Moves b a (endStreamWrite k p l m s) := by
  unfold endStreamWrite
  have h1 := changingLookup_moves l h
  simp only
  split
  · exact enterLease_moves _ _ h1
  · exact complete_moves _ _ (modifyTxn_moves _ _ (fun _ => rfl) (fun _ => rfl) (fun _ => Or.inl rfl) h1)
  · next w x hne hs =>
    have hx : x.isPoisoned = false := isPoisoned_false_of_ne hne
    exact enterLease_moves _ _ (storeResidue_moves _ _ _ (applyOutcomes_spec m x hx)
      (stored_notPoisoned hs hx) h1)

theorem endRecall_moves (k : SlotId) (l : LineNo) (m : List Probe) (h : Moves b a s) :
    Moves b a (endRecall k l m s) := by
  unfold endRecall
  have h1 := changingLookup_moves l h
  simp only
  split
  · exact complete_moves _ _ h1
  · exact complete_moves _ _ h1
  · next w x hne hs =>
    have hx : x.isPoisoned = false := isPoisoned_false_of_ne hne
    exact complete_moves _ _ (storeResidue_moves _ _ _ (applyOutcomes_spec m x hx)
      (stored_notPoisoned hs hx) h1)

theorem endProbing_moves (k : SlotId) (p : Port) (kind : RequestKind) (l : LineNo) (m : List Probe)
    (h : Moves b a s) : Moves b a (endProbing k p kind l m s) := by
  unfold endProbing
  split
  · exact endCaching_moves _ _ _ _ _ h
  · exact endCaching_moves _ _ _ _ _ h
  · exact endCaching_moves _ _ _ _ _ h
  · exact endStreamRead_moves _ _ _ _ h
  · exact endStreamWrite_moves _ _ _ _ h

theorem phaseEnd_moves (k : SlotId) (h : Moves b a s) : Moves b a (phaseEnd k s) := by
  unfold phaseEnd
  split
  · exact h
  · next t ht =>
    have h1 := h.then (.changeTxn s k t { t with phase := none, probes := [], reprobed := false, deadline := none }
      ht rfl rfl (Or.inl rfl))
    simp only
    split
    · split
      · exact endVictimRecall_moves _ _ _ _ _ _ h1
      · exact h1
    · exact endProbing_moves _ _ _ _ _ h1
    · exact endRecall_moves _ _ _ h1
    · exact h

theorem withdraw_moves (p : Port) (k : SlotId) (g : Bool) (h : Moves b a s) : Moves b a (withdraw p k g s) :=
  setLink_moves _ _ (fun hl => ⟨hl.1, hl.2, hl.3⟩) (.same rfl rfl rfl) h

theorem takeAnswer_moves (k : SlotId) (p : Port) (o : ProbeOutcome) (h : Moves b a s) :
    Moves b a (takeAnswer k p o s) := by
  unfold takeAnswer
  simp only
  have h1 := withdraw_moves p k (s.slot k).gen
    (modifyTxn_moves k (fun t =>
      { t with probes := t.probes.map fun m =>
          if m.port = p ∧ m.outcome = none then { m with outcome := some o } else m })
      (fun _ => rfl) (fun _ => rfl) (fun _ => Or.inl rfl) h)
  split
  · split
    · exact phaseEnd_moves _ h1
    · exact h1
  · exact h1

/-! ### Isolation and draining -/

theorem endLeaseByIsolation_moves (p : Port) (k : SlotId) (h : Moves b a s) :
    Moves b a (endLeaseByIsolation p k s) := by
  unfold endLeaseByIsolation
  split
  · exact h
  · split
    · exact complete_moves _ _ (place_moves _ _ _ rfl
        (modifyTxn_moves _ _ (fun _ => rfl) (fun _ => rfl) (fun _ => Or.inl rfl) h))
    · exact complete_moves _ _ h

theorem endByIsolation_moves (p : Port) (k : SlotId) (h : Moves b a s) : Moves b a (endByIsolation p k s) := by
  unfold endByIsolation
  split
  · exact h
  · split
    · exact endLeaseByIsolation_moves _ _ h
    · exact phaseEnd_moves _ h

theorem discardPort_moves (p : Port) (h : Moves b a s) : Moves b a (discardPort p s) :=
  setLink_moves _ _ (fun hl => ⟨hl.1, (by intro e; cases e), (by intro e; cases e)⟩)
    ⟨rfl, rfl, Or.inr rfl⟩ h

theorem removeParked_moves (p : Port) (h : Moves b a s) : Moves b a (removeParked p s) :=
  quiesceCheck_moves (h.then (.parked _ _ (parkedWf_sublist List.filter_sublist)))

theorem markLost_moves (p : Port) (h : Moves b a s) : Moves b a (markLost p s) :=
  Moves.fold _ (fun _ k h => modifyTxn_moves k (fun t =>
    { t with probes := t.probes.map fun m =>
        if m.port = p ∧ m.outcome = none then { m with outcome := some .lost } else m })
    (fun _ => rfl) (fun _ => rfl) (fun _ => Or.inl rfl) h) _ h

theorem inFreeOrder_moves {α : Type} (l : List α) (act : α → State → State)
    (hact : ∀ x s, Moves b a s → Moves b a (act x s)) (h : Moves b a s) : Moves b a (inFreeOrder l act s) :=
  Moves.fold _ (fun s x h => hact x s h) _ (h.then (.freeCount _ _))

theorem isolationEffects_moves (p : Port) (h : Moves b a s) : Moves b a (isolationEffects p s) := by
  unfold isolationEffects
  simp only
  have h1 := removeParked_moves p (discardPort_moves p h)
  have h2 : Moves b a (if ((removeParked p (discardPort p s)).port p).profile = .caching then
      arrangeCleanup p (removeParked p (discardPort p s)) else removeParked p (discardPort p s)) := by
    split
    · exact arrangeCleanup_moves _ h1
    · exact h1
  exact cleanupTest_moves _ (inFreeOrder_moves _ _ (fun k s h => endByIsolation_moves _ _ h)
    (markLost_moves _ h2))

theorem has_single (p q : Port) : PortSet.has (PortSet.single p) q = decide (q = p) := by
  revert p q; decide

theorem has_diff (S T : PortSet) (p : Port) :
    PortSet.has (PortSet.diff S T) p = (PortSet.has S p && !PortSet.has T p) := by
  have hp : p.val < 8 := p.isLt
  simp [PortSet.has, PortSet.diff, hp]

theorem has_insert (S : PortSet) (p q : Port) :
    PortSet.has (PortSet.insert S p) q = (PortSet.has S q || decide (q = p)) := by
  rw [← has_single p q]
  simp [PortSet.has, PortSet.insert]

/-- A report is done with for a port that is Isolated. -/
theorem dropReport_moves (p : Port) (hp : ∃ d, (s.port p).state = .isolated d) (h : Moves true a s) :
    Moves true a (dropReport p s) := by
  refine h.then (.reported s rfl _ fun q hq => ?_)
  by_cases e : q = p
  · subst e; exact Or.inr hp
  · left; rw [has_diff, hq, has_single, decide_eq_false e]; rfl

/-- A report of LinkLost is done with. -/
theorem dropLoss_moves (p : Port) (h : Moves true a s) : Moves true a (dropLoss p s) :=
  h.then (.lossReported _ rfl _)

theorem isolate_moves (p : Port) (reason : IsolationReason) (hr : reason ≠ .none) (h : Moves true a s) :
    Moves true a (isolate p reason s) := by
  have go : (s.port p).state ≠ .unused → (∀ x, (s.port p).state ≠ .isolated x) → Moves true a (isolationEffects p
      (raise .portIsolated
        (dropLoss p (dropReport p
          (s.setPort p { s.port p with state := .isolated false, reason := reason }))))) := by
    intro hne hni
    refine isolationEffects_moves _ (raise_moves _ (dropLoss_moves _ (dropReport_moves _
      ⟨false, by rw [State.port_setPort]; exact if_pos rfl ▸ rfl⟩ (setPort_outer _ _ (fun hw => ?_) hni h))))
    exact ⟨⟨fun e => absurd (hw.unused_iff.mp e) hne, fun e => (by cases e)⟩, fun _ _ => hr,
      (by intro b e; cases e)⟩
  unfold isolate
  simp only
  split
  · next e => exact go (by rw [e]; decide) (by rw [e]; intro x h; cases h)
  · next e => exact go (by rw [e]; decide) (by rw [e]; intro x h; cases h)
  · next b e => exact go (by rw [e]; intro h; cases h) (by rw [e]; intro x h; cases h)
  · exact h
  · exact h

theorem reportTimeout_moves (p : Port) (h : Moves true a s) : Moves true a (reportTimeout p s) := by
  unfold reportTimeout
  simp only
  have h1 : Moves true a { s with freeCount := s.freeCount + 1, reported := PortSet.insert s.reported p } :=
    (h.then (.freeCount _ (s.freeCount + 1))).then
      (.reported _ rfl _ fun q hq => Or.inl (by rw [has_insert, hq]; rfl))
  split
  · exact isolate_moves _ _ (by decide) h1
  · exact h1

theorem takeLoss_moves (p : Port) (h : Moves true a s) : Moves true a (takeLoss p s) := by
  unfold takeLoss
  refine dropLoss_moves _ ?_
  split
  · exact isolate_moves _ _ (by decide) h
  · exact isolate_moves _ _ (by decide) h
  · exact h
  · exact h
  · exact h

theorem reportLoss_moves (p : Port) (h : Moves true a s) : Moves true a (reportLoss p s) := by
  unfold reportLoss
  simp only
  have h1 : Moves true a { s with freeCount := s.freeCount + 1, lossReported := PortSet.insert s.lossReported p } :=
    (h.then (.freeCount _ (s.freeCount + 1))).then (.lossReported _ rfl _)
  split
  · exact takeLoss_moves _ h1
  · exact h1

theorem settleLoss_moves (p : Port) (h : Moves true a s) : Moves true a (settleLoss p s) := by
  unfold settleLoss
  split
  · exact takeLoss_moves _ h
  · exact h

theorem protocolError_moves (p : Port) (h : Moves true a s) : Moves true a (protocolError p s) :=
  isolate_moves _ _ (by decide) (raise_moves _ h)

theorem strayMessage_moves (h : Moves b a s) : Moves b a (strayMessage s) := raise_moves _ h

/-- A link brought Down with its buffer emptied is in order. -/
theorem downed_wf (l : Link) (hu : l.up = false) (hr : l.resend = none) : l.Wf where
  bad_frames h := by rw [hu] at h; cases h
  buffered_up h := by rw [hr] at h; cases h
  buffered_attempts h := by rw [hr] at h; cases h

theorem linkLost_moves (p : Port) (h : Moves true a s) : Moves true a (linkLost p s) := by
  unfold linkLost
  simp only
  have h1 := setLink_outer (a := a) (s := s) p { s.link p with
    up := false, resend := none, outbound := [], queue := [], tags := Vector.replicate 4 .free }
    (fun _ => downed_wf _ rfl rfl) h
  split
  · exact reportLoss_moves _ h1
  · exact reportLoss_moves _ h1
  · exact h1
  · exact h1
  · exact h1

/-- The loss of a link does not look at what it empties. -/
theorem linkLost_setLink (p : Port) (l : Link) (s : State) (hl : ∀ m : Link, m = l →
      ({ m with up := false, resend := none, outbound := [], queue := [],
                tags := Vector.replicate 4 TagState.free } : Link).Wf) (h : Moves true a s) :
    Moves true a (linkLost p (s.setLink p l)) := by
  unfold linkLost
  simp only [State.modifyLink, State.link_setLink_same, State.setLink_setLink]
  have h1 := setLink_outer (a := a) (s := s) p { l with
    up := false, resend := none, outbound := [], queue := [], tags := Vector.replicate 4 .free }
    (fun _ => hl l rfl) h
  split
  · exact reportLoss_moves _ h1
  · exact reportLoss_moves _ h1
  · exact h1
  · exact h1
  · exact h1

theorem refuseAll_moves (p : Port) (tags : List Tag) (h : Moves b a s) : Moves b a (refuseAll p tags s) :=
  Moves.fold _ (fun _ _ h => respond_moves _ _ _ h) _ h

theorem enterDraining_moves (p : Port) (ho : (s.port p).state = .online) (h : Moves true a s) :
    Moves true a (enterDraining p s) := by
  unfold enterDraining
  simp only
  refine drainTest_moves _ ?_
  have h1 : Moves true a (s.setPort p
      { s.port p with state := .draining (!decide ((s.port p).profile = .caching)) }) := by
    refine setPort_outer _ _ (fun hw => ?_) (by rw [ho]; intro x e; cases e) h
    refine ⟨⟨fun e => absurd (hw.unused_iff.mp e) (by rw [ho]; decide), fun e => (by cases e)⟩, (by intro b e; cases e), ?_⟩
    intro b e he
    cases e
    have : (s.port p).profile = .streaming := he
    rw [this]; rfl
  have h2 := removeParked_moves p (refuseAll_moves p
    ((s.parked.filter fun q => decide (q.port = p)).map (·.tag) ++ (s.link p).queue.map (·.tag))
    (setLink_moves p { ((s.setPort p
      { s.port p with state := .draining (!decide ((s.port p).profile = .caching)) }).link p) with queue := [] }
      (fun hl => ⟨hl.1, hl.2, hl.3⟩) ⟨rfl, rfl, Or.inr rfl⟩ h1))
  split
  · exact enqueueJob_moves _ h2
  · exact h2

/-! ### Frames and messages -/

theorem goodFrame_moves (p : Port) (act : State → State) (hact : ∀ s, Moves true a s → Moves true a (act s))
    (h : Moves true a s) : Moves true a (goodFrame p act s) := by
  unfold goodFrame
  simp only
  split
  · exact hact _ (setLink_outer _ _ (fun hl => ⟨fun _ => by show (0 : Nat) < 3; decide, hl.2, hl.3⟩) h)
  · split
    · exact hact _ (setLink_outer _ _ (fun _ => ⟨fun _ => by show (0 : Nat) < 3; decide,
        (by intro e; cases e), (by intro e; cases e)⟩) (settleLoss_moves _ h))
    · exact h

theorem badFrameArrives_moves (p : Port) (h : Moves true a s) : Moves true a (badFrameArrives p s) := by
  unfold badFrameArrives
  simp only
  split
  · split
    · exact linkLost_setLink _ _ _ (fun m _ => downed_wf _ rfl rfl) h
    · next e =>
      refine transmit_moves _ _ (setLink_outer _ _ (fun hl => ⟨fun _ => ?_, hl.2, hl.3⟩) h)
      show (s.link p).badFrames + 1 < 3
      have : ¬ (3 ≤ (s.link p).badFrames + 1) := e
      omega
  · exact h

theorem failedAttempt_moves (p : Port) (h : Moves true a s) : Moves true a (failedAttempt p s) := by
  unfold failedAttempt
  simp only
  split
  · exact h
  · next f hf =>
    split
    · next e =>
      refine transmit_moves _ _ (setLink_outer _ _ (fun hl => ⟨hl.1, hl.2, fun hr => ?_⟩) h)
      have := hl.3 hr
      have e' : (s.link p).attempts < 3 := e
      constructor
      · show 1 ≤ (s.link p).attempts + 1; omega
      · show (s.link p).attempts + 1 ≤ 3; omega
    · exact linkLost_moves _ h

theorem acknowledged_moves (p : Port) (ch : Channel) (seq : Bool) (h : Moves b a s) :
    Moves b a (acknowledged p ch seq s) := by
  unfold acknowledged
  simp only
  split
  · split
    · exact setLink_moves _ _ (fun hl => ⟨hl.1, (by intro e; cases e), (by intro e; cases e)⟩) (.same rfl rfl rfl) h
    · exact h
  · exact h

theorem tagLeaves_moves (p : Port) (m : OutMessage) (h : Moves b a s) : Moves b a (tagLeaves p m s) := by
  unfold tagLeaves
  split
  · exact setTag_moves _ _ _ h
  · exact h
  · exact h
  · exact h
  · exact h

theorem transmitHead_moves (p : Port) (h : Moves true a s) : Moves true a (transmitHead p s) := by
  unfold transmitHead
  simp only
  split
  · next m rest hu hr ho =>
    refine tagLeaves_moves _ _ (transmit_moves _ _ (setLink_moves _ _ (fun hl => ⟨hl.1, fun _ => hu, fun _ => ?_⟩)
      (.same rfl rfl rfl) h))
    exact ⟨le_refl 1, by show (1 : Nat) ≤ 3; decide⟩
  · exact h

theorem messageFrame_moves (p : Port) (ch : InChannel) (act : State → State)
    (hact : ∀ s, Moves true a s → Moves true a (act s)) (h : Moves true a s) : Moves true a (messageFrame p ch act s) := by
  refine goodFrame_moves _ _ (fun s h => ?_) h
  refine hact _ (transmit_moves _ _ (setLink_outer _ _ (fun hl => ?_) h))
  cases ch <;> exact ⟨hl.1, hl.2, hl.3⟩

theorem secondCopy_moves (p : Port) (ch : InChannel) (h : Moves true a s) : Moves true a (secondCopy p ch s) :=
  goodFrame_moves _ _ (fun _ h => transmit_moves _ _ h) h

theorem ifListening_moves (p : Port) (act : State → State)
    (hact : ∀ s, Moves true a s → Moves true a (act s)) (h : Moves true a s) : Moves true a (ifListening p act s) := by
  unfold ifListening
  split
  · exact hact _ h
  · exact h

theorem requestArrives_moves (p : Port) (kind : RequestKind) (tag : Tag) (l : LineNo) (h : Moves true a s) :
    Moves true a (requestArrives p kind tag l s) := by
  unfold requestArrives
  split
  · have h1 := setTag_moves p tag .outstanding h
    simp only
    split
    · exact setLink_outer _ _ (fun hl => ⟨hl.1, hl.2, hl.3⟩) h1
    · exact respond_moves _ _ _ h1
    · exact respond_moves _ _ _ h1
    · exact h
    · exact h
  · exact protocolError_moves _ h

theorem helloTaken_moves (p : Port) (f : Profile) (h : Moves true a s) : Moves true a (helloTaken p f s) := by
  unfold helloTaken
  split
  · next hs =>
    split
    · refine raise_moves _ (queueMessage_moves _ _ (setPort_outer _ _ (fun hw => ?_)
        (by rw [hs]; intro x e; cases e) h))
      refine ⟨⟨fun e => ?_, fun e => (by cases e)⟩, (by intro b e; cases e), (by intro b e; cases e)⟩
      have := hw.unused_iff.mp e
      rw [hs] at this
      cases this
    · exact queueMessage_moves _ _ h
  · exact queueMessage_moves _ _ h
  · exact isolate_moves _ _ (by decide) h
  · exact isolate_moves _ _ (by decide) h
  · exact h

theorem helloArrives_moves (p : Port) (f : BitVec 2) (h : Moves true a s) : Moves true a (helloArrives p f s) := by
  unfold helloArrives
  split
  · exact h
  · split
    · exact protocolError_moves _ h
    · split
      · exact h
      · exact helloTaken_moves _ _ h

theorem isOnline_state {s : State} {p : Port} (h : s.isOnline p = true) : (s.port p).state = .online :=
  of_decide_eq_true h

theorem goodbyeArrives_moves (p : Port) (h : Moves true a s) : Moves true a (goodbyeArrives p s) := by
  unfold goodbyeArrives
  split
  · next e => exact enterDraining_moves _ (isOnline_state e) h
  · exact h

theorem applyRelease_moves (p : Port) (l : LineNo) (h : Moves b a s) : Moves b a (applyRelease p l s) := by
  unfold applyRelease
  have h1 := changingLookup_moves l h
  simp only
  split
  · exact h1
  · exact h1
  · split
    · exact retire_moves _ _ h1
    · exact h1
  · next w S hs =>
    split
    · split
      · exact retire_moves _ _ h1
      · next hne =>
        exact h1.then (.rewrite _ _ _ _ (decide_eq_true hne) rfl (stored_notPoisoned hs rfl))
    · exact h1

theorem releaseArrives_moves (p : Port) (l : LineNo) (h : Moves true a s) : Moves true a (releaseArrives p l s) := by
  unfold releaseArrives
  split
  · exact protocolError_moves _ h
  · exact applyRelease_moves _ _ h

theorem streamDoneArrives_moves (p : Port) (tag : Tag) (h : Moves true a s) : Moves true a (streamDoneArrives p tag s) := by
  unfold streamDoneArrives
  split
  · exact protocolError_moves _ h
  · split
    · exact strayMessage_moves h
    · exact complete_moves _ _ (modifyTxn_moves _ _ (fun _ => rfl) (fun _ => rfl) (fun _ => Or.inl rfl)
        (setTag_moves _ _ _ h))

theorem answerArrives_moves (p : Port) (slot : Fin 32) (gen : Bool) (l : LineNo) (f : BitVec 2)
    (h : Moves true a s) : Moves true a (answerArrives p slot gen l f s) := by
  unfold answerArrives
  split
  · exact protocolError_moves _ h
  · split
    · exact strayMessage_moves h
    · exact protocolError_moves _ h
    · exact takeAnswer_moves _ _ _ h

/-! ### The arbiter and the deadlines -/

theorem answerAtOnce_moves (k : SlotId) (p : Port) (tag : Tag) (r : Response) (h : Moves true a s) :
    Moves true a (answerAtOnce k p tag r s) :=
  quiesceCheck_moves (portTests_moves _ (freeSlot_moves _ (Or.inl rfl) (respondAtCompletion_moves _ _ _ h)))

theorem parkOnLine_moves (k : SlotId) (q : Parked) (h : Moves true a s) : Moves true a (parkOnLine k q s) :=
  joinParked_moves _ (freeSlot_moves _ (Or.inl rfl) h)

theorem startRequest_moves (k : SlotId) (q : Parked) (b : Bool) (hk : s.txn k = none) (h : Moves true a s) :
    Moves true a (startRequest k q b s) := by
  unfold startRequest
  split
  · exact answerAtOnce_moves _ _ _ _ h
  · split
    · exact answerAtOnce_moves _ _ _ _ h
    · split
      · exact answerAtOnce_moves _ _ _ _ h
      · split
        · exact parkOnLine_moves _ _ h
        · next hc =>
          refine startHandling_moves _ _ _ _ (h.then (.startTxn _ rfl _ _ hk ?_ rfl ?_))
          · exact Bool.eq_false_iff.mpr hc
          · intro e; cases e

/-- The slot the arbiter hands out is free (R73). -/
theorem freeSlotId_free {s : State} {k : SlotId} (h : s.freeSlotId = some k) : s.txn k = none :=
  Option.isNone_iff_eq_none.mp (List.find?_some (p := fun k => (s.txn k).isNone) h)

theorem handOut_free {s : State} {x : HandOut} (h : s.handOut = some x) :
    match x with
    | .parked k _ => s.txn k = none
    | .head k _ => s.txn k = none
    | .sweep k => s.txn k = none := by
  unfold State.handOut at h
  split at h
  · cases h
  · next k hk =>
    split at h
    · cases h; exact freeSlotId_free hk
    · split at h
      · cases h
      · split at h <;> (cases h; exact freeSlotId_free hk)

/-- The sweep engine is served only below its cap (R73). -/
theorem handOut_sweep {s : State} {k : SlotId} (h : s.handOut = some (.sweep k)) : s.sweepActive < 4 := by
  unfold State.handOut at h
  split at h
  · cases h
  · split at h
    · cases h
    · split at h
      · cases h
      · next n hn =>
        split at h
        · cases h
        · next h8 =>
          have := List.find?_some (p := fun n => s.presentAt n) hn
          unfold State.presentAt at this
          rw [dif_neg h8] at this
          unfold State.sweepCompetes at this
          split at this
          · cases this
          · rw [Bool.and_eq_true, Bool.and_eq_true] at this
            exact of_decide_eq_true this.2

theorem takeHead_moves (h : Moves true a s) : Moves true a (takeHead s) := by
  unfold takeHead
  split
  · next k p hh =>
    split
    · exact h
    · next r rest _ =>
      refine startRequest_moves k _ true (handOut_free hh) ?_
      exact (setLink_outer p { s.link p with queue := rest } (fun hl => ⟨hl.1, hl.2, hl.3⟩) h).then
        (.intake _ (nextPosition ⟨p.val, by omega⟩) (s.nextOrder + 1))
  · exact h
  · exact h
  · exact h

theorem restartOldest_moves (h : Moves true a s) : Moves true a (restartOldest s) := by
  unfold restartOldest
  split
  · next k q hh =>
    refine startRequest_moves k _ false (handOut_free hh) ?_
    exact h.then (.parked _ _ (parkedWf_sublist List.erase_sublist))
  · exact h
  · exact h
  · exact h

theorem countRecall_moves (j : Job) (h : Moves b a s) : Moves b a (countRecall j s) := by
  unfold countRecall
  split
  · exact h.then (.sweep _ _)
  · exact h

theorem startRecall_moves (k : SlotId) (j : Job) (l : LineNo) (hk : s.txn k = none) (hc : s.sweepActive < 4)
    (h : Moves true a s) : Moves true a (startRecall k j l s) := by
  unfold startRecall
  split
  · exact setWork_moves _ _ (freeSlot_moves _ (Or.inl rfl) h)
  · next hcl =>
    have h1 := changingLookup_moves l (setWork_moves l .handled (h.then (.startTxn s rfl k
      (Txn.start (.sweep j.owner) .sweepRecall l) hk (Bool.eq_false_iff.mpr hcl) rfl (fun _ => hc))))
    simp only
    refine leaveIfHandled_moves ?_
    split
    · exact issueProbes_moves _ _ _ _ (countRecall_moves _
        (modifyTxn_moves _ _ (fun _ => rfl) (fun _ => rfl) (fun _ => Or.inl rfl) h1))
    · exact complete_moves _ _ h1

theorem serveSweep_moves (h : Moves true a s) : Moves true a (serveSweep s) := by
  unfold serveSweep
  split
  · next k hh =>
    split
    · exact startRecall_moves _ _ _ (show s.txn k = none from handOut_free hh)
        (show s.sweepActive < 4 from handOut_sweep hh) (h.then (.intake _ _ _))
    · exact h
  · exact h
  · exact h
  · exact h

theorem reprobeSlot_moves (k : SlotId) (h : Moves b a s) : Moves b a (reprobeSlot k s) := by
  unfold reprobeSlot
  split
  · exact h
  · next t ht =>
    split
    · simp only
      exact Moves.fold _ (fun _ _ h => queueMessage_moves _ _ h) _
        (h.then (.changeTxn _ _ t _ ht rfl rfl (Or.inl rfl)))
    · exact h

theorem probeTimeoutSlot_moves (k : SlotId) (h : Moves true a s) : Moves true a (probeTimeoutSlot k s) := by
  unfold probeTimeoutSlot
  split
  · exact h
  · next t e =>
    split
    · exact inFreeOrder_moves _ _ (fun p s h => reportTimeout_moves p h)
        (h.then (.changeTxn _ _ _ _ e rfl rfl (Or.inl rfl)))
    · exact h

theorem leaseTimeoutSlot_moves (k : SlotId) (h : Moves true a s) : Moves true a (leaseTimeoutSlot k s) := by
  unfold leaseTimeoutSlot
  split
  · exact h
  · split
    · split
      · exact isolate_moves _ _ (by decide) h
      · exact h
    · exact h

theorem clockChange_moves (p : Port) (x : Bool) (h : Moves true a s) : Moves true a (clockChange p x s) := by
  refine setLink_outer _ _ (fun hl => ?_) h
  dsimp only
  split
  · exact ⟨hl.1, hl.2, hl.3⟩
  · split
    · exact ⟨hl.1, hl.2, hl.3⟩
    · exact hl

end Sys2Proof.Machine
end

