-- ==== Sys2Proof/Laws/Effects.lean ====
section
/-! SUPPORT. The commands as chains of moves: what `exec` and `step` can do, said once for all commands. -/

namespace Sys2Proof.Machine

open Sys2Proof

/-- A long command begins on an idle unit: a Quiesce makes the service state Quiescing, any other leaves it. -/
inductive Begin : State → State → Prop
  | quiesce (s : State) (h : s.unit.inProgress = none) :
      Begin s (beginLong .quiesce { s with service := .quiescing })
  | job (s : State) (c : LongCommand) (hc : c ≠ .quiesce) (h : s.unit.inProgress = none) :
      Begin s (beginLong c s)

/-- A command that can carry out ClearIsolation: its own row, a start word written with its code, and a write of
the start word as a plain word. -/
def mayClear : Instr → Bool
  | .clearIsolation => true
  | .unknownCommandCode code => decide (code = 4)
  | .registerWrite w _ => decide (w = 0x06)
  | _ => false

/-- A command that can clear a pending flag: the acknowledge word's own row, and a write of it as a plain word. -/
def mayAcknowledge : Instr → Bool
  | .acknowledgeCause _ => true
  | .registerWrite w _ => decide (w = 0x18)
  | _ => false

/-- What the act of an event can do; `c` allows it to be a ClearIsolation, `k` an acknowledgement. -/
inductive Act (c k : Bool) (a : State) : State → Prop
  /-- A chain of moves. -/
  | moves (t : State) (m : Moves true a t) : Act c k a t
  /-- The start of a long command, with moves before it and after it. -/
  | begins (u v t : State) (m : Moves true a u) (b : Begin u v) (n : Moves true v t) : Act c k a t
  /-- A port whose cleanup is done leaves Isolated, with moves before it and after it. -/
  | unisolate (hc : c = true) (u t : State) (p : Port) (m : Moves true a u)
      (h : (u.port p).state = .isolated true)
      (n : Moves true (u.setPort p { u.port p with state := .offline }) t) : Act c k a t
  /-- A pending flag is cleared. -/
  | acknowledge (hk : k = true) (u : State) (v : Word) (m : Moves true a u) : Act c k a (acknowledgeFlag v u)

/-- What a command can do. -/
inductive Effect (c : Instr) (s : State) : State → Prop
  /-- While RESET is asserted, nothing. -/
  | held (h : s.inReset = true) : Effect c s s
  /-- The act of an event. -/
  | act (t : State) (h : s.inReset = false) (m : Act (mayClear c) (mayAcknowledge c) s t) : Effect c s t
  /-- A hard reset. -/
  | hardReset (hc : c = .hardReset) :
      Effect c s { State.reset with pending := s.pending, freeCount := s.freeCount, inReset := true }
  /-- The release of RESET. -/
  | release (wide : Bool) (hc : c = .resetRelease wide) (h : s.inReset = true) :
      Effect c s { State.reset with
        pending := s.pending, freeCount := s.freeCount, window := { State.reset.window with wide := wide } }

variable {c k : Bool} {a s : State}

theorem Act.of (h : Moves true a s) : Act c k a s := .moves _ h

/-- An act after a chain of moves. -/
theorem Act.after {t : State} (h : Moves true a s) (x : Act c k s t) : Act c k a t := by
  cases x with
  | moves _ m => exact .moves _ (h.trans m)
  | begins u v _ m b n => exact .begins u v _ (h.trans m) b n
  | unisolate hc u _ p m hp n => exact .unisolate hc u _ p (h.trans m) hp n
  | acknowledge hk u v m => exact .acknowledge hk u v (h.trans m)

/-- An event whose act is an act answers next. -/
theorem event_effect (i : Instr) (s : State) (act : State → State)
    (h : ∀ a s, Moves true a s → Act (mayClear i) (mayAcknowledge i) a (act s)) : ∃ t, event s act = .next t ∧ Effect i s t := by
  unfold event
  by_cases hr : s.inReset = true
  · exact ⟨s, by rw [if_pos hr], .held hr⟩
  · exact ⟨act { s with tx := [] }, by rw [if_neg hr], .act _ (Bool.eq_false_iff.mpr hr)
      (h s { s with tx := [] } (Relation.ReflTransGen.refl.tail (.tx s rfl [])))⟩

/-- An event whose act is a chain of moves. -/
theorem event_moves (i : Instr) (s : State) (act : State → State)
    (h : ∀ a s, Moves true a s → Moves true a (act s)) : ∃ t, event s act = .next t ∧ Effect i s t :=
  event_effect i s act fun a s m => Act.of (h a s m)

/-! ### The start of a command -/

/-- The start of a command: a body that is a chain of moves from an idle unit, perhaps with the start of a long
command (R162, R163). -/
theorem startCommand_act (code : Word) (body : State → State)
    (hb : ∀ s, s.unit.inProgress = none → Act c k s (body s)) (h : Moves true a s) :
    Act c k a (startCommand code body s) := by
  unfold startCommand
  split
  · refine Act.of (h.then (.service s s.service { s.unit with status := .rejectedBusy } (fun hq => hq)
      (fun e => Or.inl e) (Or.inl rfl)))
  · next hi =>
    have hn : s.unit.inProgress = none := by
      unfold State.busy at hi
      cases hp : s.unit.inProgress
      · rfl
      · rw [hp] at hi; exact absurd rfl hi
    have h1 := h.then (.service s s.service
      { s.unit with code := code, latched := s.window.operands, results := Vector.replicate 4 0 }
      (fun hq => hq) (fun e => Or.inl e) (Or.inl rfl))
    exact Act.after h1 (hb _ hn)

theorem refl_moves (s : State) : Moves true s s := Relation.ReflTransGen.refl

theorem badOperand_act (h : s.unit.inProgress = none) : Act c k s (badOperand s) :=
  Act.of (completeIdle_moves _ _ _ _ _ h (refl_moves s))

theorem wrongState_act (h : s.unit.inProgress = none) : Act c k s (wrongState s) :=
  Act.of (completeIdle_moves _ _ _ _ _ h (refl_moves s))

theorem setPortProfile_act (h : s.unit.inProgress = none) : Act c k s (setPortProfile s) := by
  unfold setPortProfile
  split
  · exact badOperand_act h
  · next p f _ =>
    have go : (s.port p).state = .unused ∨ (s.port p).state = .offline →
        Moves true s (completePort .done p (s.setPort p { s.port p with profile := f, state := stateFor f })) := by
      intro hs
      refine completeIdle_moves _ _ _ _ _ h (setPort_outer _ _ (fun _ => ?_)
        (by rcases hs with e | e <;> (rw [e]; intro x e; cases e)) (refl_moves s))
      cases f
      · exact ⟨⟨fun _ => rfl, fun _ => rfl⟩, (by intro b e; cases e), (by intro b e; cases e)⟩
      · exact ⟨⟨fun e => (by cases e), fun e => (by cases e)⟩, (by intro b e; cases e), (by intro b e; cases e)⟩
      · exact ⟨⟨fun e => (by cases e), fun e => (by cases e)⟩, (by intro b e; cases e), (by intro b e; cases e)⟩
    have no : Moves true s (completePort .wrongState p s) := completeIdle_moves _ _ _ _ _ h (refl_moves s)
    simp only
    split
    · next e => exact Act.of (go (Or.inl e))
    · next e => exact Act.of (go (Or.inr e))
    · exact Act.of no
    · exact Act.of no
    · exact Act.of no

theorem evictPort_act (h : s.unit.inProgress = none) : Act c k s (evictPort s) := by
  unfold evictPort
  split
  · exact badOperand_act h
  · split
    · next e =>
      exact Act.of (completeIdle_moves _ _ _ _ _ h (enterDraining_moves _ (isOnline_state e) (refl_moves s)))
    · exact Act.of (completeIdle_moves _ _ _ _ _ h (refl_moves s))

theorem isolatePort_act (h : s.unit.inProgress = none) : Act c k s (isolatePort s) := by
  unfold isolatePort
  split
  · exact badOperand_act h
  · split
    · exact Act.of (completeIdle_moves _ _ _ _ _ h (refl_moves s))
    · exact Act.of (completeIdle_moves _ _ _ _ _ h (isolate_moves _ _ (by decide) (refl_moves s)))

theorem clearIsolation_act (hc : c = true) (h : s.unit.inProgress = none) : Act c k s (clearIsolation s) := by
  unfold clearIsolation
  split
  · exact badOperand_act h
  · next p _ =>
    split
    · next e =>
      exact .unisolate hc s _ p (refl_moves s) e
        (completeIdle_moves (a := s.setPort p { s.port p with state := .offline }) _ _ _ _ _ h (refl_moves _))
    · exact Act.of (completeIdle_moves _ _ _ _ _ h (refl_moves s))

theorem writeRegion_act (h : s.unit.inProgress = none) : Act c k s (writeRegion s) := by
  unfold writeRegion
  split
  · exact badOperand_act h
  · split
    · exact .begins s _ _ (refl_moves s) (.job s _ (by decide) h) (enqueueJob_moves _ (refl_moves _))
    · exact wrongState_act h

theorem flush_act (h : s.unit.inProgress = none) : Act c k s (flush s) := by
  unfold flush
  split
  · exact badOperand_act h
  · exact .begins s _ _ (refl_moves s) (.job s _ (by decide) h) (enqueueJob_moves _ (refl_moves _))

theorem clearAllPoison_act (h : s.unit.inProgress = none) : Act c k s (clearAllPoison s) :=
  .begins s _ _ (refl_moves s) (.job s _ (by decide) h) (enqueueJob_moves _ (refl_moves _))

theorem quiesce_act (h : s.unit.inProgress = none) : Act c k s (quiesce s) := by
  unfold quiesce
  split
  · exact Act.of (completeIdle_moves _ _ _ _ _ h (refl_moves s))
  · exact .begins s _ _ (refl_moves s) (.quiesce s h) (quiesceCheck_moves (refl_moves _))

theorem resume_act (h : s.unit.inProgress = none) : Act c k s (resume s) := by
  unfold resume
  split
  · exact wrongState_act h
  · next e =>
    refine Act.of (completeCommand_moves _ _ _ _ _ (fun _ e => by cases e) ((refl_moves s).then
      (.service s .running s.unit (fun _ => ?_) (fun _ => Or.inr (not_le.mp e)) (Or.inl rfl))))
    constructor
    · intro e; cases e
    · intro e; rw [h] at e; cases e

theorem lookupLine_act (h : s.unit.inProgress = none) : Act c k s (lookupLine s) := by
  unfold lookupLine
  split
  · exact badOperand_act h
  · exact Act.of (completeIdle_moves _ _ _ _ _ h (observingLookup_moves _ (refl_moves s)))

theorem nextPoisoned_act (h : s.unit.inProgress = none) : Act c k s (nextPoisoned s) := by
  unfold nextPoisoned
  split
  · exact badOperand_act h
  · next l _ =>
    have h1 : Moves true s ((s.entryLines.filter fun m => decide (l ≤ m)).foldl (fun s m => observingLookup m s) s) :=
      Moves.fold _ (fun _ _ h => observingLookup_moves _ h) _ (refl_moves s)
    simp only
    split
    · exact Act.of (completeIdle_moves _ _ _ _ _ h h1)
    · split
      · exact Act.of (completeIdle_moves _ _ _ _ _ h h1)
      · exact Act.of (completeIdle_moves _ _ _ _ _ h h1)

theorem clearPoison_act (h : s.unit.inProgress = none) : Act c k s (clearPoison s) := by
  unfold clearPoison
  split
  · exact badOperand_act h
  · next l _ =>
    have h1 := changingLookup_moves l (refl_moves s)
    simp only
    split
    · exact Act.of (completeIdle_moves _ _ _ _ _ h (retire_moves _ _ h1))
    · exact Act.of (completeIdle_moves _ _ _ _ _ h h1)
    · exact Act.of (completeIdle_moves _ _ _ _ _ h h1)
    · exact Act.of (completeIdle_moves _ _ _ _ _ h h1)

theorem clearEntries_moves (h : Moves true a s) : Moves true a (clearEntries s) :=
  Moves.fold _ (fun _ _ h => readySet_moves _ h) _ (h.then (.clear _))

theorem clearDirectory_act (h : s.unit.inProgress = none) : Act c k s (clearDirectory s) := by
  unfold clearDirectory
  split
  · exact Act.of (completeIdle_moves _ _ _ _ _ h (clearEntries_moves (refl_moves s)))
  · exact wrongState_act h

theorem operand_lt (s : State) (n : Fin 6) : s.operand n < 65536 := (s.unit.latched[n]).isLt

theorem setTiming_act (h : s.unit.inProgress = none) : Act c k s (setTiming s) := by
  unfold setTiming
  split
  · exact badOperand_act h
  · next x y hx =>
    unfold State.opTiming at hx
    split at hx
    · next e =>
      cases hx
      have := operand_lt s 1
      exact Act.of (completeIdle_moves _ _ _ _ _ h ((refl_moves s).then
        (.timing s _ _ ⟨e.1, e.2.1⟩ ⟨e.2.2, by omega⟩)))
    · cases hx

theorem setPoisonThreshold_act (h : s.unit.inProgress = none) : Act c k s (setPoisonThreshold s) := by
  unfold setPoisonThreshold
  split
  · exact badOperand_act h
  · next v hv =>
    unfold State.opThreshold at hv
    split at hv
    · next e =>
      cases hv
      exact Act.of (completeIdle_moves _ _ _ _ _ h ((refl_moves s).then (.threshold s _ e)))
    · cases hv

theorem commandBody_act (code : Word) (hc : code = 4 → c = true) (h : s.unit.inProgress = none) :
    Act c k s (commandBody code s) := by
  unfold commandBody
  match hn : code.toNat with
  | 0 => exact badOperand_act h
  | 1 => exact setPortProfile_act h
  | 2 => exact evictPort_act h
  | 3 => exact isolatePort_act h
  | 4 => exact clearIsolation_act (hc (BitVec.eq_of_toNat_eq hn)) h
  | 5 => exact writeRegion_act h
  | 6 => exact quiesce_act h
  | 7 => exact resume_act h
  | 8 => exact flush_act h
  | 9 => exact lookupLine_act h
  | 10 => exact nextPoisoned_act h
  | 11 => exact clearPoison_act h
  | 12 => exact clearAllPoison_act h
  | 13 => exact setTiming_act h
  | 14 => exact setPoisonThreshold_act h
  | 15 => exact clearDirectory_act h
  | _ + 16 => exact badOperand_act h

/-! ### The other accesses to the window -/

theorem abortJob_moves (c : LongCommand) (hc : c ≠ .quiesce) (hp : s.unit.inProgress = some c) (h : Moves true a s) :
    Moves true a (abortJob s) := by
  refine removeCommandJob_moves (completeCommand_moves _ _ _ _ _ (fun hq e => ?_) h)
  have := hq.mp e
  rw [hp] at this
  cases this
  exact hc rfl

theorem abortQuiesce_moves (h : Moves true a s) : Moves true a (abortQuiesce s) := by
  unfold abortQuiesce
  split
  · refine raise_moves _ ((raise_moves .halted h).then (.service (raise .halted s) .halted
      { s.unit with inProgress := none, status := .aborted, results := #v[ServiceState.halted.code, 0, 0, 0] }
      (fun _ => ⟨fun e => (by cases e), fun e => (by cases e)⟩) (fun e => by cases e) (Or.inr rfl)))
  · next e =>
    refine raise_moves _ (h.then (.service s .running
      { s.unit with inProgress := none, status := .aborted, results := #v[ServiceState.running.code, 0, 0, 0] }
      (fun _ => ⟨fun e => (by cases e), fun e => (by cases e)⟩) (fun _ => Or.inr (not_le.mp e)) (Or.inr rfl)))

theorem abortCommand_moves (h : Moves true a s) : Moves true a (abortCommand s) := by
  unfold abortCommand
  split
  · exact h
  · exact abortQuiesce_moves h
  · next e => exact abortJob_moves _ (by decide) e h
  · next e => exact abortJob_moves _ (by decide) e h
  · next e => exact abortJob_moves _ (by decide) e h

theorem writeEnables_moves (v : Word) (h : Moves true a s) : Moves true a (writeEnables v s) :=
  h.then (.notify _ _ fun _ hi => hi)

theorem writeWord_act (w : WordNo) (v : Word) (hc : w = 0x06 → c = true)
    (hk : w = 0x18 → k = true) (h : Moves true a s) :
    Act c k a (writeWord w v s) := by
  unfold writeWord
  split
  · exact Act.of (h.then (.window _ _))
  · split
    · next e => exact startCommand_act _ _ (fun _ => commandBody_act _ (fun _ => hc e)) h
    · split
      · exact Act.of (abortCommand_moves h)
      · split
        · next e => exact .acknowledge (hk e) _ _ h
        · split
          · exact Act.of (writeEnables_moves _ h)
          · exact Act.of h

theorem writeLowByte_moves (b : Byte) (h : Moves true a s) : Moves true a (writeLowByte b s) := by
  unfold writeLowByte
  split
  · exact h
  · exact h.then (.window _ _)

theorem readLowByte_moves (w : WordNo) (h : Moves true a s) : Moves true a (readLowByte w s) := by
  unfold readLowByte
  split
  · exact h
  · exact h.then (.window _ _)

theorem readHighByte_moves (w : WordNo) (h : Moves true a s) : Moves true a (readHighByte w s) := by
  unfold readHighByte
  split
  · exact h
  · split
    · exact h.then (.window _ _)
    · exact h.then (.window _ _)

/-! ### Every command -/

theorem command_effect (i : Instr) (code : Word) (body : State → State)
    (hb : ∀ s, s.unit.inProgress = none → Act (mayClear i) (mayAcknowledge i) s (body s)) (s : State) :
    ∃ t, event s (startCommand code body) = .next t ∧ Effect i s t :=
  event_effect i s _ fun _ _ h => startCommand_act code body hb h

/-- EVERY COMMAND ANSWERS NEXT, and what it does is one of the effects: no fault and no refusal. -/
theorem exec_effect (c : Instr) (s : State) : ∃ t, exec c s = .next t ∧ Effect c s t := by
  cases c with
  | hardReset => exact ⟨_, rfl, .hardReset rfl⟩
  | resetRelease wide =>
    show ∃ t, execResetRelease wide s = .next t ∧ _
    unfold execResetRelease
    cases hr : s.inReset
    · exact ⟨s, by simp, .act _ hr (Act.of (refl_moves s))⟩
    · exact ⟨_, by simp, .release wide rfl hr⟩
  | receiveClockChange p b => exact event_moves _ s _ fun _ _ h => clockChange_moves p b h
  | clockAbsenceTimeout p =>
    refine event_moves _ s (fun s => if s.clockOverdue p then linkLost p s else s) fun _ _ h => ?_
    split
    · exact linkLost_moves p h
    · exact h
  | badFrame p => exact event_moves _ s _ fun _ _ h => badFrameArrives_moves p h
  | acknowledge p ch seq =>
    exact event_moves _ s _ fun _ _ h => goodFrame_moves p _ (fun _ h => acknowledged_moves p ch seq h) h
  | resend p => exact event_moves _ s _ fun _ _ h => goodFrame_moves p _ (fun _ h => failedAttempt_moves p h) h
  | idle p => exact event_moves _ s _ fun _ _ h => goodFrame_moves p _ (fun _ h => h) h
  | ackTimeout p =>
    refine event_moves _ s (fun s => if s.ackOverdue p then failedAttempt p s else s) fun _ _ h => ?_
    split
    · exact failedAttempt_moves p h
    · exact h
  | transmitFrame p => exact event_moves _ s _ fun _ _ h => transmitHead_moves p h
  | readShared p t l =>
    exact event_moves _ s _ fun _ _ h => messageFrame_moves p _ _
      (fun _ h => ifListening_moves p _ (fun _ h => requestArrives_moves p _ t l h) h) h
  | readExclusive p t l =>
    exact event_moves _ s _ fun _ _ h => messageFrame_moves p _ _
      (fun _ h => ifListening_moves p _ (fun _ h => requestArrives_moves p _ t l h) h) h
  | upgrade p t l =>
    exact event_moves _ s _ fun _ _ h => messageFrame_moves p _ _
      (fun _ h => ifListening_moves p _ (fun _ h => requestArrives_moves p _ t l h) h) h
  | streamRead p t l =>
    exact event_moves _ s _ fun _ _ h => messageFrame_moves p _ _
      (fun _ h => ifListening_moves p _ (fun _ h => requestArrives_moves p _ t l h) h) h
  | streamWrite p t l =>
    exact event_moves _ s _ fun _ _ h => messageFrame_moves p _ _
      (fun _ h => ifListening_moves p _ (fun _ h => requestArrives_moves p _ t l h) h) h
  | hello p f =>
    exact event_moves _ s _ fun _ _ h => messageFrame_moves p _ _ (fun _ h => helloArrives_moves p f h) h
  | goodbye p =>
    exact event_moves _ s _ fun _ _ h => messageFrame_moves p _ _
      (fun _ h => ifListening_moves p _ (fun _ h => goodbyeArrives_moves p h) h) h
  | release p l =>
    exact event_moves _ s _ fun _ _ h => messageFrame_moves p _ _
      (fun _ h => ifListening_moves p _ (fun _ h => releaseArrives_moves p l h) h) h
  | releaseDirty p l =>
    exact event_moves _ s _ fun _ _ h => messageFrame_moves p _ _
      (fun _ h => ifListening_moves p _ (fun _ h => releaseArrives_moves p l h) h) h
  | streamDone p t =>
    exact event_moves _ s _ fun _ _ h => messageFrame_moves p _ _
      (fun _ h => ifListening_moves p _ (fun _ h => streamDoneArrives_moves p t h) h) h
  | answer p k g l o =>
    exact event_moves _ s _ fun _ _ h => messageFrame_moves p _ _
      (fun _ h => ifListening_moves p _ (fun _ h => answerArrives_moves p k g l o h) h) h
  | unknownMessageKind p m =>
    cases m with
    | undefinedKind ch code =>
      exact event_moves _ s _ fun _ _ h => messageFrame_moves p _ _
        (fun _ h => ifListening_moves p _ (fun _ h => protocolError_moves p h) h) h
    | helloProfile f =>
      refine event_moves _ s _ fun _ _ h => messageFrame_moves p _ _ (fun _ h => ?_) h
      split
      · exact h
      · exact protocolError_moves p h
    | answerOutcome =>
      exact event_moves _ s _ fun _ _ h => messageFrame_moves p _ _
        (fun _ h => ifListening_moves p _ (fun _ h => protocolError_moves p h) h) h
    | outboundChannel code =>
      exact event_moves _ s _ fun _ _ h => goodFrame_moves p _
        (fun _ h => ifListening_moves p _ (fun _ h => protocolError_moves p h) h) h
  | takeQueueHead => exact event_moves _ s _ fun _ _ h => takeHead_moves h
  | restartParked => exact event_moves _ s _ fun _ _ h => restartOldest_moves h
  | startSweepRecall => exact event_moves _ s _ fun _ _ h => serveSweep_moves h
  | reprobe k => exact event_moves _ s _ fun _ _ h => reprobeSlot_moves k h
  | probeTimeout k => exact event_moves _ s _ fun _ _ h => probeTimeoutSlot_moves k h
  | leaseTimeout k => exact event_moves _ s _ fun _ _ h => leaseTimeoutSlot_moves k h
  | setPortProfile => exact command_effect _ _ _ (fun _ => setPortProfile_act) s
  | evictPort => exact command_effect _ _ _ (fun _ => evictPort_act) s
  | isolatePort => exact command_effect _ _ _ (fun _ => isolatePort_act) s
  | clearIsolation => exact command_effect _ _ _ (fun _ => clearIsolation_act rfl) s
  | writeRegion => exact command_effect _ _ _ (fun _ => writeRegion_act) s
  | quiesce => exact command_effect _ _ _ (fun _ => quiesce_act) s
  | resume => exact command_effect _ _ _ (fun _ => resume_act) s
  | flush => exact command_effect _ _ _ (fun _ => flush_act) s
  | lookupLine => exact command_effect _ _ _ (fun _ => lookupLine_act) s
  | nextPoisoned => exact command_effect _ _ _ (fun _ => nextPoisoned_act) s
  | clearPoison => exact command_effect _ _ _ (fun _ => clearPoison_act) s
  | clearAllPoison => exact command_effect _ _ _ (fun _ => clearAllPoison_act) s
  | setTiming => exact command_effect _ _ _ (fun _ => setTiming_act) s
  | setPoisonThreshold => exact command_effect _ _ _ (fun _ => setPoisonThreshold_act) s
  | clearDirectory => exact command_effect _ _ _ (fun _ => clearDirectory_act) s
  | unknownCommandCode code => exact command_effect _ _ _ (fun _ => commandBody_act code (fun e => by rw [e]; rfl)) s
  | abort v => exact event_moves _ s _ fun _ _ h => abortCommand_moves h
  | acknowledgeCause v => exact event_effect _ s _ fun _ _ h => .acknowledge rfl _ _ h
  | enableWordWrite v => exact event_moves _ s _ fun _ _ h => writeEnables_moves _ h
  | registerWrite w v => exact event_effect _ s _ fun _ _ h => writeWord_act w _ (fun e => by rw [e]; rfl) (fun e => by rw [e]; rfl) h
  | lowByteWrite w b => exact event_moves _ s _ fun _ _ h => writeLowByte_moves b h
  | lowByteRead w => exact event_moves _ s _ fun _ _ h => readLowByte_moves w h
  | secondCopyOfFrame p ch => exact event_moves _ s _ fun _ _ h => secondCopy_moves p ch h
  | highByteRead w => exact event_moves _ s _ fun _ _ h => readHighByte_moves w h

/-- What every move keeps, every chain of moves keeps. -/
theorem Moves.keeps {b : Bool} {I : State → Prop} (hm : ∀ s t, Move b s t → I s → I t) {s t : State}
    (m : Moves b s t) (h : I s) : I t := by
  induction m with
  | refl => exact h
  | tail _ m ih => exact hm _ _ m ih

/-- A law that every move keeps, that the start of a long command keeps, that a port's leaving of Isolated keeps,
and that holds of the machine in reset, is kept by every command. -/
theorem exec_keeps (I : State → Prop) (hm : ∀ s t, Move true s t → I s → I t)
    (hb : ∀ s t, Begin s t → I s → I t)
    (hu : ∀ (s : State) (p : Port), (s.port p).state = .isolated true → I s →
      I (s.setPort p { s.port p with state := .offline }))
    (ha : ∀ (s : State) (v : Word), I s → I (acknowledgeFlag v s))
    (hr : ∀ (q : List Instr) (n : Nat) (b : Bool) (w : Window),
      I { State.reset with pending := q, freeCount := n, inReset := b, window := w })
    (c : Instr) (s t : State) (h : exec c s = .next t) (hs : I s) : I t := by
  obtain ⟨u, hx, he⟩ := exec_effect c s
  rw [hx] at h
  cases h
  cases he with
  | held h => exact hs
  | act _ _ m =>
    cases m with
    | moves _ m => exact m.keeps hm hs
    | begins u v _ m b n => exact n.keeps hm (hb _ _ b (m.keeps hm hs))
    | unisolate _ u _ p m hp n => exact n.keeps hm (hu u p hp (m.keeps hm hs))
    | acknowledge _ u v m => exact ha u v (m.keeps hm hs)
  | hardReset => exact hr _ _ _ _
  | release wide => exact hr _ _ _ _

/-- What the step on an empty queue can do: nothing; tick; one thing the block has to do of itself. -/
theorem idleStep_cases (s : State) :
    idleStep s = s ∨ idleStep s = tick s ∨
      ∃ w ∈ s.ownWork, idleStep s = doOwn w { s with freeCount := s.freeCount + 1 } := by
  have mem : ∀ {α : Type} (c : Nat) (l : List α) (x : α), chooseOne c l = some x → x ∈ l := by
    intro α c l x h
    unfold chooseOne at h
    split at h
    · cases h
    · cases h; exact List.mem_singleton.mpr rfl
    · exact List.mem_of_getElem? h
  unfold idleStep
  split
  · exact Or.inl rfl
  · split
    · next w e => exact Or.inr (Or.inr ⟨w, mem _ _ _ e, rfl⟩)
    · exact Or.inr (Or.inl rfl)

/-- The free value chooses something of a list that is not empty (log 4). -/
theorem chooseOne_some {α : Type} (c : Nat) (l : List α) (h : l ≠ []) : ∃ x ∈ l, chooseOne c l = some x := by
  unfold chooseOne
  split
  · exact absurd rfl h
  · exact ⟨_, List.mem_singleton.mpr rfl, rfl⟩
  · have hl : Config.freeChoice c % l.length < l.length := Nat.mod_lt _ (List.length_pos_iff.mpr h)
    exact ⟨_, List.getElem_mem hl, List.getElem?_eq_getElem hl⟩

/-- A law that every command keeps, that every chain of moves keeps, and that looks neither at the queue, the
timebase and the reports nor at the records of free choices and of frames, is kept by every step. -/
theorem step_keeps (I : State → Prop)
    (hc : ∀ (c : Instr) (s t : State), exec c s = .next t → I s → I t)
    (hm : ∀ s t, Move true s t → I s → I t)
    (hq : ∀ (s : State) (q : List Instr) (n m : Nat) (x : List (Port × WireFrame)) (r : PortSet), I s →
      I { s with pending := q, now := n, freeCount := m, tx := x, reported := r })
    (s t : State) (h : step s = .next t) (hs : I s) : I t := by
  unfold step at h
  split at h
  · next c rest e => exact hc c _ t h (hq s rest s.now s.freeCount s.tx s.reported hs)
  · cases h
    rcases idleStep_cases s with e | e | ⟨w, _, e⟩
    · rw [e]; exact hs
    · rw [e]; exact hq s s.pending (s.now + 1) s.freeCount [] s.reported hs
    · rw [e]
      have h1 := hq s s.pending s.now (s.freeCount + 1) [] s.reported hs
      cases w with
      | timeout p =>
        have h2 := Moves.keeps hm (isolate_moves p .probeTimeout (by decide) (refl_moves _)) h1
        exact hq _ _ _ _ _ (PortSet.diff _ (PortSet.single p)) h2
      | loss p => exact Moves.keeps hm (takeLoss_moves p (refl_moves _)) h1
      | event c => exact hq s [c] s.now (s.freeCount + 1) [] s.reported hs
      | walk => exact Moves.keeps hm (leaveIfHandled_moves (refl_moves _)) h1
      | tick => exact hq s s.pending (s.now + 1) (s.freeCount + 1) [] s.reported hs

end Sys2Proof.Machine
end

