-- ==== Sys2Proof/Laws/Formats.lean ====
section
/-! SUPPORT. The fields of a header, said once for each of the shapes in which 12.1 writes it. -/

namespace Sys2Proof.Machine

open Sys2Proof

/-- A field of two bits is known by its bits. -/
theorem field_two {h : BitVec 16} {n : Nat} {a : BitVec 2} (h0 : h.getLsbD n = a.getLsbD 0)
    (h1 : h.getLsbD (n + 1) = a.getLsbD 1) : h.extractLsb' n 2 = a := by
  ext i hi
  rw [BitVec.getElem_extractLsb', ← BitVec.getLsbD_eq_getElem]
  have : i = 0 ∨ i = 1 := by omega
  rcases this with rfl | rfl
  · exact h0
  · exact h1

/-- A field of four bits is known by its bits. -/
theorem field_four {h : BitVec 16} {n : Nat} {a : BitVec 4} (h0 : h.getLsbD n = a.getLsbD 0)
    (h1 : h.getLsbD (n + 1) = a.getLsbD 1) (h2 : h.getLsbD (n + 2) = a.getLsbD 2)
    (h3 : h.getLsbD (n + 3) = a.getLsbD 3) : h.extractLsb' n 4 = a := by
  ext i hi
  rw [BitVec.getElem_extractLsb', ← BitVec.getLsbD_eq_getElem]
  have : i = 0 ∨ i = 1 ∨ i = 2 ∨ i = 3 := by omega
  rcases this with rfl | rfl | rfl | rfl
  · exact h0
  · exact h1
  · exact h2
  · exact h3

/-- The class of a header is its two leading bits (Fig. 12-2). -/
theorem header_class {h : BitVec 16} (a : BitVec 2) (x : BitVec 14) (e : h = a ++ x) : h.extractLsb' 14 2 = a := by
  have hb : ∀ n, h.getLsbD n = (a ++ x).getLsbD n := by intro n; rw [e]
  simp only [BitVec.getLsbD_append] at hb
  exact field_two (by rw [hb]; simp) (by rw [hb]; simp)

/-- The class, channel and sequence bit of a header (Fig. 12-2). -/
theorem header_channel {h : BitVec 16} (a b : BitVec 2) (q : Bool) (x : BitVec 11)
    (e : h = a ++ b ++ BitVec.ofBool q ++ x) :
    h.extractLsb' 14 2 = a ∧ h.extractLsb' 12 2 = b ∧ h.getLsbD 11 = q := by
  have hb : ∀ n, h.getLsbD n = (a ++ b ++ BitVec.ofBool q ++ x).getLsbD n := by intro n; rw [e]
  simp only [BitVec.getLsbD_append, BitVec.getLsbD_ofBool] at hb
  exact ⟨field_two (by rw [hb]; simp) (by rw [hb]; simp), field_two (by rw [hb]; simp) (by rw [hb]; simp),
    by rw [hb]; simp⟩

/-- The fields of a header down to its kind code (Fig. 12-2). -/
theorem header_kind {h : BitVec 16} (a b : BitVec 2) (q : Bool) (c : BitVec 4) (x : BitVec 7)
    (e : h = a ++ b ++ BitVec.ofBool q ++ c ++ x) :
    h.extractLsb' 14 2 = a ∧ h.extractLsb' 12 2 = b ∧ h.getLsbD 11 = q ∧ h.extractLsb' 7 4 = c := by
  have hb : ∀ n, h.getLsbD n = (a ++ b ++ BitVec.ofBool q ++ c ++ x).getLsbD n := by intro n; rw [e]
  simp only [BitVec.getLsbD_append, BitVec.getLsbD_ofBool] at hb
  exact ⟨field_two (by rw [hb]; simp) (by rw [hb]; simp), field_two (by rw [hb]; simp) (by rw [hb]; simp),
    by rw [hb]; simp,
    field_four (by rw [hb]; simp) (by rw [hb]; simp) (by rw [hb]; simp) (by rw [hb]; simp)⟩

/-- The fields of a message header with parameter bits 1 and 0 (Fig. 12-2, Fig. 12-5). -/
theorem header_low {h : BitVec 16} (a b : BitVec 2) (q : Bool) (c : BitVec 4) (x : BitVec 5) (g : BitVec 2)
    (e : h = a ++ b ++ BitVec.ofBool q ++ c ++ x ++ g) :
    h.extractLsb' 14 2 = a ∧ h.extractLsb' 12 2 = b ∧ h.getLsbD 11 = q ∧ h.extractLsb' 7 4 = c ∧
      h.extractLsb' 0 2 = g := by
  have hb : ∀ n, h.getLsbD n = (a ++ b ++ BitVec.ofBool q ++ c ++ x ++ g).getLsbD n := by intro n; rw [e]
  simp only [BitVec.getLsbD_append, BitVec.getLsbD_ofBool] at hb
  exact ⟨field_two (by rw [hb]; simp) (by rw [hb]; simp), field_two (by rw [hb]; simp) (by rw [hb]; simp),
    by rw [hb]; simp,
    field_four (by rw [hb]; simp) (by rw [hb]; simp) (by rw [hb]; simp) (by rw [hb]; simp),
    field_two (by rw [hb]; simp) (by rw [hb]; simp)⟩

end Sys2Proof.Machine
end

