-- ==== Sys2Proof/Laws/Invariants.lean ====
section
/-! SUPPORT. The laws of Safety.lean against the moves: what one move, and the start of a long command, keep. -/

namespace Sys2Proof.Machine

open Sys2Proof

/-! ### What the entry changes leave alone -/

theorem enterHalted_frame (s : State) :
    ∃ v u n, enterHalted s = { s with service := v, unit := u, notify := n } ∧ v = .halted := by
  unfold enterHalted completeLong
  split
  · exact ⟨_, _, _, rfl, rfl⟩
  · exact ⟨_, _, _, rfl, rfl⟩

/-- The threshold test changes the service state, the command unit and the flags at most (R140). -/
theorem thresholdTest_frame (s : State) :
    ∃ v u n, thresholdTest s = { s with service := v, unit := u, notify := n } := by
  simp only [thresholdTest]
  split <;> split
  · obtain ⟨v, u, n, h, _⟩ := enterHalted_frame (raise .thresholdNear s)
    exact ⟨v, u, n, h⟩
  · exact ⟨_, _, _, rfl⟩
  · obtain ⟨v, u, n, h, _⟩ := enterHalted_frame s
    exact ⟨v, u, n, h⟩
  · exact ⟨s.service, s.unit, s.notify, rfl⟩

/-- A rise changes the poisoned count, and the service state, the command unit and the flags at most. -/
theorem poisonRise_frame (s : State) :
    ∃ v u n, poisonRise s =
      { s with dir := { s.dir with poisoned := s.dir.poisoned + 1 }, service := v, unit := u, notify := n } := by
  unfold poisonRise
  obtain ⟨v, u, n, h⟩ := thresholdTest_frame
    (raise .linePoisoned { s with dir := { s.dir with poisoned := s.dir.poisoned + 1 } })
  exact ⟨v, u, n, h⟩

/-- Retirement changes the directory and the parked list at most (R10). -/
theorem retire_frame (i : SetIdx) (w : Way) (s : State) :
    ∃ d q, retire i w s = { s with dir := d, parked := q } := by
  unfold retire
  split
  · exact ⟨s.dir, s.parked, rfl⟩
  · exact ⟨_, _, rfl⟩

theorem rewrite_frame (i : SetIdx) (w : Way) (x : EntryState) (s : State) :
    ∃ d, rewrite i w x s = { s with dir := d } ∧ d.poisoned = s.dir.poisoned := by
  unfold rewrite
  split
  · exact ⟨s.dir, rfl, rfl⟩
  · exact ⟨_, rfl, rfl⟩

theorem touch_frame (i : SetIdx) (w : Way) (s : State) :
    ∃ d, touch i w s = { s with dir := d } ∧ d.poisoned = s.dir.poisoned := by
  unfold touch
  split
  · exact ⟨s.dir, rfl, rfl⟩
  · exact ⟨_, rfl, rfl⟩

/-- Placement changes the directory, the parked list and, for a Poisoned entry, what a rise changes (R16). -/
theorem place_frame (i : SetIdx) (w : Way) (e : Entry) (s : State) :
    ∃ d q v u n, place i w e s = { s with dir := d, parked := q, service := v, unit := u, notify := n } := by
  obtain ⟨d, q, h⟩ := retire_frame i w s
  unfold place
  simp only
  rw [h]
  split
  · obtain ⟨v, u, n, h2⟩ := poisonRise_frame
      { ({ s with dir := d, parked := q } : State) with dir :=
          { ({ s with dir := d, parked := q } : State).dir with
            sets := putSet ({ s with dir := d, parked := q } : State).dir.sets i
              { ways := (({ s with dir := d, parked := q } : State).dirSet i).ways.set w (some e)
                recency := w :: (({ s with dir := d, parked := q } : State).dirSet i).recency.erase w }
            occupancy := ({ s with dir := d, parked := q } : State).dir.occupancy + 1 } }
    exact ⟨_, _, v, u, n, h2⟩
  · exact ⟨_, _, _, _, _, rfl⟩

/-- Conversion changes the directory and what a rise changes (R6). -/
theorem convert_frame (i : SetIdx) (w : Way) (p : Port) (s : State) :
    ∃ d v u n, convert i w p s = { s with dir := d, service := v, unit := u, notify := n } := by
  obtain ⟨d, h, _⟩ := rewrite_frame i w (.poisoned .holderLost p) s
  unfold convert
  rw [h]
  obtain ⟨v, u, n, h2⟩ := poisonRise_frame { s with dir := d }
  exact ⟨_, v, u, n, h2⟩

/-! ### Pending flags -/

theorem Notification.Rises.refl (n : Notification) : n.Rises n := fun _ h => h

theorem Notification.Rises.trans {n m x : Notification} (h : n.Rises m) (g : m.Rises x) : n.Rises x :=
  fun i hi => g i (h i hi)

theorem enterHalted_rises (s : State) : s.notify.Rises (enterHalted s).notify := by
  have h := raise_rises .halted { s with service := .halted }
  unfold enterHalted completeLong
  split
  · exact h.trans (raise_rises .commandDone _)
  · exact h

theorem thresholdTest_rises (s : State) : s.notify.Rises (thresholdTest s).notify := by
  have h := raise_rises .thresholdNear s
  simp only [thresholdTest]
  split <;> split
  · exact h.trans (enterHalted_rises _)
  · exact h
  · exact enterHalted_rises _
  · exact .refl _

theorem poisonRise_rises (s : State) : s.notify.Rises (poisonRise s).notify :=
  (raise_rises .linePoisoned { s with dir := { s.dir with poisoned := s.dir.poisoned + 1 } }).trans
    (thresholdTest_rises _)

theorem poisonRise_rises_of {n : Notification} {s : State} (h : s.notify = n) : n.Rises (poisonRise s).notify :=
  h ▸ poisonRise_rises s

theorem thresholdTest_rises_of {n : Notification} {s : State} (h : s.notify = n) :
    n.Rises (thresholdTest s).notify := h ▸ thresholdTest_rises s

theorem Move.rises {b : Bool} {s t : State} (m : Move b s t) : s.notify.Rises t.notify := by
  cases m with
  | notify x h => exact h
  | retire i w => obtain ⟨_, _, e⟩ := retire_frame i w s; rw [e]; exact .refl _
  | place i w e _ =>
    obtain ⟨d, q, e'⟩ := retire_frame i w s
    unfold Machine.place
    simp only
    rw [e']
    split
    · exact poisonRise_rises_of rfl
    · exact fun _ h => h
  | rewrite i w x => obtain ⟨_, e, _⟩ := rewrite_frame i w x s; rw [e]; exact .refl _
  | touch i w => obtain ⟨_, e, _⟩ := touch_frame i w s; rw [e]; exact .refl _
  | convert i w p =>
    obtain ⟨d, e', _⟩ := rewrite_frame i w (.poisoned .holderLost p) s
    unfold Machine.convert
    rw [e']
    exact poisonRise_rises_of rfl
  | threshold v => exact thresholdTest_rises_of rfl
  | _ => exact .refl _

/-- A pending flag stays set through every chain of moves (R180). -/
theorem Moves.rises {b : Bool} {s t : State} (m : Moves b s t) : s.notify.Rises t.notify := by
  induction m with
  | refl => exact .refl _
  | tail _ m ih => exact ih.trans m.rises

/-! ### What no move changes -/

/-- No command of the block but a hard reset and its release touches the queue of commands, RESET or the
timebase. -/
theorem Move.outer {b : Bool} {s t : State} (m : Move b s t) :
    t.pending = s.pending ∧ t.inReset = s.inReset ∧ t.now = s.now := by
  cases m with
  | retire i w => obtain ⟨_, _, h⟩ := retire_frame i w s; rw [h]; exact ⟨rfl, rfl, rfl⟩
  | place i w e h => obtain ⟨_, _, _, _, _, h⟩ := place_frame i w e s; rw [h]; exact ⟨rfl, rfl, rfl⟩
  | rewrite i w x => obtain ⟨_, h, _⟩ := rewrite_frame i w x s; rw [h]; exact ⟨rfl, rfl, rfl⟩
  | touch i w => obtain ⟨_, h, _⟩ := touch_frame i w s; rw [h]; exact ⟨rfl, rfl, rfl⟩
  | convert i w p => obtain ⟨_, _, _, _, h⟩ := convert_frame i w p s; rw [h]; exact ⟨rfl, rfl, rfl⟩
  | threshold v => obtain ⟨_, _, _, h⟩ := thresholdTest_frame { s with threshold := v }; rw [h]; exact ⟨rfl, rfl, rfl⟩
  | _ => exact ⟨rfl, rfl, rfl⟩

theorem Moves.outer {b : Bool} {s t : State} (m : Moves b s t) :
    t.pending = s.pending ∧ t.inReset = s.inReset ∧ t.now = s.now := by
  induction m with
  | refl => exact ⟨rfl, rfl, rfl⟩
  | tail _ m ih =>
    have := m.outer
    exact ⟨this.1.trans ih.1, this.2.1.trans ih.2.1, this.2.2.trans ih.2.2⟩

theorem Begin.outer {s t : State} (b : Begin s t) :
    t.pending = s.pending ∧ t.inReset = s.inReset ∧ t.now = s.now := by
  cases b <;> exact ⟨rfl, rfl, rfl⟩

/-! ### The directory table -/

theorem Move.dir_wf {b : Bool} {s t : State} (m : Move b s t) (h : s.dir.Wf) : t.dir.Wf := by
  cases m with
  | retire i w => exact retire_dir_wf h i w
  | place i w e he => exact place_dir_wf h i w e he
  | rewrite i w x hx hp hs => exact rewrite_dir_wf h i w x hx hp hs
  | touch i w => exact touch_dir_wf h i w
  | convert i w p e he hp => exact convert_dir_wf h i w p e he hp
  | clear => exact Directory.reset_wf
  | threshold v hv => rw [thresholdTest_dir]; exact h
  | _ => exact h

theorem Begin.dir_wf {s t : State} (b : Begin s t) (h : s.dir.Wf) : t.dir.Wf := by
  cases b <;> exact h

/-! ### Ports and links -/

theorem Move.ports_wf {b : Bool} {s t : State} (m : Move b s t) (h : ∀ p, (s.port p).Wf) : ∀ p, (t.port p).Wf := by
  cases m with
  | port p r hr _ =>
    intro q
    rw [State.port_setPort]
    split
    · exact hr (h p)
    · exact h q
  | portOuter _ p r hr _ =>
    intro q
    rw [State.port_setPort]
    split
    · exact hr (h p)
    · exact h q
  | retire i w => obtain ⟨_, _, e⟩ := retire_frame i w s; rw [e]; exact h
  | place i w e _ => obtain ⟨_, _, _, _, _, e⟩ := place_frame i w e s; rw [e]; exact h
  | rewrite i w x => obtain ⟨_, e, _⟩ := rewrite_frame i w x s; rw [e]; exact h
  | touch i w => obtain ⟨_, e, _⟩ := touch_frame i w s; rw [e]; exact h
  | convert i w p => obtain ⟨_, _, _, _, e⟩ := convert_frame i w p s; rw [e]; exact h
  | threshold v => obtain ⟨_, _, _, e⟩ := thresholdTest_frame { s with threshold := v }; rw [e]; exact h
  | _ => exact h

theorem Move.links_wf {b : Bool} {s t : State} (m : Move b s t) (h : ∀ p, (s.link p).Wf) : ∀ p, (t.link p).Wf := by
  cases m with
  | link p l hl _ =>
    intro q
    rw [State.link_setLink]
    split
    · exact hl (h p)
    · exact h q
  | linkOuter _ p l hl =>
    intro q
    rw [State.link_setLink]
    split
    · exact hl (h p)
    · exact h q
  | retire i w => obtain ⟨_, _, e⟩ := retire_frame i w s; rw [e]; exact h
  | place i w e _ => obtain ⟨_, _, _, _, _, e⟩ := place_frame i w e s; rw [e]; exact h
  | rewrite i w x => obtain ⟨_, e, _⟩ := rewrite_frame i w x s; rw [e]; exact h
  | touch i w => obtain ⟨_, e, _⟩ := touch_frame i w s; rw [e]; exact h
  | convert i w p => obtain ⟨_, _, _, _, e⟩ := convert_frame i w p s; rw [e]; exact h
  | threshold v => obtain ⟨_, _, _, e⟩ := thresholdTest_frame { s with threshold := v }; rw [e]; exact h
  | _ => exact h

/-! ### Ports, links and slots through the consequences of an event -/

theorem PortRec.Quiet.refl (r : PortRec) : r.Quiet r := ⟨rfl, rfl, Or.inl rfl⟩

theorem PortRec.Quiet.trans {r q x : PortRec} (h : r.Quiet q) (g : q.Quiet x) : r.Quiet x := by
  obtain ⟨h1, h2, h3⟩ := h
  obtain ⟨g1, g2, g3⟩ := g
  refine ⟨g1.trans h1, g2.trans h2, ?_⟩
  rcases g3 with g3 | ⟨b, g3, g4⟩ | ⟨g3, g4⟩
  · rw [g3]; exact h3
  · rcases h3 with h3 | ⟨c, h3, h4⟩ | ⟨h3, h4⟩
    · exact Or.inr (Or.inl ⟨b, h3 ▸ g3, g4⟩)
    · exact Or.inr (Or.inl ⟨c, h3, g4⟩)
    · rw [h4] at g3; cases g3
  · rcases h3 with h3 | ⟨c, h3, h4⟩ | ⟨h3, h4⟩
    · exact Or.inr (Or.inr ⟨h3 ▸ g3, g4⟩)
    · rcases h4 with h4 | h4 <;> (rw [h4] at g3; cases g3)
    · rw [h4] at g3; cases g3

theorem Move.ports_quiet {s t : State} (m : Move false s t) (p : Port) : (s.port p).Quiet (t.port p) := by
  cases m with
  | port q r _ hq =>
    rw [State.port_setPort]
    split
    · next e => rw [e]; exact hq
    · exact .refl _
  | portOuter hb => cases hb
  | retire i w => obtain ⟨_, _, e⟩ := retire_frame i w s; rw [e]; exact .refl _
  | place i w e _ => obtain ⟨_, _, _, _, _, e⟩ := place_frame i w e s; rw [e]; exact .refl _
  | rewrite i w x => obtain ⟨_, e, _⟩ := rewrite_frame i w x s; rw [e]; exact .refl _
  | touch i w => obtain ⟨_, e, _⟩ := touch_frame i w s; rw [e]; exact .refl _
  | convert i w p => obtain ⟨_, _, _, _, e⟩ := convert_frame i w p s; rw [e]; exact .refl _
  | threshold v => obtain ⟨_, _, _, e⟩ := thresholdTest_frame { s with threshold := v }; rw [e]; exact .refl _
  | _ => exact .refl _

/-- In the consequences of an event a port's record changes only as a drain or a cleanup goes on and ends. -/
theorem Moves.ports_quiet {s t : State} (m : Moves false s t) (p : Port) : (s.port p).Quiet (t.port p) := by
  induction m with
  | refl => exact .refl _
  | tail _ m ih => exact ih.trans (m.ports_quiet p)

theorem Move.links_quiet {s t : State} (m : Move false s t) (p : Port) : (s.link p).Quiet (t.link p) := by
  cases m with
  | link q l _ hq =>
    rw [State.link_setLink]
    split
    · next e => rw [e]; exact hq
    · exact .same rfl rfl rfl
  | linkOuter hb => cases hb
  | retire i w => obtain ⟨_, _, e⟩ := retire_frame i w s; rw [e]; exact .same rfl rfl rfl
  | place i w e _ => obtain ⟨_, _, _, _, _, e⟩ := place_frame i w e s; rw [e]; exact .same rfl rfl rfl
  | rewrite i w x => obtain ⟨_, e, _⟩ := rewrite_frame i w x s; rw [e]; exact .same rfl rfl rfl
  | touch i w => obtain ⟨_, e, _⟩ := touch_frame i w s; rw [e]; exact .same rfl rfl rfl
  | convert i w p => obtain ⟨_, _, _, _, e⟩ := convert_frame i w p s; rw [e]; exact .same rfl rfl rfl
  | threshold v =>
    obtain ⟨_, _, _, e⟩ := thresholdTest_frame { s with threshold := v }; rw [e]; exact .same rfl rfl rfl
  | _ => exact .same rfl rfl rfl

/-- In the consequences of an event a link stays Up or Down, its receive-clock watch is kept, and no request joins its queue. -/
theorem Moves.links_quiet {s t : State} (m : Moves false s t) (p : Port) : (s.link p).Quiet (t.link p) := by
  induction m with
  | refl => exact .same rfl rfl rfl
  | tail _ m ih =>
    have h := m.links_quiet p
    refine ⟨h.1.trans ih.1, h.2.1.trans ih.2.1, ?_⟩
    rcases h.2.2 with e | e
    · rw [e]; exact ih.2.2
    · exact Or.inr e

/-- What a chain of moves keeps of an Isolated port: it stays Isolated, with its reason and profile (R63, R68). -/
theorem Moves.isolated {b : Bool} {s t : State} (m : Moves b s t) (p : Port) (x : Bool)
    (h : (s.port p).state = .isolated x) :
    ∃ y, t.port p = { s.port p with state := .isolated y } := by
  induction m with
  | refl => exact ⟨x, by rw [← h]⟩
  | @tail u v _ m ih =>
    obtain ⟨y, ih⟩ := ih
    have keep : ∀ w : State, w.ports = u.ports → ∃ y, w.port p = { s.port p with state := .isolated y } := by
      intro w hw
      exact ⟨y, by rw [← ih]; unfold State.port; rw [hw]⟩
    cases m with
    | port q r _ hq =>
      rw [State.port_setPort]
      split
      · next e =>
        subst e
        obtain ⟨h1, h2, h3⟩ := hq
        rw [ih] at h1 h2 h3
        rcases h3 with h3 | ⟨_, h3, _⟩ | ⟨_, h3⟩
        · refine ⟨y, ?_⟩
          cases r; simp only at h1 h2 h3; rw [h1, h2, h3]
        · cases h3
        · refine ⟨true, ?_⟩
          cases r; simp only at h1 h2 h3; rw [h1, h2, h3]
      · exact ⟨y, ih⟩
    | portOuter _ q r _ hi =>
      rw [State.port_setPort]
      split
      · next e => subst e; exact absurd (by rw [ih]) (hi y)
      · exact ⟨y, ih⟩
    | retire i w => obtain ⟨_, _, e⟩ := retire_frame i w u; rw [e]; exact keep _ rfl
    | place i w e _ => obtain ⟨_, _, _, _, _, e⟩ := place_frame i w e u; rw [e]; exact keep _ rfl
    | rewrite i w x => obtain ⟨_, e, _⟩ := rewrite_frame i w x u; rw [e]; exact keep _ rfl
    | touch i w => obtain ⟨_, e, _⟩ := touch_frame i w u; rw [e]; exact keep _ rfl
    | convert i w p => obtain ⟨_, _, _, _, e⟩ := convert_frame i w p u; rw [e]; exact keep _ rfl
    | threshold v => obtain ⟨_, _, _, e⟩ := thresholdTest_frame { u with threshold := v }; rw [e]; exact keep _ rfl
    | _ => exact keep _ rfl

theorem Move.reports_same {s t : State} (m : Move false s t) :
    t.reported = s.reported ∧ t.lossReported = s.lossReported ∧ t.tx = s.tx := by
  cases m with
  | reported hb => cases hb
  | lossReported hb => cases hb
  | tx hb => cases hb
  | retire i w => obtain ⟨_, _, e⟩ := retire_frame i w s; rw [e]; exact ⟨rfl, rfl, rfl⟩
  | place i w e _ => obtain ⟨_, _, _, _, _, e⟩ := place_frame i w e s; rw [e]; exact ⟨rfl, rfl, rfl⟩
  | rewrite i w x => obtain ⟨_, e, _⟩ := rewrite_frame i w x s; rw [e]; exact ⟨rfl, rfl, rfl⟩
  | touch i w => obtain ⟨_, e, _⟩ := touch_frame i w s; rw [e]; exact ⟨rfl, rfl, rfl⟩
  | convert i w p => obtain ⟨_, _, _, _, e⟩ := convert_frame i w p s; rw [e]; exact ⟨rfl, rfl, rfl⟩
  | threshold v =>
    obtain ⟨_, _, _, e⟩ := thresholdTest_frame { s with threshold := v }; rw [e]; exact ⟨rfl, rfl, rfl⟩
  | _ => exact ⟨rfl, rfl, rfl⟩

/-- In the consequences of an event nothing is reported to the port controller, no report is done with, and no frame
is transmitted. -/
theorem Moves.reports_same {s t : State} (m : Moves false s t) :
    t.reported = s.reported ∧ t.lossReported = s.lossReported ∧ t.tx = s.tx := by
  induction m with
  | refl => exact ⟨rfl, rfl, rfl⟩
  | tail _ m ih =>
    have h := m.reports_same
    exact ⟨h.1.trans ih.1, h.2.1.trans ih.2.1, h.2.2.trans ih.2.2⟩

/-- A report of ProbeTimeout stands until its port is Isolated (R134). -/
theorem Moves.reports_stand {b : Bool} {s t : State} (m : Moves b s t) (p : Port)
    (h : PortSet.has s.reported p = true) :
    PortSet.has t.reported p = true ∨ ∃ d, (t.port p).state = .isolated d := by
  induction m with
  | refl => exact Or.inl h
  | @tail u v m1 m ih =>
    rcases ih with ih | ⟨d, ih⟩
    · have keep : ∀ w : State, w.reported = u.reported →
          PortSet.has w.reported p = true ∨ ∃ d, (w.port p).state = .isolated d := by
        intro w hw; exact Or.inl (by rw [hw]; exact ih)
      cases m with
      | reported hb x hx =>
        rcases hx p ih with e | ⟨d, e⟩
        · exact Or.inl e
        · exact Or.inr ⟨d, e⟩
      | retire i w => obtain ⟨_, _, e⟩ := retire_frame i w u; rw [e]; exact keep _ rfl
      | place i w e _ => obtain ⟨_, _, _, _, _, e⟩ := place_frame i w e u; rw [e]; exact keep _ rfl
      | rewrite i w x => obtain ⟨_, e, _⟩ := rewrite_frame i w x u; rw [e]; exact keep _ rfl
      | touch i w => obtain ⟨_, e, _⟩ := touch_frame i w u; rw [e]; exact keep _ rfl
      | convert i w p => obtain ⟨_, _, _, _, e⟩ := convert_frame i w p u; rw [e]; exact keep _ rfl
      | threshold v =>
        obtain ⟨_, _, _, e⟩ := thresholdTest_frame { u with threshold := v }; rw [e]; exact keep _ rfl
      | _ => exact keep _ rfl
    · obtain ⟨y, e⟩ := Moves.isolated (.single m) p d ih
      exact Or.inr ⟨y, by rw [e]⟩

/-- In the consequences of an event a free slot stays free, its generation unchanged. -/
theorem Moves.slot_none {s t : State} (m : Moves false s t) (k : SlotId) (h : s.txn k = none) :
    t.slot k = s.slot k := by
  induction m with
  | refl => rfl
  | @tail u v _ m ih =>
    have hu : u.txn k = none := by
      unfold State.txn at h ⊢; rw [ih]; exact h
    have keep : ∀ w : State, w.slots = u.slots → w.slot k = s.slot k := by
      intro w hw
      rw [← ih]
      unfold State.slot
      rw [hw]
    have other : ∀ (j : SlotId) (x : Slot), j ≠ k → (u.setSlot j x).slot k = s.slot k := by
      intro j x hj
      rw [State.slot_setSlot_ne _ _ fun e => hj e.symm, ih]
    cases m with
    | startTxn hb => cases hb
    | changeTxn j x y hk => exact other j _ fun e => by rw [e, hu] at hk; cases hk
    | victim j x y v hk => exact other j _ fun e => by rw [e, hu] at hk; cases hk
    | freeSlot j hj =>
      rcases hj with hj | hj
      · cases hj
      · exact other j _ fun e => hj (e ▸ hu)
    | retire i w => obtain ⟨_, _, e⟩ := retire_frame i w u; rw [e]; exact keep _ rfl
    | place i w e _ => obtain ⟨_, _, _, _, _, e⟩ := place_frame i w e u; rw [e]; exact keep _ rfl
    | rewrite i w x => obtain ⟨_, e, _⟩ := rewrite_frame i w x u; rw [e]; exact keep _ rfl
    | touch i w => obtain ⟨_, e, _⟩ := touch_frame i w u; rw [e]; exact keep _ rfl
    | convert i w p => obtain ⟨_, _, _, _, e⟩ := convert_frame i w p u; rw [e]; exact keep _ rfl
    | threshold v => obtain ⟨_, _, _, e⟩ := thresholdTest_frame { u with threshold := v }; rw [e]; exact keep _ rfl
    | _ => exact keep _ rfl

/-- The isolation of a port that is not Unused leaves it Isolated with the given reason, and keeps its profile; an
Isolated one keeps its reason (R63). -/
theorem isolate_port (p : Port) (reason : IsolationReason) (s : State) (hu : (s.port p).state ≠ .unused)
    (hi : ∀ x, (s.port p).state ≠ .isolated x) :
    ∃ y, (isolate p reason s).port p = { s.port p with state := .isolated y, reason := reason } := by
  have go : ∃ y, (isolationEffects p (raise .portIsolated
      (dropLoss p (dropReport p
        (s.setPort p { s.port p with state := .isolated false, reason := reason }))))).port p
        = { s.port p with state := .isolated y, reason := reason } := by
    have m : Moves false _ _ := isolationEffects_moves (b := false) p (.refl
      (a := raise .portIsolated
        (dropLoss p (dropReport p
          (s.setPort p { s.port p with state := .isolated false, reason := reason })))))
    obtain ⟨y, hy⟩ := m.isolated p false (by rw [raise_port, dropLoss_port, dropReport_port, State.port_setPort_same])
    exact ⟨y, by rw [hy, raise_port, dropLoss_port, dropReport_port, State.port_setPort_same]⟩
  unfold isolate
  simp only
  split
  · exact go
  · exact go
  · exact go
  · next e => exact absurd e hu
  · next x e => exact absurd e (hi x)

/-- What the isolation of a joined port leaves beside its record: no report stands for the port, none other changes,
no frame is transmitted, and every link keeps whether it is Up and its receive-clock watch (R63, R65). -/
theorem isolate_leaves (p : Port) (reason : IsolationReason) (s : State) (hu : (s.port p).state ≠ .unused)
    (hi : ∀ x, (s.port p).state ≠ .isolated x) :
    (isolate p reason s).reported = PortSet.diff s.reported (PortSet.single p) ∧
      (isolate p reason s).lossReported = PortSet.diff s.lossReported (PortSet.single p) ∧
      (isolate p reason s).tx = s.tx ∧ (isolate p reason s).inReset = s.inReset ∧
      ∀ q, ((isolate p reason s).link q).up = (s.link q).up ∧
        ((isolate p reason s).link q).clockAbsentSince = (s.link q).clockAbsentSince := by
  have m : Moves false _ _ := isolationEffects_moves (b := false) p (.refl
    (a := raise .portIsolated
      (dropLoss p (dropReport p
        (s.setPort p { s.port p with state := .isolated false, reason := reason })))))
  have h := m.reports_same
  have go := And.intro h.1 (And.intro h.2.1 (And.intro h.2.2 (And.intro m.outer.2.1 fun q =>
    And.intro (m.links_quiet q).1 (m.links_quiet q).2.1)))
  unfold isolate
  simp only
  split
  · exact go
  · exact go
  · exact go
  · next e => exact absurd e hu
  · next x e => exact absurd e (hi x)

/-- The taking of a LinkLost report leaves none standing for the port (R69). -/
theorem takeLoss_leaves (p : Port) (s : State) :
    PortSet.has (takeLoss p s).lossReported p = false ∧ (takeLoss p s).tx = s.tx ∧
      (takeLoss p s).inReset = s.inReset ∧
      ∀ q, ((takeLoss p s).link q).up = (s.link q).up ∧
        ((takeLoss p s).link q).clockAbsentSince = (s.link q).clockAbsentSince := by
  have none_left : ∀ S, PortSet.has (PortSet.diff S (PortSet.single p)) p = false := by
    intro S; rw [has_diff, has_single, decide_eq_true rfl]; simp
  unfold takeLoss
  refine ⟨none_left _, ?_⟩
  split
  · next e =>
    have h := isolate_leaves p .linkLost s (by rw [e]; decide) (by rw [e]; intro x h; cases h)
    exact ⟨h.2.2.1, h.2.2.2.1, h.2.2.2.2⟩
  · next d e =>
    have h := isolate_leaves p .linkLost s (by rw [e]; intro h; cases h) (by rw [e]; intro x h; cases h)
    exact ⟨h.2.2.1, h.2.2.2.1, h.2.2.2.2⟩
  all_goals exact ⟨rfl, rfl, fun _ => ⟨rfl, rfl⟩⟩

/-- A good frame that brings a link Up while a LinkLost stands reported acts as it would once the report is taken
(R38, R41). -/
theorem goodFrame_settles (p : Port) (act : State → State) (s : State) (hu : (s.link p).up = false)
    (hc : (s.link p).clockAbsentSince = none) (hl : PortSet.has s.lossReported p = true) :
    goodFrame p act s = goodFrame p act (takeLoss p s) := by
  obtain ⟨h4, -, -, hq⟩ := takeLoss_leaves p s
  have h2 : ((takeLoss p s).link p).up = false := (hq p).1.trans hu
  have h3 : ((takeLoss p s).link p).clockAbsentSince = none := (hq p).2.trans hc
  have e1 : settleLoss p s = takeLoss p s := if_pos hl
  have e2 : settleLoss p (takeLoss p s) = takeLoss p s := if_neg (by rw [h4]; decide)
  unfold goodFrame
  simp only
  rw [if_neg (by rw [hu]; decide), if_pos hc, if_neg (by rw [h2]; decide), if_pos h3, e1, e2]

/-! ### Transactions -/

theorem mem_activeTxns {s : State} {k : SlotId} {t : Txn} : (k, t) ∈ s.activeTxns ↔ s.txn k = some t := by
  unfold State.activeTxns
  rw [List.mem_filterMap]
  constructor
  · rintro ⟨j, _, h⟩
    cases hj : s.txn j with
    | none => rw [hj] at h; cases h
    | some u => rw [hj] at h; cases h; exact hj
  · intro h
    exact ⟨k, mem_allSlots k, by rw [h]; rfl⟩

/-- A line is unclaimed exactly when no active transaction claims it. -/
theorem claimed_eq_false {s : State} {l : LineNo} (h : s.claimed l = false) (k : SlotId) (t : Txn)
    (hk : s.txn k = some t) : t.claims l = false := by
  unfold State.claimed State.claimant at h
  cases hc : t.claims l
  · rfl
  · have hn : s.activeTxns.find? (fun kt => kt.2.claims l) = none := Option.isSome_eq_false_iff.mp h |>
      Option.isNone_iff_eq_none.mp
    have := List.find?_eq_none.mp hn (k, t) (mem_activeTxns.mpr hk)
    rw [hc] at this
    exact absurd rfl this

theorem claims_iff (t : Txn) (l : LineNo) : t.claims l = true ↔ t.line = l ∨ t.victim = some l := by
  unfold Txn.claims
  rw [Bool.or_eq_true, decide_eq_true_eq, decide_eq_true_eq]

/-- A changed record whose claims were its own before, or were no one's, keeps claims disjoint. -/
theorem claims_setTxn {s : State} (h : s.ClaimsDisjoint) (k : SlotId) (u : Txn)
    (hu : ∀ l, u.claims l = true → s.claimed l = false ∨ ∃ t, s.txn k = some t ∧ t.claims l = true) :
    (s.setTxn k u).ClaimsDisjoint := by
  have key : ∀ (j : SlotId) (x : Txn) (l : LineNo), j ≠ k → s.txn j = some x → x.claims l = true →
      u.claims l = true → False := by
    intro j x l hj hx hxl hul
    rcases hu l hul with hc | ⟨t, ht, htl⟩
    · rw [claimed_eq_false hc j x hx] at hxl; cases hxl
    · exact hj (h j k x t l hx ht hxl htl)
  intro i j x y l hx hy hxl hyl
  rw [State.txn_setTxn] at hx hy
  split at hx
  · next hi =>
    split at hy
    · next hj => rw [hi, hj]
    · next hj => cases hx; exact (key j y l hj hy hyl hxl).elim
  · next hi =>
    split at hy
    · next hj => cases hy; exact (key i x l hi hx hxl hyl).elim
    · exact h i j x y l hx hy hxl hyl

theorem claims_freeSlot {s : State} (h : s.ClaimsDisjoint) (k : SlotId) : (s.freeSlot k).ClaimsDisjoint := by
  intro i j x y l hx hy hxl hyl
  rw [State.txn_freeSlot] at hx hy
  split at hx
  · cases hx
  · split at hy
    · cases hy
    · exact h i j x y l hx hy hxl hyl

theorem Move.claims {b : Bool} {s t : State} (m : Move b s t) (h : s.ClaimsDisjoint) : t.ClaimsDisjoint := by
  cases m with
  | startTxn _ k u hk hl hv hs =>
    refine claims_setTxn h k u fun l hul => ?_
    rcases (claims_iff u l).mp hul with e | e
    · exact Or.inl (e ▸ hl)
    · rw [hv] at e; cases e
  | changeTxn k x u hk hl ho hv =>
    refine claims_setTxn h k u fun l hul => Or.inr ⟨x, hk, ?_⟩
    rcases (claims_iff u l).mp hul with e | e
    · exact (claims_iff x l).mpr (Or.inl (hl ▸ e))
    · rcases hv with hv | hv
      · exact (claims_iff x l).mpr (Or.inr (hv ▸ e))
      · rw [hv] at e; cases e
  | victim k x u v hk hl ho hv hc =>
    refine claims_setTxn h k u fun l hul => ?_
    rcases (claims_iff u l).mp hul with e | e
    · exact Or.inr ⟨x, hk, (claims_iff x l).mpr (Or.inl (hl ▸ e))⟩
    · rw [hv] at e; cases e; exact Or.inl hc
  | freeSlot k => exact claims_freeSlot h k
  | retire i w => obtain ⟨_, _, e⟩ := retire_frame i w s; rw [e]; exact h
  | place i w e _ => obtain ⟨_, _, _, _, _, e⟩ := place_frame i w e s; rw [e]; exact h
  | rewrite i w x => obtain ⟨_, e, _⟩ := rewrite_frame i w x s; rw [e]; exact h
  | touch i w => obtain ⟨_, e, _⟩ := touch_frame i w s; rw [e]; exact h
  | convert i w p => obtain ⟨_, _, _, _, e⟩ := convert_frame i w p s; rw [e]; exact h
  | threshold v => obtain ⟨_, _, _, e⟩ := thresholdTest_frame { s with threshold := v }; rw [e]; exact h
  | _ => exact h

/-- Slot k holds a transaction of the sweep engine. -/
def State.sweepAt (s : State) (k : SlotId) : Bool :=
  match s.txn k with
  | some t => t.originPort.isNone
  | none => false

theorem sweepActive_eq (s : State) : s.sweepActive = allSlots.countP s.sweepAt := by
  unfold State.sweepActive State.activeTxns
  rw [List.countP_eq_length_filter]
  generalize allSlots = l
  induction l with
  | nil => rfl
  | cons k l ih =>
    cases hk : s.txn k with
    | none =>
      have hf : s.sweepAt k = false := by unfold State.sweepAt; rw [hk]
      rw [List.filterMap_cons_none (by rw [hk]; rfl), List.filter_cons_of_neg (by rw [hf]; decide)]
      exact ih
    | some t =>
      have hf : s.sweepAt k = t.originPort.isNone := by unfold State.sweepAt; rw [hk]
      rw [List.filterMap_cons_some (b := (k, t)) (by rw [hk]; rfl)]
      cases ho : t.originPort.isNone
      · rw [List.filter_cons_of_neg (by rw [ho]; decide),
          List.filter_cons_of_neg (by rw [hf, ho]; decide)]
        exact ih
      · rw [List.filter_cons_of_pos (by rw [ho]), List.filter_cons_of_pos (by rw [hf, ho]),
          List.length_cons, List.length_cons, ih]

/-- A replaced slot changes the number of sweep transactions by its own part. -/
theorem sweepActive_setTxn (s : State) (k : SlotId) (u : Txn) :
    (s.setTxn k u).sweepActive + (s.sweepAt k).toNat = s.sweepActive + u.originPort.isNone.toNat := by
  rw [sweepActive_eq, sweepActive_eq]
  have h2 : (s.setTxn k u).sweepAt k = u.originPort.isNone := by
    unfold State.sweepAt; rw [State.txn_setTxn, if_pos rfl]
  rw [← h2]
  exact countP_change allSlots allSlots_nodup k (mem_allSlots k) s.sweepAt (s.setTxn k u).sweepAt
    fun j _ hj => by unfold State.sweepAt; rw [State.txn_setTxn, if_neg hj]

theorem sweepActive_freeSlot (s : State) (k : SlotId) : (s.freeSlot k).sweepActive ≤ s.sweepActive := by
  rw [sweepActive_eq, sweepActive_eq]
  have := countP_change allSlots allSlots_nodup k (mem_allSlots k) s.sweepAt (s.freeSlot k).sweepAt
    fun j _ hj => by unfold State.sweepAt; rw [State.txn_freeSlot, if_neg hj]
  have h2 : (s.freeSlot k).sweepAt k = false := by
    unfold State.sweepAt; rw [State.txn_freeSlot, if_pos rfl]
  rw [h2, Bool.toNat_false] at this
  omega

theorem Move.sweepCap {b : Bool} {s t : State} (m : Move b s t) (h : s.SweepCapKept) : t.SweepCapKept := by
  unfold State.SweepCapKept at h
  cases m with
  | startTxn _ k u hk hl hv hs =>
    have := sweepActive_setTxn s k u
    unfold State.SweepCapKept
    cases e : u.originPort.isNone
    · rw [e, Bool.toNat_false] at this; omega
    · rw [e, Bool.toNat_true] at this
      have := hs e
      omega
  | changeTxn k x u hk hl ho hv =>
    have := sweepActive_setTxn s k u
    have h2 : s.sweepAt k = x.originPort.isNone := by unfold State.sweepAt; rw [hk]
    rw [ho, h2] at this
    unfold State.SweepCapKept
    omega
  | victim k x u v hk hl ho hv hc =>
    have := sweepActive_setTxn s k u
    have h2 : s.sweepAt k = x.originPort.isNone := by unfold State.sweepAt; rw [hk]
    rw [ho, h2] at this
    unfold State.SweepCapKept
    omega
  | freeSlot k => exact le_trans (sweepActive_freeSlot s k) h
  | retire i w => obtain ⟨_, _, e⟩ := retire_frame i w s; rw [e]; exact h
  | place i w e _ => obtain ⟨_, _, _, _, _, e⟩ := place_frame i w e s; rw [e]; exact h
  | rewrite i w x => obtain ⟨_, e, _⟩ := rewrite_frame i w x s; rw [e]; exact h
  | touch i w => obtain ⟨_, e, _⟩ := touch_frame i w s; rw [e]; exact h
  | convert i w p => obtain ⟨_, _, _, _, e⟩ := convert_frame i w p s; rw [e]; exact h
  | threshold v => obtain ⟨_, _, _, e⟩ := thresholdTest_frame { s with threshold := v }; rw [e]; exact h
  | _ => exact h

/-! ### The parked list -/

theorem retire_parked_wf {s : State} (h : ParkedWf s.parked) (i : SetIdx) (w : Way) :
    ParkedWf (retire i w s).parked := by
  unfold retire
  split
  · exact h
  · exact parkedWf_map _ (fun x => by split <;> rfl) h

theorem place_parked {s : State} (i : SetIdx) (w : Way) (e : Entry) :
    (place i w e s).parked = (retire i w s).parked := by
  unfold place
  simp only
  split
  · obtain ⟨v, u, n, h⟩ := poisonRise_frame
      { retire i w s with dir :=
          { (retire i w s).dir with
            sets := putSet (retire i w s).dir.sets i
              { ways := ((retire i w s).dirSet i).ways.set w (some e)
                recency := w :: ((retire i w s).dirSet i).recency.erase w }
            occupancy := (retire i w s).dir.occupancy + 1 } }
    rw [h]
  · rfl

theorem Move.parked_wf {b : Bool} {s t : State} (m : Move b s t) (h : ParkedWf s.parked) : ParkedWf t.parked := by
  cases m with
  | parked q hq => exact hq h
  | retire i w => exact retire_parked_wf h i w
  | place i w e _ => rw [place_parked]; exact retire_parked_wf h i w
  | rewrite i w x => obtain ⟨_, e, _⟩ := rewrite_frame i w x s; rw [e]; exact h
  | touch i w => obtain ⟨_, e, _⟩ := touch_frame i w s; rw [e]; exact h
  | convert i w p => obtain ⟨_, _, _, _, e⟩ := convert_frame i w p s; rw [e]; exact h
  | threshold v => obtain ⟨_, _, _, e⟩ := thresholdTest_frame { s with threshold := v }; rw [e]; exact h
  | _ => exact h

/-! ### The management unit -/

theorem Move.parameters {b : Bool} {s t : State} (m : Move b s t) (h : s.ParametersInRange) : t.ParametersInRange := by
  cases m with
  | timing x y hx hy => exact ⟨hx, hy, h.threshold⟩
  | threshold v hv =>
    obtain ⟨_, _, _, e⟩ := thresholdTest_frame { s with threshold := v }
    rw [e]
    exact ⟨h.probe, h.lease, hv⟩
  | retire i w => obtain ⟨_, _, e⟩ := retire_frame i w s; rw [e]; exact ⟨h.1, h.2, h.3⟩
  | place i w e _ => obtain ⟨_, _, _, _, _, e⟩ := place_frame i w e s; rw [e]; exact ⟨h.1, h.2, h.3⟩
  | rewrite i w x => obtain ⟨_, e, _⟩ := rewrite_frame i w x s; rw [e]; exact ⟨h.1, h.2, h.3⟩
  | touch i w => obtain ⟨_, e, _⟩ := touch_frame i w s; rw [e]; exact ⟨h.1, h.2, h.3⟩
  | convert i w p => obtain ⟨_, _, _, _, e⟩ := convert_frame i w p s; rw [e]; exact ⟨h.1, h.2, h.3⟩
  | _ => exact ⟨h.1, h.2, h.3⟩

theorem enterHalted_tracked (s : State) :
    (enterHalted s).service = .halted ∧
      (QuiesceTracked (enterHalted s).service (enterHalted s).unit) := by
  unfold enterHalted completeLong
  split
  · exact ⟨rfl, ⟨fun e => (by cases e), fun e => (by cases e)⟩⟩
  · next e => exact ⟨rfl, ⟨fun e => (by cases e), fun e' => absurd e' e⟩⟩

theorem thresholdTest_tracked (s : State) (h : QuiesceTracked s.service s.unit) :
    QuiesceTracked (thresholdTest s).service (thresholdTest s).unit := by
  simp only [thresholdTest]
  split <;> split
  · exact (enterHalted_tracked (raise .thresholdNear s)).2
  · exact h
  · exact (enterHalted_tracked s).2
  · exact h

/-- After the threshold test a Running part is below the threshold (R140). -/
theorem thresholdTest_running (s : State) (h : (thresholdTest s).service = .running) :
    s.dir.poisoned < s.threshold := by
  simp only [thresholdTest] at h
  split at h <;> split at h
  · obtain ⟨v, u, n, e, hv⟩ := enterHalted_frame (raise .thresholdNear s)
    rw [e] at h; change v = _ at h; rw [hv] at h; cases h
  · next hn =>
    by_contra hge
    exact hn ⟨not_lt.mp hge, Or.inl h⟩
  · obtain ⟨v, u, n, e, hv⟩ := enterHalted_frame s
    rw [e] at h; change v = _ at h; rw [hv] at h; cases h
  · next hn =>
    by_contra hge
    exact hn ⟨not_lt.mp hge, Or.inl h⟩

theorem Move.quiesce {b : Bool} {s t : State} (m : Move b s t) (h : QuiesceTracked s.service s.unit) :
    QuiesceTracked t.service t.unit := by
  cases m with
  | service v u hq hr hu => exact hq h
  | threshold v hv => exact thresholdTest_tracked _ h
  | retire i w => obtain ⟨_, _, e⟩ := retire_frame i w s; rw [e]; exact h
  | place i w e _ =>
    obtain ⟨d, q, e'⟩ := retire_frame i w s
    unfold Machine.place
    simp only
    rw [e']
    split
    · exact thresholdTest_tracked _ h
    · exact h
  | rewrite i w x => obtain ⟨_, e, _⟩ := rewrite_frame i w x s; rw [e]; exact h
  | touch i w => obtain ⟨_, e, _⟩ := touch_frame i w s; rw [e]; exact h
  | convert i w p =>
    obtain ⟨d, e', _⟩ := rewrite_frame i w (.poisoned .holderLost p) s
    unfold Machine.convert
    rw [e']
    exact thresholdTest_tracked _ h
  | _ => exact h

theorem retire_poisoned_le (i : SetIdx) (w : Way) (s : State) :
    (retire i w s).dir.poisoned ≤ s.dir.poisoned := by
  unfold retire
  split
  · exact le_refl _
  · next e _ =>
    show (if e.state.isPoisoned then s.dir.poisoned - 1 else s.dir.poisoned) ≤ _
    split <;> omega

theorem poisonRise_running (s : State) (h : (poisonRise s).service = .running) :
    (poisonRise s).dir.poisoned < (poisonRise s).threshold := by
  obtain ⟨v, u, n, e⟩ := poisonRise_frame s
  have := thresholdTest_running _ h
  rw [e]
  exact this

theorem Move.running {b : Bool} {s t : State} (m : Move b s t) (h : s.RunningBelowThreshold) : t.RunningBelowThreshold := by
  cases m with
  | service v u hq hr hu =>
    intro e
    rcases hr e with e | e
    · exact h e
    · exact e
  | threshold v hv =>
    intro e
    have := thresholdTest_running _ e
    obtain ⟨_, _, _, e'⟩ := thresholdTest_frame { s with threshold := v }
    rw [e']
    exact this
  | retire i w =>
    intro e
    obtain ⟨_, _, e'⟩ := retire_frame i w s
    have hs : s.service = .running := by rw [e'] at e; exact e
    have ht : (Machine.retire i w s).threshold = s.threshold := by rw [e']
    rw [ht]
    exact lt_of_le_of_lt (retire_poisoned_le i w s) (h hs)
  | place i w e _ =>
    intro hr
    unfold Machine.place at hr ⊢
    simp only at hr ⊢
    split at hr
    · next hp => rw [if_pos hp]; exact poisonRise_running _ hr
    · next hp =>
      rw [if_neg hp]
      obtain ⟨_, _, e'⟩ := retire_frame i w s
      have hs : s.service = .running := by
        change (Machine.retire i w s).service = _ at hr
        rw [e'] at hr; exact hr
      have ht : (Machine.retire i w s).threshold = s.threshold := by rw [e']
      show (Machine.retire i w s).dir.poisoned < (Machine.retire i w s).threshold
      rw [ht]
      exact lt_of_le_of_lt (retire_poisoned_le i w s) (h hs)
  | rewrite i w x =>
    obtain ⟨d, e, hd⟩ := rewrite_frame i w x s
    rw [e]; intro hr; show d.poisoned < _; rw [hd]; exact h hr
  | touch i w =>
    obtain ⟨d, e, hd⟩ := touch_frame i w s
    rw [e]; intro hr; show d.poisoned < _; rw [hd]; exact h hr
  | convert i w p => intro hr; exact poisonRise_running _ hr
  | clear => intro hr; exact lt_of_le_of_lt (Nat.zero_le _) (h hr)
  | _ => exact h

end Sys2Proof.Machine
end

