-- ==== Sys2Proof/Laws/Walk.lean ====
section
/-! SUPPORT. What the directory table and the sweep engine leave alone, said once: their lookups, edits, walks,
reports and completions touch no transaction slot, no interval and nothing of the window; on a link they only queue
Farewells; they keep every parked request in its place and make none Waiting; they leave an Idle command unit as it
is; a port's record changes only by the end of its drain or of its cleanup, and the link of an Isolated port not at
all. -/

namespace Sys2Proof.Machine

open Sys2Proof

/-- A quiet change of records keeps an Isolated port Isolated (R63). -/
theorem isIsolated_quiet {s t : State} (p : Port) (h : (s.port p).Quiet (t.port p)) (hi : s.isIsolated p = true) :
    t.isIsolated p = true := by
  unfold State.isIsolated at hi ⊢
  obtain ⟨-, -, h | ⟨b, h, -⟩ | ⟨-, h⟩⟩ := h
  · rw [h]; exact hi
  · rw [h] at hi; cases hi
  · rw [h]

/-- A quiet change of records isolates no port. -/
theorem not_isolated_quiet {s t : State} (p : Port) (h : (s.port p).Quiet (t.port p)) (hi : s.isIsolated p = false) :
    t.isIsolated p = false := by
  unfold State.isIsolated at hi ⊢
  obtain ⟨-, -, h | ⟨b, h, h' | h'⟩ | ⟨h, -⟩⟩ := h
  · rw [h]; exact hi
  · rw [h']
  · rw [h']
  · rw [h] at hi; cases hi

/-- The frame of the directory table's and the sweep engine's operations. -/
structure Walk (s t : State) : Prop where
  slots : t.slots = s.slots
  reported : t.reported = s.reported
  lossReported : t.lossReported = s.lossReported
  pending : t.pending = s.pending
  inReset : t.inReset = s.inReset
  now : t.now = s.now
  tx : t.tx = s.tx
  rrPointer : t.rrPointer = s.rrPointer
  nextOrder : t.nextOrder = s.nextOrder
  probeInterval : t.probeInterval = s.probeInterval
  leaseInterval : t.leaseInterval = s.leaseInterval
  threshold : t.threshold = s.threshold
  window : t.window = s.window
  enables : t.notify.enables = s.notify.enables
  links : ∀ p, ∃ n, t.link p = { s.link p with outbound := (s.link p).outbound ++ List.replicate n .farewell }
  parked : ∃ f : Parked → Bool, (∀ q, q.ready = true → f q = true) ∧
    t.parked = s.parked.map fun q => { q with ready := f q }
  unit : s.unit.inProgress = none → t.unit = s.unit
  ports : ∀ p, (s.port p).Quiet (t.port p)
  isolated : ∀ p, s.isIsolated p = true → t.link p = s.link p

theorem Walk.refl (s : State) : Walk s s where
  slots := rfl
  reported := rfl
  lossReported := rfl
  pending := rfl
  inReset := rfl
  now := rfl
  tx := rfl
  rrPointer := rfl
  nextOrder := rfl
  probeInterval := rfl
  leaseInterval := rfl
  threshold := rfl
  window := rfl
  enables := rfl
  links p := ⟨0, by simp⟩
  parked := ⟨fun q => q.ready, fun _ h => h, by simp⟩
  unit _ := rfl
  ports _ := .refl _
  isolated _ _ := rfl

theorem Walk.trans {s t u : State} (h : Walk s t) (g : Walk t u) : Walk s u where
  slots := g.slots.trans h.slots
  reported := g.reported.trans h.reported
  lossReported := g.lossReported.trans h.lossReported
  pending := g.pending.trans h.pending
  inReset := g.inReset.trans h.inReset
  now := g.now.trans h.now
  tx := g.tx.trans h.tx
  rrPointer := g.rrPointer.trans h.rrPointer
  nextOrder := g.nextOrder.trans h.nextOrder
  probeInterval := g.probeInterval.trans h.probeInterval
  leaseInterval := g.leaseInterval.trans h.leaseInterval
  threshold := g.threshold.trans h.threshold
  window := g.window.trans h.window
  enables := g.enables.trans h.enables
  links p := by
    obtain ⟨n, hn⟩ := h.links p
    obtain ⟨m, hm⟩ := g.links p
    refine ⟨n + m, ?_⟩
    rw [hm, hn]
    rw [List.append_assoc, List.replicate_append_replicate]
  parked := by
    obtain ⟨f, hf, e⟩ := h.parked
    obtain ⟨k, hk, e'⟩ := g.parked
    refine ⟨fun q => k { q with ready := f q }, fun q hq => hk _ (hf q hq), ?_⟩
    rw [e', e, List.map_map]
    rfl
  unit hi := by
    have e := h.unit hi
    rw [g.unit (by rw [e]; exact hi), e]
  ports p := (h.ports p).trans (g.ports p)
  isolated p hp := (g.isolated p (isIsolated_quiet p (h.ports p) hp)).trans (h.isolated p hp)

theorem Walk.txn {s t : State} (h : Walk s t) (k : SlotId) : t.txn k = s.txn k := by
  unfold State.txn State.slot; rw [h.slots]

theorem Walk.slot {s t : State} (h : Walk s t) (k : SlotId) : t.slot k = s.slot k := by
  unfold State.slot; rw [h.slots]

/-- A change of nothing but the directory, the sweep engine, the service state, the region table and the pending
flags. -/
theorem Walk.of {s t : State} (x : Directory) (y : Sweep) (v : ServiceState) (g : Vector Region 8) (n : BitVec 10)
    (h : t = { s with dir := x, sweep := y, service := v, regions := g,
                      notify := { s.notify with pendingFlags := n } }) : Walk s t := by
  subst h
  exact { Walk.refl s with links := fun p => ⟨0, by simp [State.link]⟩, ports := fun p => .refl (s.port p) }

variable {a s : State}

theorem raise_walk (c : Cause) (h : Walk a s) : Walk a (raise c s) :=
  h.trans (.of s.dir s.sweep s.service s.regions _ rfl)

theorem sweep_walk (x : Sweep) (h : Walk a s) : Walk a { s with sweep := x } :=
  h.trans (.of s.dir x s.service s.regions s.notify.pendingFlags rfl)

theorem freeCount_walk (n : Nat) (h : Walk a s) : Walk a { s with freeCount := n } :=
  h.trans { Walk.refl s with links := fun p => ⟨0, by simp [State.link]⟩, ports := fun p => .refl (s.port p) }

theorem dir_walk (x : Directory) (h : Walk a s) : Walk a { s with dir := x } :=
  h.trans (.of x s.sweep s.service s.regions s.notify.pendingFlags rfl)

theorem service_walk (v : ServiceState) (h : Walk a s) : Walk a { s with service := v } :=
  h.trans (.of s.dir s.sweep v s.regions s.notify.pendingFlags rfl)

theorem regions_walk (x : Vector Region 8) (h : Walk a s) : Walk a { s with regions := x } :=
  h.trans (.of s.dir s.sweep s.service x s.notify.pendingFlags rfl)

theorem setPort_walk (p : Port) (r : PortRec) (hq : (s.port p).Quiet r) (h : Walk a s) : Walk a (s.setPort p r) := by
  refine h.trans { Walk.refl s with links := fun q => ⟨0, by simp [State.link, State.setPort]⟩, ports := fun q => ?_ }
  rw [State.port_setPort]
  split
  · next e => subst e; exact hq
  · exact .refl _

theorem completeLong_walk (c : LongCommand) (st : CommandStatus) (w : Word) (h : Walk a s) :
    Walk a (completeLong c st w s) := by
  unfold completeLong
  split
  · next e =>
    refine h.trans { Walk.refl s with
      links := fun p => ⟨0, by simp [State.link, completeCommand, raise]⟩
      unit := fun hi => by rw [hi] at e; cases e
      ports := fun p => .refl (s.port p) }
  · exact h

theorem farewell_walk (p : Port) (hp : s.isIsolated p = false) (h : Walk a s) :
    Walk a (queueMessage p .farewell s) := by
  refine h.trans { Walk.refl s with
    links := fun q => ?_, ports := fun q => .refl (s.port q), isolated := fun q hq => ?_ }
  · unfold queueMessage State.modifyLink
    rw [State.link_setLink]
    split
    · next e => subst e; exact ⟨1, rfl⟩
    · exact ⟨0, by simp⟩
  · unfold queueMessage State.modifyLink
    exact State.link_setLink_ne _ _ (by rintro rfl; rw [hp] at hq; cases hq)

theorem ready_walk (f : Parked → Bool) (hf : ∀ q, q.ready = true → f q = true) (h : Walk a s) :
    Walk a { s with parked := s.parked.map fun q => { q with ready := f q } } :=
  h.trans
    { Walk.refl s with
      links := fun p => ⟨0, by simp [State.link]⟩
      parked := ⟨f, hf, rfl⟩
      ports := fun p => .refl (s.port p) }

theorem readySet_walk (i : SetIdx) (h : Walk a s) : Walk a (readySet i s) := by
  have e : readySet i s = { s with parked := s.parked.map fun q =>
      { q with ready := q.ready || decide (q.reason = .set ∧ setOf q.line = i) } } := by
    unfold readySet
    congr 1
    apply List.map_congr_left
    intro q _
    split
    · next h => simp [h]
    · next h => simp [h]
  rw [e]
  exact ready_walk _ (fun q hq => by rw [hq]; rfl) h

theorem readyLine_walk (l : LineNo) (h : Walk a s) : Walk a (readyLine l s) := by
  have e : readyLine l s = readySet (setOf l) { s with parked := s.parked.map fun q =>
      { q with ready := q.ready || decide (q.reason = .line ∧ q.line = l) } } := by
    unfold readyLine
    congr 2
    apply List.map_congr_left
    intro q _
    split
    · next h => simp [h]
    · next h => simp [h]
  rw [e]
  exact readySet_walk _ (ready_walk _ (fun q hq => by rw [hq]; rfl) h)

/-! ### The directory table -/

theorem thresholdTest_walk (h : Walk a s) : Walk a (thresholdTest s) := by
  have go : ∀ {s : State}, Walk a s → Walk a (if s.threshold ≤ s.dir.poisoned ∧
      (s.service = .running ∨ s.service = .quiescing) then enterHalted s else s) := by
    intro s h
    split
    · exact completeLong_walk _ _ _ (raise_walk _ (service_walk _ h))
    · exact h
  unfold thresholdTest
  simp only
  refine go ?_
  split
  · exact raise_walk _ h
  · exact h

theorem poisonRise_walk (h : Walk a s) : Walk a (poisonRise s) :=
  thresholdTest_walk (raise_walk _ (dir_walk _ h))

theorem retire_walk (i : SetIdx) (w : Way) (h : Walk a s) : Walk a (retire i w s) := by
  unfold retire
  split
  · exact h
  · exact readySet_walk _ (dir_walk _ h)

theorem place_walk (i : SetIdx) (w : Way) (e : Entry) (h : Walk a s) : Walk a (place i w e s) := by
  unfold place
  simp only
  split
  · exact poisonRise_walk (dir_walk _ (retire_walk _ _ h))
  · exact dir_walk _ (retire_walk _ _ h)

theorem rewrite_walk (i : SetIdx) (w : Way) (x : EntryState) (h : Walk a s) : Walk a (rewrite i w x s) := by
  unfold rewrite
  split
  · exact h
  · exact dir_walk _ h

theorem touch_walk (i : SetIdx) (w : Way) (h : Walk a s) : Walk a (touch i w s) := by
  unfold touch
  split
  · exact h
  · exact dir_walk _ h

theorem grant_walk (i : SetIdx) (w : Way) (x : EntryState) (h : Walk a s) : Walk a (grant i w x s) :=
  touch_walk _ _ (rewrite_walk _ _ _ h)

theorem convert_walk (i : SetIdx) (w : Way) (p : Port) (h : Walk a s) : Walk a (convert i w p s) :=
  poisonRise_walk (rewrite_walk _ _ _ h)

theorem scrubWay_walk (i : SetIdx) (w : Way) (h : Walk a s) : Walk a (scrubWay i w s) := by
  unfold scrubWay
  split
  · exact h
  · split
    · exact h
    · split
      · exact convert_walk _ _ _ h
      · exact h
    · simp only
      split
      · exact h
      · split
        · exact retire_walk _ _ h
        · exact rewrite_walk _ _ _ h

theorem convertWay_walk (i : SetIdx) (w : Way) (h : Walk a s) : Walk a (convertWay i w s) := by
  unfold convertWay
  split
  · exact h
  · split
    · split
      · exact convert_walk _ _ _ h
      · exact h
    · exact h
    · exact h

theorem changingLookup_walk (l : LineNo) (h : Walk a s) : Walk a (changingLookup l s) := by
  unfold changingLookup
  split
  · exact scrubWay_walk _ _ h
  · exact h

theorem observingLookup_walk (l : LineNo) (h : Walk a s) : Walk a (observingLookup l s) := by
  unfold observingLookup
  split
  · exact convertWay_walk _ _ h
  · exact h

theorem Walk.fold {α : Type} (f : State → α → State) (hf : ∀ s x, Walk a s → Walk a (f s x)) (l : List α)
    (h : Walk a s) : Walk a (l.foldl f s) := by
  induction l generalizing s with
  | nil => exact h
  | cons x l ih => exact ih (hf s x h)

theorem scrubSet_walk (i : SetIdx) (h : Walk a s) : Walk a (scrubSet i s) :=
  Walk.fold _ (fun _ _ h => scrubWay_walk _ _ h) _ h

theorem storeResidue_walk (i : SetIdx) (w : Way) (x : Option EntryState) (h : Walk a s) :
    Walk a (storeResidue i w x s) := by
  unfold storeResidue
  split
  · exact rewrite_walk _ _ _ h
  · exact retire_walk _ _ h

/-! ### The port controller's tests -/

theorem drainTest_walk (p : Port) (h : Walk a s) : Walk a (drainTest p s) := by
  unfold drainTest
  split
  · next e =>
    split
    · exact h
    · exact raise_walk _ (farewell_walk _ (by unfold State.isIsolated; rw [State.port_setPort_same])
        (setPort_walk _ _ ⟨rfl, rfl, Or.inr (Or.inl ⟨true, e, Or.inr rfl⟩)⟩ h))
  all_goals exact h

theorem cleanupTest_walk (p : Port) (h : Walk a s) : Walk a (cleanupTest p s) := by
  unfold cleanupTest
  split
  · next e =>
    split
    · exact h
    · exact raise_walk _ (setPort_walk _ _ ⟨rfl, rfl, Or.inr (Or.inr ⟨e, rfl⟩)⟩ h)
  all_goals exact h

theorem quiesceCheck_walk (h : Walk a s) : Walk a (quiesceCheck s) := by
  unfold quiesceCheck
  split
  · exact completeLong_walk _ _ _ (service_walk _ h)
  · exact h

theorem portTests_walk (S : PortSet) (h : Walk a s) : Walk a (portTests S s) :=
  Walk.fold _ (fun _ _ h => cleanupTest_walk _ (drainTest_walk _ h)) _ h

/-! ### The sweep engine -/

theorem walkerLookup_walk (j : Job) (l : LineNo) (h : Walk a s) : Walk a (walkerLookup j l s) := by
  unfold walkerLookup
  split
  · exact observingLookup_walk _ h
  · exact observingLookup_walk _ h
  · exact observingLookup_walk _ h
  · split
    · exact changingLookup_walk _ h
    · exact observingLookup_walk _ h
  · split
    · exact h
    · exact observingLookup_walk _ h

theorem directEdit_walk (j : Job) (l : LineNo) (h : Walk a s) : Walk a (directEdit j l s) := by
  unfold directEdit
  split
  · exact changingLookup_walk _ h
  · split
    · exact sweep_walk _ (retire_walk _ _ h)
    · exact h
  all_goals exact h

theorem arriveAt_walk (j : Job) (i : SetIdx) (h : Walk a s) : Walk a (arriveAt j i s) := by
  unfold arriveAt
  simp only
  refine Walk.fold _ (fun s x h => ?_) _ (sweep_walk _ (Walk.fold _ (fun s l h => walkerLookup_walk j l h) _ h))
  split
  · exact directEdit_walk _ _ h
  · exact h

theorem visitSets_walk (j : Job) (m : Option SetIdx) (l : List SetIdx) (h : Walk a s) :
    Walk a (visitSets j m l s) := by
  induction l generalizing s with
  | nil => exact sweep_walk _ h
  | cons i l ih =>
    unfold visitSets
    simp only
    split
    · exact ih (arriveAt_walk _ _ h)
    · exact arriveAt_walk _ _ h

theorem walkOn_walk (j : Job) (n : Nat) (h : Walk a s) : Walk a (walkOn j n s) :=
  visitSets_walk _ _ _ (freeCount_walk _ h)

theorem startRunning_walk (h : Walk a s) : Walk a (startRunning s) := by
  unfold startRunning
  split
  · exact sweep_walk _ h
  · exact walkOn_walk _ _ (sweep_walk _ h)

theorem reportJob_walk (j : Job) (h : Walk a s) : Walk a (reportJob j s) := by
  unfold reportJob
  split
  · split
    · next b e =>
      exact drainTest_walk _ (setPort_walk _ _ ⟨rfl, rfl, Or.inr (Or.inl ⟨b, e, Or.inl rfl⟩)⟩ h)
    all_goals exact h
  · exact cleanupTest_walk _ h
  · exact completeLong_walk _ _ _ h
  · exact completeLong_walk _ _ _ h
  · exact completeLong_walk _ _ _ (regions_walk _ h)

theorem completeJobs_walk (n : Nat) (h : Walk a s) : Walk a (completeJobs n s) := by
  induction n generalizing s with
  | zero => exact h
  | succ n ih =>
    unfold completeJobs
    split
    · exact h
    · split
      · exact ih (startRunning_walk (reportJob_walk _ (sweep_walk _ h)))
      · exact h

theorem advance_walk (h : Walk a s) : Walk a (advance s) := completeJobs_walk _ h

theorem enqueueJob_walk (j : Job) (h : Walk a s) : Walk a (enqueueJob j s) := by
  unfold enqueueJob
  simp only
  split
  · exact advance_walk (startRunning_walk (sweep_walk _ h))
  · exact sweep_walk _ h

theorem setWork_walk (l : LineNo) (st : WorkStatus) (h : Walk a s) : Walk a (setWork l st s) := sweep_walk _ h

theorem leaveIfHandled_walk (h : Walk a s) : Walk a (leaveIfHandled s) := by
  unfold leaveIfHandled
  split
  · split
    · exact advance_walk (walkOn_walk _ _ h)
    · exact h
  · exact h

theorem sweepRelease_walk (l : LineNo) (h : Walk a s) : Walk a (sweepRelease l s) := by
  unfold sweepRelease
  split
  · exact h
  · split
    · simp only
      split
      · split
        · exact leaveIfHandled_walk (setWork_walk _ _ (directEdit_walk _ _ (walkerLookup_walk _ _ h)))
        · exact setWork_walk _ _ (walkerLookup_walk _ _ h)
      · exact leaveIfHandled_walk (setWork_walk _ _ (walkerLookup_walk _ _ h))
    · exact h

theorem releaseClaim_walk (l : LineNo) (h : Walk a s) : Walk a (releaseClaim l s) :=
  sweepRelease_walk _ (readyLine_walk _ h)

theorem convertDrain_walk (p : Port) (h : Walk a s) : Walk a (convertDrain p s) := by
  unfold convertDrain
  simp only
  split
  · exact sweep_walk _ h
  · split
    · split
      · exact advance_walk (walkOn_walk _ _ (sweep_walk _ h))
      · exact advance_walk (sweep_walk _ h)
      · exact sweep_walk _ h
    · exact sweep_walk _ h

theorem arrangeCleanup_walk (p : Port) (h : Walk a s) : Walk a (arrangeCleanup p s) := by
  unfold arrangeCleanup
  split
  · exact convertDrain_walk _ h
  · exact enqueueJob_walk _ h

/-- The steps of a completion after its response: everything they do but the freeing of the slot is the work of the
directory table, the sweep engine and the port controller (R83). -/
theorem finishSteps_walk (t : Txn) (u : State) :
    Walk u (if t.originPort.isSome then quiesceCheck (portTests t.reported (advance (releaseClaim t.line u)))
      else portTests t.reported (advance (releaseClaim t.line u))) := by
  split
  · exact quiesceCheck_walk (portTests_walk _ (advance_walk (releaseClaim_walk _ (Walk.refl _))))
  · exact portTests_walk _ (advance_walk (releaseClaim_walk _ (Walk.refl _)))

/-- A completion with a response for a port: the response is queued as the port's state decides, and the slot freed
(R83, R84). -/
theorem finish_response (k : SlotId) (t : Txn) (p : Port) (tag : Tag) (n : Nat) (r : Response)
    (h : s.txn k = some t) (ho : t.origin = .port p tag n) (hr : t.response = some r) :
    Walk ((respondAtCompletion p tag r s).freeSlot k) (finish k s) := by
  unfold finish
  rw [h]
  simp only
  rw [ho, hr]
  exact finishSteps_walk t _

/-- A completion without a response: the slot is freed (R83, R116, R150). -/
theorem finish_silent (k : SlotId) (t : Txn) (h : s.txn k = some t)
    (hr : t.response = none ∨ t.originPort = none) : Walk (s.freeSlot k) (finish k s) := by
  unfold finish
  rw [h]
  simp only
  cases ho : t.origin with
  | port p tag n =>
    cases he : t.response with
    | none => exact finishSteps_walk t _
    | some r =>
      rcases hr with hr | hr
      · rw [he] at hr; cases hr
      · unfold Txn.originPort at hr; rw [ho] at hr; cases hr
  | sweep o => exact finishSteps_walk t _

end Sys2Proof.Machine
end

