-- ==== Sys2Proof/Laws/Own.lean ====
section
/-! SUPPORT. What the work of one slot's transaction leaves alone, said once: every other slot; the link of a port
that is Isolated; the parked list's lack of an Isolated port's requests. It awaits no Isolated port that it did not
await. A transaction that completes without a response leaves its slot free with its generation toggled. What a
completion and a parking do, as one equation each. The free order is an order of what it is given. -/

namespace Sys2Proof.Machine

open Sys2Proof

/-- The free order is an order of the list (log 4). -/
theorem shuffle_perm {α : Type} (n c : Nat) (l : List α) : (shuffle n c l).Perm l := by
  induction n generalizing c l with
  | zero => exact .refl _
  | succ n ih =>
    unfold shuffle
    split
    · exact .refl _
    · simp only
      split
      · next x hx =>
        refine ((ih _ _).cons x).trans ?_
        obtain ⟨hi, rfl⟩ := List.getElem?_eq_some_iff.mp hx
        exact List.getElem_cons_eraseIdx_perm hi
      · exact .refl _

/-! ### The ways of a set under the filter -/

theorem way_retire_ne {s : State} {i : SetIdx} {w : Way} {j : SetIdx} {v : Way} (h : j ≠ i ∨ v ≠ w)
    (hd : s.dir.Wf) : (retire i w s).way j v = s.way j v := by
  unfold retire
  split
  · rfl
  · show (getSet (putSet s.dir.sets i _) j).ways[v] = (getSet s.dir.sets j).ways[v]
    by_cases e : j = i
    · subst e
      rw [getSet_putSet_same _ _ _ hd.rising]
      show ((s.dirSet j).ways.set w none)[v] = _
      rw [ways_set, if_neg (h.resolve_left fun h => h rfl)]
      rfl
    · rw [getSet_putSet_ne _ _ e]

theorem way_rewrite {s : State} {i : SetIdx} {w : Way} {e : Entry} (x : EntryState) (hw : s.way i w = some e)
    (hd : s.dir.Wf) : (rewrite i w x s).way i w = some { e with state := x } := by
  unfold rewrite
  rw [hw]
  show (getSet (putSet s.dir.sets i _) i).ways[w] = _
  rw [getSet_putSet_same _ _ _ hd.rising]
  show ((s.dirSet i).ways.set w _)[w] = _
  rw [ways_set, if_pos rfl]

theorem way_rewrite_ne {s : State} {i : SetIdx} {w : Way} {j : SetIdx} {v : Way} (x : EntryState) (h : j ≠ i ∨ v ≠ w)
    (hd : s.dir.Wf) : (rewrite i w x s).way j v = s.way j v := by
  unfold rewrite
  split
  · rfl
  · show (getSet (putSet s.dir.sets i _) j).ways[v] = (getSet s.dir.sets j).ways[v]
    by_cases e : j = i
    · subst e
      rw [getSet_putSet_same _ _ _ hd.rising]
      show ((s.dirSet j).ways.set w _)[v] = _
      rw [ways_set, if_neg (h.resolve_left fun h => h rfl)]
      rfl
    · rw [getSet_putSet_ne _ _ e]

theorem way_poisonRise (s : State) (i : SetIdx) (w : Way) : (poisonRise s).way i w = s.way i w := by
  unfold State.way State.dirSet
  rw [poisonRise_dir]

/-- The filter at one way changes no other way (R5, R6). -/
theorem way_scrubWay_ne {s : State} {i : SetIdx} {w v : Way} (h : v ≠ w) (hd : s.dir.Wf) :
    (scrubWay i w s).way i v = s.way i v := by
  unfold scrubWay
  split
  · rfl
  · split
    · rfl
    · split
      · unfold convert; rw [way_poisonRise]; exact way_rewrite_ne _ (Or.inr h) hd
      · rfl
    · simp only
      split
      · rfl
      · split
        · exact way_retire_ne (Or.inr h) hd
        · exact way_rewrite_ne _ (Or.inr h) hd

/-- Way w of set i records no Isolated port. -/
def State.filtered (s : State) (i : SetIdx) (w : Way) : Prop :=
  ∀ e, s.way i w = some e → ∀ q, PortSet.has e.state.holders.1 q = true → s.isIsolated q = false

theorem isolatedPorts_has (s : State) (q : Port) : PortSet.has s.isolatedPorts q = s.isIsolated q := by
  have key : ∀ (f : Port → Bool) (l : List Port) (S : PortSet),
      PortSet.has (l.foldl (fun S p => if f p then PortSet.insert S p else S) S) q =
        (PortSet.has S q || (decide (q ∈ l) && f q)) := by
    intro f l
    induction l with
    | nil => intro S; simp
    | cons p l ih =>
      intro S
      rw [List.foldl_cons, ih]
      by_cases e : q = p
      · subst e
        by_cases hf : f q = true
        · rw [if_pos hf, has_insert]; simp [hf]
        · simp [hf]
      · have hm : decide (q ∈ p :: l) = decide (q ∈ l) := by simp [e]
        rw [hm]
        split
        · rw [has_insert, decide_eq_false e, Bool.or_false]
        · rfl
  unfold State.isolatedPorts portsWhere
  rw [key, decide_eq_true (mem_allPorts q), Bool.true_and]
  have : PortSet.has 0 q = false := by simp [PortSet.has]
  rw [this, Bool.false_or]

/-- After the filter has reached a way it records no Isolated port (R5, R6). -/
theorem scrubWay_filtered {s : State} (i : SetIdx) (w : Way) (hd : s.dir.Wf) : (scrubWay i w s).filtered i w := by
  have hq : ∀ q, s.isIsolated q = false → (scrubWay i w s).isIsolated q = false := fun q h =>
    not_isolated_quiet q ((scrubWay_walk i w (.refl s)).ports q) h
  intro e he q hh
  refine hq q ?_
  unfold scrubWay at he
  split at he
  · next h => rw [h] at he; cases he
  · next e0 h =>
    split at he
    · next c p hx =>
      rw [h] at he; cases he
      rw [hx] at hh
      simp [EntryState.holders, PortSet.has] at hh
    · next p hx =>
      split at he
      · unfold convert at he
        rw [way_poisonRise, way_rewrite _ h hd] at he
        cases he
        simp [EntryState.holders, PortSet.has] at hh
      · next hp =>
        rw [h] at he; cases he
        rw [hx] at hh
        change PortSet.has (PortSet.single p) q = true at hh
        rw [has_single] at hh
        rw [of_decide_eq_true hh]
        exact Bool.eq_false_iff.mpr hp
    · next S hx =>
      have fin : PortSet.has (PortSet.diff S s.isolatedPorts) q = true → s.isIsolated q = false := by
        intro h1
        rw [has_diff, isolatedPorts_has] at h1
        simp only [Bool.and_eq_true, Bool.not_eq_true'] at h1
        exact h1.2
      simp only at he
      split at he
      · next hS =>
        rw [h] at he; cases he
        rw [hx] at hh
        exact fin (by rw [hS]; exact hh)
      · split at he
        · rw [retire_way hd] at he; cases he
        · rw [way_rewrite _ h hd] at he
          cases he
          exact fin hh

/-- The way search's lookups leave no way of the set with an Isolated port recorded (R12). -/
theorem scrubSet_filtered {s : State} (i : SetIdx) (hd : s.dir.Wf) (w : Way) : (scrubSet i s).filtered i w := by
  have key : ∀ (l : List Way) (u : State), u.dir.Wf → (w ∈ l ∨ u.filtered i w) →
      (l.foldl (fun s w => scrubWay i w s) u).filtered i w := by
    intro l
    induction l with
    | nil => intro u _ h; exact h.resolve_left (fun h => by cases h)
    | cons v l ih =>
      intro u hu h
      rw [List.foldl_cons]
      have hv : (scrubWay i v u).dir.Wf :=
        Moves.keeps (I := fun s => s.dir.Wf) (fun _ _ m => m.dir_wf) (scrubWay_moves i v (refl_moves u)) hu
      refine ih _ hv ?_
      by_cases e : w = v
      · subst e; exact Or.inr (scrubWay_filtered i w hu)
      · rcases h with h | h
        · exact Or.inl ((List.mem_cons.mp h).resolve_left e)
        · right
          intro x hx q hq
          rw [way_scrubWay_ne e hu] at hx
          exact not_isolated_quiet q ((scrubWay_walk i v (.refl u)).ports q) (h x hx q hq)
  exact key _ _ hd (Or.inl (mem_allWays w))

/-! ### The frame of one slot's work -/

/-- The frame of the work of slot k's transaction. -/
structure Own (k : SlotId) (s t : State) : Prop where
  slots : ∀ j : SlotId, j ≠ k → t.slot j = s.slot j
  ports : ∀ p : Port, (s.port p).Quiet (t.port p)
  links : ∀ p : Port, s.isIsolated p = true → t.link p = s.link p
  parked : ∀ p : Port, s.isIsolated p = true → ∀ q ∈ t.parked, q.port = p → ∃ r ∈ s.parked, r.port = p
  waits : ∀ p : Port, s.isIsolated p = true → (∀ x, s.txn k = some x → x.awaits p = false) →
    ∀ x, t.txn k = some x → x.awaits p = false

/-- An Isolated port is not Online. -/
theorem ne_of_online {s : State} {p q : Port} (hi : s.isIsolated p = true) (ho : (s.port q).state = .online) : p ≠ q := by
  rintro rfl
  unfold State.isIsolated at hi
  rw [ho] at hi
  cases hi

theorem Own.refl (k : SlotId) (s : State) : Own k s s where
  slots _ _ := rfl
  ports _ := .refl _
  links _ _ := rfl
  parked _ _ q hq h := ⟨q, hq, h⟩
  waits _ _ h := h

theorem Own.trans {k : SlotId} {s t u : State} (h : Own k s t) (g : Own k t u) : Own k s u where
  slots j hj := (g.slots j hj).trans (h.slots j hj)
  ports p := (h.ports p).trans (g.ports p)
  links p hp := (g.links p (isIsolated_quiet p (h.ports p) hp)).trans (h.links p hp)
  waits p hp hs := g.waits p (isIsolated_quiet p (h.ports p) hp) (h.waits p hp hs)
  parked p hp q hq hqp := by
    obtain ⟨r, hr, hrp⟩ := g.parked p (isIsolated_quiet p (h.ports p) hp) q hq hqp
    exact h.parked p hp r hr hrp

variable {k : SlotId} {a s t : State}

/-- The work of the directory table and the sweep engine is within any transaction's own. -/
theorem Walk.own (h : Walk s t) (k : SlotId) : Own k s t where
  slots j _ := h.slot j
  ports := h.ports
  links := h.isolated
  waits p _ hs x hx := hs x (by rw [← h.txn k]; exact hx)
  parked p _ q hq hqp := by
    obtain ⟨f, -, e⟩ := h.parked
    rw [e, List.mem_map] at hq
    obtain ⟨r, hr, rfl⟩ := hq
    exact ⟨r, hr, hqp⟩

theorem Own.walk (h : Own k a s) (w : Walk s t) : Own k a t := h.trans (w.own k)

/-- A change of slot k alone, which awaits nobody new. -/
theorem setSlot_own (x : Slot)
    (hx : ∀ y, x.txn = some y → ∀ p, (∀ z, s.txn k = some z → z.awaits p = false) → y.awaits p = false)
    (h : Own k a s) : Own k a (s.setSlot k x) :=
  h.trans
    { slots := fun _ hj => State.slot_setSlot_ne s x hj
      ports := fun p => .refl (s.port p)
      links := fun _ _ => rfl
      parked := fun _ _ q hq e => ⟨q, hq, e⟩
      waits := fun p _ hs y hy => by
        unfold State.txn at hy
        rw [State.slot_setSlot_same] at hy
        exact hx y hy p hs }

theorem freeSlot_own (h : Own k a s) : Own k a (s.freeSlot k) := setSlot_own _ (fun _ e => by cases e) h

/-- A change of the record that leaves its probes alone. -/
theorem modifyTxn_own (f : Txn → Txn) (hf : ∀ t, (f t).probes = t.probes ∨ (f t).probes = []) (h : Own k a s) :
    Own k a (s.modifyTxn k f) := by
  unfold State.modifyTxn
  split
  · next t ht =>
    refine setSlot_own _ (fun y e p hz => ?_) h
    cases e
    have := hz t ht
    unfold Txn.awaits at this ⊢
    rcases hf t with e | e
    · rw [e]; exact this
    · rw [e]; rfl
  · exact h

/-- A message to a port that is not Isolated. -/
theorem queueMessage_own (p : Port) (m : OutMessage) (hp : s.isIsolated p = false) (h : Own k a s) :
    Own k a (queueMessage p m s) :=
  h.trans
    { slots := fun _ _ => rfl
      ports := fun q => .refl (s.port q)
      links := fun q hq => State.link_setLink_ne _ _ (by rintro rfl; rw [hp] at hq; cases hq)
      parked := fun _ _ q hq e => ⟨q, hq, e⟩
      waits := fun _ _ hs => hs }

/-- A response to a port that is not Isolated. -/
theorem respond_own (p : Port) (tag : Tag) (r : Response) (hp : s.isIsolated p = false) (h : Own k a s) :
    Own k a (respond p tag r s) := by
  unfold respond
  split
  · exact h
  refine h.trans
    { slots := fun _ _ => rfl
      ports := fun q => .refl (s.port q)
      links := fun q hq => ?_
      parked := fun _ _ q hq e => ⟨q, hq, e⟩
      waits := fun _ _ hs => hs }
  have hne : q ≠ p := by rintro rfl; rw [hp] at hq; cases hq
  unfold State.setTag State.modifyLink queueMessage State.modifyLink
  rw [State.link_setLink_ne _ _ hne, State.link_setLink_ne _ _ hne]

theorem respondAtCompletion_own (p : Port) (tag : Tag) (r : Response) (h : Own k a s) :
    Own k a (respondAtCompletion p tag r s) := by
  unfold respondAtCompletion
  split
  · next e => exact respond_own _ _ _ (by unfold State.isIsolated; rw [e]) h
  · next e => exact respond_own _ _ _ (by unfold State.isIsolated; rw [e]) h
  all_goals exact h

/-- The steps of a completion are the transaction's own (R83). -/
theorem finish_own (h : Own k a s) : Own k a (finish k s) := by
  unfold finish
  split
  · exact h
  · next t ht =>
    refine Own.walk (freeSlot_own ?_) (finishSteps_walk t _)
    split
    · exact respondAtCompletion_own _ _ _ h
    · exact h
    · exact h

theorem complete_own (r : Option Response) (h : Own k a s) : Own k a (complete k r s) := 
  finish_own (modifyTxn_own _ (fun _ => by exact Or.inl rfl) h)

/-- A request of a port that is not Isolated joins the parked list (R86). -/
theorem joinParked_own (q : Parked) (hq : s.isIsolated q.port = false) (h : Own k a s) :
    Own k a (joinParked q s) := by
  unfold joinParked
  refine Own.walk ?_ (quiesceCheck_walk (.refl _))
  split
  · exact respondAtCompletion_own _ _ _ h
  · refine h.trans
      { slots := fun _ _ => rfl
        ports := fun p => .refl (s.port p)
        links := fun _ _ => rfl
        parked := fun p hp r hr e => ?_
        waits := fun _ _ hs => hs }
    rcases mem_insertParked hr with rfl | hr
    · rw [e, hp] at hq; cases hq
    · exact ⟨r, hr, e⟩

/-- The slot's transaction, if it is a port's, is port p's. -/
def State.originIs (s : State) (k : SlotId) (p : Port) : Prop :=
  ∀ t o g n, s.txn k = some t → t.origin = .port o g n → o = p

theorem Walk.originIs {p : Port} (w : Walk s t) (h : s.originIs k p) : t.originIs k p := by
  intro u o g n hu
  rw [w.txn k] at hu
  exact h u o g n hu

theorem originIs_modifyTxn {p : Port} (f : Txn → Txn) (hf : ∀ t, (f t).origin = t.origin) (h : s.originIs k p) :
    (s.modifyTxn k f).originIs k p := by
  intro u o g n hu ho
  rw [State.txn_modifyTxn, if_pos rfl] at hu
  cases hs : s.txn k with
  | none => rw [hs] at hu; cases hu
  | some x =>
    rw [hs] at hu
    cases hu
    rw [hf] at ho
    exact h x o g n hs ho

/-- A transaction that parks, its port not Isolated (R86). -/
theorem parkOnSet_own (p : Port) (ho : s.originIs k p) (hp : s.isIsolated p = false) (h : Own k a s) :
    Own k a (parkOnSet k s) := by
  unfold parkOnSet
  split
  · exact h
  · next t ht =>
    have w : Walk (s.freeSlot k) (portTests t.reported (releaseClaim t.line (s.freeSlot k))) :=
      portTests_walk _ (releaseClaim_walk _ (.refl _))
    have h1 : Own k a (portTests t.reported (releaseClaim t.line (s.freeSlot k))) := Own.walk (freeSlot_own h) w
    simp only
    split
    · next o g n kind e _ =>
      refine joinParked_own _ ?_ h1
      have he : o = p := ho t o g n ht e
      subst he
      exact not_isolated_quiet o (w.ports o) hp
    · exact h1
    · exact h1

/-- A phase whose targets are not Isolated. -/
theorem issueProbes_own (ph : Phase) (l : LineNo) (g : RecallTargets)
    (hg : ∀ q, PortSet.has g.ports q = true → s.isIsolated q = false) (h : Own k a s) :
    Own k a (issueProbes k ph l g s) := by
  unfold issueProbes
  have fold : ∀ (ps : List Port) (u : State), (∀ q ∈ ps, u.isIsolated q = false) → Own k a u →
      Own k a (ps.foldl (fun s q => queueMessage q (.probe k (s.slot k).gen l g.kind) s) u) := by
    intro ps
    induction ps with
    | nil => exact fun _ _ h => h
    | cons q ps ih =>
      exact fun u hu h => ih _ (fun x hx => hu x (List.mem_cons_of_mem _ hx))
        (queueMessage_own _ _ (hu q (List.mem_cons_self ..)) h)
  have hm : ∀ q ∈ PortSet.members g.ports, s.isIsolated q = false := fun q hq => hg q (List.mem_filter.mp hq).2
  simp only
  unfold State.modifyTxn
  split
  · next t ht =>
    refine fold _ _ hm (h.trans
      { slots := fun _ hj => State.slot_setSlot_ne s _ hj
        ports := fun p => .refl (s.port p)
        links := fun _ _ => rfl
        parked := fun _ _ q hq e => ⟨q, hq, e⟩
        waits := fun p hp _ y hy => ?_ })
    rw [State.txn_setTxn, if_pos rfl] at hy
    cases hy
    unfold Txn.awaits
    rw [List.any_map, List.any_eq_false]
    intro q hq
    have : q ≠ p := by rintro rfl; rw [hm q hq] at hp; cases hp
    simp [this]
  · exact fold _ _ hm h

theorem enterLease_own (p : Port) (h : Own k a s) : Own k a (enterLease k p s) := by
  unfold enterLease
  split
  · next ho =>
    split
    · refine respond_own _ _ _ ?_ (modifyTxn_own _ (fun _ => by exact Or.inl rfl) h)
      have e : ((s.modifyTxn k fun t => { t with
          phase := some .leased, response := none
          deadline := some { start := s.now, interval := s.leaseInterval } }).port p).state = .online := by
        unfold State.modifyTxn
        split <;> exact of_decide_eq_true ho
      unfold State.isIsolated
      rw [e]
    · exact h
  · exact complete_own _ h

theorem takeWay_own (p : Port) (kind : RequestKind) (l : LineNo) (w : Way) (h : Own k a s) :
    Own k a (takeWay k p kind l w s) := by
  unfold takeWay
  split
  · exact enterLease_own _ (modifyTxn_own _ (fun _ => by exact Or.inl rfl) h)
  · split
    · split
      · exact complete_own _ (Own.walk (modifyTxn_own _ (fun _ => by exact Or.inl rfl) h)
          (place_walk _ _ _ (.refl _)))
      · exact complete_own _ h
    · exact complete_own _ h

theorem recallVictim_own (i : SetIdx) (w : Way) (hf : s.filtered i w) (h : Own k a s) :
    Own k a (recallVictim k i w s) := by
  unfold recallVictim
  split
  · exact h
  · next e he =>
    refine issueProbes_own _ _ _ (fun q hq => ?_) (modifyTxn_own _ (fun _ => by exact Or.inl rfl) h)
    have hp : ∀ f : Txn → Txn, (s.modifyTxn k f).isIsolated q = s.isIsolated q := by
      intro f; unfold State.modifyTxn; split <;> rfl
    rw [hp]
    exact hf e he q hq

theorem allocate_own (p : Port) (kind : RequestKind) (l : LineNo) (ho : s.originIs k p) (hd : s.dir.Wf)
    (h : Own k a s) : Own k a (allocate k p kind l s) := by
  have w : Walk s (scrubSet (setOf l) s) := scrubSet_walk _ (.refl _)
  have h1 := h.walk w
  unfold allocate
  simp only
  split
  · exact takeWay_own _ _ _ _ h1
  · exact recallVictim_own _ _ (scrubSet_filtered _ hd _) h1
  · split
    · next hp =>
      refine parkOnSet_own p (w.originIs ho) ?_ h1
      unfold State.isIsolated
      rw [of_decide_eq_true hp]
    · exact complete_own _ h1
  · exact complete_own _ h1

theorem dir_wf_of_moves (m : Moves true s t) (h : s.dir.Wf) : t.dir.Wf :=
  Moves.keeps (I := fun s => s.dir.Wf) (fun _ _ m => m.dir_wf) m h

theorem endVictimRecall_own (p : Port) (kind : RequestKind) (l v : LineNo) (w : Way) (ho : s.originIs k p)
    (hd : s.dir.Wf) (h : Own k a s) : Own k a (endVictimRecall k p kind l v w s) := by
  have w1 : Walk s (scrubWay (setOf l) w s) := scrubWay_walk _ _ (.refl _)
  have d1 : (scrubWay (setOf l) w s).dir.Wf := dir_wf_of_moves (scrubWay_moves _ _ (refl_moves _)) hd
  have dm : ∀ (u : State) (f : Txn → Txn), u.dir.Wf → (u.modifyTxn k f).dir.Wf := by
    intro u f hu; unfold State.modifyTxn; split <;> exact hu
  unfold endVictimRecall
  simp only
  split
  · exact allocate_own _ _ _
      ((releaseClaim_walk _ (.refl _)).originIs (originIs_modifyTxn _ (fun _ => rfl) (w1.originIs ho)))
      (dir_wf_of_moves (releaseClaim_moves _ (refl_moves _)) (dm _ _ d1))
      (Own.walk (modifyTxn_own _ (fun _ => by exact Or.inl rfl) (h.walk w1)) (releaseClaim_walk _ (.refl _)))
  · exact takeWay_own _ _ _ _
      (Own.walk (modifyTxn_own _ (fun _ => by exact Or.inl rfl) (Own.walk (h.walk w1) (retire_walk _ _ (.refl _))))
        (releaseClaim_walk _ (.refl _)))

theorem endCaching_own (p : Port) (kind : RequestKind) (l : LineNo) (probes : List Probe) (h : Own k a s) :
    Own k a (endCaching k p kind l probes s) := by
  have h1 : Own k a (changingLookup l s) := h.walk (changingLookup_walk _ (.refl _))
  have hs : ∀ i w x, Own k a (storeResidue i w x (changingLookup l s)) := fun i w x =>
    h1.walk (storeResidue_walk _ _ _ (.refl _))
  unfold endCaching
  simp only
  split
  · split
    · have h2 : Own k a (scrubSet (setOf l) (changingLookup l s)) := h1.walk (scrubSet_walk _ (.refl _))
      split
      · exact takeWay_own _ _ _ _ h2
      all_goals exact complete_own _ h2
    · exact complete_own _ h1
  · exact complete_own _ h1
  · split
    · split
      · exact complete_own _ (h1.walk (grant_walk _ _ _ (.refl _)))
      · exact complete_own _ (hs _ _ _)
    · exact complete_own _ (hs _ _ _)

theorem endStreamRead_own (p : Port) (l : LineNo) (probes : List Probe) (h : Own k a s) :
    Own k a (endStreamRead k p l probes s) := by
  have h1 : Own k a (changingLookup l s) := h.walk (changingLookup_walk _ (.refl _))
  unfold endStreamRead
  simp only
  split
  · exact enterLease_own _ h1
  · exact complete_own _ h1
  · exact enterLease_own _ (h1.walk (storeResidue_walk _ _ _ (.refl _)))

theorem endStreamWrite_own (p : Port) (l : LineNo) (probes : List Probe) (h : Own k a s) :
    Own k a (endStreamWrite k p l probes s) := by
  have h1 : Own k a (changingLookup l s) := h.walk (changingLookup_walk _ (.refl _))
  unfold endStreamWrite
  simp only
  split
  · exact enterLease_own _ h1
  · exact complete_own _ (modifyTxn_own _ (fun _ => by exact Or.inl rfl) h1)
  · exact enterLease_own _ (h1.walk (storeResidue_walk _ _ _ (.refl _)))

theorem endProbing_own (p : Port) (kind : RequestKind) (l : LineNo) (probes : List Probe) (h : Own k a s) :
    Own k a (endProbing k p kind l probes s) := by
  unfold endProbing
  split
  · exact endCaching_own _ _ _ _ h
  · exact endCaching_own _ _ _ _ h
  · exact endCaching_own _ _ _ _ h
  · exact endStreamRead_own _ _ _ h
  · exact endStreamWrite_own _ _ _ h

theorem endRecall_own (l : LineNo) (probes : List Probe) (h : Own k a s) : Own k a (endRecall k l probes s) := by
  have h1 : Own k a (changingLookup l s) := h.walk (changingLookup_walk _ (.refl _))
  unfold endRecall
  simp only
  split
  · exact complete_own _ h1
  · exact complete_own _ h1
  · exact complete_own _ (h1.walk (storeResidue_walk _ _ _ (.refl _)))

/-- The end of a phase is the transaction's own (R80). -/
theorem phaseEnd_own (hd : s.dir.Wf) (h : Own k a s) : Own k a (phaseEnd k s) := by
  unfold phaseEnd
  split
  · exact h
  · next t ht =>
    have h1 : Own k a (s.setTxn k { t with phase := none, probes := [], reprobed := false, deadline := none }) :=
      setSlot_own _ (fun y e p _ => by cases e; rfl) h
    simp only
    split
    · next p tag n kind e1 e2 e3 =>
      split
      · refine endVictimRecall_own _ _ _ _ _ ?_ hd h1
        intro u o g m hu ho
        rw [State.txn_setTxn, if_pos rfl] at hu
        cases hu
        simp only at ho
        rw [e1] at ho
        cases ho
        rfl
      · exact h1
    · exact endProbing_own _ _ _ _ h1
    · exact endRecall_own _ _ h1
    · exact h

/-- The end of what an isolation ends in slot k is the transaction's own (R126, R137). -/
theorem endByIsolation_own (p : Port) (hd : s.dir.Wf) (h : Own k a s) : Own k a (endByIsolation p k s) := by
  unfold endByIsolation
  split
  · exact h
  · next t ht =>
    split
    · unfold endLeaseByIsolation
      rw [ht]
      simp only
      split
      · exact complete_own _ (Own.walk (modifyTxn_own _ (fun _ => by exact Or.inl rfl) h)
          (place_walk _ _ _ (.refl _)))
      · exact complete_own _ h
    · exact phaseEnd_own hd h

/-- A slot is freed whatever transaction stands in it (R79). -/
theorem freeSlot_setTxn (s : State) (k : SlotId) (t : Txn) : (s.setTxn k t).freeSlot k = s.freeSlot k := by
  unfold State.freeSlot State.setTxn
  rw [State.setSlot_setSlot, State.slot_setSlot_same]

/-- A response does not read the transactions. -/
theorem respond_setTxn (s : State) (p : Port) (tag : Tag) (r : Response) (k : SlotId) (t : Txn) :
    respond p tag r (s.setTxn k t) = (respond p tag r s).setTxn k t := by
  unfold respond
  rw [show (s.setTxn k t).tagState p tag = s.tagState p tag from rfl]
  split <;> rfl

/-- What a completion does, its response determined: the response is sent as the origin's state decides, the slot given
back, the claim released, the sweep engine's jobs completed, the ports reported tested, and the end of port-origin work
reported (R83). -/
theorem complete_eq (k : SlotId) (t : Txn) (r : Option Response) (h : s.txn k = some t) :
    complete k r s =
      (let sent := match t.origin, r with
        | .port p tag _, some r => respondAtCompletion p tag r s
        | .port _ _ _, none => s
        | .sweep _, _ => s
      let u := portTests t.reported (advance (releaseClaim t.line (sent.freeSlot k)))
      if t.originPort.isSome then quiesceCheck u else u) := by
  have e : s.modifyTxn k (fun t => { t with response := r }) = s.setTxn k { t with response := r } := by
    unfold State.modifyTxn; rw [h]
  have e2 : (s.setTxn k { t with response := r }).txn k = some { t with response := r } := by
    unfold State.txn State.setTxn; rw [State.slot_setSlot_same]
  have resp : ∀ p tag q, respondAtCompletion p tag q (s.setTxn k { t with response := r }) =
      (respondAtCompletion p tag q s).setTxn k { t with response := r } := by
    intro p tag q
    unfold respondAtCompletion
    rw [show ((s.setTxn k { t with response := r }).port p).state = (s.port p).state from rfl]
    split <;> first | rfl | exact respond_setTxn _ _ _ _ _ _
  unfold complete finish
  rw [e, e2]
  obtain ⟨o, kd, ln, v, hw, ph, pb, rp, dl, tg, rs, pr⟩ := t
  cases o with
  | port p tag n =>
    cases r with
    | none =>
      simp only [Txn.originPort, Txn.reported, freeSlot_setTxn]
      rfl
    | some r =>
      simp only [Txn.originPort, Txn.reported, resp, freeSlot_setTxn]
      rfl
  | sweep o =>
    simp only [Txn.originPort, Txn.reported, freeSlot_setTxn]
    rfl
/-- The place of a request in the parked list: after those first taken before it (R86). -/
theorem insertParked_eq (q : Parked) (l : List Parked) : insertParked q l = l.takeWhile (fun r => decide (r.order ≤ q.order)) ++
          q :: l.dropWhile (fun r => decide (r.order ≤ q.order)) := by
  induction l with
  | nil => rfl
  | cons x l ih =>
    unfold insertParked
    split
    · next h => simp [Nat.not_le.mpr h]
    · next h => rw [ih]; simp [Nat.not_lt.mp h]

/-- What parking with reason Set does for the request of a port: the slot given back, the claim released, the ports
reported tested, and the request joins the list (R86). -/
theorem parkOnSet_eq (k : SlotId) (t : Txn) (p : Port) (tag : Tag) (n : Nat) (kind : RequestKind)
    (h : s.txn k = some t) (ho : t.origin = .port p tag n) (hk : t.kind = .request kind) :
    parkOnSet k s =
      joinParked { port := p, tag := tag, kind := kind, line := t.line, order := n, reason := .set, ready := false }
        (portTests t.reported (releaseClaim t.line (s.freeSlot k))) := by
  unfold parkOnSet
  rw [h]
  simp only [ho, hk]

/-- A completion without a response leaves the slot free, its generation toggled (R79, R83). -/
theorem complete_none_slot (k : SlotId) (t : Txn) (h : s.txn k = some t) :
    (complete k none s).slot k = { gen := !(s.slot k).gen, txn := none } := by
  unfold complete
  have e : s.modifyTxn k (fun t => { t with response := none }) = s.setTxn k { t with response := none } := by
    unfold State.modifyTxn
    rw [h]
  have ht : (s.setTxn k { t with response := none }).txn k = some { t with response := none } := by
    rw [State.txn_setTxn, if_pos rfl]
  rw [e, (finish_silent k _ ht (Or.inl rfl)).slot k]
  unfold State.freeSlot State.setTxn
  rw [State.slot_setSlot_same, State.slot_setSlot_same]

end Sys2Proof.Machine
end

