-- ==== Sys2Proof/Laws/Sweep.lean ====
section
/-! SUPPORT. What each operation leaves of the sweep engine's own state: lookups, edits of the directory table and the
port controller's tests leave all of it; the walker's arrivals leave the job queue; only a command's count changes by a
direct edit. And the marking of probes Lost, as one change of the slots. -/

namespace Sys2Proof.Machine

open Sys2Proof

variable (s : State)

@[simp] theorem completeLong_sweep (c : LongCommand) (st : CommandStatus) (w : Word) :
    (completeLong c st w s).sweep = s.sweep := by
  unfold completeLong; split <;> rfl

@[simp] theorem enterHalted_sweep : (enterHalted s).sweep = s.sweep := by
  unfold enterHalted; rw [completeLong_sweep]; rfl

@[simp] theorem thresholdTest_sweep : (thresholdTest s).sweep = s.sweep := by
  simp only [thresholdTest]
  split
  · split
    · rw [enterHalted_sweep]; rfl
    · rfl
  · split
    · rw [enterHalted_sweep]
    · rfl

@[simp] theorem poisonRise_sweep : (poisonRise s).sweep = s.sweep := by
  unfold poisonRise; rw [thresholdTest_sweep]; rfl

@[simp] theorem retire_sweep (i : SetIdx) (w : Way) : (retire i w s).sweep = s.sweep := by
  unfold retire; split <;> rfl

@[simp] theorem rewrite_sweep (i : SetIdx) (w : Way) (x : EntryState) : (rewrite i w x s).sweep = s.sweep := by
  unfold rewrite; split <;> rfl

@[simp] theorem convert_sweep (i : SetIdx) (w : Way) (h : Port) : (convert i w h s).sweep = s.sweep := by
  unfold convert; rw [poisonRise_sweep, rewrite_sweep]

@[simp] theorem scrubWay_sweep (i : SetIdx) (w : Way) : (scrubWay i w s).sweep = s.sweep := by
  unfold scrubWay
  split
  · rfl
  · split
    · rfl
    · split
      · exact convert_sweep s i w _
      · rfl
    · simp only
      split
      · rfl
      · split
        · exact retire_sweep s i w
        · exact rewrite_sweep s i w _

@[simp] theorem convertWay_sweep (i : SetIdx) (w : Way) : (convertWay i w s).sweep = s.sweep := by
  unfold convertWay
  split
  · rfl
  · split
    · split
      · exact convert_sweep s i w _
      · rfl
    · rfl
    · rfl

@[simp] theorem changingLookup_sweep (l : LineNo) : (changingLookup l s).sweep = s.sweep := by
  unfold changingLookup
  split
  · exact scrubWay_sweep s _ _
  · rfl

@[simp] theorem observingLookup_sweep (l : LineNo) : (observingLookup l s).sweep = s.sweep := by
  unfold observingLookup
  split
  · exact convertWay_sweep s _ _
  · rfl

@[simp] theorem walkerLookup_sweep (j : Job) (l : LineNo) : (walkerLookup j l s).sweep = s.sweep := by
  unfold walkerLookup
  split
  · exact observingLookup_sweep s l
  · exact observingLookup_sweep s l
  · exact observingLookup_sweep s l
  · split
    · exact changingLookup_sweep s l
    · exact observingLookup_sweep s l
  · split
    · rfl
    · exact observingLookup_sweep s l

/-- A direct edit changes the job count alone (R154, R157). -/
theorem directEdit_sweep (j : Job) (l : LineNo) :
    (directEdit j l s).sweep = { s.sweep with jobCount := (directEdit j l s).sweep.jobCount } := by
  unfold directEdit
  split
  · rw [changingLookup_sweep]
  · split
    · simp only [retire_sweep]
    · rfl
  · rfl
  · rfl
  · rfl

/-- The walker's arrival leaves the job queue (R146). -/
@[simp] theorem arriveAt_jobs (j : Job) (i : SetIdx) : (arriveAt j i s).sweep.jobs = s.sweep.jobs := by
  have lookups : ∀ (ls : List LineNo) (u : State),
      (ls.foldl (fun s l => walkerLookup j l s) u).sweep = u.sweep := by
    intro ls
    induction ls with
    | nil => exact fun _ => rfl
    | cons l ls ih => intro u; rw [List.foldl_cons, ih, walkerLookup_sweep]
  have edits : ∀ (ls : List (LineNo × WorkStatus)) (u : State),
      (ls.foldl (fun s lw => if lw.2 = .handled then directEdit j lw.1 s else s) u).sweep.jobs = u.sweep.jobs := by
    intro ls
    induction ls with
    | nil => exact fun _ => rfl
    | cons l ls ih =>
      intro u
      rw [List.foldl_cons, ih]
      split
      · rw [directEdit_sweep]
      · rfl
  unfold arriveAt
  simp only
  rw [edits]
  show (List.foldl _ s _).sweep.jobs = _
  rw [lookups]

/-- The walk leaves the job queue (R146). -/
@[simp] theorem visitSets_jobs (j : Job) (m : Option SetIdx) (l : List SetIdx) :
    (visitSets j m l s).sweep.jobs = s.sweep.jobs := by
  induction l generalizing s with
  | nil => rfl
  | cons i l ih =>
    unfold visitSets
    simp only
    split
    · rw [ih, arriveAt_jobs]
    · rw [arriveAt_jobs]

@[simp] theorem walkOn_jobs (j : Job) (n : Nat) : (walkOn j n s).sweep.jobs = s.sweep.jobs := visitSets_jobs ..

@[simp] theorem startRunning_jobs : (startRunning s).sweep.jobs = s.sweep.jobs := by
  unfold startRunning
  split
  · next h => rw [h]
  · rw [walkOn_jobs]

@[simp] theorem drainTest_sweep (p : Port) : (drainTest p s).sweep = s.sweep := by
  unfold drainTest
  split
  · split <;> rfl
  all_goals rfl

@[simp] theorem cleanupTest_sweep (p : Port) : (cleanupTest p s).sweep = s.sweep := by
  unfold cleanupTest
  split
  · split <;> rfl
  all_goals rfl

/-- A job's report leaves the sweep engine as it is (R151). -/
@[simp] theorem reportJob_sweep (j : Job) : (reportJob j s).sweep = s.sweep := by
  unfold reportJob
  split
  · split
    · rw [drainTest_sweep]; rfl
    all_goals rfl
  · exact cleanupTest_sweep s _
  · exact completeLong_sweep s _ _ _
  · exact completeLong_sweep s _ _ _
  · rw [completeLong_sweep]

/-- A recall of the job is active (R151). -/
theorem recallActive_iff (j : Job) :
    s.recallActive j = true ↔ ∃ k t, s.txn k = some t ∧ t.origin = .sweep j.owner := by
  unfold State.recallActive State.activeTxns
  rw [List.any_eq_true]
  constructor
  · rintro ⟨⟨k, t⟩, h, e⟩
    rw [List.mem_filterMap] at h
    obtain ⟨k', -, h⟩ := h
    cases ht : s.txn k' with
    | none => rw [ht] at h; cases h
    | some t' => rw [ht] at h; cases h; exact ⟨k, t, ht, of_decide_eq_true e⟩
  · rintro ⟨k, t, h, e⟩
    refine ⟨(k, t), ?_, decide_eq_true e⟩
    rw [List.mem_filterMap]
    exact ⟨k, mem_allSlots k, by rw [h]; rfl⟩

/-- The record of a transaction with its unanswered probes to port p marked Lost (R137). -/
def Txn.losing (p : Port) (t : Txn) : Txn :=
  { t with probes := t.probes.map fun m =>
    if m.port = p ∧ m.outcome = none then { m with outcome := some .lost } else m }

/-- One change of every active transaction is one change of the slots. -/
theorem modifyTxn_all (f : Txn → Txn) :
    allSlots.foldl (fun s k => s.modifyTxn k f) s =
      { s with slots := s.slots.map fun x => { x with txn := x.txn.map f } } := by
  have key : ∀ (l : List SlotId) (s : State), l.Nodup →
      (l.foldl (fun s k => s.modifyTxn k f) s) =
          { s with slots := (l.foldl (fun s k => s.modifyTxn k f) s).slots } ∧
        ∀ k : SlotId, (l.foldl (fun s k => s.modifyTxn k f) s).slot k =
          if k ∈ l then { s.slot k with txn := (s.txn k).map f } else s.slot k := by
    intro l
    induction l with
    | nil => exact fun s _ => ⟨rfl, fun k => by simp⟩
    | cons a l ih =>
      intro s hn
      rw [List.nodup_cons] at hn
      rw [List.foldl_cons]
      obtain ⟨h1, h2⟩ := ih (s.modifyTxn a f) hn.2
      have e : s.modifyTxn a f = { s with slots := (s.modifyTxn a f).slots } := by
        unfold State.modifyTxn; split <;> rfl
      constructor
      · generalize (List.foldl (fun s k => s.modifyTxn k f) (s.modifyTxn a f) l) = x at h1 ⊢
        rw [h1, e]
      · intro k
        rw [h2]
        by_cases hk : k = a
        · subst hk
          rw [if_neg hn.1, if_pos (List.mem_cons_self ..)]
          unfold State.modifyTxn
          cases ht : s.txn k with
          | none =>
            show s.slot k = { s.slot k with txn := none }
            rw [← ht]
            rfl
          | some t =>
            show (s.setTxn k (f t)).slot k = _
            unfold State.setTxn
            rw [State.slot_setSlot_same]
            rfl
        · have e1 : (s.modifyTxn a f).slot k = s.slot k := by
            unfold State.modifyTxn
            split
            · exact State.slot_setSlot_ne _ _ hk
            · rfl
          have e2 : (s.modifyTxn a f).txn k = s.txn k := by unfold State.txn; rw [e1]
          have e3 : k ∈ a :: l ↔ k ∈ l := by simp [hk]
          rw [e1, e2]
          simp [e3]
  have all : ∀ l : List SlotId, l.Nodup → (∀ k, k ∈ l) →
      l.foldl (fun s k => s.modifyTxn k f) s =
        { s with slots := s.slots.map fun x => { x with txn := x.txn.map f } } := by
    intro l hn hm
    obtain ⟨h1, h2⟩ := key l s hn
    rw [h1]
    congr 1
    apply Vector.ext
    intro i hi
    have h3 := (h2 ⟨i, hi⟩).trans (if_pos (hm _))
    unfold State.slot at h3
    rw [Vector.getElem_map]
    exact h3
  exact all allSlots allSlots_nodup mem_allSlots

/-- The marking of probes Lost is one change of the slots (R137). -/
theorem markLost_slots (p : Port) :
    markLost p s = { s with slots := s.slots.map fun x => { x with txn := x.txn.map (Txn.losing p) } } :=
  modifyTxn_all _ _

/-- The recalls of an aborted command's job become recalls of no job by one change of the slots (R158). -/
theorem orphanRecalls_slots :
    orphanRecalls s =
      { s with slots := s.slots.map fun x => { x with txn := x.txn.map fun t =>
        if t.origin = (.sweep .command) then { t with origin := (.sweep .aborted) } else t } } :=
  modifyTxn_all _ _

end Sys2Proof.Machine
end

