-- ==== Sys2Proof/Tests/Slice0.lean ====
section
/-! SUPPORT. The model's own tests: the refusals of the well-formedness check, one or two steps of each command on a
small state, and for each statement with premises a state that meets them. -/

namespace Sys2Proof.Tests

open Sys2Proof Sys2Proof.Machine

/-! ### Well-formedness -/

theorem test_wf_hello_profile_field : Instr.wellFormed (.hello 0 3) = false := by decide
theorem test_wf_answer_outcome_field : Instr.wellFormed (.answer 0 0 false 0 0) = false := by decide
theorem test_wf_unknown_kind_is_unknown : Instr.wellFormed (.unknownMessageKind 0 (.undefinedKind .notice 5)) = false := by
  decide
theorem test_wf_unknown_profile_is_unknown : Instr.wellFormed (.unknownMessageKind 0 (.helloProfile 2)) = false := by decide
theorem test_wf_unknown_code_is_unknown : Instr.wellFormed (.unknownCommandCode 15) = false := by decide
theorem test_wf_write_has_no_own_row : Instr.wellFormed (.registerWrite 0x19 0) = false := by decide
theorem test_wf_accepts : Instr.wellFormed (.hello 0 1) = true ∧ Instr.wellFormed (.unknownCommandCode 16) = true ∧
    Instr.wellFormed (.unknownMessageKind 0 (.undefinedKind .answer 0)) = true := by decide
theorem test_no_word_spells_a_command : decodeTableWord 16 1 = none := by decide

/-! ### Small states -/

/-- The state after a command; the state itself where the command gives none. -/
def after (c : Instr) (s : State) : State :=
  match exec c s with
  | .next t => t
  | .fault _ => s
  | .refused _ => s

/-- A link that is Up with its receive clock present. -/
def upLink : Link := { Link.reset with up := true, clockAbsentSince := none }

/-- The state with port p's link Up and its record so. -/
def withPort (p : Port) (f : Profile) (x : PortState) (s : State) : State :=
  (s.setPort p { profile := f, state := x, reason := .none }).setLink p upLink

/-- The state with a line's entry in way 0 of its set. -/
def withEntry (l : LineNo) (x : EntryState) (s : State) : State := place (setOf l) 0 { tag := entryTag l, state := x } s

/-- The state with its operand words set. -/
def withOperands (a b c d : Word) (s : State) : State :=
  { s with window := { s.window with operands := #v[a, b, c, d, 0, 0] } }

/-- Running, record 0 Tracked over all pages: port 0 Caching Online, 1 Streaming Online, 2 Caching Draining,
3 Isolated with its cleanup done, 4 Caching Offline, 5 Streaming Offline, 6 Unused, 7 Caching Online. -/
def board : State :=
  withPort 0 .caching .online <| withPort 1 .streaming .online <| withPort 2 .caching (.draining true) <|
    withPort 3 .caching (.isolated true) <| withPort 4 .caching .offline <| withPort 5 .streaming .offline <|
    withPort 6 .unused .unused <| withPort 7 .caching .online
      { State.reset with
        service := .running
        regions := State.reset.regions.set 0 { enabled := true, base := 0, limit := 1048575, attr := .tracked } }

/-- A transaction of port 0 in slot 0 on line 5, probing holder 7 since time 0. -/
def probingTxn : Txn :=
  { openedTxn (.port 0 1 0) (.request .readExclusive) 5 with
    phase := some .probing
    probes := [{ port := 7, kind := .invalidate, role := .holder, outcome := none }]
    deadline := some { start := 0, interval := 250 }
    probed := 0x80 }

/-- The board with that transaction, line 5 Exclusive at port 7. -/
def probing : State := ((withEntry 5 (.exclusive 7) board).setTxn 0 probingTxn).setTag 0 1 .outstanding

/-- A Leased StreamWrite of port 1 under tag 2 in slot 0 on line 9, its way reserved. -/
def leasedTxn : Txn :=
  { openedTxn (.port 1 2 0) (.request .streamWrite) 9 with
    phase := some .leased, heldWay := some 3, deadline := some { start := 0, interval := 4000 } }

/-- The board with that transaction, its StreamGo transmitted. -/
def leased : State := (board.setTxn 0 leasedTxn).setTag 1 2 .outstanding

/-- The board with a request of port 0 for line 5 queued. -/
def queued (k : RequestKind) : State :=
  board.setLink 0
    { upLink with queue := [{ tag := 1, kind := k, line := 5 }], tags := #v[.free, .outstanding, .free, .free] }

/-- The board with a Flush job at set 5 and line 5, Shared by port 0, Pending. -/
def sweeping : State :=
  { withEntry 5 (.shared 1) board with
    sweep := { jobs := [.flush 0 0], walker := .atSet 5, workList := [(5, .pending)], jobCount := 0 }
    unit := { board.unit with inProgress := some .flush } }

/-! ### Commands, one step each -/

theorem test_hard_reset : after .hardReset board = { State.reset with inReset := true } := by decide
theorem test_reset_release : after (.resetRelease false) (after .hardReset board) =
    { State.reset with window := { State.reset.window with wide := false } } := by decide
theorem test_receive_clock_change : ((after (.receiveClockChange 0 false) { board with now := 7 }).link 0).clockAbsentSince =
    some 7 := by decide
theorem test_clock_absence_timeout :
    ((after (.clockAbsenceTimeout 4) ({ board with now := 100 }.setLink 4 { upLink with clockAbsentSince := some 0 })).link 4)
      = { Link.reset with clockAbsentSince := some 0 } := by decide +kernel
/-- A drain that completes before the port controller takes the LinkLost leaves the port Offline (R69, log 25). -/
theorem test_loss_taken : (takeLoss 1 { board with lossReported := 2 }).port 1 =
    { profile := .streaming, state := .isolated true, reason := .linkLost } ∧
    (takeLoss 1 { board with lossReported := 2 }).lossReported = 0 ∧
    (takeLoss 5 { board with lossReported := 32 }).port 5 = board.port 5 := by decide +kernel
theorem test_bad_frame : (after (.badFrame 0) board).tx = [(0, .resend)] := by decide
theorem test_acknowledge :
    ((after (.acknowledge 0 .outbound false)
      (board.setLink 0 { upLink with resend := some { seq := false, msg := .farewell }, attempts := 1 })).link 0)
      = { upLink with nextSeq := true } := by decide
theorem test_resend :
    (after (.resend 0) (board.setLink 0 { upLink with resend := some { seq := false, msg := .farewell }, attempts := 1 })).tx
      = [(0, .message false .farewell)] := by decide
theorem test_idle : ((after (.idle 0) (board.setLink 0 { Link.reset with clockAbsentSince := none })).link 0).up = true := by
  decide
theorem test_ack_timeout :
    ((after (.ackTimeout 4) ({ board with now := 20 }.setLink 4
      { upLink with resend := some { seq := false, msg := .farewell }, attempts := 3 })).link 4).up = false := by decide +kernel
theorem test_transmit_frame :
    (after (.transmitFrame 0) (board.setLink 0 { upLink with outbound := [.response 1 .retry] })).tx
      = [(0, .message false (.response 1 .retry))] := by decide
theorem test_read_shared : ((after (.readShared 0 1 5) board).link 0).queue = [{ tag := 1, kind := .readShared, line := 5 }] := by
  decide
theorem test_read_exclusive : ((after (.readExclusive 4 1 5) board).link 4).outbound = [.response 1 (.refused .notOnline)] := by
  decide
theorem test_upgrade : ((after (.upgrade 2 1 5) board).link 2).outbound = [.response 1 (.refused .draining)] := by decide
theorem test_stream_read : (after (.streamRead 1 3 5) board).tagState 1 3 = .outstanding := by decide
theorem test_stream_write : (after (.streamWrite 3 3 5) board).tagState 3 3 = .free := by decide
theorem test_hello : (after (.hello 4 1) board).port 4 = { profile := .caching, state := .online, reason := .none } ∧
    ((after (.hello 4 1) board).link 4).outbound = [.welcome .caching] := by decide
theorem test_goodbye : (after (.goodbye 1) board).port 1 = { profile := .streaming, state := .offline, reason := .none } ∧
    ((after (.goodbye 1) board).link 1).outbound = [.farewell] := by decide
theorem test_release : (after (.release 0 5) (withEntry 5 (.shared 1) board)).stored 5 = none := by decide
theorem test_release_dirty : (after (.releaseDirty 0 5) (withEntry 5 (.shared 0x81) board)).stored 5 = some (0, .shared 0x80) := by
  decide
theorem test_stream_done : (after (.streamDone 1 2) leased).slot 0 = { gen := true, txn := none } ∧
    (after (.streamDone 1 2) leased).tagState 1 2 = .free := by decide
theorem test_answer : (after (.answer 7 0 false 5 1) probing).stored 5 = some (0, .exclusive 0) ∧
    ((after (.answer 7 0 false 5 1) probing).link 0).outbound = [.response 1 (.grantExclusive true)] := by decide
/-- The board with the transaction of port 0, whose tag its lost link has freed, its LinkLost standing (log 25). -/
def tagLost : State :=
  { probing.setLink 0 { upLink with up := false } with lossReported := 1 }

/-- A request whose tag a link loss has freed gets no response, grant or refusal (R44, log 25). -/
theorem test_freed_tag_gets_no_response :
    (after (.answer 7 0 false 5 1) tagLost).stored 5 = some (0, .exclusive 0) ∧
    ((after (.answer 7 0 false 5 1) tagLost).link 0).outbound = [] ∧
    (after (.answer 7 0 false 5 1) tagLost).tagState 0 1 = .free ∧
    (after (.answer 7 0 false 5 1) (tagLost.setPort 0 { tagLost.port 0 with state := .draining false })).link 0 =
      tagLost.link 0 ∧
    (enterLease 0 1 (board.setTxn 0 { leasedTxn with phase := none })).link 1 = board.link 1 ∧
    (enterLease 0 1 (board.setTxn 0 { leasedTxn with phase := none })).txn 0 =
      some { leasedTxn with deadline := some { start := 0, interval := 4000 } } := by decide +kernel
theorem test_unknown_message_kind : ((after (.unknownMessageKind 1 .answerOutcome) board).port 1).reason = .protocolError := by
  decide +kernel
theorem test_take_queue_head : (after .takeQueueHead (queued .readShared)).stored 5 = some (0, .shared 1) ∧
    ((after .takeQueueHead (queued .readShared)).link 0).outbound = [.response 1 .grantShared] := by decide
theorem test_take_queue_head_not_permitted :
    ((after .takeQueueHead (queued .streamRead)).link 0).outbound = [.response 1 (.refused .kindNotPermitted)] := by decide
theorem test_restart_parked :
    (after .restartParked { board with parked :=
      [{ port := 0, tag := 1, kind := .upgrade, line := 5, order := 0, reason := .line, ready := true }] }).stored 5
      = some (0, .exclusive 0) := by decide
theorem test_start_sweep_recall : ((after .startSweepRecall { sweeping with sweep := { sweeping.sweep with
    workList := [(5, .pending), (2053, .pending)] } }).link 0).outbound = [.probe 0 false 5 .invalidate] := by decide
theorem test_reprobe : ((after (.reprobe 0) { probing with now := 250 }).link 7).outbound = [.probe 0 false 5 .invalidate] := by
  decide
/-- The second probe deadline of slot 0 is due, while a Flush job waits for line 6. -/
def overdue : State :=
  { probing.setTxn 0 { probingTxn with reprobed := true } with
    now := 250
    sweep := { jobs := [.flush 0 0], walker := .atSet 6, workList := [(6, .waiting)], jobCount := 0 } }

theorem test_probe_timeout_taken : (takeReport 7 { overdue with reported := 0x80 }).stored 5 =
    some (0, .poisoned .holderLost 7) := by decide +kernel
theorem test_probe_timeout_after_an_answer :
    ((takeReport 7 (after (.answer 7 0 false 5 1) { overdue with reported := 0x80 })).port 7).state = .isolated false ∧
    (takeReport 7 (after (.answer 7 0 false 5 1) { overdue with reported := 0x80 })).stored 5 = some (0, .exclusive 0) ∧
    (takeReport 7 (after (.answer 7 0 false 5 1) { overdue with reported := 0x80 })).reported = 0 := by decide +kernel
theorem test_probe_timeout : PortSet.has (after (.probeTimeout 0) overdue).reported 7 = true ∨
    ((after (.probeTimeout 0) overdue).port 7).reason = .probeTimeout := by
  have e : after (.probeTimeout 0) overdue =
      reportTimeout 7 { overdue.setTxn 0 { probingTxn with reprobed := true, deadline := none } with
        freeCount := overdue.freeCount + 1 } := rfl
  rw [e]
  unfold reportTimeout
  dsimp only
  split
  · exact Or.inr (by decide +kernel)
  · exact Or.inl (by decide +kernel)
theorem test_lease_timeout : (after (.leaseTimeout 0) { leased with now := 3999 }).port 1 = leased.port 1 := by decide
theorem test_set_port_profile : (after .setPortProfile (withOperands 6 2 0 0 board)).port 6 =
    { profile := .streaming, state := .offline, reason := .none } := by decide
theorem test_evict_port : ((after .evictPort (withOperands 1 0 0 0 board)).unit.results, ((after .evictPort
    (withOperands 1 0 0 0 board)).port 1).state) = (#v[1, 0, 0, 0], .offline) := by decide
theorem test_isolate_port : (after .isolatePort (withOperands 3 0 0 0 board)).unit.results = #v[4, 0, 0, 0] := by decide
theorem test_clear_isolation : (after .clearIsolation (withOperands 3 0 0 0 board)).port 3 =
    { profile := .caching, state := .offline, reason := .none } := by decide
theorem test_write_region : (after .writeRegion (withOperands 2 0x8001 0 3
    { sweeping with unit := board.unit, service := .quiesced })).sweep.jobs =
      [.flush 0 0, .regionChange 2 { enabled := true, base := 3, limit := 0, attr := .tracked }] := by decide
theorem test_quiesce : (after .quiesce board).service = .quiesced := by decide
theorem test_resume : (after .resume State.reset).service = .running := by decide
/-- A walk that does not rest stops at the line it finds; one that rests does so at its set. -/
theorem test_walk : (visitSets (.flush 0 0) none ((withEntry 5 (.shared 1) board).setsFrom 0 none)
      (withEntry 5 (.shared 1) board)).sweep.workList = [(5, .pending)] ∧
    (visitSets (.flush 0 0) (some 3) ((withEntry 5 (.shared 1) board).setsFrom 0 (some 3))
      (withEntry 5 (.shared 1) board)).sweep = { jobs := [], walker := .atSet 3, workList := [], jobCount := 0 } := by
  decide
theorem test_flush : (after .flush (withOperands 0 0 0 0 sweeping)).unit.status = .rejectedBusy ∧
    ((after .flush (withOperands 0 3 0 4 { sweeping with unit := board.unit })).unit.inProgress,
      (after .flush (withOperands 0 3 0 4 { sweeping with unit := board.unit })).sweep.jobs) =
      (some .flush, [.flush 0 0, .flush 3 4]) := by decide
theorem test_lookup_line : (after .lookupLine (withOperands 0 5 0 0 (withEntry 5 (.exclusive 7) board))).unit.results =
    #v[0x0702, 0, 0, 0x0011] := by decide
theorem test_next_poisoned : (after .nextPoisoned (withOperands 0 0 0 0
    (withEntry 5 (.poisoned .leaseLost 1) board))).unit.results = #v[0x9100, 0, 5, 1] := by decide
theorem test_clear_poison : (after .clearPoison (withOperands 0 5 0 0
    (withEntry 5 (.poisoned .holderLost 1) board))).unit.results = #v[0x0100, 0, 0, 0] := by decide
theorem test_clear_all_poison : (visitSets .poisonClear none [5]
      (withEntry 5 (.poisoned .holderLost 1) board)).sweep.jobCount = 1 ∧
    (after .clearAllPoison { sweeping with unit := board.unit }).sweep.jobs = [.flush 0 0, .poisonClear] := by decide
theorem test_set_timing : (after .setTiming (withOperands 300 5000 0 0 board)).probeInterval = 300 := by decide
theorem test_set_poison_threshold : (after .setPoisonThreshold (withOperands 1 0 0 0
    (withEntry 5 (.poisoned .holderLost 1) board))).service = .halted := by decide
theorem test_clear_directory : (after .clearDirectory (withEntry 5 (.shared 1) State.reset)).dir =
    { sets := [], occupancy := 0, poisoned := 0 } := by decide
theorem test_unknown_command_code : (after (.unknownCommandCode 16) board).unit.status = .badOperand := by decide
theorem test_abort : (after (.abort 0) sweeping).sweep.jobs = [] ∧ (after (.abort 0) sweeping).unit.status = .aborted := by decide +kernel
theorem test_acknowledge_cause : (after (.acknowledgeCause 9) (raise .commandDone board)).notify.pendingFlags = 0 := by decide
theorem test_enable_word_write : (after (.enableWordWrite 0xFFFF) (raise .halted board)).irq = true := by decide
theorem test_register_write : (after (.registerWrite 5 0x1234) board).readWord 5 = 0x1234 := by decide
theorem test_low_byte_write : (after (.lowByteWrite 5 0x34) { board with window := { board.window with wide := false } }).window.writeByte
    = 0x34 := by decide
theorem test_low_byte_read : (after (.lowByteRead 0x16) { board with window := { board.window with wide := false } }).window.dataOut
    = 16 := by decide
theorem test_second_copy : (after (.secondCopyOfFrame 0 .request) board).tx = [(0, .acknowledge .request true)] := by decide
theorem test_high_byte_read : (after (.highByteRead 0x15) { board with window := { board.window with wide := false } }).window.dataOut
    = 0x0F := by decide
theorem test_step_takes_the_front : step { board with pending := [.idle 0, .idle 1] } =
    exec (.idle 0) { board with pending := [.idle 1] } := rfl

/-! ### States that meet the premises of the statements

The theorems are named after the statements; each clause of a statement has its own conjunct or theorem. -/

/-- A state with an own event due: a message to transmit. -/
def busyLink : State := board.setLink 0 { upLink with outbound := [.response 1 .retry] }

theorem test_premises_EmptyQueue : (after .hardReset board).pending = [] ∧ (after .hardReset board).inReset = true ∧
    State.reset.pending = [] ∧ State.reset.inReset = false ∧ State.reset.ownWork = [] ∧
    busyLink.pending = [] ∧ busyLink.inReset = false ∧ busyLink.ownWork = [.event (.transmitFrame 0)] ∧
    { board with reported := 0x80 }.ownWork = [.timeout 7] ∧ { board with lossReported := 4 }.ownWork = [.loss 2] ∧
    probing.txn 0 = some probingTxn ∧ probingTxn.deadline = some { start := 0, interval := 250 } := by decide
/-- The board with a Flush job whose walker rests at set 5 (log 5). -/
def resting : State :=
  { board with sweep := { jobs := [.flush 0 0], walker := .atSet 5, workList := [], jobCount := 0 } }

theorem test_premises_EmptyQueue_walker : resting.pending = [] ∧ resting.inReset = false ∧
    resting.ownWork = [.walk, .tick] ∧ { resting with reported := 0x80 }.ownWork = [.timeout 7, .walk] := by decide
theorem test_premises_NothingActs : (after .hardReset board).inReset = true ∧ Instr.resets .quiesce = false := by decide
theorem test_premises_HardReset : (after .hardReset board).inReset = true ∧ board.inReset = false := by decide
theorem test_premises_DirectoryStays : State.reset.dir.Wf ∧ ∃ t, step State.reset = .next t := ⟨Directory.reset_wf, _, rfl⟩
theorem test_premises_ClaimsStay : board.ClaimsDisjoint ∧ ∃ t, step board = .next t := by
  refine ⟨fun k j t u l hk => ?_, _, rfl⟩
  have : ∀ k : SlotId, board.txn k = none := by decide
  rw [this k] at hk
  cases hk
theorem test_premises_Running : board.RunningBelowThreshold ∧ board.service = .running ∧ ∃ t, step board = .next t :=
  ⟨fun _ => by decide, by decide, _, rfl⟩
theorem test_premises_Ports : (∀ p : Port, (State.reset.port p).Wf) ∧ (∀ p : Port, (board.link p).Wf) := by
  have hp : ∀ p : Port, State.reset.port p = PortRec.reset := by decide
  have hl : ∀ p : Port, board.link p = upLink := by decide
  refine ⟨fun p => ?_, fun p => ?_⟩
  · rw [hp p]
    exact ⟨by decide, (by intro b h; cases h), (by intro b h; cases h)⟩
  · rw [hl p]
    exact ⟨by decide, by decide, by decide⟩
theorem test_premises_Bounds : board.SweepCapKept ∧ ParkedWf board.parked ∧ board.ParametersInRange ∧
    QuiesceTracked board.service board.unit ∧ (after .hardReset board).HeldInReset ∧
    (after .hardReset board).inReset = true :=
  ⟨by unfold State.SweepCapKept; decide, ⟨by decide, by decide⟩, ⟨by decide, by decide, by decide⟩,
    by unfold QuiesceTracked; decide, fun _ => by decide, by decide⟩
theorem test_premises_Isolated : (board.port 3).state = .isolated true ∧ board.pending = [] ∧
    { board with pending := [.idle 3] }.pending = [.idle 3] ∧ Instr.wellFormed (.idle 3) = true ∧
    Instr.resets (.idle 3) = false ∧ Instr.idle 3 ≠ .clearIsolation ∧ Instr.wellFormed .clearIsolation = true ∧
    (withOperands 5 0 0 0 board).word 0 ≠ (3 : Port).val ∧ (∃ t, step board = .next t) ∧
    ∃ t, step { board with pending := [.clearIsolation] } = .next t :=
  ⟨by decide, rfl, rfl, by decide, by decide, by decide, by decide, by decide, ⟨_, rfl⟩, _, rfl⟩
theorem test_clear_isolation_elsewhere :
    (after .clearIsolation (withOperands 5 0 0 0 board)).port 3 = board.port 3 := by decide
theorem test_premises_Pending : (raise .halted board).isPending .halted = true ∧ board.pending = [] ∧
    Instr.resets (.acknowledgeCause 9) = false ∧ ¬ Acknowledges (raise .halted board) .halted (.acknowledgeCause 9) ∧
    ¬ Acknowledges (raise .halted board) .halted (.idle 3) := by
  refine ⟨by decide, rfl, rfl, ?_, ?_⟩
  · rintro (⟨v, r, h1, h2⟩ | _)
    rcases h1 with ⟨-, h1⟩ | ⟨h1, -⟩
    · rw [h1] at h2
      exact absurd h2 (by decide)
    · exact absurd h1 (by decide)
  · rintro ⟨⟩
theorem test_acknowledge_another_cause :
    (after (.acknowledgeCause 9) (raise .halted board)).isPending .halted = true := by decide

/-- The reset state's links are Down with no receive clock. -/
theorem test_premises_SilentLink : State.reset.hears 0 = false ∧ Instr.goodFrameAt (.readShared 0 0 0) = some 0 ∧
    (State.reset.link 0).up = false := by decide
/-- A port whose lost link has its receive clock back while the LinkLost stands reported (log 25). -/
theorem test_premises_SilentLink_reported :
    let s := { board.setLink 2 { upLink with up := false } with lossReported := 4 }
    s.inReset = false ∧ (s.link 2).up = false ∧ (s.link 2).clockAbsentSince = none ∧
      PortSet.has s.lossReported 2 = true ∧ s.hears 2 = false ∧ Instr.goodFrameAt (.goodbye 2) = some 2 := by decide
theorem test_premises_ReceiveClock : (board.link 0).clockAbsentSince = none ∧ (State.reset.link 0).clockAbsentSince ≠ none ∧
    (State.reset.link 0).up = false := by decide

/-- Port 0's link with a frame buffered. -/
def buffered (attempts : Nat) : State :=
  board.setLink 0 { upLink with resend := some { seq := false, msg := .farewell }, attempts := attempts }

theorem test_premises_LinkControl : (buffered 1).hears 0 = true ∧
    ((buffered 1).link 0).heard.resend = some { seq := false, msg := .farewell } ∧ Channel.request ≠ .outbound := by decide

/-- A ReadShared of tag 1 for line 5 with sequence bit 0, and the same with a wrong check code. -/
def requestFrame (sound : Bool) : RawFrame :=
  { header := 0x0081, body := 5, check := checkCode (bitsOf 0x0081#16 ++ bitsOf 5#32) ^^^ if sound then 0 else 1 }

/-- The check code of the nine digits 1 to 9 as bytes. -/
theorem test_check_code : checkCode (bitsOf 0x313233343536373839#72) = 0xD64E := by decide +kernel
theorem test_frame_is_its_row : board.inboundRow 0 (requestFrame true) = .readShared 0 1 5 ∧
    (after (.readShared 0 1 5) board).inboundRow 0 (requestFrame true) = .secondCopyOfFrame 0 .request ∧
    board.inboundRow 0 (requestFrame false) = .badFrame 0 := by decide +kernel
theorem test_premises_Frames : (requestFrame true).sound ∧ ¬ (requestFrame false).sound ∧
    (requestFrame true).header = 0#2 ++ InChannel.request.number ++ BitVec.ofBool false ++ 1#4 ++ 0#5 ++ 1#2 ∧
    false = ((board.link 0).up && (board.link 0).expected .request) ∧
    0x3A00#16 = 0#2 ++ 3#2 ++ BitVec.ofBool true ++ 4#4 ++ 0#7 ∧
    0x7800#16 = 1#2 ++ Channel.outbound.number ++ BitVec.ofBool true ++ 0#11 ∧ 0x8001#16 = 2#2 ++ 1#14 ∧
    0xC000#16 = 3#2 ++ 0#14 := by
  unfold RawFrame.sound
  decide +kernel
theorem test_premises_FrameRow : FrameRow 0 .request 1 1 5 (.readShared 0 1 5) ∧
    FrameRow 0 .request 0 0 0 (.unknownMessageKind 0 (.undefinedKind .request 0)) ∧
    FrameRow 0 .request 6 0 0 (.unknownMessageKind 0 (.undefinedKind .request 6)) ∧
    FrameRow 0 .notice 1 2 0 (.hello 0 2) ∧ FrameRow 0 .notice 1 3 0 (.unknownMessageKind 0 (.helloProfile 3)) ∧
    FrameRow 0 .notice 15 0 0 (.unknownMessageKind 0 (.undefinedKind .notice 15)) ∧
    FrameRow 0 .answer 1 3 0x0C000005 (.answer 0 1 true 5 3) ∧
    FrameRow 0 .answer 2 3 0 (.unknownMessageKind 0 (.undefinedKind .answer 2)) :=
  ⟨.readShared 1 5, .request _ _ _ (Or.inl rfl), .request _ _ _ (Or.inr (by decide)), .hello _ _ (Or.inr rfl),
    .helloProfile _ _ (Or.inr rfl), .notice _ _ _ (Or.inr (by decide)), .answer 3 0x0C000005 (by decide),
    .answerKind _ _ _ (Or.inr (by decide))⟩
theorem test_premises_SentAs : SentAs (.probe 23 true 5 .downgrade) 10 0 0xBC000005 ∧
    SentAs (.response 3 (.grantExclusive true)) 2 7 0 := ⟨.downgrade 23 true 5, .grantExclusive 3 true⟩
theorem test_premises_QueueHead : (busyLink.link 0).up = true ∧ (busyLink.link 0).resend = none ∧
    (busyLink.link 0).outbound = [.response 1 .retry] ∧ (board.link 0).outbound = [] := by decide
theorem test_premises_Retried : (board.link 0).badFrames < 2 ∧ ((buffered 2).link 0).attempts < 3 ∧
    ((buffered 2).link 0).sentAt + 20 ≤ { buffered 2 with now := 20 }.now ∧ (board.link 0).heard.resend = none ∧
    (board.link 0).resend = none := by decide

/-- Port p's link is about to be lost by each cause. -/
def failing (p : Port) : State :=
  { board.setLink p { upLink with
      badFrames := 2, resend := some { seq := false, msg := .farewell }, attempts := 3, clockAbsentSince := some 0 } with
    now := 100 }

theorem test_premises_LostLink_causes : (∃ l, LinkLoss (failing 0) 0 (.badFrame 0) l) ∧ (∃ l, LinkLoss (failing 0) 0 (.resend 0) l) ∧
    (∃ l, LinkLoss (failing 0) 0 (.ackTimeout 0) l) ∧ ∃ l, LinkLoss (failing 0) 0 (.clockAbsenceTimeout 0) l :=
  ⟨⟨_, .badFrame (by decide) (by decide)⟩,
    ⟨_, .resend (by decide) { seq := false, msg := .farewell } (by decide) (by decide)⟩,
    ⟨_, .ackTimeout (by decide) { seq := false, msg := .farewell } (by decide) (by decide) (by decide +kernel)⟩,
    ⟨_, .clockAbsence (by decide) 0 (by decide) (by decide +kernel)⟩⟩
theorem test_premises_LostLink_ports : ((failing 0).port 0).state = .online ∧ ((failing 2).port 2).state = .draining true ∧
    ((failing 3).port 3).state = .isolated true ∧ ((failing 4).port 4).state = .offline ∧
    ((failing 6).port 6).state = .unused ∧ { failing 4 with lossReported := 16 }.port 4 = (failing 4).port 4 := by decide
theorem test_premises_Requests : board.hears 0 = true ∧ (board.port 0).state = .online ∧ board.tagState 0 3 = .free ∧
    (board.port 4).state = .offline ∧ board.tagState 4 0 = .free ∧ (board.port 2).state = .draining true := by decide
theorem test_premises_Closed : Instr.message (.goodbye 3) = some (3, .notice) ∧ (board.port 3).state = .isolated true ∧
    Instr.message (.goodbye 6) = some (6, .notice) ∧ (board.port 6).state = .unused ∧ Instr.isHello (.goodbye 6) = false ∧
    board.hears 3 = true ∧ board.hears 6 = true := by decide
theorem test_premises_Hello : (∀ m ∈ (board.link 4).outbound, m.isControl = false) ∧ (board.port 4).state = .offline ∧
    (board.port 4).profile = .caching ∧ (board.port 5).profile ≠ .caching ∧ (board.port 6).state = .unused ∧
    (board.port 0).state = .online ∧ (board.port 2).state = .draining true ∧
    (∃ m ∈ ((board.setLink 4 { upLink with outbound := [.farewell] }).link 4).outbound, m.isControl = true) := by decide

theorem joined_online (s : State) (p : Port) (h : (s.port p).state = .online) : s.joined p := Or.inr (Or.inl h)

theorem test_premises_ProtocolErrors : probing.inReset = false ∧ probing.hears 0 = true ∧ probing.joined 0 :=
  ⟨by decide, by decide, joined_online _ _ (by decide)⟩

/-- Port 7 probed as a sharer of line 5. -/
def sharerTxn : Txn :=
  { probingTxn with probes := [{ port := 7, kind := .invalidate, role := .sharer, outcome := none }] }

theorem test_premises_Breach :
    Breach board 0 (.unknownMessageKind 0 (.undefinedKind .request 0)) .request ∧
    Breach board 0 (.unknownMessageKind 0 (.helloProfile 0)) .notice ∧
    Breach board 0 (.unknownMessageKind 0 .answerOutcome) .answer ∧
    Breach leased 1 (.streamRead 1 2 0) .request ∧ Breach board 1 (.release 1 0) .notice ∧
    Breach board 1 (.releaseDirty 1 0) .notice ∧ Breach board 0 (.streamDone 0 0) .notice ∧
    Breach probing 7 (.answer 7 0 false 6 1) .answer ∧
    Breach (board.setTxn 0 sharerTxn) 7 (.answer 7 0 false 5 2) .answer :=
  ⟨.kind _ _, .profile _, .outcome, .tag .streamRead 2 0 (by decide), .release _ (by decide), .releaseDirty _ (by decide),
    .streamDone _ (by decide), .line (s := probing) (p := 7) 0 probingTxn 5 6 1 (by decide) (by decide) (by decide) (.own (by decide)) (by decide),
    .written (s := board.setTxn 0 sharerTxn) (p := 7) 0 sharerTxn
      { port := 7, kind := .invalidate, role := .sharer, outcome := none } 5 (by decide) (.own (by decide)) (by decide)
      (by decide) (by decide)⟩
theorem test_premises_Stray :
    Stray board 7 (.answer 7 24 false 5 1) .answer ∧ Stray board 7 (.answer 7 0 false 5 1) .answer ∧
    Stray probing 7 (.answer 7 0 true 5 1) .answer ∧ Stray probing 0 (.answer 0 0 false 5 1) .answer ∧
    Stray board 1 (.streamDone 1 0) .notice ∧ Stray (board.setTag 1 0 .outstanding) 1 (.streamDone 1 0) .notice := by
  refine ⟨.slot _ _ _ _ (by decide) (by decide), .free (s := board) (p := 7) 0 _ _ _ (by decide) (by decide),
    .generation (s := probing) (p := 7) 0 _ _ _ (by decide) (by decide),
    .answered (s := probing) (p := 0) 0 probingTxn _ _ _ (by decide) (by decide) (by decide),
    .tag _ (by decide) (by decide), .lease _ (by decide) fun k t hk => ?_⟩
  have : ∀ k : SlotId, (board.setTag 1 0 .outstanding).txn k = none := by decide
  rw [this k] at hk
  cases hk
theorem test_premises_Isolation : board.joined 0 ∧ ¬ board.joined 6 :=
  ⟨joined_online _ _ (by decide), by
    have : (board.port 6).state = .unused := by decide
    unfold State.joined
    rw [this]
    rintro (h | h | ⟨d, h⟩) <;> cases h⟩

/-- The board with a Drain job of port 2 running and the walker as given, or waiting behind a Flush. -/
def draining (w : Walker) : State :=
  { board with sweep := { jobs := [.drain 2], walker := w, workList := [], jobCount := 0 } }
def drainWaiting : State := { sweeping with sweep := { sweeping.sweep with jobs := [.flush 0 0, .drain 2] } }

/-- Port 2's drain completes while the LinkLost of its Down link stands reported. -/
def drainedAtLoss : State :=
  advance ({ draining .past with lossReported := 4 }.setLink 2 { upLink with up := false, clockAbsentSince := some 0 })

theorem test_farewell_stays_on_the_down_link : (takeLoss 2 drainedAtLoss).port 2 =
    { profile := .caching, state := .offline, reason := .none } ∧
    ((takeLoss 2 drainedAtLoss).link 2).outbound = [.farewell] ∧ (takeLoss 2 drainedAtLoss).lossReported = 0 := by
  decide +kernel

theorem test_premises_Isolation_cleanup : board.joined 2 ∧ (.drain 2) ∉ board.sweep.jobs ∧
    drainWaiting.sweep.jobs = [.flush 0 0, .drain 2] ∧ (.drain 2) ∈ drainWaiting.sweep.jobs ∧ Job.flush 0 0 ≠ .drain 2 ∧
    (draining .past).sweep.jobs = [.drain 2] ∧ (draining .past).sweep.walker = .past ∧
    (draining (.atSet 5)).sweep.walker = .atSet 5 :=
  ⟨Or.inr (Or.inr ⟨true, by decide⟩), by decide⟩
theorem test_premises_Goodbye : board.hears 0 = true ∧ (board.port 0).state = .online ∧
    (withOperands 0 0 0 0 board).unit.inProgress = none ∧ (withOperands 0 0 0 0 board).word 0 = (0 : Port).val ∧
    board.hears 4 = true ∧ (board.port 4).state = .offline ∧ board.hears 2 = true ∧
    (board.port 2).state = .draining true := by decide
theorem test_premises_EnteringDraining : (board.port 0).profile = .caching ∧ sweeping.sweep.jobs ≠ [] ∧
    board.sweep.jobs = [] ∧ (board.port 0).state = .online ∧ (queued .readShared).waitingTags 0 = [1] ∧
    (queued .readShared).answeredTags 0 = [1] ∧
    (sweeping.port 0).state = .online ∧ (board.port 1).profile ≠ .caching ∧ (board.port 1).state = .online ∧
    board.hasOrigin 1 = false ∧ board.hasUnanswered 1 = false ∧ leased.hasOrigin 1 = true := by decide

/-- Line 5 in a state in way 0, seen by port p's Release. -/
def releasing (p : Port) (x : EntryState) : State := changingLookup 5 ((withEntry 5 x board).framed p .notice)

theorem test_premises_Release : (releasing 0 (.exclusive 0)).stored 5 = some (0, .exclusive 0) ∧
    (releasing 0 (.shared 1)).stored 5 = some (0, .shared 1) ∧ PortSet.has 1 0 = true ∧
    PortSet.diff 1 (PortSet.single 0) = 0 ∧ (releasing 0 (.shared 0x81)).stored 5 = some (0, .shared 0x81) ∧
    PortSet.diff 0x81 (PortSet.single 0) ≠ 0 ∧ (releasing 0 (.exclusive 7)).stored 5 = some (0, .exclusive 7) ∧
    (board.port 0).profile ≠ .streaming := by decide
theorem test_premises_StreamDone : leased.hears 1 = true ∧ (leased.port 1).profile ≠ .caching ∧
    leased.leaseOf 1 2 = some 0 ∧ leased.inReset = false ∧ leased.txn 0 = some leasedTxn := by decide

/-- Two holders probed, one answered or none. -/
def twoProbes (x : Option ProbeOutcome) : Txn :=
  { probingTxn with probes :=
      [{ port := 7, kind := .invalidate, role := .sharer, outcome := none },
        { port := 0, kind := .invalidate, role := .sharer, outcome := x }] }

theorem test_premises_Answer :
    (board.setTxn 0 (twoProbes none)).txn 0 = some (twoProbes none) ∧
    (twoProbes none).probes.find? (fun m => decide (m.port = 7) && m.outcome.isNone) =
      some { port := 7, kind := .invalidate, role := .sharer, outcome := none } ∧
    (∃ m ∈ (twoProbes none).probes.tail, m.outcome = none) ∧
    (∀ m ∈ (twoProbes (some .clean)).probes.tail, m.outcome ≠ none) := by decide
theorem test_premises_Completion : probing.txn 0 = some probingTxn ∧ probingTxn.origin = .port 0 1 0 ∧
    (probing.port 0).state = .online ∧ (probing.port 2).state = .draining true ∧ (probing.port 3).state ≠ .online ∧
    (board.setTxn 0 (openedTxn (.sweep .command) .sweepRecall 5)).txn 0 =
      some (openedTxn (.sweep .command) .sweepRecall 5) ∧
    leased.txn 0 = some leasedTxn ∧ leasedTxn.origin = .port 1 2 0 ∧ probing.tagState 0 1 ≠ .free ∧
    tagLost.txn 0 = some probingTxn ∧ (tagLost.port 0).state = .online ∧ tagLost.tagState 0 1 = .free := by decide

theorem test_premises_Isolation_probes : (board.setTxn 0 (twoProbes none)).joined 7 ∧
    (board.setTxn 0 (twoProbes none)).dir.Wf ∧ (twoProbes none).awaits 7 = true ∧ (twoProbes none).phase ≠ some .leased ∧
    (∃ m ∈ (twoProbes none).probes, m.port ≠ 7 ∧ m.outcome = none) ∧
    (∀ m ∈ (twoProbes (some .clean)).probes, m.port ≠ 7 → m.outcome ≠ none) :=
  ⟨joined_online _ _ (by decide), Directory.reset_wf, by decide, by decide, by decide, by decide⟩

/-- The board with every slot active. -/
def full : State := { board with slots := Vector.replicate 24 { gen := false, txn := some probingTxn } }

theorem test_premises_Arbiter_full : ∀ k : SlotId, full.txn k ≠ none := by decide
theorem test_premises_Arbiter_slot : board.txn 0 = none ∧ ∀ j : SlotId, j < 0 → board.txn j ≠ none := by decide
theorem test_premises_Arbiter_heads : (queued .readShared).presentAt 0 = true ∧
    (∀ m, (queued .readShared).presentAt m = true → (queued .readShared).beyond 0 ≤ (queued .readShared).beyond m) ∧
    sweeping.presentAt 8 = true ∧ (∀ m, sweeping.presentAt m = true → sweeping.beyond 8 ≤ sweeping.beyond m) ∧
    (∀ m, board.presentAt m = false) := by decide

/-- A parked request of port 0 for line 5. -/
def waiter (k : RequestKind) : Parked :=
  { port := 0, tag := 1, kind := k, line := 5, order := 0, reason := .line, ready := true }

/-- The queued request of port 0 with the attribute of all lines as given, and line 5 claimed or not. -/
def heading (k : RequestKind) (a : Attribute) (v : ServiceState) (claim : Bool) : State :=
  let s := { queued k with
    service := v
    regions := State.reset.regions.set 0 { enabled := true, base := 0, limit := 1048575, attr := a } }
  if claim then s.setTxn 1 { probingTxn with origin := .port 7 0 0 } else s

theorem test_premises_HeadServed :
    (heading .readShared .tracked .halted false).handOut = some (.head 0 0) ∧
    (heading .streamRead .tracked .running false).handOut = some (.head 0 0) ∧
    (heading .readExclusive .streamInvalidate .running false).handOut = some (.head 0 0) ∧
    (heading .readShared .untracked .running false).handOut = some (.head 0 0) ∧
    (heading .readShared .tracked .running true).handOut = some (.head 0 0) ∧
    (heading .readShared .tracked .running true).claimed 5 = true ∧
    (heading .readShared .tracked .running false).handOut = some (.head 0 0) ∧
    (heading .readShared .tracked .running false).claimed 5 = false := by decide
theorem test_premises_HeadServed_checks :
    (heading .streamRead .tracked .running false).mismatch 0 .streamRead ∧
    (∀ s : State, (s.port 0).profile = .caching → s.attrOf 5 = .tracked → s.serves 0 .readShared 5) ∧
    RegionAnswer (heading .readExclusive .streamInvalidate .running false) .readExclusive 5 (.denied .kindInRegion) ∧
    RegionAnswer (heading .readShared .untracked .running false) .readShared 5 .untracked ∧
    (heading .readShared .tracked .running true).attrOf 5 = .tracked := by
  refine ⟨Or.inl ⟨by decide, Or.inl rfl⟩, fun s hp ha => ⟨?_, fun a h => ?_⟩, .denied (by decide) (Or.inl rfl),
    .untracked (by decide), by decide⟩
  · unfold State.mismatch
    rw [hp]
    simp
  · cases h with
    | untracked h => rw [ha] at h; cases h
    | denied h => rw [ha] at h; cases h
theorem test_premises_Restarted :
    { board with parked := [waiter .readShared] }.handOut = some (.parked 0 (waiter .readShared)) ∧
    (board.port 0).state = .online ∧ board.service ≠ .quiescing ∧ board.attrOf 5 = .tracked ∧ board.claimed 5 = false ∧
    { probing with parked := [waiter .readShared] }.handOut = some (.parked 1 (waiter .readShared)) ∧
    probing.claimed 5 = true ∧ { board with parked := [waiter .streamRead] }.handOut = some (.parked 0 (waiter .streamRead)) := by
  decide
theorem test_premises_NobodyServed : board.handOut = none := by decide
theorem test_premises_Caching : (changingLookup 5 board).stored 5 = none ∧
    (changingLookup 5 (withEntry 5 (.poisoned .holderLost 1) board)).stored 5 = some (0, .poisoned .holderLost 1) ∧
    (changingLookup 5 (withEntry 5 (.exclusive 7) board)).stored 5 = some (0, .exclusive 7) ∧
    (changingLookup 5 (withEntry 5 (.shared 0x80) board)).stored 5 = some (0, .shared 0x80) ∧
    PortSet.diff 0x80 (PortSet.single 7) = 0 ∧ PortSet.diff 0x80 (PortSet.single 0) ≠ 0 := by decide
theorem test_premises_Lease : leased.txn 0 = some leasedTxn ∧ leasedTxn.origin = .port 1 2 0 ∧
    (leased.port 1).state = .online ∧ (leased.port 3).state ≠ .online := by decide

/-- The set of line 5 with its eight ways in given states. -/
def filled (x : EntryState) : State :=
  allWays.foldl (fun s w => place 5 w { tag := ⟨w.val + 1, by omega⟩, state := x } s) board

theorem test_premises_Allocation : (scrubSet 5 board).searchOutcome 5 = .free 0 ∧
    (scrubSet 5 (filled (.shared 1))).searchOutcome 5 = .victim 0 ∧
    (scrubSet 5 (filled (.shared 1))).way 5 0 = some { tag := 1, state := .shared 1 } ∧
    (scrubSet 5 (filled (.poisoned .holderLost 1))).searchOutcome 5 = .noRoom := by decide +kernel
theorem test_premises_Allocation_busy :
    (scrubSet 5 ((retire 5 0 (filled (.poisoned .holderLost 1))).setTxn 0 { probingTxn with heldWay := some 0 })).searchOutcome 5
      = .noRoomForNow := by decide +kernel
theorem test_premises_Allocation_lookups : (withEntry 5 (.shared 9) board).way 5 0 = some { tag := 0, state := .shared 9 } ∧
    PortSet.diff 9 board.isolatedPorts = 1 ∧ PortSet.diff 8 board.isolatedPorts = 0 ∧
    PortSet.diff 1 board.isolatedPorts = 1 ∧ (board.port 3).state = .isolated true ∧ (board.port 7).state = .online ∧
    (withEntry 5 (.exclusive 3) board).way 5 0 = some { tag := 0, state := .exclusive 3 } ∧ board.way 5 0 = none ∧
    (scrubSet 5 (withEntry 5 (.shared 9) board)).stored 5 = some (0, .shared 1) ∧
    (scrubSet 5 (withEntry 5 (.shared 8) board)).stored 5 = none ∧
    (scrubSet 5 (withEntry 5 (.exclusive 3) board)).stored 5 = some (0, .poisoned .holderLost 3) := by decide +kernel
theorem test_premises_Allocation_parks : probing.txn 0 = some probingTxn ∧ probingTxn.origin = .port 0 1 0 ∧
    probingTxn.kind = .request .readExclusive ∧ (probing.port 0).state = .online ∧ probing.parked.length < 16 ∧
    16 ≤ { probing with parked := List.replicate 16 (waiter .readShared) }.parked.length := by decide

/-- The board with a transaction of a kind in slot 0, its one probe answered Clean, and line 5's entry. -/
def answeredTxn (k : TxnKind) (o : Origin) : Txn :=
  { probingTxn with
    origin := o, kind := k
    probes := [{ port := 7, kind := .invalidate, role := .holder, outcome := some .clean }] }

theorem test_premises_ProbingEnds :
    (changingLookup 5 (withEntry 5 (.exclusive 7) board)).stored 5 = some (0, .exclusive 7) ∧
    EntryState.isPoisoned (.exclusive 7) = false ∧
    grantResult .readExclusive 0 (applyOutcomes (answeredTxn (.request .readExclusive) (.port 0 1 0)).probes (.exclusive 7)) =
      some (.exclusive 0, .grantExclusive true) ∧ (board.port 0).state = .online ∧ (board.port 2).state ≠ .online ∧
    (changingLookup 5 board).stored 5 = none ∧ (scrubSet 5 board).searchOutcome 5 = .free 0 ∧
    grantResult .readExclusive 0 none = some (.exclusive 0, .grantExclusive true) := by decide

/-- A victim recall of slot 0 on the set of line 5. -/
def victimTxn : Txn := { probingTxn with phase := some .victimProbing, victim := some 2053, heldWay := some 0 }

/-- Port 7 answers the victim's line in VictimProbing, and the request's own line in Probing (R50, R128). -/
theorem test_premises_probed_line : probingTxn.ProbesLine 5 ∧ victimTxn.ProbesLine 2053 ∧
    Breach (board.setTxn 0 victimTxn) 7 (.answer 7 0 false 5 1) .answer :=
  ⟨.own (by decide), .victim 2053 rfl rfl, .line (s := board.setTxn 0 victimTxn) (p := 7) 0 victimTxn 2053 5 1 (by decide)
    (by decide) (by decide) (.victim 2053 rfl rfl) (by decide)⟩
theorem test_premises_RecallsEnd : (board.setTxn 0 victimTxn).txn 0 = some victimTxn ∧
    (withEntry 5 (.poisoned .holderLost 1) board).way 5 0 = some { tag := 0, state := .poisoned .holderLost 1 } ∧
    (withEntry 5 (.shared 1) board).way 5 0 = some { tag := 0, state := .shared 1 } := by decide
/-- Two lines of set 5 in a work list, with a status each. -/
def listing (a b : WorkStatus) : State :=
  { sweeping with sweep := { sweeping.sweep with workList := [(5, a), (2053, b)] } }

/-- The state in which the recall of line 5 has been claimed, before its lookup. -/
def recallOpened (s : State) : State :=
  { (s.setTxn 0 (openedTxn (.sweep .command) .sweepRecall 5)).marked 5 .handled with tx := [], rrPointer := 0 }

theorem test_premises_SweepRecall : sweeping.handOut = some (.sweep 0) ∧ sweeping.sweep.jobs = [.flush 0 0] ∧
    sweeping.firstPending = some 5 ∧ sweeping.claimed 5 = false ∧ (sweeping.setTxn 1 probingTxn).claimed 5 = true ∧
    (sweeping.setTxn 1 probingTxn).handOut = some (.sweep 0) ∧ Job.owner (.flush 0 0) = .command ∧
    (changingLookup 5 (recallOpened sweeping)).stored 5 = some (0, .shared 1) ∧
    (changingLookup 5 (recallOpened { sweeping with dir := board.dir })).stored 5 = none ∧
    (listing .pending .pending).handOut = some (.sweep 0) ∧ (listing .pending .pending).firstPending = some 5 ∧
    (∃ y ∈ (listing .pending .pending).sweep.workList, y.1 ≠ 5 ∧ y.2 ≠ .handled) ∧
    (listing .pending .pending).sweep.walker = .atSet 5 ∧ board.handOut = none := by decide
theorem test_premises_SweepRecall_targets : Targets sweeping 5 (.flush 0 0) (.shared 1) ⟨1, .invalidate, .sharer⟩ ∧
    Targets sweeping 5 (.flush 0 0) (.exclusive 7) ⟨PortSet.single 7, .invalidate, .holder⟩ ∧
    Targets sweeping 5 (.drain 2) (.shared 5) ⟨PortSet.single 2, .invalidate, .sharer⟩ ∧
    Targets sweeping 5 (.drain 2) (.exclusive 2) ⟨PortSet.single 2, .invalidate, .holder⟩ ∧
    Targets sweeping 5 (.regionChange 0 (Region.mk true 0 0 .untracked)) (.shared 1) ⟨1, .invalidate, .sharer⟩ ∧
    Targets sweeping 5 (.regionChange 0 (Region.mk true 0 0 .streamInvalidate)) (.exclusive 7)
      ⟨PortSet.single 7, .downgrade, .holder⟩ := by
  have ht : sweeping.attrOf 5 = .tracked := by decide
  have h1 : sweeping.attrAfter 0 (Region.mk true 0 0 .untracked) 5 = .untracked := by decide
  have h2 : sweeping.attrAfter 0 (Region.mk true 0 0 .streamInvalidate) 5 = .streamInvalidate := by decide
  refine ⟨.flushShared _ _ _, .flushHeld _ _ _, .drainShared _ _ (by decide), .drainHeld _, .regionShared _ _ _ _ ?_,
    .regionHeld _ _ _ _ ?_⟩
  · rw [ht, h1]
    exact .leftShared _ (by decide) _
  · rw [ht, h2]
    exact .narrowed _
theorem test_premises_SweepRecall_leaves : (∃ y ∈ (listing .handled .waiting).sweep.workList, y.2 ≠ .handled) ∧
    (∀ y ∈ (listing .handled .handled).sweep.workList, y.2 = .handled) ∧
    (listing .handled .handled).sweep.jobs = [.flush 0 0] ∧
    (listing .handled .handled).sweep.walker = .atSet 5 := by decide

/-- Line 5, in a state, waits at the walker of a job. -/
def waitingAt (j : Job) (x : EntryState) : State :=
  { withEntry 5 x board with sweep := { jobs := [j], walker := .atSet 5, workList := [(5, .waiting)], jobCount := 0 } }

theorem test_premises_SweepRecall_judged :
    (5, .waiting) ∉ board.sweep.workList ∧ (5, .waiting) ∈ (waitingAt (.flush 0 0) (.shared 1)).sweep.workList ∧
    (walkerLookup (.flush 0 0) 5 (waitingAt (.flush 0 0) (.shared 1))).finds 5 (.flush 0 0) ∧
    ¬ Job.direct (.flush 0 0) ∧ (walkerLookup (.cleanup 3) 5 (waitingAt (.cleanup 3) (.shared 9))).finds 5 (.cleanup 3) ∧
    Job.direct (.cleanup 3) ∧
    ¬ (walkerLookup (.flush 1 1) 5 (waitingAt (.flush 1 1) (.shared 1))).finds 5 (.flush 1 1) := by
  refine ⟨by decide, by decide, ⟨0, .shared 1, by decide, .flush 0 0 _ rfl (by decide) (by decide)⟩, id,
    ⟨0, .shared 9, by decide, .cleanup 3 _ (by decide)⟩, True.intro, ?_⟩
  rintro ⟨w, x, -, hm⟩
  cases hm with
  | flush _ _ _ _ hb _ => exact absurd hb (by decide)
theorem test_premises_Deadlines : probing.txn 0 = some probingTxn ∧ probingTxn.phase = some .probing ∧
    probingTxn.reprobed = false ∧ probingTxn.awaits 7 = true ∧ leasedTxn.phase = some .leased ∧
    leasedTxn.originPort = some 1 ∧ 0 + 250 ≤ { probing with now := 250 }.now ∧
    { leased with now := 3999 }.now < 0 + 4000 ∧ overdue.txn 0 = some { probingTxn with reprobed := true } ∧
    0 + 250 ≤ overdue.now ∧ Instr.wellFormed (.idle 0) = true ∧ Instr.resets (.idle 0) = false ∧
    PortSet.has { board with reported := 0x80 }.reported 7 = true ∧ { probingTxn with reprobed := true }.awaits 0 = false ∧
    { probingTxn with reprobed := true }.awaits 7 = true ∧ (overdue.port 7).state = .online := by decide +kernel
theorem test_premises_Leases : leased.joined 1 ∧ leased.txn 0 = some leasedTxn ∧ leasedTxn.heldWay = some 3 :=
  ⟨joined_online _ _ (by decide), by decide, by decide⟩
theorem test_premises_Lookups :
    (withEntry 5 (.shared 8) board).stored 5 = some (0, .shared 8) ∧ PortSet.diff 8 board.isolatedPorts = 0 ∧
    PortSet.diff 9 board.isolatedPorts = 1 ∧ PortSet.diff 1 board.isolatedPorts = 1 ∧
    (withEntry 5 (.exclusive 3) board).stored 5 = some (0, .exclusive 3) ∧ (board.port 3).state = .isolated true := by decide
theorem test_premises_Lookups_wf : (withEntry 5 (.exclusive 3) board).dir.Wf ∧ (withEntry 5 (.shared 9) board).dir.Wf ∧
    (withEntry 5 (.poisoned .holderLost 1) board).dir.Wf :=
  ⟨place_dir_wf (s := board) Directory.reset_wf _ _ _ rfl, place_dir_wf (s := board) Directory.reset_wf _ _ _ rfl,
    place_dir_wf (s := board) Directory.reset_wf _ _ _ rfl⟩
theorem test_premises_Edits : board.way 5 0 = none ∧
    (withEntry 5 (.shared 9) board).way 5 0 = some { tag := 0, state := .shared 9 } ∧
    EntryState.isPoisoned (.shared 9) = false ∧ EntryState.isPoisoned (.poisoned .leaseLost 1) = true ∧
    (place 5 0 { tag := 0, state := .poisoned .leaseLost 1 } board).dir.poisoned = 1 := by decide
theorem test_premises_Threshold : 2 ≤ { board with threshold := 2 }.threshold ∧
    (withEntry 5 (.poisoned .holderLost 1) board).dir.poisoned + 1 = { board with threshold := 2 }.threshold ∧
    { board with threshold := 1 }.threshold ≤ (withEntry 5 (.poisoned .holderLost 1) board).dir.poisoned ∧
    board.service = .running ∧ board.dir.poisoned < board.threshold := by decide
theorem test_premises_WaySearch : board.held 5 0 = false ∧
    (board.setTxn 0 { probingTxn with heldWay := some 0 }).held 5 0 = true ∧ board.classify 5 0 = .free ∧
    (filled (.shared 1)).classify 5 0 = .eligible ∧ (filled (.poisoned .holderLost 1)).classify 5 7 = .poisoned ∧
    ((filled (.shared 1)).dirSet 5).recency = [7, 6, 5, 4, 3, 2, 1, 0] := by decide +kernel
theorem test_premises_Treatment : (board.region 0).enabled = true ∧ (board.region 0).base ≤ pageOf 5 ∧
    pageOf 5 ≤ (board.region 0).limit ∧ (∀ j : RegionIdx, (State.reset.region j).enabled = false) := by decide
theorem test_premises_Busy : sweeping.unit.inProgress = some .flush ∧ Instr.startCode .resume = some 7 ∧
    (after .resume sweeping).unit.status = .rejectedBusy := by decide

theorem test_premises_TakesCommand : (withOperands 8 3 0xFFFF 0xFFFF board).takesCommand ∧
    (withOperands 8 3 0xFFFF 0xFFFF board).word 0 = 8 ∧ (withOperands 8 3 0xFFFF 0xFFFF board).word 1 % 4 = 3 ∧
    1048576 ≤ (withOperands 8 3 0xFFFF 0xFFFF board).wordPair 2 3 ∧ 67108864 ≤ (withOperands 0x400 0 0 0 board).wordPair 0 1 ∧
    4096 ≤ (withOperands 4096 0 0 0 board).word 0 ∧ (16#16).toNat = 16 :=
  ⟨⟨by decide, by decide⟩, by decide +kernel⟩
theorem test_premises_PortCommands : (withOperands 7 2 0 0 board).word 0 = (7 : Port).val ∧
    (withOperands 7 2 0 0 board).word 1 = 2 ∧ (board.port 6).state = .unused ∧ (board.port 4).state = .offline ∧
    (board.port 0).state ≠ .offline ∧ (board.port 3).state = .isolated true := by decide
theorem test_premises_SweepCommands : (withOperands 2 0x8001 0 3 board).word 0 = (2 : RegionIdx).val ∧
    (withOperands 2 0x8001 0 3 board).word 1 % 4 = 1 ∧ decide (32768 ≤ (withOperands 2 0x8001 0 3 board).word 1) = true ∧
    (withOperands 2 0x8001 0 3 board).wordPair 2 3 = (3 : Page).val ∧ State.reset.service = .quiesced ∧
    (withOperands 0 3 0 4 board).wordPair 0 1 = (3 : Page).val ∧ sweeping.sweep.jobs ≠ [] := by decide +kernel
theorem test_premises_SweepCommands_settled : (withOperands 2 0x8001 0 3 State.reset).takesCommand ∧
    (withOperands 2 0x8001 0 3 State.reset).settled ∧ (withOperands 0 3 0 4 board).takesCommand ∧
    (withOperands 0 3 0 4 board).settled := by
  have h : ∀ k : SlotId, (withOperands 2 0x8001 0 3 State.reset).txn k = none := by decide
  have h' : ∀ k : SlotId, (withOperands 0 3 0 4 board).txn k = none := by decide
  exact ⟨⟨rfl, rfl⟩, ⟨rfl, rfl, fun k t e => by rw [h k] at e; cases e⟩, ⟨rfl, rfl⟩,
    ⟨rfl, rfl, fun k t e => by rw [h' k] at e; cases e⟩⟩
theorem test_premises_SweepCommands_walk :
    (∀ x ∈ (arriveAt (.flush 0 0) 6 sweeping).sweep.workList, x.2 = .handled) ∧
    (∃ x ∈ (arriveAt (.flush 0 0) 5 sweeping).sweep.workList, x.2 ≠ .handled) ∧
    sweeping.attrAfter 0 (Region.mk true 0 0 .untracked) 5 ≠ sweeping.attrOf 5 ∧
    sweeping.attrAfter 0 (Region.mk true 0 0 .untracked) 5 ≠ .tracked ∧
    sweeping.attrAfter 1 (Region.mk true 0 0 .tracked) 5 = sweeping.attrOf 5 ∧ sweeping.sweep.walker ≠ .past ∧
    (draining .past).sweep.jobs = [.drain 2] ∧ (draining .past).sweep.walker = .past ∧
    (∀ k : SlotId, (draining .past).txn k = none) ∧ (some 5 : Option SetIdx) ≠ some 6 := by decide
/-- A region change under which line 5 of the board stays Tracked. -/
def steadyChange : Job := .regionChange 1 (Region.mk true 0 0 .tracked)

/-- Any job's visit converts an Exclusive entry of an Isolated holder (R138); a Cleanup edits its own port's (R154). -/
theorem test_any_visit_converts :
    (arriveAt (.cleanup 2) 5 (withEntry 5 (.exclusive 3) board)).stored 5 = some (0, .poisoned .holderLost 3) ∧
    (arriveAt steadyChange 5 (withEntry 5 (.exclusive 3) board)).stored 5 = some (0, .poisoned .holderLost 3) ∧
    (arriveAt (.cleanup 3) 5 (withEntry 5 (.exclusive 3) board)).stored 5 = some (0, .poisoned .holderLost 3) ∧
    (arriveAt (.cleanup 3) 5 ((withEntry 5 (.exclusive 3) board).setTxn 0 probingTxn)).stored 5 =
      some (0, .exclusive 3) ∧
    (arriveAt (.cleanup 2) 5 (withEntry 5 (.shared 9) board)).stored 5 = some (0, .shared 9) := by decide +kernel
theorem test_premises_SweepCommands_lookups :
    (withEntry 5 (.shared 9) board).stored 5 = some (0, .shared 9) ∧ EntryState.records 3 (.shared 9) = true ∧
    EntryState.records 2 (.shared 9) = false ∧ board.stored 5 = none := by decide
theorem test_premises_SweepCommands_reports : (board.port 2).state = .draining true ∧ board.hasOrigin 2 = false ∧
    board.hasUnanswered 2 = false ∧ leased.hasOrigin 1 = true ∧ probing.hasUnanswered 7 = true ∧
    (((board.setPort 3 { board.port 3 with state := .isolated false }).port 3).state = .isolated false) ∧
    .cleanup 3 ∉ board.sweep.jobs ∧ board.hasOrigin 3 = false ∧ sweeping.unit.inProgress = some .flush := by decide
theorem test_premises_Abort : board.unit.inProgress = none ∧ sweeping.unit.inProgress = some .flush ∧
    LongCommand.flush ≠ .quiesce ∧ sweeping.sweep.jobs = [.flush 0 0] ∧ Job.isCommand (.flush 0 0) = true ∧
    { board with unit := sweeping.unit }.sweep.jobs = [] ∧ (draining .past).sweep.jobs = [.drain 2] ∧
    Job.isCommand (.drain 2) = false ∧ { draining .past with unit := sweeping.unit }.unit.inProgress = some .flush ∧
    (after .quiesce probing).unit.inProgress = some .quiesce ∧
    (after .quiesce probing).dir.poisoned < (after .quiesce probing).threshold := by decide +kernel
theorem test_premises_Service : State.reset.service = .quiesced ∧ board.service ≠ .quiesced ∧ board.portWorkActive = false ∧
    board.parked = [] ∧ probing.portWorkActive = true ∧ board.dir.poisoned < board.threshold ∧
    1 ≤ (withOperands 4095 65535 0 0 board).word 0 ∧ (withOperands 4095 65535 0 0 board).word 0 ≤ 4095 ∧
    (withOperands 255 0 0 0 board).word 0 ≤ 255 := by decide +kernel
/-- The board Quiescing, its Quiesce in progress. -/
def quiescing : State := { board with service := .quiescing, unit := { board.unit with inProgress := some .quiesce } }

theorem test_premises_Service_report : quiescing.service = .quiescing ∧ quiescing.unit.inProgress = some .quiesce ∧
    quiescing.parked = [] ∧ (∀ k : SlotId, quiescing.txn k = none) ∧
    { quiescing with parked := [waiter .readShared] }.parked ≠ [] ∧
    (quiescing.setTxn 0 probingTxn).txn 0 = some probingTxn ∧ probingTxn.origin = .port 0 1 0 := by decide
theorem test_quiesce_report : (after (.answer 7 0 false 5 1) { probing with
    service := .quiescing, unit := quiescing.unit }).service = .quiesced ∧
    (after (.answer 7 0 false 5 1) { probing with service := .quiescing, unit := quiescing.unit }).unit.results =
      #v[2, 0, 0, 0] := by decide +kernel
theorem test_premises_Reads : (withOperands 0 5 0 0 board).wordPair 0 1 = (5 : LineNo).val ∧
    (observingLookup 5 board).observed 5 = none ∧
    (observingLookup 5 (withEntry 5 (.shared 1) board)).observed 5 = some (0, .shared 1) ∧
    (withEntry 5 (.poisoned .holderLost 1) board).poisonOf 5 = some (.holderLost, 1) := by decide
theorem test_premises_Reads_shown : ClaimShown board 5 0 ∧ ClaimShown probing 5 0x8002 ∧
    ClaimShown (board.setTxn 0 victimTxn) 2053 0xC001 ∧ RecordShown State.reset 5 0 ∧ RecordShown board 5 0x0011 ∧
    (withEntry 5 (.exclusive 3) board).heldByIsolated 5 0 3 := by
  have h : ∀ k : SlotId, board.txn k = none := by decide
  have hr : ∀ i : RegionIdx, (State.reset.region i).enabled = false := by decide
  refine ⟨.unclaimed fun k t e => ?_, .line 0 probingTxn (by decide) (by decide),
    .victim 0 victimTxn (by decide) (by decide) (by decide), .uncovered fun i hi => ?_,
    .covered 0 (by unfold State.covering; decide) fun j hj => absurd hj (Nat.not_lt_zero _), by decide, true, by decide⟩
  · rw [h k] at e
    cases e
  · exact absurd hi.1 (by rw [hr i]; decide)
theorem test_premises_Reads_claims : board.ClaimsDisjoint ∧ (withEntry 5 (.exclusive 3) board).dir.Wf ∧
    (withOperands 0 5 0 0 board).takesCommand := by
  have h : ∀ k : SlotId, board.txn k = none := by decide
  refine ⟨fun k j t u l hk => ?_, place_dir_wf (s := board) Directory.reset_wf _ _ _ rfl, rfl, rfl⟩
  rw [h k] at hk
  cases hk
theorem test_premises_Clears : (changingLookup 5 (withEntry 5 (.poisoned .holderLost 1) board)).stored 5 =
    some (0, .poisoned .holderLost 1) ∧ State.reset.service = .quiesced ∧
    (∀ p : Port, (State.reset.port p).state = .unused ∨ (State.reset.port p).state = .offline) ∧
    board.service ≠ .quiesced := by decide
theorem test_premises_Causes : (raise .halted (writeEnables 1 board)).isPending .halted = true ∧
    (raise .halted (writeEnables 1 board)).isEnabled .halted = true ∧ board.isPending .halted = false ∧
    board.window.wide = true ∧ (11#16).toNat = 11 ∧ (0#16).toNat = 0 ∧
    10#16 = BitVec.ofNat 16 Cause.thresholdNear.number := by decide

/-- The board in 8-bit mode, with a byte in the write holding register. -/
def narrow (b : Byte) : State := { board with window := { board.window with wide := false, writeByte := b } }

theorem test_premises_Causes_bytes : (narrow 9).window.wide = false ∧
    BitVec.ofNat 16 Cause.commandDone.number = (0xAB#16).extractLsb' 8 8 ++ (narrow 9).window.writeByte ∧
    ((0x01FF#16).extractLsb' 8 8 ++ (narrow 3).window.writeByte).toNat = 259 ∧
    ((0#16).extractLsb' 8 8 ++ (narrow 0).window.writeByte).toNat = 0 := by decide
theorem test_acknowledge_cause_bytes :
    (after (.acknowledgeCause 0x00FF) (raise .commandDone (narrow 9))).notify.pendingFlags = 0 := by decide
theorem test_premises_Window : board.window.wide = true ∧ hasOwnRow 0x1F = false ∧ hasOwnRow 0x05 = false ∧
    (after (.lowByteRead 0x15) (narrow 0)).window.captured = some 0x15 ∧ (narrow 0).window.captured ≠ some 0x15 := by
  decide
theorem test_premises_Window_reads : board.sweep.walker = .idle ∧ board.sweep.jobs = [] ∧ sweeping.sweep.walker = .atSet 5 ∧
    sweeping.sweep.jobs = [.flush 0 0] ∧ (draining .past).sweep.walker = .past ∧
    sweeping.readWord 0x12 = 0x1005 ∧ sweeping.readWord 0x13 = 0x0103 ∧ sweeping.readWord 0x08 = 0x8000 ∧
    (after .takeQueueHead (queued .readShared)).readWord 0x0E = 1 ∧ probing.readWord 0x10 = 1 ∧
    board.readWord 0x1B = 0x0403 := by decide

end Sys2Proof.Tests
end

section
/-! PROOFS. Arriving messages: the state in which a message of a port that is heard and joined acts, and the stray
messages (R39, R42, R50, R51, R53). -/

namespace Sys2Proof.Machine

open Sys2Proof

/-! ### A good frame that is heard -/

theorem Link.heard_of_up {l : Link} (h : l.up = true) : l.heard = { l with badFrames := 0 } := by
  simp [Link.heard, h]

theorem Link.heard_of_down {l : Link} (h : l.up = false) : l.heard = l.enterUp := by
  simp [Link.heard, Link.enterUp, h]

@[simp] theorem Link.heard_tags (l : Link) : l.heard.tags = l.tags := by
  unfold Link.heard
  split <;> rfl

@[simp] theorem Link.toggleExpected_tags (l : Link) (ch : InChannel) : (l.toggleExpected ch).tags = l.tags := by
  cases ch <;> rfl

theorem settleLoss_of_not_reported {s : State} {p : Port} (h : PortSet.has s.lossReported p = false) :
    settleLoss p s = s := by
  simp [settleLoss, h]

theorem State.hears_iff {s : State} {p : Port} :
    s.hears p = true ↔
      (s.link p).up = true ∨ (s.link p).clockAbsentSince = none ∧ PortSet.has s.lossReported p = false := by
  simp [State.hears]

theorem State.hears_begun (s : State) (p : Port) : s.begun.hears p = s.hears p := rfl

theorem goodFrame_of_hears {s : State} {p : Port} (act : State → State) (h : s.hears p = true) :
    goodFrame p act s = act (s.setLink p (s.link p).heard) := by
  cases hu : (s.link p).up with
  | true => simp [goodFrame, hu, Link.heard_of_up hu]
  | false =>
    obtain up | ⟨hclock, hloss⟩ := State.hears_iff.mp h
    · rw [hu] at up
      cases up
    · simp [goodFrame, hu, hclock, settleLoss_of_not_reported hloss, Link.heard_of_down hu]

theorem messageFrame_of_hears {s : State} {p : Port} (ch : InChannel) (act : State → State)
    (h : s.hears p = true) : messageFrame p ch act s.begun = act (s.framed p ch) := by
  rw [messageFrame, goodFrame_of_hears _ (s.hears_begun p ▸ h)]
  dsimp only
  rw [State.link_setLink_same, State.setLink_setLink]
  rfl

/-! ### What the frame's own bookkeeping leaves (R39) -/

@[simp] theorem State.framed_port (s : State) (p : Port) (ch : InChannel) (q : Port) :
    (s.framed p ch).port q = s.port q := rfl

@[simp] theorem State.framed_slot (s : State) (p : Port) (ch : InChannel) (k : SlotId) :
    (s.framed p ch).slot k = s.slot k := rfl

@[simp] theorem State.framed_txn (s : State) (p : Port) (ch : InChannel) (k : SlotId) :
    (s.framed p ch).txn k = s.txn k := rfl

@[simp] theorem State.framed_link (s : State) (p : Port) (ch : InChannel) :
    (s.framed p ch).link p = (s.link p).heard.toggleExpected ch :=
  State.link_setLink_same s p _

@[simp] theorem State.framed_tagState (s : State) (p : Port) (ch : InChannel) (tag : Tag) :
    (s.framed p ch).tagState p tag = s.tagState p tag := by
  simp [State.tagState]

/-! ### A message that reaches the arrival checks (R42) -/

theorem State.listens_of_joined {s : State} {p : Port} (h : s.joined p) : s.listens p = true := by
  obtain h | h | ⟨d, h⟩ := h <;> simp [State.listens, h]

theorem ifListening_of_joined {s : State} {p : Port} (act : State → State) (h : s.joined p) :
    ifListening p act s = act s := by
  simp [ifListening, State.listens_of_joined h]

theorem event_of_not_inReset {s : State} (act : State → State) (h : s.inReset = false) :
    event s act = .next (act s.begun) := by
  simp [event, h, State.begun]

/-- A message that is heard at a joined port reaches the checks of its kind in the state its frame leaves. -/
theorem event_message_of_joined {s : State} {p : Port} (ch : InChannel) (act : State → State)
    (hr : s.inReset = false) (hh : s.hears p = true) (hj : s.joined p) :
    event s (messageFrame p ch (ifListening p act)) = .next (act (s.framed p ch)) := by
  have hj' : (s.framed p ch).joined p := hj
  rw [event_of_not_inReset _ hr, messageFrame_of_hears ch _ hh, ifListening_of_joined act hj']

theorem exec_answer_of_joined {s : State} {p : Port} (n : Fin 32) (g : Bool) (l : LineNo) (o : BitVec 2)
    (hr : s.inReset = false) (hh : s.hears p = true) (hj : s.joined p) :
    exec (.answer p n g l o) s = .next (answerArrives p n g l o (s.framed p .answer)) :=
  event_message_of_joined .answer _ hr hh hj

theorem exec_streamDone_of_joined {s : State} {p : Port} (tag : Tag)
    (hr : s.inReset = false) (hh : s.hears p = true) (hj : s.joined p) :
    exec (.streamDone p tag) s = .next (streamDoneArrives p tag (s.framed p .notice)) :=
  event_message_of_joined .notice _ hr hh hj

/-! ### The checks that find a message stray (R50, R51) -/

theorem outcomeOf_of_ne_zero {f : BitVec 2} (h : f ≠ 0) : ∃ o, outcomeOf f = some o := by
  have named : ∀ f : BitVec 2, f ≠ 0 → (outcomeOf f).isSome = true := by decide
  exact Option.isSome_iff_exists.mp (named f h)

theorem Txn.find_probe_of_not_awaits {t : Txn} {p : Port} (h : t.awaits p = false) :
    (t.probes.find? fun m => decide (m.port = p) && m.outcome.isNone) = none := by
  simpa [Txn.awaits] using h

section judgeAnswer

variable {s : State} {p : Port}

theorem State.judgeAnswer_of_no_slot {n : Fin 32} (g : Bool) (l : LineNo) (o : ProbeOutcome) (h : 24 ≤ n.val) :
    s.judgeAnswer p n g l o = .stray := by
  simp [State.judgeAnswer, Nat.not_lt.mpr h]

theorem State.judgeAnswer_of_free {k : SlotId} (hk : k.val < 32) (g : Bool) (l : LineNo) (o : ProbeOutcome)
    (h : s.txn k = none) : s.judgeAnswer p ⟨k.val, hk⟩ g l o = .stray := by
  simp [State.judgeAnswer, h]

theorem State.judgeAnswer_of_generation_ne {k : SlotId} (hk : k.val < 32) {g : Bool} (l : LineNo)
    (o : ProbeOutcome) (h : (s.slot k).gen ≠ g) : s.judgeAnswer p ⟨k.val, hk⟩ g l o = .stray := by
  cases ht : s.txn k with
  | none => exact State.judgeAnswer_of_free hk g l o ht
  | some t => simp [State.judgeAnswer, ht, h]

theorem State.judgeAnswer_of_not_awaits {k : SlotId} (hk : k.val < 32) {t : Txn} (g : Bool) (l : LineNo)
    (o : ProbeOutcome) (ht : s.txn k = some t) (h : t.awaits p = false) :
    s.judgeAnswer p ⟨k.val, hk⟩ g l o = .stray := by
  simp [State.judgeAnswer, ht, Txn.find_probe_of_not_awaits h]

end judgeAnswer

theorem answerArrives_of_stray {s : State} {p : Port} {n : Fin 32} {g : Bool} {l : LineNo} {f : BitVec 2}
    (hf : f ≠ 0) (h : ∀ o, s.judgeAnswer p n g l o = .stray) :
    answerArrives p n g l f s = strayMessage s := by
  obtain ⟨o, ho⟩ := outcomeOf_of_ne_zero hf
  simp [answerArrives, ho, h o]

theorem State.leaseOf_of_not_outstanding {s : State} {p : Port} {tag : Tag} (h : s.tagState p tag ≠ .outstanding) :
    s.leaseOf p tag = none := by
  simp [State.leaseOf, h]

theorem State.leaseOf_of_no_lease {s : State} {p : Port} {tag : Tag}
    (h : ∀ (k : SlotId) (t : Txn), s.txn k = some t → t.phase = some .leased → t.originPort = some p →
      t.originTag ≠ some tag) : s.leaseOf p tag = none := by
  unfold State.leaseOf
  split
  · rw [List.find?_eq_none]
    intro k _
    cases ht : s.txn k with
    | none => simp
    | some t => simpa [and_assoc] using h k t ht
  · rfl

theorem streamDoneArrives_of_no_lease {s : State} {p : Port} {tag : Tag} (hp : (s.port p).profile ≠ .caching)
    (h : s.leaseOf p tag = none) : streamDoneArrives p tag s = strayMessage s := by
  simp [streamDoneArrives, hp, h]

/-! ### Stray messages (R53) -/

@[simp] theorem State.framed_judgeAnswer (s : State) (p : Port) (ch : InChannel) (n : Fin 32) (g : Bool)
    (l : LineNo) (o : ProbeOutcome) : (s.framed p ch).judgeAnswer p n g l o = s.judgeAnswer p n g l o := rfl

@[simp] theorem State.framed_leaseOf (s : State) (p : Port) (ch : InChannel) (tag : Tag) :
    (s.framed p ch).leaseOf p tag = s.leaseOf p tag := by
  simp [State.leaseOf]

section exec

variable {s : State} {p : Port}

theorem exec_answer_of_stray {n : Fin 32} {g : Bool} {l : LineNo} {f : BitVec 2} (hr : s.inReset = false)
    (hh : s.hears p = true) (hj : s.joined p) (hf : f ≠ 0) (h : ∀ o, s.judgeAnswer p n g l o = .stray) :
    exec (.answer p n g l f) s = .next (strayMessage (s.framed p .answer)) := by
  rw [exec_answer_of_joined n g l f hr hh hj, answerArrives_of_stray hf (by simpa using h)]

theorem exec_streamDone_of_no_lease {tag : Tag} (hr : s.inReset = false) (hh : s.hears p = true)
    (hj : s.joined p) (hp : (s.port p).profile ≠ .caching) (h : s.leaseOf p tag = none) :
    exec (.streamDone p tag) s = .next (strayMessage (s.framed p .notice)) := by
  rw [exec_streamDone_of_joined tag hr hh hj, streamDoneArrives_of_no_lease (by simpa using hp) (by simpa using h)]

theorem exec_of_stray {c : Instr} {ch : InChannel} (hr : s.inReset = false) (hh : s.hears p = true)
    (hj : s.joined p) (h : Stray s p c ch) : exec c s = .next (strayMessage (s.framed p ch)) := by
  cases h with
  | slot n g l o ho hn =>
    exact exec_answer_of_stray hr hh hj ho fun x => State.judgeAnswer_of_no_slot g l x hn
  | free k g l o ho hk =>
    exact exec_answer_of_stray hr hh hj ho fun x => State.judgeAnswer_of_free _ g l x hk
  | generation k g l o ho hg =>
    exact exec_answer_of_stray hr hh hj ho fun x => State.judgeAnswer_of_generation_ne _ l x hg
  | answered k t g l o ho ht ha =>
    exact exec_answer_of_stray hr hh hj ho fun x => State.judgeAnswer_of_not_awaits _ g l x ht ha
  | tag tag hp htag =>
    exact exec_streamDone_of_no_lease hr hh hj hp (State.leaseOf_of_not_outstanding htag)
  | lease tag hp hl =>
    exact exec_streamDone_of_no_lease hr hh hj hp (State.leaseOf_of_no_lease hl)

end exec

theorem strayMessage_eq (s : State) :
    strayMessage s =
      { s with notify := { s.notify with pendingFlags := s.notify.pendingFlags ||| 0x080#10 } } := rfl

/-- Settles O25: by the kinds of stray message, each of which the arrival checks answer by `strayMessage`. -/
theorem strayMessagesOnlyRaiseTheirCause : Obligations.StrayMessagesOnlyRaiseTheirCause := by
  intro s p c ch hr hh hj h
  rw [exec_of_stray hr hh hj h, strayMessage_eq]
  rfl

end Sys2Proof.Machine
end

section
/-! PROOFS. The command unit: the rows that are a write of a code to the start word, the refusal of a Busy unit, and
the completion of a long command (R162, R163, R164). -/

namespace Sys2Proof.Machine

open Sys2Proof

/-! ### A write to the start word (Fig. 12-8, R160) -/

/-- The command a code names is the one its row starts, so every start row is a start of its code. -/
theorem exec_of_startCode {c : Instr} {code : Word} (s : State) (h : c.startCode = some code) :
    exec c s = event s (startCommand code (commandBody code)) := by
  unfold Instr.startCode at h
  split at h <;> cases h <;> rfl

theorem writeWord_start (v : Word) (s : State) : writeWord 0x06 v s = startCommand v (commandBody v) s := rfl

theorem exec_registerWrite_start (v : Word) (s : State) :
    exec (.registerWrite 0x06 v) s =
      event s fun s => startCommand (s.writtenWord v) (commandBody (s.writtenWord v)) s := rfl

/-! ### The refusal of a Busy unit (R163) -/

theorem State.busy_of_inProgress {s : State} {x : LongCommand} (h : s.unit.inProgress = some x) :
    s.busy = true := by
  simp [State.busy, h]

/-- The refusal leaves the same state whatever code is written and whatever that code would do. -/
theorem startCommand_of_busy {s : State} (code : Word) (body : State → State) (h : s.busy = true) :
    startCommand code body s = { s with unit := { s.unit with status := .rejectedBusy } } := by
  simp [startCommand, h]

/-- A start word that comes in 8-bit mode as the write byte and a high byte is refused as one written whole. -/
theorem exec_start_of_busy {s : State} {c : Instr} {code : Word} (hr : s.inReset = false) (hb : s.busy = true)
    (hc : c.startCode = some code ∨ c = .registerWrite 0x06 code) :
    exec c s = .next { s.begun with unit := { s.unit with status := .rejectedBusy } } := by
  have hb' : s.begun.busy = true := hb
  obtain h | rfl := hc
  · rw [exec_of_startCode s h, event_of_not_inReset _ hr, startCommand_of_busy _ _ hb']
    rfl
  · rw [exec_registerWrite_start, event_of_not_inReset _ hr, startCommand_of_busy _ _ hb']
    rfl

/-! ### The command status word (Fig. 12-7) -/

theorem State.readWord_commandStatus {s : State} (hr : s.inReset = false) : s.readWord 0x08 = s.statusWord := by
  simp [State.readWord, hr]

theorem State.statusWord_of_busy {s : State} (h : s.busy = true) :
    s.statusWord = Machine.word (32768 + s.unit.status.code) := by
  simp [State.statusWord, h]

/-! ### The completion of a command (R164) -/

theorem completeCommand_eq_completed (st : CommandStatus) (a b c d : Word) (s : State) :
    completeCommand st a b c d s = s.completed st a b c d := rfl

theorem completeLong_of_inProgress {s : State} {x : LongCommand} (st : CommandStatus) (r : Word)
    (h : s.unit.inProgress = some x) : completeLong x st r s = s.completed st r 0 0 0 := by
  rw [completeLong, if_pos h, completeCommand_eq_completed]

/-- Settles O51: by the one refusal that every write to the start word meets on a Busy unit. -/
theorem busyUnitRefusesEveryCommand : Obligations.BusyUnitRefusesEveryCommand := by
  refine ⟨fun s c code x hr hx hc => ?refused, fun s x hr hx hst => ?reads, fun s x st r hx => ?completes⟩
  case refused => exact exec_start_of_busy hr (State.busy_of_inProgress hx) hc
  case reads =>
    have hb := State.busy_of_inProgress hx
    refine ⟨hb, ?_⟩
    rw [State.readWord_commandStatus hr, State.statusWord_of_busy hb, hst]
    rfl
  case completes => exact completeLong_of_inProgress st r hx

end Sys2Proof.Machine
end

section
/-! PROOFS. The laws that every step keeps, each by its moves (Safety.lean, Laws/Effects.lean, Laws/Invariants.lean). -/

namespace Sys2Proof.Machine

open Sys2Proof

/-! ### From moves to steps -/

theorem acknowledgeFlag_eq (v : Word) (s : State) : ∃ n, acknowledgeFlag v s = { s with notify := n } := by
  unfold acknowledgeFlag
  split
  · exact ⟨_, rfl⟩
  · exact ⟨s.notify, rfl⟩

/-- A law of every move is a law of every step if it holds of the machine in reset and looks at nothing that a step
changes outside moves. -/
theorem step_keeps_of_moves (I : State → Prop) (hm : ∀ s t, Move true s t → I s → I t)
    (hb : ∀ s t, Begin s t → I s → I t)
    (hu : ∀ (s : State) (p : Port), (s.port p).state = .isolated true → I s →
      I (s.setPort p { s.port p with state := .offline }))
    (hn : ∀ (s : State) (n : Notification), I s → I { s with notify := n })
    (hr : ∀ (q : List Instr) (n : Nat) (b : Bool) (w : Window),
      I { State.reset with pending := q, freeCount := n, inReset := b, window := w })
    (hq : ∀ (s : State) (q : List Instr) (n m : Nat) (x : List (Port × WireFrame)) (r : PortSet), I s →
      I { s with pending := q, now := n, freeCount := m, tx := x, reported := r })
    {s t : State} (hs : I s) (h : step s = .next t) : I t := by
  have ha : ∀ (s : State) (v : Word), I s → I (acknowledgeFlag v s) := by
    intro s v hs
    obtain ⟨n, e⟩ := acknowledgeFlag_eq v s
    rw [e]
    exact hn s n hs
  exact step_keeps I (exec_keeps I hm hb hu ha hr) hm hq s t h hs

/-! ### The directory table, the claims and the threshold -/

/-- Settles O8: no move takes the directory table out of order, and the reset table is empty. -/
theorem directoryStaysInOrder : Obligations.DirectoryStaysInOrder := fun _ _ hs h =>
  step_keeps_of_moves (fun s => s.dir.Wf) (fun _ _ m => m.dir_wf) (fun _ _ b => b.dir_wf) (fun _ _ _ h => h)
    (fun _ _ h => h) (fun _ _ _ _ => Directory.reset_wf) (fun _ _ _ _ _ _ h => h) hs h

theorem txn_reset (k : SlotId) : State.reset.txn k = none := by
  simp [State.txn, State.slot, State.reset]

theorem claimsDisjoint_of_no_txn {s : State} (h : ∀ k, s.txn k = none) : s.ClaimsDisjoint := by
  intro k j t u l ht
  rw [h k] at ht
  cases ht

theorem Begin.claims {s t : State} (b : Begin s t) (h : s.ClaimsDisjoint) : t.ClaimsDisjoint := by
  cases b <;> exact h

/-- Settles O9: a move claims only a line that is not claimed. -/
theorem claimsStayDisjoint : Obligations.ClaimsStayDisjoint := fun _ _ hs h =>
  step_keeps_of_moves State.ClaimsDisjoint (fun _ _ m => m.claims) (fun _ _ b => b.claims) (fun _ _ _ h => h)
    (fun _ _ h => h) (fun _ _ _ _ => claimsDisjoint_of_no_txn txn_reset) (fun _ _ _ _ _ _ h => h) hs h

theorem Begin.running {s t : State} (b : Begin s t) (h : s.RunningBelowThreshold) : t.RunningBelowThreshold := by
  cases b with
  | quiesce _ => intro e; cases e
  | job c _ _ => exact h

/-- Settles O10: a rise of the poisoned count is tested, and Running is entered only below the threshold. -/
theorem runningStaysBelowTheThreshold : Obligations.RunningStaysBelowTheThreshold := fun _ _ hs h =>
  step_keeps_of_moves State.RunningBelowThreshold (fun _ _ m => m.running) (fun _ _ b => b.running)
    (fun _ _ _ h => h) (fun _ _ h => h) (fun _ _ _ _ e => by cases e) (fun _ _ _ _ _ _ h => h) hs h

/-! ### Ports and links -/

theorem PortRec.reset_wf : PortRec.reset.Wf where
  unused_iff := ⟨fun _ => rfl, fun _ => rfl⟩
  isolated_reason := nofun
  streaming_drain := nofun

theorem Link.reset_wf : Link.reset.Wf where
  bad_frames := nofun
  buffered_up := nofun
  buffered_attempts := nofun

theorem port_reset (p : Port) : State.reset.port p = PortRec.reset := by
  simp [State.port, State.reset]

theorem link_reset (p : Port) : State.reset.link p = Link.reset := by
  simp [State.link, State.reset]

theorem PortRec.Wf.unisolated {r : PortRec} (h : r.Wf) (hr : r.state = .isolated true) :
    ({ r with state := .offline } : PortRec).Wf where
  unused_iff := ⟨fun e => (by rw [h.unused_iff.mp e] at hr; cases hr), nofun⟩
  isolated_reason := nofun
  streaming_drain := nofun

theorem setPort_ports_wf {s : State} {p : Port} {r : PortRec} (h : ∀ q, (s.port q).Wf) (hr : r.Wf) (q : Port) :
    ((s.setPort p r).port q).Wf := by
  rw [State.port_setPort]
  split
  · exact hr
  · exact h q

theorem step_keeps_ports_wf {s t : State} (hs : ∀ p, (s.port p).Wf) (h : step s = .next t) :
    ∀ p, (t.port p).Wf :=
  step_keeps_of_moves (fun s => ∀ p, (s.port p).Wf) (fun _ _ m => m.ports_wf) (fun _ _ b h => by cases b <;> exact h)
    (fun _ p hp h => setPort_ports_wf h ((h p).unisolated hp)) (fun _ _ h => h)
    (fun _ _ _ _ p => (port_reset p).symm ▸ PortRec.reset_wf) (fun _ _ _ _ _ _ h => h) hs h

theorem step_keeps_links_wf {s t : State} (hs : ∀ p, (s.link p).Wf) (h : step s = .next t) :
    ∀ p, (t.link p).Wf :=
  step_keeps_of_moves (fun s => ∀ p, (s.link p).Wf) (fun _ _ m => m.links_wf) (fun _ _ b h => by cases b <;> exact h)
    (fun _ _ _ h => h) (fun _ _ h => h) (fun _ _ _ _ p => (link_reset p).symm ▸ Link.reset_wf)
    (fun _ _ _ _ _ _ h => h) hs h

/-- Settles O11: a move that changes a port record or a link leaves it in order. -/
theorem portsAndLinksStayInOrder : Obligations.PortsAndLinksStayInOrder :=
  ⟨fun _ _ => step_keeps_ports_wf, fun _ _ => step_keeps_links_wf⟩

/-! ### Bounds, parameters, the Quiesce and reset -/

theorem sweepActive_reset : State.reset.sweepActive = 0 := by
  rw [sweepActive_eq, List.countP_eq_zero]
  intro k _
  simp [State.sweepAt, txn_reset]

theorem ParkedWf.nil : ParkedWf [] where
  bound := Nat.zero_le _
  sorted := .nil

theorem step_keeps_sweepCap {s t : State} (hs : s.SweepCapKept) (h : step s = .next t) : t.SweepCapKept :=
  step_keeps_of_moves State.SweepCapKept (fun _ _ m => m.sweepCap) (fun _ _ b h => by cases b <;> exact h)
    (fun _ _ _ h => h) (fun _ _ h => h)
    (fun _ _ _ _ => show State.reset.sweepActive ≤ 4 from sweepActive_reset ▸ Nat.zero_le 4)
    (fun _ _ _ _ _ _ h => h) hs h

theorem step_keeps_parked_wf {s t : State} (hs : ParkedWf s.parked) (h : step s = .next t) : ParkedWf t.parked :=
  step_keeps_of_moves (fun s => ParkedWf s.parked) (fun _ _ m => m.parked_wf) (fun _ _ b h => by cases b <;> exact h)
    (fun _ _ _ h => h) (fun _ _ h => h) (fun _ _ _ _ => ParkedWf.nil) (fun _ _ _ _ _ _ h => h) hs h

theorem parametersInRange_reset : State.reset.ParametersInRange where
  probe := by decide
  lease := by decide
  threshold := by decide

theorem step_keeps_parameters {s t : State} (hs : s.ParametersInRange) (h : step s = .next t) :
    t.ParametersInRange :=
  step_keeps_of_moves State.ParametersInRange (fun _ _ m => m.parameters)
    (fun _ _ b h => by cases b <;> exact ⟨h.probe, h.lease, h.threshold⟩)
    (fun _ _ _ h => ⟨h.probe, h.lease, h.threshold⟩) (fun _ _ h => ⟨h.probe, h.lease, h.threshold⟩)
    (fun _ _ _ _ => ⟨parametersInRange_reset.probe, parametersInRange_reset.lease, parametersInRange_reset.threshold⟩)
    (fun _ _ _ _ _ _ h => ⟨h.probe, h.lease, h.threshold⟩) hs h

theorem Begin.quiesceTracked {s t : State} (b : Begin s t) (h : QuiesceTracked s.service s.unit) :
    QuiesceTracked t.service t.unit := by
  cases b with
  | quiesce _ => exact ⟨fun _ => rfl, fun _ => rfl⟩
  | job c hc hidle =>
    have idle : s.service ≠ .quiescing := fun e => by
      have := h.mp e
      rw [hidle] at this
      cases this
    exact ⟨fun e => absurd e idle, fun e => absurd (Option.some.inj e) hc⟩

theorem step_keeps_quiesceTracked {s t : State} (hs : QuiesceTracked s.service s.unit) (h : step s = .next t) :
    QuiesceTracked t.service t.unit :=
  step_keeps_of_moves (fun s => QuiesceTracked s.service s.unit) (fun _ _ m => m.quiesce)
    (fun _ _ b => b.quiesceTracked) (fun _ _ _ h => h) (fun _ _ h => h)
    (fun _ _ _ _ => ⟨nofun, nofun⟩) (fun _ _ _ _ _ _ h => h) hs h

theorem heldInReset_of_not_inReset {s : State} (h : s.inReset = false) : s.HeldInReset := fun e => by
  rw [h] at e
  cases e

/-- An event's act leaves RESET as it is. -/
theorem Act.outer {c k : Bool} {s t : State} (a : Act c k s t) : t.pending = s.pending ∧ t.inReset = s.inReset := by
  cases a with
  | moves _ m => exact ⟨m.outer.1, m.outer.2.1⟩
  | begins u v _ m b n =>
    exact ⟨n.outer.1.trans (b.outer.1.trans m.outer.1), n.outer.2.1.trans (b.outer.2.1.trans m.outer.2.1)⟩
  | unisolate _ u _ p m _ n => exact ⟨n.outer.1.trans m.outer.1, n.outer.2.1.trans m.outer.2.1⟩
  | acknowledge _ u v m =>
    obtain ⟨n, e⟩ := acknowledgeFlag_eq v u
    rw [e]
    exact ⟨m.outer.1, m.outer.2.1⟩

theorem exec_keeps_heldInReset {c : Instr} {s t : State} (hs : s.HeldInReset) (h : exec c s = .next t) :
    t.HeldInReset := by
  obtain ⟨u, hx, he⟩ := exec_effect c s
  obtain rfl : u = t := by rw [hx] at h; cases h; rfl
  cases he with
  | held _ => exact hs
  | act _ hr a => exact heldInReset_of_not_inReset (a.outer.2.trans hr)
  | hardReset _ => exact fun _ => rfl
  | release wide _ _ => exact heldInReset_of_not_inReset rfl

theorem idleStep_of_inReset {s : State} (h : s.inReset = true) : idleStep s = s := by
  simp [idleStep, h]

theorem begun_moves (s : State) (n : Nat) : Moves true s { s with freeCount := n, tx := [] } :=
  ((refl_moves s).then (.freeCount s n)).then (.tx _ rfl [])

/-- What the block does of itself is a chain of moves, but for the queue, the timebase and a report that it takes. -/
theorem doOwn_moves (w : OwnWork) (s : State) (n : Nat) :
    ∃ u q m r, Moves true s u ∧
      doOwn w { s with freeCount := n } = { u with pending := q, now := m, reported := r } := by
  cases w with
  | timeout p => exact ⟨_, _, _, _, isolate_moves p .probeTimeout (by decide) (begun_moves s n), rfl⟩
  | loss p => exact ⟨_, _, _, _, takeLoss_moves p (begun_moves s n), rfl⟩
  | event c => exact ⟨_, _, _, _, begun_moves s n, rfl⟩
  | walk => exact ⟨_, _, _, _, leaveIfHandled_moves (begun_moves s n), rfl⟩
  | tick => exact ⟨_, _, _, _, begun_moves s n, rfl⟩

theorem idleStep_moves (s : State) :
    ∃ u q m r, Moves true s u ∧ idleStep s = { u with pending := q, now := m, reported := r } := by
  obtain e | e | ⟨w, -, e⟩ := idleStep_cases s
  · exact ⟨s, _, _, _, refl_moves s, e⟩
  · exact ⟨_, _, _, _, begun_moves s s.freeCount, e⟩
  · rw [e]
    exact doOwn_moves w s _

theorem idleStep_inReset (s : State) : (idleStep s).inReset = s.inReset := by
  obtain ⟨u, q, n, r, m, e⟩ := idleStep_moves s
  rw [e]
  exact m.outer.2.1

theorem step_keeps_heldInReset {s t : State} (hs : s.HeldInReset) (h : step s = .next t) : t.HeldInReset := by
  cases hp : s.pending with
  | cons c rest =>
    simp only [step, hp] at h
    have rest_held : State.HeldInReset { s with pending := rest } := fun e => by
      have held := hs e
      rw [held]
    exact exec_keeps_heldInReset rest_held h
  | nil =>
    simp only [step, hp, Host.Outcome.next.injEq] at h
    cases hr : s.inReset with
    | true => rwa [← h, idleStep_of_inReset hr]
    | false => exact heldInReset_of_not_inReset (by rw [← h, idleStep_inReset, hr])

/-- Settles O12: each bound by the moves, the reset hold by the effects of the commands. -/
theorem boundsAndResetAreKept : Obligations.BoundsAndResetAreKept :=
  ⟨fun _ _ => step_keeps_sweepCap, fun _ _ => step_keeps_parked_wf, fun _ _ => step_keeps_parameters,
    fun _ _ => step_keeps_quiesceTracked, fun _ _ => step_keeps_heldInReset⟩

end Sys2Proof.Machine
end

section
/-! PROOFS. What a step leaves of an Isolated port and of a pending cause (R68, R180, R182). -/

namespace Sys2Proof.Machine

open Sys2Proof

/-! ### Isolated ports (R63, R68) -/

/-- Even an outer move leaves an Isolated port's record but for the end of its cleanup. -/
theorem Move.port_quiet_of_isolated {b : Bool} {s t : State} (m : Move b s t) {p : Port} {x : Bool}
    (h : (s.port p).state = .isolated x) : (s.port p).Quiet (t.port p) := by
  cases m with
  | port q r _ hq =>
    rw [State.port_setPort]
    split
    · next e => rwa [e]
    · exact .refl _
  | portOuter _ q r _ hi =>
    rw [State.port_setPort]
    split
    · next e => exact absurd (e ▸ h) (hi x)
    · exact .refl _
  | retire i w => exact (Move.retire _ i w).ports_quiet p
  | place i w e he => exact (Move.place _ i w e he).ports_quiet p
  | rewrite i w x hx hp hs => exact (Move.rewrite _ i w x hx hp hs).ports_quiet p
  | touch i w => exact (Move.touch _ i w).ports_quiet p
  | convert i w q e he hp => exact (Move.convert _ i w q e he hp).ports_quiet p
  | threshold v hv => exact (Move.threshold _ v hv).ports_quiet p
  | _ => exact .refl _

theorem PortRec.Quiet.isolated {r q : PortRec} (h : r.Quiet q) {x : Bool} (hr : r.state = .isolated x) :
    q.profile = r.profile ∧ q.reason = r.reason ∧ (q.state = .isolated x ∨ q.state = .isolated true) := by
  obtain ⟨hprofile, hreason, hstate⟩ := h
  refine ⟨hprofile, hreason, ?_⟩
  obtain same | ⟨b, draining, -⟩ | ⟨-, done⟩ := hstate
  · exact Or.inl (same.trans hr)
  · rw [hr] at draining
    cases draining
  · exact Or.inr done

/-- What every step but the leaving itself keeps of an Isolated port. -/
def PortRec.StaysIsolated (r q : PortRec) : Prop :=
  ∀ x, r.state = .isolated x →
    q.profile = r.profile ∧ q.reason = r.reason ∧ (q.state = .isolated x ∨ q.state = .isolated true)

theorem PortRec.StaysIsolated.refl (r : PortRec) : r.StaysIsolated r := fun _ h => ⟨rfl, rfl, Or.inl h⟩

theorem PortRec.StaysIsolated.of_eq {r q : PortRec} (h : q = r) : r.StaysIsolated q := h ▸ .refl q

theorem PortRec.StaysIsolated.trans {a b c : PortRec} (h : a.StaysIsolated b) (g : b.StaysIsolated c) :
    a.StaysIsolated c := by
  intro x hx
  obtain ⟨hprofile, hreason, hstate⟩ := h x hx
  obtain same | done := hstate
  · obtain ⟨gprofile, greason, gstate⟩ := g x same
    exact ⟨gprofile.trans hprofile, greason.trans hreason, gstate⟩
  · obtain ⟨gprofile, greason, gstate⟩ := g true done
    exact ⟨gprofile.trans hprofile, greason.trans hreason, Or.inr (or_self_iff.mp gstate)⟩

theorem Moves.staysIsolated {b : Bool} {s t : State} (m : Moves b s t) (p : Port) :
    (s.port p).StaysIsolated (t.port p) := by
  induction m with
  | refl => exact .refl _
  | tail _ m ih => exact ih.trans fun _ h => (m.port_quiet_of_isolated h).isolated h

theorem acknowledgeFlag_port (v : Word) (s : State) (p : Port) : (acknowledgeFlag v s).port p = s.port p := by
  obtain ⟨n, e⟩ := acknowledgeFlag_eq v s
  rw [e]
  rfl

/-- An act that may not be a ClearIsolation takes no port out of Isolated. -/
theorem Act.staysIsolated {k : Bool} {s t : State} (a : Act false k s t) (p : Port) :
    (s.port p).StaysIsolated (t.port p) := by
  cases a with
  | moves _ m => exact m.staysIsolated p
  | begins u v _ m b n =>
    have unchanged : v.port p = u.port p := by cases b <;> rfl
    exact (m.staysIsolated p).trans ((PortRec.StaysIsolated.of_eq unchanged).trans (n.staysIsolated p))
  | unisolate hc => cases hc
  | acknowledge _ u v m => exact (m.staysIsolated p).trans (.of_eq (acknowledgeFlag_port v u p))

theorem exec_staysIsolated {c : Instr} {s t : State} (hc : mayClear c = false) (hr : c.resets = false)
    (h : exec c s = .next t) (p : Port) : (s.port p).StaysIsolated (t.port p) := by
  obtain ⟨u, hx, he⟩ := exec_effect c s
  obtain rfl : u = t := by rw [hx] at h; cases h; rfl
  cases he with
  | held _ => exact .refl _
  | act _ _ a => exact Act.staysIsolated (hc ▸ a) p
  | hardReset e => subst e; cases hr
  | release wide e _ => subst e; cases hr

theorem mayClear_of_wellFormed {c : Instr} (h : c.wellFormed = true) (hc : c ≠ .clearIsolation) :
    mayClear c = false := by
  unfold mayClear
  split
  · exact absurd rfl hc
  · next code =>
    refine decide_eq_false fun e => ?_
    subst e
    exact absurd h (by decide)
  · next w v =>
    refine decide_eq_false fun e => ?_
    subst e
    cases h
  · rfl

theorem portOperand_eq_some {v : Nat} {p : Port} (h : portOperand v = some p) : v = p.val := by
  unfold portOperand at h
  split at h
  · cases h
    rfl
  · cases h

theorem opPort_started (s : State) (code : Word) : (s.started code).opPort = portOperand (s.word 0) := rfl

theorem startCommand_of_idle {s : State} (code : Word) (body : State → State) (h : s.unit.inProgress = none) :
    startCommand code body s.begun = body (s.started code) := by
  have idle : s.begun.busy = false := by simp [State.busy, State.begun, h]
  simp only [startCommand, idle, Bool.false_eq_true, if_false]
  rfl

/-- ClearIsolation takes out of Isolated the port it names, its cleanup done, alone (R68). -/
theorem clearIsolation_staysIsolated {s : State} {p : Port}
    (h : s.opPort = some p → (s.port p).state ≠ .isolated true) :
    (s.port p).StaysIsolated ((clearIsolation s).port p) := by
  unfold clearIsolation
  split
  · exact .refl _
  · next q hq =>
    split
    · next done =>
      have ne : p ≠ q := fun e => h (e ▸ hq) (e ▸ done)
      exact .of_eq (State.port_setPort_ne _ _ ne)
    · exact .refl _

theorem event_eq_next {s t : State} {act : State → State} (h : event s act = .next t) :
    t = s ∨ s.inReset = false ∧ t = act s.begun := by
  cases hr : s.inReset with
  | true => exact Or.inl (by simpa [event, hr] using h.symm)
  | false =>
    rw [event_of_not_inReset act hr] at h
    exact Or.inr ⟨rfl, (Host.Outcome.next.inj h).symm⟩

theorem exec_clearIsolation_staysIsolated {s t : State} {p : Port}
    (hs : s.word 0 ≠ p.val ∨ (s.port p).state ≠ .isolated true ∨ s.unit.inProgress ≠ none)
    (h : exec .clearIsolation s = .next t) : (s.port p).StaysIsolated (t.port p) := by
  obtain rfl | ⟨-, rfl⟩ := event_eq_next (act := startCommand 4 clearIsolation) h
  · exact .refl _
  cases hx : s.unit.inProgress with
  | some x =>
    rw [startCommand_of_busy 4 _ (State.busy_of_inProgress (s := s.begun) hx)]
    exact .refl _
  | none =>
    rw [startCommand_of_idle 4 _ hx]
    refine clearIsolation_staysIsolated (s := s.started 4) fun named => ?_
    obtain other | running | busy := hs
    · exact absurd (portOperand_eq_some named) other
    · exact running
    · exact absurd hx busy

theorem idleStep_staysIsolated (s : State) (p : Port) : (s.port p).StaysIsolated ((idleStep s).port p) := by
  obtain ⟨u, q, n, r, m, e⟩ := idleStep_moves s
  rw [e]
  exact m.staysIsolated p

/-- Settles O13: by the moves, of which none takes a port out of Isolated, and by ClearIsolation's own test. -/
theorem isolatedPortsStayIsolated : Obligations.IsolatedPortsStayIsolated := by
  intro s t p d hd hfront h
  suffices stays : (s.port p).StaysIsolated (t.port p) from stays d hd
  cases hp : s.pending with
  | nil =>
    simp only [step, hp, Host.Outcome.next.injEq] at h
    exact h ▸ idleStep_staysIsolated s p
  | cons c rest =>
    obtain ⟨wf, resets, clears⟩ := hfront c rest hp
    simp only [step, hp] at h
    by_cases hc : c = .clearIsolation
    · subst hc
      refine exec_clearIsolation_staysIsolated (s := { s with pending := rest }) ?_ h
      obtain other | running | busy := clears rfl
      · exact Or.inl other
      · exact Or.inr (Or.inl fun e => by rw [show (s.port p).state = _ from e, running] at hd; cases hd)
      · exact Or.inr (Or.inr busy)
    · exact exec_staysIsolated (s := { s with pending := rest }) (mayClear_of_wellFormed wf hc) resets h p

/-! ### Pending causes (R180, R182) -/

theorem isPending_of_rises {s t : State} {x : Cause} (h : s.notify.Rises t.notify) (hx : s.isPending x = true) :
    t.isPending x = true := h _ hx

theorem Begin.notify {s t : State} (b : Begin s t) : t.notify = s.notify := by cases b <;> rfl

/-- An act that may not be an acknowledgement clears no pending flag. -/
theorem Act.rises {c : Bool} {s t : State} (a : Act c false s t) : s.notify.Rises t.notify := by
  cases a with
  | moves _ m => exact m.rises
  | begins u v _ m b n => exact m.rises.trans (b.notify ▸ n.rises)
  | unisolate _ u _ p m _ n =>
    have after := Moves.rises n
    exact m.rises.trans after
  | acknowledge hk => cases hk

theorem Cause.number_bounds (x : Cause) : 1 ≤ x.number ∧ x.number ≤ 10 := by cases x <;> decide

theorem causeBit_getLsbD {n m : Nat} (hn : 1 ≤ n ∧ n ≤ 10) (hm : 1 ≤ m ∧ m ≤ 10) :
    (causeBit n).getLsbD (m - 1) = decide (n = m) := by
  obtain ⟨hn1, hn10⟩ := hn
  obtain ⟨hm1, hm10⟩ := hm
  interval_cases n <;> interval_cases m <;> decide

/-- An acknowledgement clears no flag but that of the cause whose number is written (R182). -/
theorem acknowledgeFlag_isPending {s : State} {v : Word} {x : Cause} (hv : v.toNat ≠ x.number)
    (hx : s.isPending x = true) : (acknowledgeFlag v s).isPending x = true := by
  unfold acknowledgeFlag
  split
  · next bounds =>
    have other : (causeBit v.toNat).getLsbD (x.number - 1) = false := by
      rw [causeBit_getLsbD bounds x.number_bounds, decide_eq_false hv]
    have low : x.number - 1 < 10 := by
      have := x.number_bounds
      omega
    simp only [State.isPending, BitVec.getLsbD_and, BitVec.getLsbD_not, other, low, decide_true] at hx ⊢
    simpa using hx
  · exact hx

theorem writtenWord_eq (s : State) (v : Word) :
    s.window.wide = true ∧ s.writtenWord v = v ∨
      s.window.wide = false ∧ s.writtenWord v = v.extractLsb' 8 8 ++ s.window.writeByte := by
  cases hw : s.window.wide with
  | true => exact Or.inl ⟨rfl, by simp [State.writtenWord, hw]⟩
  | false =>
    refine Or.inr ⟨rfl, ?_⟩
    have high : highByte v = v.extractLsb' 8 8 := by
      ext i hi
      simp [highByte]
    simp [State.writtenWord, hw, high]

theorem toNat_ne_number {v : Word} {x : Cause} (h : v ≠ BitVec.ofNat 16 x.number) : v.toNat ≠ x.number := fun e =>
  h (BitVec.eq_of_toNat_eq (by rw [e]; cases x <;> rfl))

theorem exec_acknowledge_isPending {s t : State} {v : Word} {x : Cause}
    (ha : s.writtenWord v ≠ BitVec.ofNat 16 x.number)
    (h : event s (fun s => acknowledgeFlag (s.writtenWord v) s) = .next t) (hx : s.isPending x = true) :
    t.isPending x = true := by
  obtain rfl | ⟨-, rfl⟩ := event_eq_next h
  · exact hx
  · exact acknowledgeFlag_isPending (s := s.begun) (toNat_ne_number ha) hx

theorem exec_rises {c : Instr} {s t : State} (hc : mayAcknowledge c = false) (hr : c.resets = false)
    (h : exec c s = .next t) : s.notify.Rises t.notify := by
  obtain ⟨u, hx, he⟩ := exec_effect c s
  obtain rfl : u = t := by rw [hx] at h; cases h; rfl
  cases he with
  | held _ => exact .refl _
  | act _ _ a => exact Act.rises (hc ▸ a)
  | hardReset e => subst e; cases hr
  | release wide e _ => subst e; cases hr

theorem exec_isPending {c : Instr} {s t : State} {x : Cause} (ha : ¬ Acknowledges s x c) (hr : c.resets = false)
    (h : exec c s = .next t) (hx : s.isPending x = true) : t.isPending x = true := by
  by_cases hc : mayAcknowledge c = false
  · exact isPending_of_rises (exec_rises hc hr h) hx
  unfold mayAcknowledge at hc
  split at hc
  · next v =>
    exact exec_acknowledge_isPending (fun e => ha (.row v _ (writtenWord_eq s v) e)) h hx
  · next w v =>
    obtain rfl : w = 0x18 := by simpa using hc
    exact exec_acknowledge_isPending (fun e => ha (.word v _ (writtenWord_eq s v) e)) h hx
  · exact absurd rfl hc

theorem idleStep_rises (s : State) : s.notify.Rises (idleStep s).notify := by
  obtain ⟨u, q, n, r, m, e⟩ := idleStep_moves s
  rw [e]
  exact m.rises

/-- Settles O14: no move clears a flag, and an acknowledgement clears only the flag it names. -/
theorem pendingCausesPersist : Obligations.PendingCausesPersist := by
  intro s t x hx hfront h
  cases hp : s.pending with
  | nil =>
    simp only [step, hp, Host.Outcome.next.injEq] at h
    exact h ▸ isPending_of_rises (idleStep_rises s) hx
  | cons c rest =>
    obtain ⟨ha, hr⟩ := hfront c rest hp
    simp only [step, hp] at h
    have ha' : ¬ Acknowledges { s with pending := rest } x c := by
      rintro (⟨v, r, hv, e⟩ | ⟨v, r, hv, e⟩)
      · exact ha (.row v r hv e)
      · exact ha (.word v r hv e)
    exact exec_isPending ha' hr h hx

end Sys2Proof.Machine
end

section
/-! PROOFS. The queue of commands, reset, the block's own work on an empty queue, and the region table (0.7, 0.11,
2.2). -/

namespace Sys2Proof.Machine

open Sys2Proof

/-! ### The queue of commands and reset (0.7, 0.11) -/

/-- Settles O1: by the queue's two forms. -/
theorem stepRunsTheFrontCommand : Obligations.StepRunsTheFrontCommand := by
  intro s c rest h
  rw [step, h]

/-- Settles O3: no effect of a command is a stop, and none touches the queue. -/
theorem everyCommandAnswersNext : Obligations.EveryCommandAnswersNext := by
  intro c s
  obtain ⟨t, hx, he⟩ := exec_effect c s
  refine ⟨t, hx, ?_⟩
  cases he with
  | held _ => rfl
  | act _ _ a => exact a.outer.1
  | hardReset _ => rfl
  | release _ _ _ => rfl

theorem State.irq_of_inReset {s : State} (h : s.inReset = true) : s.irq = false := by
  simp [State.irq, h]

theorem State.readWord_of_inReset {s : State} (h : s.inReset = true) (w : WordNo) : s.readWord w = 0 := by
  simp [State.readWord, h]

theorem exec_of_inReset {c : Instr} {s : State} (hr : s.inReset = true) (hc : c.resets = false) :
    exec c s = .next s := by
  obtain ⟨t, hx, he⟩ := exec_effect c s
  rw [hx]
  cases he with
  | held _ => rfl
  | act _ h _ =>
    rw [hr] at h
    cases h
  | hardReset e => subst e; cases hc
  | release wide e _ => subst e; cases hc

/-- Settles O4: of the effects of a command only the reset rows' and none at all remain while RESET is asserted. -/
theorem nothingActsWhileResetIsAsserted : Obligations.NothingActsWhileResetIsAsserted :=
  ⟨fun _ _ => exec_of_inReset, fun _ h => ⟨State.irq_of_inReset h, State.readWord_of_inReset h⟩⟩

theorem exec_resetRelease_of_inReset {s : State} (wide : Bool) (h : s.inReset = true) :
    exec (.resetRelease wide) s =
      .next { State.reset with
        pending := s.pending, freeCount := s.freeCount, window := { State.reset.window with wide := wide } } := by
  show execResetRelease wide s = _
  rw [execResetRelease, if_pos h]

theorem exec_resetRelease_of_not_inReset {s : State} (wide : Bool) (h : s.inReset = false) :
    exec (.resetRelease wide) s = .next s := by
  show execResetRelease wide s = _
  rw [execResetRelease, if_neg (by simp [h])]

/-- Settles O5: the hard reset by its definition, the release by whether RESET is asserted. -/
theorem hardResetAndReleaseGiveTheResetState : Obligations.HardResetAndReleaseGiveTheResetState := fun _ =>
  ⟨rfl, fun wide h => exec_resetRelease_of_inReset wide h, fun wide h => exec_resetRelease_of_not_inReset wide h⟩

theorem way_reset (i : SetIdx) (w : Way) : State.reset.way i w = none := SetRec.empty_way w

theorem region_reset (i : RegionIdx) : State.reset.region i = Region.reset := by
  simp [State.region, State.reset]

theorem slot_reset (k : SlotId) : State.reset.slot k = { gen := false, txn := none } := by
  simp [State.slot, State.reset]

/-- Settles O6: the numbered parts by their reset lemmas, every other field as the reset state writes it. -/
theorem resetStateHoldsTheSpecsValues : Obligations.ResetStateHoldsTheSpecsValues :=
  ⟨fun p => ⟨port_reset p, link_reset p⟩, fun i w => ⟨way_reset i w, rfl⟩, rfl, rfl, region_reset, slot_reset,
    rfl, rfl, rfl, rfl, rfl, rfl, rfl, rfl, rfl, rfl, rfl, rfl, rfl, rfl, rfl, rfl, rfl, rfl⟩

/-- Settles O7: law by law, each at its reset lemma. -/
theorem resetStateIsSafe : Obligations.ResetStateIsSafe where
  dir := Directory.reset_wf
  ports := fun p => port_reset p ▸ PortRec.reset_wf
  links := fun p => link_reset p ▸ Link.reset_wf
  claims := claimsDisjoint_of_no_txn txn_reset
  sweepCap := show State.reset.sweepActive ≤ 4 from sweepActive_reset ▸ Nat.zero_le 4
  parked := ParkedWf.nil
  parameters := parametersInRange_reset
  quiesce := ⟨nofun, nofun⟩
  running := nofun
  reset := nofun

/-! ### The block's own work on an empty queue (logs 2, 5, 24, 25) -/

theorem doOwn_eq_didOwn (w : OwnWork) (s : State) : doOwn w { s with freeCount := s.freeCount + 1 } = s.didOwn w := by
  cases w <;> rfl

theorem step_of_empty {s : State} (h : s.pending = []) : step s = .next (idleStep s) := by
  rw [step, h]

theorem idleStep_of_no_work {s : State} (hr : s.inReset = false) (h : s.ownWork = []) :
    idleStep s = { s with now := s.now + 1, tx := [] } := by
  simp [idleStep, hr, h, chooseOne, tick]

theorem idleStep_of_work {s : State} (hr : s.inReset = false) (h : s.ownWork ≠ []) :
    ∃ w ∈ s.ownWork, idleStep s = s.didOwn w := by
  obtain ⟨w, hw, chosen⟩ := chooseOne_some s.freeCount s.ownWork h
  refine ⟨w, hw, ?_⟩
  rw [← doOwn_eq_didOwn]
  simp [idleStep, hr, chosen]

theorem mem_members {S : PortSet} {p : Port} : p ∈ PortSet.members S ↔ PortSet.has S p = true := by
  simp [PortSet.members, mem_allPorts]

theorem members_eq_nil {S : PortSet} : PortSet.members S = [] ↔ S = 0 := by
  constructor
  · intro h
    ext i hi
    have : (⟨i, hi⟩ : Port) ∉ PortSet.members S := by simp [h]
    simpa [mem_members, PortSet.has, BitVec.getLsbD_eq_getElem hi] using this
  · rintro rfl
    rfl

/-- What a moment's work holds: the standing reports, the block's own events, a walker that rests, and the tick
beside nothing but the walker. -/
theorem mem_ownWork {s : State} {w : OwnWork} :
    w ∈ s.ownWork ↔
      (∃ p, PortSet.has s.reported p = true ∧ w = .timeout p) ∨
        (∃ p, PortSet.has s.lossReported p = true ∧ w = .loss p) ∨ (∃ c ∈ s.ownEvents, w = .event c) ∨
        s.walkerRests = true ∧ (w = .walk ∨ s.dueNow = [] ∧ w = .tick) := by
  have due : w ∈ s.dueNow ↔
      (∃ p, PortSet.has s.reported p = true ∧ w = .timeout p) ∨
        (∃ p, PortSet.has s.lossReported p = true ∧ w = .loss p) ∨ ∃ c ∈ s.ownEvents, w = .event c := by
    simp only [State.dueNow, List.mem_append, List.mem_map, mem_members, or_assoc, eq_comm (b := w)]
  unfold State.ownWork
  rw [List.mem_append, due]
  cases s.walkerRests with
  | false => simp
  | true => by_cases hd : s.dueNow = [] <;> simp [hd, or_assoc]

theorem dueNow_eq_nil {s : State} :
    s.dueNow = [] ↔ s.reported = 0 ∧ s.lossReported = 0 ∧ s.ownEvents = [] := by
  simp [State.dueNow, members_eq_nil]

theorem allHandled_iff {s : State} : s.allHandled = true ↔ ∀ x ∈ s.sweep.workList, x.2 = .handled := by
  simp [State.allHandled]

theorem walkerRests_iff {s : State} :
    s.walkerRests = true ↔
      s.sweep.jobs ≠ [] ∧ (∃ i, s.sweep.walker = .atSet i) ∧ ∀ x ∈ s.sweep.workList, x.2 = .handled := by
  unfold State.walkerRests
  split
  · next j rest i hj hw => simp [hj, hw, allHandled_iff]
  · next h =>
    simp only [Bool.false_eq_true, false_iff, not_and]
    rintro jobs ⟨i, hi⟩
    cases hj : s.sweep.jobs with
    | nil => exact absurd hj jobs
    | cons j rest => exact absurd hi (h j rest i hj)

theorem walk_mem_ownWork {s : State} : .walk ∈ s.ownWork ↔ s.walkerRests = true := by
  simp [mem_ownWork]

/-! #### The events that are due -/

theorem canTransmit_iff {s : State} {p : Port} :
    s.canTransmit p = true ↔ (s.link p).up = true ∧ (s.link p).resend = none ∧ (s.link p).outbound ≠ [] := by
  simp [State.canTransmit, and_assoc]

theorem ackOverdue_iff {s : State} {p : Port} :
    s.ackOverdue p = true ↔
      (s.link p).up = true ∧ (s.link p).resend ≠ none ∧ (s.link p).sentAt + 20 ≤ s.now := by
  simp only [State.ackOverdue, Bool.and_eq_true, Option.isSome_iff_ne_none, decide_eq_true_eq, and_assoc]
  rfl

theorem clockOverdue_iff {s : State} {p : Port} :
    s.clockOverdue p = true ↔
      (s.link p).up = true ∧ ∃ t, (s.link p).clockAbsentSince = some t ∧ t + 100 ≤ s.now := by
  unfold State.clockOverdue
  simp only [Bool.and_eq_true]
  refine and_congr_right fun _ => ?_
  cases (s.link p).clockAbsentSince with
  | none => simp
  | some t =>
    simp only [decide_eq_true_eq, Option.some.injEq, exists_eq_left']
    rfl

theorem mem_arbiterEvent {s : State} {c : Instr} :
    c ∈ s.arbiterEvent ↔
      c = .restartParked ∧ (∃ k q, s.handOut = some (.parked k q)) ∨
        c = .takeQueueHead ∧ (∃ k p, s.handOut = some (.head k p)) ∨
        c = .startSweepRecall ∧ ∃ k, s.handOut = some (.sweep k) := by
  unfold State.arbiterEvent
  split <;> simp_all

theorem mem_linkEvents {s : State} {c : Instr} {p : Port} :
    c ∈ s.linkEvents p ↔
      c = .transmitFrame p ∧ s.canTransmit p = true ∨ c = .ackTimeout p ∧ s.ackOverdue p = true ∨
        c = .clockAbsenceTimeout p ∧ s.clockOverdue p = true := by
  unfold State.linkEvents
  cases s.canTransmit p <;> cases s.ackOverdue p <;> cases s.clockOverdue p <;> simp

theorem mem_slotEvents {s : State} {c : Instr} {k : SlotId} :
    c ∈ s.slotEvents k ↔
      ∃ t, s.txn k = some t ∧ t.expired s.now = true ∧
        (c = .leaseTimeout k ∧ t.phase = some .leased ∨
          c = .probeTimeout k ∧ t.inProbePhase = true ∧ t.reprobed = true ∨
          c = .reprobe k ∧ t.inProbePhase = true ∧ t.reprobed = false) := by
  unfold State.slotEvents
  cases s.txn k with
  | none => simp
  | some t =>
    simp only [Option.some.injEq, exists_eq_left']
    cases t.expired s.now with
    | false => simp
    | true =>
      by_cases leased : t.phase = some .leased
      · simp [Txn.inProbePhase, leased]
      · cases t.inProbePhase <;> cases t.reprobed <;> simp [leased]

theorem mem_ownEvents {s : State} {c : Instr} :
    c ∈ s.ownEvents ↔ c ∈ s.arbiterEvent ∨ (∃ p, c ∈ s.linkEvents p) ∨ ∃ k, c ∈ s.slotEvents k := by
  simp [State.ownEvents, mem_allPorts, mem_allSlots]

theorem inProbePhase_iff {t : Txn} :
    t.inProbePhase = true ↔ t.phase = some .victimProbing ∨ t.phase = some .probing := by
  simp [Txn.inProbePhase]

theorem expired_iff {t : Txn} {d : Deadline} {now : Nat} (h : t.deadline = some d) :
    t.expired now = true ↔ d.start + d.interval ≤ now := by
  simp [Txn.expired, h, Deadline.due]

theorem linkEvent_mem_ownEvents (s : State) (p : Port) :
    (Instr.transmitFrame p ∈ s.ownEvents ↔ s.canTransmit p = true) ∧
      (Instr.ackTimeout p ∈ s.ownEvents ↔ s.ackOverdue p = true) ∧
      (Instr.clockAbsenceTimeout p ∈ s.ownEvents ↔ s.clockOverdue p = true) := by
  simp [mem_ownEvents, mem_arbiterEvent, mem_linkEvents, mem_slotEvents]

theorem slotEvent_mem_ownEvents {s : State} {k : SlotId} {t : Txn} (h : s.txn k = some t) :
    (Instr.reprobe k ∈ s.ownEvents ↔ t.expired s.now = true ∧ t.inProbePhase = true ∧ t.reprobed = false) ∧
      (Instr.probeTimeout k ∈ s.ownEvents ↔
        t.expired s.now = true ∧ t.inProbePhase = true ∧ t.reprobed = true) ∧
      (Instr.leaseTimeout k ∈ s.ownEvents ↔ t.expired s.now = true ∧ t.phase = some .leased) := by
  simp [mem_ownEvents, mem_arbiterEvent, mem_linkEvents, mem_slotEvents, h]

theorem arbiterEvent_mem_ownEvents (s : State) :
    (Instr.restartParked ∈ s.ownEvents ↔ ∃ k q, s.handOut = some (.parked k q)) ∧
      (Instr.takeQueueHead ∈ s.ownEvents ↔ ∃ k p, s.handOut = some (.head k p)) ∧
      (Instr.startSweepRecall ∈ s.ownEvents ↔ ∃ k, s.handOut = some (.sweep k)) := by
  simp [mem_ownEvents, mem_arbiterEvent, mem_linkEvents, mem_slotEvents]

/-- Settles O2: the step by the choice among the work, the work by its lists, the events by their conditions. -/
theorem emptyQueueRunsOwnEventsOrTicks : Obligations.EmptyQueueRunsOwnEventsOrTicks := by
  refine ⟨fun s hp => ?step, fun s => ?work, fun s p => ?links, fun s k t d ht hd => ?slots,
    arbiterEvent_mem_ownEvents⟩
  case step =>
    rw [step_of_empty hp]
    refine ⟨fun hr => by rw [idleStep_of_inReset hr], fun hr hw => by rw [idleStep_of_no_work hr hw], fun hr hw => ?_⟩
    obtain ⟨w, mem, e⟩ := idleStep_of_work hr hw
    exact ⟨w, mem, by rw [e]⟩
  case work =>
    refine ⟨fun p => by simp [mem_ownWork], fun p => by simp [mem_ownWork], fun c => by simp [mem_ownWork],
      walk_mem_ownWork.trans walkerRests_iff, ?_⟩
    rw [walk_mem_ownWork, ← dueNow_eq_nil]
    simp [mem_ownWork]
  case links =>
    obtain ⟨transmit, ack, clock⟩ := linkEvent_mem_ownEvents s p
    exact ⟨transmit.trans canTransmit_iff, ack.trans ackOverdue_iff, clock.trans clockOverdue_iff⟩
  case slots =>
    simpa only [expired_iff hd, inProbePhase_iff] using slotEvent_mem_ownEvents ht

/-! ### The region table (R1, R24, R25) -/

theorem mem_allRegions (i : RegionIdx) : i ∈ allRegions := by
  revert i
  decide

theorem Region.covers_iff {r : Region} {g : Page} :
    r.covers g = true ↔ r.enabled = true ∧ r.base ≤ g ∧ g ≤ r.limit := by
  simp [Region.covers, and_assoc]

theorem Region.covers_eq_false {r : Region} {g : Page} (h : r.enabled = false ∨ g < r.base ∨ r.limit < g) :
    r.covers g = false := by
  rw [← Bool.not_eq_true, Region.covers_iff]
  obtain disabled | below | above := h
  · simp [disabled]
  · exact fun ⟨_, base, _⟩ => absurd below (not_lt.mpr base)
  · exact fun ⟨_, _, limit⟩ => absurd above (not_lt.mpr limit)

/-- A search along a list in order finds what holds and has nothing that holds before it. -/
theorem find_of_pairwise {α : Type} {R : α → α → Prop} {l : List α} (hl : l.Pairwise R) {f : α → Bool} {a : α}
    (ha : a ∈ l) (hf : f a = true) (hb : ∀ b, R b a → f b = false) : l.find? f = some a := by
  obtain ⟨as, bs, rfl⟩ := List.append_of_mem ha
  rw [List.pairwise_append] at hl
  obtain ⟨-, -, before⟩ := hl
  rw [List.find?_eq_some_iff_append]
  refine ⟨hf, as, bs, rfl, fun b hbm => ?_⟩
  simp [hb b (before b hbm a (List.mem_cons_self ..))]

theorem allRegions_rising : allRegions.Pairwise (· < ·) := by decide

theorem attrOf_of_covering {s : State} {l : LineNo} {i : RegionIdx}
    (h : coveringRecord s.regions (pageOf l) = some i) : s.attrOf l = (s.region i).attr := by
  simp only [State.attrOf, attrUnder, h]
  rfl

theorem lineOf_setOf_entryTag (l : LineNo) : lineOf (setOf l) (entryTag l) = l := by
  refine Fin.ext ?_
  show l.val / 2048 * 2048 + l.val % 2048 = l.val
  omega

/-- Settles O50: by the search of the records from the lowest index up. -/
theorem lowestCoveringRecordTreatsALine : Obligations.LowestCoveringRecordTreatsALine := by
  refine ⟨fun s l i he hb hl hj => ?lowest, fun s l h => ?none, fun l => ⟨rfl, rfl, rfl, lineOf_setOf_entryTag l⟩⟩
  case lowest =>
    exact attrOf_of_covering (find_of_pairwise allRegions_rising (mem_allRegions i)
      (Region.covers_iff.mpr ⟨he, hb, hl⟩) fun j lt => Region.covers_eq_false (hj j lt))
  case none =>
    have uncovered : coveringRecord s.regions (pageOf l) = none :=
      List.find?_eq_none.mpr fun j _ => Bool.not_eq_true _ ▸ Region.covers_eq_false (h j)
    simp only [State.attrOf, attrUnder, uncovered]

end Sys2Proof.Machine
end

section
/-! PROOFS. The frame layer: frames on a Down link, the receive-clock watch, the bits of frames, link control,
transmission, retries and the loss of a link (3.3, 3.4, 12.1). -/

namespace Sys2Proof.Machine

open Sys2Proof

/-! ### Good frames, and links that hear none (R38, R39) -/

/-- Every command that is a good frame acts by way of `goodFrame`. -/
theorem exec_of_goodFrameAt {c : Instr} {p : Port} (h : c.goodFrameAt = some p) :
    ∃ act, ∀ s, exec c s = event s (goodFrame p act) := by
  cases c with
  | unknownMessageKind q m => cases m <;> cases h <;> exact ⟨_, fun _ => rfl⟩
  | _ => cases h <;> exact ⟨_, fun _ => rfl⟩

theorem goodFrame_of_silent {s : State} {p : Port} (act : State → State) (hu : (s.link p).up = false)
    (hc : (s.link p).clockAbsentSince ≠ none) : goodFrame p act s = s := by
  simp [goodFrame, hu, hc]

theorem badFrameArrives_of_down {s : State} {p : Port} (hu : (s.link p).up = false) : badFrameArrives p s = s := by
  simp [badFrameArrives, hu]

theorem begun_of_no_tx {s : State} (h : s.tx = []) : s.begun = s := by
  rw [State.begun, ← h]

/-- Settles O15: a silent link's good frames by `goodFrame`, a standing report by `goodFrame_settles`. -/
theorem framesOnASilentLinkAreDiscarded : Obligations.FramesOnASilentLinkAreDiscarded := by
  refine ⟨fun s c p hr hu hc => ?_, fun s p hr hu => ?_⟩
  · obtain ⟨act, hx⟩ := exec_of_goodFrameAt hc
    have hu' : (s.begun.link p).up = false := hu
    refine ⟨fun hclock => ?_, fun hclock hloss => ?_⟩
    · rw [hx, event_of_not_inReset _ hr, goodFrame_of_silent act hu' hclock]
    · obtain ⟨-, htx, hreset, -⟩ := takeLoss_leaves p s.begun
      rw [hx, hx, event_of_not_inReset _ hr, event_of_not_inReset _ (hreset.trans hr), begun_of_no_tx htx,
        goodFrame_settles p act s.begun hu' hclock hloss]
  · show event s (badFrameArrives p) = _
    rw [event_of_not_inReset _ hr, badFrameArrives_of_down (s := s.begun) hu]

/-! ### The receive-clock watch (R38, R41) -/

theorem clockChange_present (p : Port) (s : State) :
    clockChange p true s = s.setLink p { s.link p with clockAbsentSince := none } := rfl

theorem clockChange_stopped {p : Port} {s : State} (h : (s.link p).clockAbsentSince = none) :
    clockChange p false s = s.setLink p { s.link p with clockAbsentSince := some s.now } := by
  simp [clockChange, State.modifyLink, h]

@[simp] theorem State.setLink_link_self (s : State) (p : Port) : s.setLink p (s.link p) = s := by
  simp [State.setLink, State.link]

theorem clockChange_absent {p : Port} {s : State} (h : (s.link p).clockAbsentSince ≠ none) :
    clockChange p false s = s := by
  obtain ⟨t, ht⟩ := Option.ne_none_iff_exists'.mp h
  simp [clockChange, State.modifyLink, ht]

theorem clockOverdue_eq_false {s : State} {p : Port}
    (h : (s.link p).up = false ∨ (s.link p).clockAbsentSince = none ∨
      (∃ t, (s.link p).clockAbsentSince = some t ∧ s.now < t + 100)) : s.clockOverdue p = false := by
  rw [← Bool.not_eq_true, clockOverdue_iff]
  rintro ⟨up, t, ht, due⟩
  obtain down | present | ⟨u, hu, early⟩ := h
  · simp [down] at up
  · simp [present] at ht
  · rw [ht] at hu
    cases hu
    omega

theorem exec_clockAbsenceTimeout {s : State} (p : Port) (hr : s.inReset = false) :
    exec (.clockAbsenceTimeout p) s = .next (if s.clockOverdue p then linkLost p s.begun else s.begun) :=
  event_of_not_inReset _ hr

/-- Settles O16: by the watch's three cases, and by `clockOverdue`. -/
theorem receiveClockIsWatched : Obligations.ReceiveClockIsWatched := by
  intro s p hr
  have clock (present : Bool) : exec (.receiveClockChange p present) s = .next (clockChange p present s.begun) :=
    event_of_not_inReset _ hr
  refine ⟨?present, fun h => ?stopped, fun h => ?absent, fun h => ?early⟩
  case present => rw [clock, clockChange_present]; rfl
  case stopped =>
    have h' : (s.begun.link p).clockAbsentSince = none := h
    rw [clock, clockChange_stopped h']; rfl
  case absent =>
    have h' : (s.begun.link p).clockAbsentSince ≠ none := h
    rw [clock, clockChange_absent h']
  case early => simp [exec_clockAbsenceTimeout p hr, clockOverdue_eq_false h]

/-! ### The check code (12.1) -/

theorem crcDivisor_getLsbD (n : Fin 16) : (0x1021#16).getLsbD n.val = decide (n.val = 0 ∨ n.val = 5 ∨ n.val = 12) := by
  revert n
  decide

theorem crcStep_getLsbD (r : BitVec 16) (b : Bool) (n : Fin 16) :
    (crcStep r b).getLsbD n.val =
      ((decide (n.val ≠ 0) && r.getLsbD (n.val - 1)) ^^
        ((r.getLsbD 15 ^^ b) && decide (n.val = 0 ∨ n.val = 5 ∨ n.val = 12))) := by
  have shifted : (r <<< 1).getLsbD n.val = (decide (n.val ≠ 0) && r.getLsbD (n.val - 1)) := by
    rw [BitVec.getLsbD_shiftLeft]
    simp [n.isLt]
  have top : r.msb = r.getLsbD 15 := BitVec.msb_eq_getLsbD_last r
  unfold crcStep
  rw [top, ← crcDivisor_getLsbD, ← shifted]
  cases r.getLsbD 15 <;> cases b <;> simp

theorem RawFrame.covered_eq_checked (f : RawFrame) : f.covered = f.checked := by
  unfold RawFrame.covered RawFrame.checked RawFrame.cls
  split
  · rfl
  · exact (List.append_nil _).symm

theorem RawFrame.good_iff_sound (f : RawFrame) : f.good = true ↔ f.sound := by
  rw [RawFrame.good, decide_eq_true_eq, f.covered_eq_checked]
  rfl

theorem sealFrame_sound (h : BitVec 16) (b : BitVec 32) : (sealFrame h b).sound :=
  (RawFrame.good_iff_sound _).mp (decide_eq_true rfl)

theorem WireFrame.bits_sound (w : WireFrame) : w.bits.sound := by
  cases w <;> exact sealFrame_sound _ _

/-! ### The row of an inbound frame (Fig. 12-2 to Fig. 12-5) -/

theorem State.inboundRow_of_bad {s : State} {p : Port} {f : RawFrame} (h : ¬ f.sound) :
    s.inboundRow p f = .badFrame p := by
  have bad : f.good = false := by simpa [← RawFrame.good_iff_sound] using h
  simp [State.inboundRow, bad]

theorem RawFrame.channel_of_number {f : RawFrame} {ch : Channel} (h : f.header.extractLsb' 12 2 = ch.number) :
    f.channel = ch := by
  unfold RawFrame.channel
  rw [h]
  cases ch <;> rfl

/-- The row of a message frame in sequence, by its channel. -/
def messageRow (p : Port) (ch : InChannel) (f : RawFrame) : Instr :=
  match ch with
  | .request => requestRow p f
  | .notice => noticeRow p f
  | .answer => answerRow p f

/-- The channel an inbound channel is. -/
def inboundChannel : InChannel → Channel
  | .request => .request
  | .notice => .notice
  | .answer => .answer

theorem State.inboundRow_of_message {s : State} {p : Port} {f : RawFrame} {ch : InChannel} (hf : f.sound)
    (hcls : f.cls = 0) (hch : f.channel = inboundChannel ch) :
    s.inboundRow p f =
      if f.seq = (s.link p).expectedAt ch then messageRow p ch f else .secondCopyOfFrame p ch := by
  have good := (RawFrame.good_iff_sound f).mpr hf
  cases ch <;> simp [State.inboundRow, good, hcls, hch, inboundChannel, messageRow]

theorem unknown_kind {c : BitVec 4} {n : Nat} (h : c = 0 ∨ n < c.toNat) : ∀ m, 1 ≤ m → m ≤ n → c.toNat ≠ m := by
  intro m hm hn e
  obtain rfl | h := h
  · simp at e
    omega
  · omega

/-- The row that Fig. 12-4 and Fig. 12-5 give a message is the one its fields pick. -/
theorem messageRow_of_frameRow {p : Port} {ch : InChannel} {c : BitVec 4} {g : BitVec 2} {f : RawFrame} {i : Instr}
    (h : FrameRow p ch c g f.body i) (hc : f.kind = c) (hg : f.low = g) : messageRow p ch f = i := by
  generalize hb : f.body = b at h
  cases h with
  | request _ _ _ hu =>
    have unknown := unknown_kind (n := 5) (hu.imp_right fun h => h)
    simp only [messageRow, requestRow, hc]
    split
    case h_6 => rfl
    all_goals next e => exact absurd e (unknown _ (by decide) (by decide))
  | notice _ _ _ hu =>
    have unknown := unknown_kind (n := 5) (hu.imp_right fun h => h)
    simp only [messageRow, noticeRow, hc]
    split
    case h_6 => rfl
    all_goals next e => exact absurd e (unknown _ (by decide) (by decide))
  | answerKind _ _ _ hu =>
    have unknown := unknown_kind (n := 1) (hu.imp_right fun h => h)
    simp only [messageRow, answerRow, hc]
    split
    · next e => exact absurd e (unknown 1 (by decide) (by decide))
    · rfl
  | hello _ _ hg' =>
    have named : profileNamed g = true := decide_eq_true hg'
    simp [messageRow, noticeRow, hc, hg, named]
  | helloProfile _ _ hg' =>
    have unnamed : profileNamed g = false := by obtain rfl | rfl := hg' <;> rfl
    simp [messageRow, noticeRow, hc, hg, unnamed]
  | answer _ _ hg' =>
    have named : outcomeNamed g = true := decide_eq_true hg'
    simp [messageRow, answerRow, hc, hg, named, RawFrame.probeSlot, RawFrame.probeGen, RawFrame.line,
      bodyLine, hb]
  | answerOutcome => simp [messageRow, answerRow, hc, hg, outcomeNamed]
  | goodbye => simp [messageRow, noticeRow, hc]
  | streamDone => simp [messageRow, noticeRow, hc, RawFrame.tag, hg]
  | release | releaseDirty => simp [messageRow, noticeRow, hc, RawFrame.line, bodyLine, hb]
  | readShared | readExclusive | upgrade | streamRead | streamWrite =>
    simp [messageRow, requestRow, hc, RawFrame.tag, hg, RawFrame.line, bodyLine, hb]

theorem number_inboundChannel (ch : InChannel) : (inboundChannel ch).number = ch.number := by
  cases ch <;> rfl

theorem State.inboundRow_of_header {s : State} {p : Port} {f : RawFrame} {ch : InChannel} {seq : Bool}
    {c : BitVec 4} {x : BitVec 5} {g : BitVec 2} {i : Instr} (hf : f.sound)
    (hh : f.header = 0#2 ++ ch.number ++ BitVec.ofBool seq ++ c ++ x ++ g) (hrow : FrameRow p ch c g f.body i) :
    s.inboundRow p f =
      if seq = ((s.link p).up && (s.link p).expected ch) then i else .secondCopyOfFrame p ch := by
  obtain ⟨hcls, hch, hseq, hkind, hlow⟩ := header_low _ _ _ _ _ _ hh
  have channel := RawFrame.channel_of_number (hch.trans (number_inboundChannel ch).symm)
  rw [State.inboundRow_of_message hf hcls channel, messageRow_of_frameRow hrow hkind hlow]
  rw [show f.seq = seq from hseq]
  rfl

theorem State.inboundRow_of_outbound {s : State} {p : Port} {f : RawFrame} {seq : Bool} {c : BitVec 4}
    {x : BitVec 7} (hf : f.sound) (hh : f.header = 0#2 ++ 3#2 ++ BitVec.ofBool seq ++ c ++ x) :
    s.inboundRow p f = .unknownMessageKind p (.outboundChannel c) := by
  obtain ⟨hcls, hch, -, hkind⟩ := header_kind _ _ _ _ _ hh
  have good := (RawFrame.good_iff_sound f).mpr hf
  have channel : f.channel = .outbound := RawFrame.channel_of_number hch
  simp [State.inboundRow, good, RawFrame.cls, hcls, channel, RawFrame.kind, hkind]

theorem State.inboundRow_of_acknowledge {s : State} {p : Port} {f : RawFrame} {ch : Channel} {seq : Bool}
    {x : BitVec 11} (hf : f.sound) (hh : f.header = 1#2 ++ ch.number ++ BitVec.ofBool seq ++ x) :
    s.inboundRow p f = .acknowledge p ch seq := by
  obtain ⟨hcls, hch, hseq⟩ := header_channel _ _ _ _ hh
  have good := (RawFrame.good_iff_sound f).mpr hf
  have sequence : f.seq = seq := hseq
  simp [State.inboundRow, good, RawFrame.cls, hcls, RawFrame.channel_of_number hch, sequence]

theorem State.inboundRow_of_resend {s : State} {p : Port} {f : RawFrame} {x : BitVec 14} (hf : f.sound)
    (hh : f.header = 2#2 ++ x) : s.inboundRow p f = .resend p := by
  have good := (RawFrame.good_iff_sound f).mpr hf
  simp [State.inboundRow, good, RawFrame.cls, header_class _ _ hh]

theorem State.inboundRow_of_idle {s : State} {p : Port} {f : RawFrame} {x : BitVec 14} (hf : f.sound)
    (hh : f.header = 3#2 ++ x) : s.inboundRow p f = .idle p := by
  have good := (RawFrame.good_iff_sound f).mpr hf
  simp [State.inboundRow, good, RawFrame.cls, header_class _ _ hh]

/-! ### The bits of an outbound frame (Fig. 12-2 to Fig. 12-5) -/

theorem tagBits_eq_ofFin (tag : Tag) : tagBits tag = BitVec.ofFin tag := by
  revert tag
  decide

/-- The parameter field of a response whose bits 6 to 2 are 0 but for a reason or the fresh flag. -/
theorem paramBits_response (tag : Tag) :
    paramBits 0 0 (BitVec.ofFin tag) = 0#5 ++ tagBits tag ∧
      (∀ fresh : Bool, paramBits 0 (if fresh then 1 else 0) (BitVec.ofFin tag) =
        0#4 ++ BitVec.ofBool fresh ++ tagBits tag) ∧
      ∀ r : BitVec 3, paramBits r 0 (BitVec.ofFin tag) = r ++ 0#2 ++ tagBits tag := by
  revert tag
  decide

theorem OutMessage.fields_of_sentAs {m : OutMessage} {c : BitVec 4} {a : BitVec 7} {b : BitVec 32}
    (h : SentAs m c a b) : m.fields = (c, a, b) := by
  cases h with
  | grantShared tag | streamGo tag | untracked tag | poisoned tag | retry tag =>
    rw [← (paramBits_response tag).1]
    rfl
  | grantExclusive tag fresh =>
    rw [← (paramBits_response tag).2.1 fresh]
    rfl
  | kindInRegion tag | noRoom tag | notOnline tag | draining tag | kindNotPermitted tag | halted tag =>
    rw [← (paramBits_response tag).2.2]
    rfl
  | invalidate | downgrade => rfl
  | welcomeCaching | welcomeStreaming | farewell | portUnused | profileMismatch => rfl

theorem WireFrame.bits_of_sentAs {m : OutMessage} {c : BitVec 4} {a : BitVec 7} {b : BitVec 32} (seq : Bool)
    (h : SentAs m c a b) :
    (WireFrame.message seq m).bits.header = 0#2 ++ 3#2 ++ BitVec.ofBool seq ++ c ++ a ∧
      (WireFrame.message seq m).bits.body = b := by
  simp [WireFrame.bits, sealFrame, headerBits, OutMessage.fields_of_sentAs h]

theorem WireFrame.bits_acknowledge (ch : InChannel) (seq : Bool) :
    (WireFrame.acknowledge ch seq).bits.header = 1#2 ++ ch.number ++ BitVec.ofBool seq ++ 0#11 := by
  cases ch <;> cases seq <;> rfl

/-! ### Link control on a link that hears (R39, R40) -/

theorem event_goodFrame_of_hears {s : State} {p : Port} (act : State → State) (hr : s.inReset = false)
    (hh : s.hears p = true) : event s (goodFrame p act) = .next (act (s.heard p)) := by
  rw [event_of_not_inReset _ hr, goodFrame_of_hears act (s.hears_begun p ▸ hh)]
  rfl

@[simp] theorem State.heard_link (s : State) (p : Port) : (s.heard p).link p = (s.link p).heard :=
  State.link_setLink_same _ p _

theorem acknowledged_of_buffered {s : State} {p : Port} {f : SentFrame} (h : (s.link p).resend = some f) :
    acknowledged p .outbound f.seq s =
      s.setLink p { s.link p with resend := none, nextSeq := !(s.link p).nextSeq, attempts := 0 } := by
  simp [acknowledged, h]

theorem acknowledged_of_other {s : State} {p : Port} {ch : Channel} {seq : Bool}
    (h : ch ≠ .outbound ∨ ∀ f, (s.link p).resend = some f → f.seq ≠ seq) : acknowledged p ch seq s = s := by
  unfold acknowledged
  dsimp only
  split
  · next f hf =>
    obtain h | h := h
    · exact absurd rfl h
    · rw [if_neg (h f hf)]
  · rfl

/-- Settles O17: the check code bit by bit, the rows and the sent bits by their fields, the acts by `goodFrame`. -/
theorem linkControlFramesAct : Obligations.LinkControlFramesAct := by
  refine ⟨crcStep_getLsbD, fun s p f => ⟨State.inboundRow_of_bad, fun hf => ⟨?message, ?outbound, ?acknowledge,
    fun x hh => State.inboundRow_of_resend hf hh, fun x hh => State.inboundRow_of_idle hf hh⟩⟩, WireFrame.bits_sound,
    fun seq m c a b h => WireFrame.bits_of_sentAs seq h, WireFrame.bits_acknowledge, rfl, fun s p hr hh => ?acts⟩
  case message =>
    intro ch seq c x g i hheader hrow
    rw [State.inboundRow_of_header hf hheader hrow]
    exact ⟨fun e => if_pos e, fun e => if_neg e⟩
  case outbound => exact fun seq c x hheader => State.inboundRow_of_outbound hf hheader
  case acknowledge => exact fun ch seq x hheader => State.inboundRow_of_acknowledge hf hheader
  case acts =>
    have good (act : State → State) := event_goodFrame_of_hears act hr hh
    refine ⟨good _, fun ch => ?_, fun f hf => ?_, fun ch seq hother => ?_⟩
    · refine (good _).trans ?_
      rw [s.heard_link p]
      rfl
    · have hf' : ((s.heard p).link p).resend = some f := by rw [s.heard_link p, hf]
      refine (good _).trans ?_
      rw [acknowledged_of_buffered hf', s.heard_link p, State.heard, State.setLink_setLink]
    · have hother' : ch ≠ .outbound ∨ ∀ f, ((s.heard p).link p).resend = some f → f.seq ≠ seq := by
        rwa [s.heard_link p]
      exact (good _).trans (by rw [acknowledged_of_other hother'])

end Sys2Proof.Machine
end

section
/-! PROOFS. Transmission, failed attempts and the loss of a link (R39, R40, R41, R44, R69). -/

namespace Sys2Proof.Machine

open Sys2Proof

/-! ### Transmission (R40, R44, R116) -/

/-- The tags of a link once a message has left its outbound queue (R44). -/
def Link.tagsAfter (l : Link) : OutMessage → Vector TagState 4
  | .response tag .streamGo => l.tags.set tag .outstanding
  | .response tag _ => l.tags.set tag .free
  | _ => l.tags

theorem tagLeaves_transmit (p : Port) (m : OutMessage) (f : WireFrame) (l : Link) (s : State) :
    tagLeaves p m (transmit p f (s.setLink p l)) = transmit p f (s.setLink p { l with tags := l.tagsAfter m }) := by
  cases m with
  | response tag r =>
    have set (x : TagState) : (transmit p f (s.setLink p l)).setTag p tag x =
        transmit p f (s.setLink p { l with tags := l.tags.set tag x }) := by
      rw [State.setTag, State.modifyLink, transmit_link, State.link_setLink_same]
      exact congrArg (transmit p f) (State.setLink_setLink s p l _)
    cases r <;> exact set _
  | _ => rfl

theorem transmitHead_of_ready {s : State} {p : Port} {m : OutMessage} {rest : List OutMessage}
    (hu : (s.link p).up = true) (hb : (s.link p).resend = none) (hq : (s.link p).outbound = m :: rest) :
    transmitHead p s =
      transmit p (.message (s.link p).nextSeq m)
        (s.setLink p
          { s.link p with
            outbound := rest, resend := some { seq := (s.link p).nextSeq, msg := m }, attempts := 1
            sentAt := s.now, tags := (s.link p).tagsAfter m }) := by
  unfold transmitHead
  simp only [hu, hb, hq]
  rw [tagLeaves_transmit]
  cases m <;> rfl

theorem transmitHead_of_not_ready {s : State} {p : Port}
    (h : (s.link p).up = false ∨ (s.link p).resend ≠ none ∨ (s.link p).outbound = []) : transmitHead p s = s := by
  unfold transmitHead
  dsimp only
  split
  · next m rest hu hb hq => simp [hu, hb, hq] at h
  · rfl

/-- Settles O18: a link that can transmit by its queue's head, any other by what it lacks. -/
theorem queueHeadIsTransmittedAndHeld : Obligations.QueueHeadIsTransmittedAndHeld := by
  refine ⟨fun s p m rest hr hu hb hq => ?ready, fun s p hr h => ?idle⟩
  case ready =>
    refine (event_of_not_inReset _ hr).trans ?_
    rw [transmitHead_of_ready (s := s.begun) hu hb hq]
    cases m with
    | response tag r => cases r <;> rfl
    | _ => rfl
  case idle =>
    refine (event_of_not_inReset _ hr).trans ?_
    rw [transmitHead_of_not_ready (s := s.begun) h]

/-! ### Bad frames and failed attempts (R39, R40) -/

theorem badFrameArrives_of_up {s : State} {p : Port} (hu : (s.link p).up = true) :
    badFrameArrives p s =
      if 3 ≤ (s.link p).badFrames + 1 then
        linkLost p (s.setLink p { s.link p with badFrames := (s.link p).badFrames + 1 })
      else transmit p .resend (s.setLink p { s.link p with badFrames := (s.link p).badFrames + 1 }) := by
  simp only [badFrameArrives, hu, if_true]
  rfl

theorem failedAttempt_of_none {s : State} {p : Port} (h : (s.link p).resend = none) : failedAttempt p s = s := by
  simp [failedAttempt, h]

theorem failedAttempt_of_some {s : State} {p : Port} {f : SentFrame} (h : (s.link p).resend = some f) :
    failedAttempt p s =
      if (s.link p).attempts < 3 then
        transmit p (.message f.seq f.msg)
          (s.setLink p { s.link p with attempts := (s.link p).attempts + 1, sentAt := s.now })
      else linkLost p s := by
  simp only [failedAttempt, h]
  rfl

theorem exec_ackTimeout {s : State} (p : Port) (hr : s.inReset = false) :
    exec (.ackTimeout p) s = .next (if s.ackOverdue p then failedAttempt p s.begun else s.begun) :=
  event_of_not_inReset _ hr

theorem ackOverdue_eq_false {s : State} {p : Port}
    (h : (s.link p).up = false ∨ (s.link p).resend = none ∨ s.now < (s.link p).sentAt + 20) :
    s.ackOverdue p = false := by
  rw [← Bool.not_eq_true, ackOverdue_iff]
  rintro ⟨up, buffered, due⟩
  obtain down | empty | early := h
  · simp [down] at up
  · exact buffered empty
  · omega

theorem State.hears_of_up {s : State} {p : Port} (h : (s.link p).up = true) : s.hears p = true :=
  State.hears_iff.mpr (Or.inl h)

theorem exec_resend_of_hears {s : State} {p : Port} (hr : s.inReset = false) (hh : s.hears p = true) :
    exec (.resend p) s = .next (failedAttempt p (s.heard p)) :=
  event_goodFrame_of_hears _ hr hh

theorem State.heard_of_up {s : State} {p : Port} (h : (s.link p).up = true) :
    s.heard p = s.begun.setLink p { s.link p with badFrames := 0 } := by
  rw [State.heard, Link.heard_of_up h]

/-- Settles O19: a bad frame by its count, a failed attempt by what the resend buffer holds. -/
theorem badFramesAndFailedAttemptsAreRetried : Obligations.BadFramesAndFailedAttemptsAreRetried := by
  refine ⟨fun s p hr hu hbad => ?bad, fun s p hr => ⟨fun f hu hf hatt => ⟨?resend, fun hdue => ?timeout⟩,
    fun hh hb => ?unbuffered, fun h => ?early⟩⟩
  case bad =>
    refine (event_of_not_inReset _ hr).trans ?_
    rw [badFrameArrives_of_up (s := s.begun) hu, if_neg (by show ¬ 3 ≤ (s.link p).badFrames + 1; omega)]
    rfl
  case resend =>
    rw [exec_resend_of_hears hr (State.hears_of_up hu), State.heard_of_up hu,
      failedAttempt_of_some (f := f) (by rw [State.link_setLink_same]; exact hf), State.link_setLink_same,
      State.setLink_setLink, if_pos hatt]
    rfl
  case timeout =>
    have due : s.ackOverdue p = true := ackOverdue_iff.mpr ⟨hu, by simp [hf], hdue⟩
    rw [exec_ackTimeout p hr, if_pos due, failedAttempt_of_some (s := s.begun) hf,
      if_pos (show (s.begun.link p).attempts < 3 from hatt)]
    rfl
  case unbuffered =>
    rw [exec_resend_of_hears hr hh, failedAttempt_of_none (by rw [s.heard_link p, hb])]
  case early => simp [exec_ackTimeout p hr, ackOverdue_eq_false h]

/-! ### The loss of a link (R41, R69) -/

theorem State.setLink_lost (s : State) (p : Port) (l : Link) :
    (s.setLink p l).modifyLink p (fun l =>
      { l with up := false, resend := none, outbound := [], queue := [], tags := Vector.replicate 4 .free }) =
      s.setLink p l.lost := by
  rw [State.modifyLink, State.link_setLink_same, State.setLink_setLink]
  rfl

/-- A command that takes a link over a limit loses it, as it stands then. -/
theorem exec_of_linkLoss {s : State} {p : Port} {c : Instr} {l : Link} (hr : s.inReset = false)
    (h : LinkLoss s p c l) : exec c s = .next (linkLost p (s.begun.setLink p l)) := by
  have unchanged : s.begun.setLink p (s.link p) = s.begun := State.setLink_link_self s.begun p
  cases h with
  | badFrame hu h3 =>
    refine (event_of_not_inReset _ hr).trans ?_
    rw [badFrameArrives_of_up (s := s.begun) hu, if_pos (by show 3 ≤ (s.link p).badFrames + 1; omega)]
    rfl
  | resend hu f hf h3 =>
    rw [exec_resend_of_hears hr (State.hears_of_up hu), State.heard_of_up hu,
      failedAttempt_of_some (f := f) (by rw [State.link_setLink_same]; exact hf), State.link_setLink_same,
      if_neg (Nat.not_lt.mpr h3)]
  | ackTimeout hu f hf h3 hd =>
    have due : s.ackOverdue p = true := ackOverdue_iff.mpr ⟨hu, by simp [hf], hd⟩
    rw [exec_ackTimeout p hr, if_pos due, failedAttempt_of_some (s := s.begun) hf,
      if_neg (show ¬ (s.begun.link p).attempts < 3 from Nat.not_lt.mpr h3), unchanged]
  | clockAbsence hu t ht hd =>
    have due : s.clockOverdue p = true := clockOverdue_iff.mpr ⟨hu, t, ht, hd⟩
    rw [exec_clockAbsenceTimeout p hr, if_pos due, unchanged]

theorem linkLost_setLink_of_closed {s : State} {p : Port} (l : Link)
    (h : (s.port p).state = .unused ∨ (s.port p).state = .offline ∨ ∃ d, (s.port p).state = .isolated d) :
    linkLost p (s.setLink p l) = s.setLink p l.lost := by
  unfold linkLost
  rw [State.setLink_lost]
  obtain h | h | ⟨d, h⟩ := h <;> simp [h]

theorem linkLost_setLink_of_open {s : State} {p : Port} (l : Link)
    (h : (s.port p).state = .online ∨ ∃ d, (s.port p).state = .draining d) :
    linkLost p (s.setLink p l) = reportLoss p (s.setLink p l.lost) := by
  unfold linkLost
  rw [State.setLink_lost]
  obtain h | ⟨d, h⟩ := h <;> simp [h]

theorem reportLoss_cases (p : Port) (s : State) :
    ∃ u, u = { s with freeCount := s.freeCount + 1, lossReported := PortSet.insert s.lossReported p } ∧
      (reportLoss p s = u ∨ reportLoss p s = takeLoss p u) := by
  refine ⟨_, rfl, ?_⟩
  unfold reportLoss
  dsimp only
  split
  · exact Or.inr rfl
  · exact Or.inl rfl

/-! ### The isolation of a joined port -/

/-- The state in which the effects of an isolation act: the port's record is changed, its reports are dropped and
PortIsolated is raised (R63). -/
def isolating (p : Port) (reason : IsolationReason) (s : State) : State :=
  raise .portIsolated
    (dropLoss p (dropReport p (s.setPort p { s.port p with state := .isolated false, reason := reason })))

theorem isolate_of_joined {s : State} {p : Port} (reason : IsolationReason) (h : s.joined p) :
    isolate p reason s = isolationEffects p (isolating p reason s) := by
  unfold isolate
  obtain h | h | ⟨d, h⟩ := h <;> simp only [h] <;> rfl

theorem isolate_of_not_joined {s : State} {p : Port} (reason : IsolationReason) (h : ¬ s.joined p) :
    isolate p reason s = s := by
  unfold isolate
  dsimp only
  split
  · next e => exact absurd (Or.inl e) h
  · next e => exact absurd (Or.inr (Or.inl e)) h
  · next d e => exact absurd (Or.inr (Or.inr ⟨d, e⟩)) h
  · rfl
  · rfl

theorem State.joined_of_open {s : State} {p : Port}
    (h : (s.port p).state = .online ∨ ∃ d, (s.port p).state = .draining d) : s.joined p := Or.inr h

theorem State.joined_ne {s : State} {p : Port} (h : s.joined p) :
    (s.port p).state ≠ .unused ∧ ∀ x, (s.port p).state ≠ .isolated x := by
  obtain h | h | ⟨d, h⟩ := h <;> rw [h] <;> exact ⟨nofun, nofun⟩

/-- What follows the discarding of the port's queues are consequences, which add nothing to them. -/
theorem isolationEffects_moves_discarded (p : Port) (s : State) :
    Moves false (discardPort p s) (isolationEffects p s) := by
  unfold isolationEffects
  dsimp only
  have parked : Moves false (discardPort p s) (removeParked p (discardPort p s)) := removeParked_moves p .refl
  refine cleanupTest_moves _ (inFreeOrder_moves _ _ (fun k s h => endByIsolation_moves _ _ h) (markLost_moves _ ?_))
  split
  · exact arrangeCleanup_moves _ parked
  · exact parked

theorem isolationEffects_queue (p : Port) (s : State) : ((isolationEffects p s).link p).queue = [] := by
  obtain ⟨-, -, kept | emptied⟩ := (isolationEffects_moves_discarded p s).links_quiet p
  · rw [kept, discardPort, State.modifyLink, State.link_setLink_same]
  · exact emptied

theorem isolate_isPending {s : State} {p : Port} (reason : IsolationReason) (h : s.joined p) :
    (isolate p reason s).isPending .portIsolated = true := by
  rw [isolate_of_joined reason h]
  have effects : Moves false (isolating p reason s) _ := isolationEffects_moves p .refl
  exact isPending_of_rises effects.rises (raise_isPending _ _)

theorem isolate_queue {s : State} {p : Port} (reason : IsolationReason) (h : s.joined p) :
    ((isolate p reason s).link p).queue = [] := by
  rw [isolate_of_joined reason h]
  exact isolationEffects_queue p _

theorem isolate_up (s : State) (p q : Port) (reason : IsolationReason) :
    ((isolate p reason s).link q).up = (s.link q).up := by
  by_cases h : s.joined p
  · obtain ⟨-, -, -, -, links⟩ := isolate_leaves p reason s (State.joined_ne h).1 (State.joined_ne h).2
    exact (links q).1
  · rw [isolate_of_not_joined reason h]

theorem isolate_record {s : State} {p : Port} (reason : IsolationReason) (h : s.joined p) :
    ∃ d, (isolate p reason s).port p = { profile := (s.port p).profile, state := .isolated d, reason := reason } :=
  isolate_port p reason s (State.joined_ne h).1 (State.joined_ne h).2

theorem takeLoss_of_closed {s : State} {p : Port} (ho : (s.port p).state ≠ .online)
    (hd : ∀ d, (s.port p).state ≠ .draining d) : takeLoss p s = dropLoss p s := by
  unfold takeLoss
  split
  · next e => exact absurd e ho
  · next d e => exact absurd e (hd d)
  all_goals rfl

theorem takeLoss_of_open {s : State} {p : Port}
    (h : (s.port p).state = .online ∨ ∃ d, (s.port p).state = .draining d) :
    takeLoss p s = dropLoss p (isolate p .linkLost s) := by
  unfold takeLoss
  obtain h | ⟨d, h⟩ := h <;> simp only [h]

/-- Settles O20: every loss is `linkLost`, its report `takeLoss`, and what that isolates `isolate`. -/
theorem lostLinkEmptiesAndIsolates : Obligations.LostLinkEmptiesAndIsolates := by
  refine ⟨fun s p c l hr hloss => ⟨fun hclosed => ?closed, fun hopen => ?opened⟩,
    fun s t p ht => ⟨?report, fun ho hd => ?kept, fun hopen => ?taken⟩⟩
  case closed => rw [exec_of_linkLoss hr hloss, linkLost_setLink_of_closed (s := s.begun) l hclosed]
  case opened =>
    obtain ⟨u, hu, hcases⟩ := reportLoss_cases p (s.begun.setLink p l.lost)
    refine ⟨_, u, ?_, hu, hcases⟩
    rw [exec_of_linkLoss hr hloss, linkLost_setLink_of_open (s := s.begun) l hopen]
  case report => exact ht ▸ (takeLoss_leaves p s).1
  case kept => exact ht.trans (takeLoss_of_closed ho hd)
  case taken =>
    have joined := State.joined_of_open hopen
    rw [takeLoss_of_open hopen] at ht
    subst ht
    exact ⟨rfl, isolate_up s p p _, isolate_queue _ joined, isolate_record _ joined, isolate_isPending _ joined⟩

end Sys2Proof.Machine
end

section
/-! PROOFS. What arriving messages do by the state of their port: requests, Hello, protocol errors, and messages on
closed ports (R42 to R45, R48 to R52, R56, R57, R70). -/

namespace Sys2Proof.Machine

open Sys2Proof

/-! ### Messages that are heard (R39, R42) -/

theorem event_message_of_hears {s : State} {p : Port} (ch : InChannel) (act : State → State) (hr : s.inReset = false)
    (hh : s.hears p = true) : event s (messageFrame p ch act) = .next (act (s.framed p ch)) := by
  rw [event_of_not_inReset _ hr, messageFrame_of_hears ch act hh]

@[simp] theorem Link.heard_queue (l : Link) : l.heard.queue = l.queue := by
  unfold Link.heard
  split <;> rfl

@[simp] theorem Link.heard_outbound (l : Link) : l.heard.outbound = l.outbound := by
  unfold Link.heard
  split <;> rfl

@[simp] theorem Link.toggleExpected_queue (l : Link) (ch : InChannel) : (l.toggleExpected ch).queue = l.queue := by
  cases ch <;> rfl

@[simp] theorem Link.toggleExpected_outbound (l : Link) (ch : InChannel) :
    (l.toggleExpected ch).outbound = l.outbound := by
  cases ch <;> rfl

/-! ### Requests (R45, R70) -/

theorem exec_request_of_joined {s : State} {p : Port} (kind : RequestKind) (tag : Tag) (line : LineNo)
    (hr : s.inReset = false) (hh : s.hears p = true) (hj : s.joined p) :
    exec (requestCommand kind p tag line) s = .next (requestArrives p kind tag line (s.framed p .request)) := by
  cases kind <;> exact event_message_of_joined .request _ hr hh hj

/-- A request with a Free tag changes the record of its link alone: queued, or answered at once. -/
theorem requestArrives_of_online {s : State} {p : Port} {tag : Tag} (kind : RequestKind) (line : LineNo)
    (hf : s.tagState p tag = .free) (ho : (s.port p).state = .online) :
    requestArrives p kind tag line s =
      s.setLink p
        { s.link p with
          tags := (s.link p).tags.set tag .outstanding
          queue := (s.link p).queue ++ [{ tag := tag, kind := kind, line := line }] } := by
  have ho' : ((s.setTag p tag .outstanding).port p).state = .online := ho
  simp only [requestArrives, hf, if_true, ho]
  simp [State.setTag, State.modifyLink]

theorem respond_outstanding (s : State) (p : Port) (tag : Tag) (r : Response) :
    respond p tag r (s.setTag p tag .outstanding) =
      s.setLink p
        { s.link p with
          tags := (s.link p).tags.set tag .answering
          outbound := (s.link p).outbound ++ [.response tag r] } := by
  have outstanding : (s.setTag p tag .outstanding).tagState p tag = .outstanding := by
    simp [State.tagState, State.setTag, State.modifyLink]
  rw [respond, if_neg (by rw [outstanding]; decide)]
  simp [queueMessage, State.setTag, State.modifyLink]

theorem requestArrives_of_closed {s : State} {p : Port} {tag : Tag} {why : RefusedReason} (kind : RequestKind)
    (line : LineNo) (hf : s.tagState p tag = .free)
    (hp : (s.port p).state = .offline ∧ why = .notOnline ∨ (∃ d, (s.port p).state = .draining d) ∧ why = .draining) :
    requestArrives p kind tag line s =
      s.setLink p
        { s.link p with
          tags := (s.link p).tags.set tag .answering
          outbound := (s.link p).outbound ++ [.response tag (.refused why)] } := by
  unfold requestArrives
  rw [if_pos hf]
  obtain ⟨hp, rfl⟩ | ⟨⟨d, hp⟩, rfl⟩ := hp <;> simp only [hp] <;> exact respond_outstanding s p tag _

/-- Settles O21: a Free tag's request by the state of its port. -/
theorem requestsAreQueuedOrAnsweredAtArrival : Obligations.RequestsAreQueuedOrAnsweredAtArrival := by
  refine ⟨fun s p kind tag line hr hh ho hf => ?online, fun s p kind tag line why hr hh hf hp => ?closed⟩
  case online =>
    rw [exec_request_of_joined kind tag line hr hh (Or.inr (Or.inl ho)),
      requestArrives_of_online (s := s.framed p .request) kind line (by simpa using hf) ho]
    simp
  case closed =>
    have joined : s.joined p := by
      obtain ⟨h, -⟩ | ⟨h, -⟩ := hp
      · exact Or.inl h
      · exact Or.inr (Or.inr h)
    rw [exec_request_of_joined kind tag line hr hh joined,
      requestArrives_of_closed (s := s.framed p .request) kind line (by simpa using hf) hp]
    simp

/-! ### Closed ports (R42, R65, R184) -/

theorem State.listens_of_closed {s : State} {p : Port}
    (h : (∃ d, (s.port p).state = .isolated d) ∨ (s.port p).state = .unused) : s.listens p = false := by
  obtain ⟨d, h⟩ | h := h <;> simp [State.listens, h]

theorem ifListening_of_closed {s : State} {p : Port} (act : State → State)
    (h : (∃ d, (s.port p).state = .isolated d) ∨ (s.port p).state = .unused) : ifListening p act s = s := by
  simp [ifListening, State.listens_of_closed h]

theorem State.isIsolated_of_isolated {s : State} {p : Port} (h : ∃ d, (s.port p).state = .isolated d) :
    s.isIsolated p = true := by
  obtain ⟨d, h⟩ := h
  simp [State.isIsolated, h]

theorem State.isIsolated_of_joined {s : State} {p : Port} (h : s.joined p) : s.isIsolated p = false := by
  obtain h | h | ⟨d, h⟩ := h <;> simp [State.isIsolated, h]

/-- A message other than Hello acts only if its port listens; a Hello only if its port is not Isolated. -/
theorem exec_of_message {c : Instr} {p : Port} {ch : InChannel} (h : c.message = some (p, ch)) :
    ∃ act, (∀ s, exec c s = event s (messageFrame p ch act)) ∧
      (∀ s : State, s.isIsolated p = true → s.listens p = false → act s = s) ∧
        (c.isHello = false → ∀ s : State, s.listens p = false → act s = s) := by
  have quiet (act : State → State) (s : State) (hs : s.listens p = false) : ifListening p act s = s := by
    simp [ifListening, hs]
  cases c with
  | hello q f => cases h; exact ⟨_, fun _ => rfl, fun s hi _ => by simp [helloArrives, hi], nofun⟩
  | unknownMessageKind q m =>
    cases m with
    | helloProfile f => cases h; exact ⟨_, fun _ => rfl, fun s hi _ => by simp [hi], nofun⟩
    | undefinedKind => cases h; exact ⟨_, fun _ => rfl, fun s _ hs => quiet _ s hs, fun _ s hs => quiet _ s hs⟩
    | answerOutcome => cases h; exact ⟨_, fun _ => rfl, fun s _ hs => quiet _ s hs, fun _ s hs => quiet _ s hs⟩
    | outboundChannel => cases h
  | _ => cases h <;> exact ⟨_, fun _ => rfl, fun s _ hs => quiet _ s hs, fun _ s hs => quiet _ s hs⟩

theorem protocolError_of_unused {s : State} {p : Port} (h : (s.port p).state = .unused) :
    protocolError p s = raise .protocolError s := by
  have closed : ¬ (raise .protocolError s).joined p := by
    rintro (e | e | ⟨d, e⟩) <;> rw [show (s.port p).state = _ from e] at h <;> cases h
  rw [protocolError, isolate_of_not_joined _ closed]

/-- Settles O22: a closed port does not listen, and only a Hello asks whether it is Unused. -/
theorem messagesOnClosedPortsAreDiscarded : Obligations.MessagesOnClosedPortsAreDiscarded := by
  intro s p hr hh
  refine ⟨fun c ch hc hp => ?message, fun code hp => ?outbound, fun f hu => ?hello⟩
  case message =>
    obtain ⟨act, hx, isolated, unused⟩ := exec_of_message hc
    rw [hx, event_message_of_hears ch act hr hh]
    obtain hi | ⟨hu, hello⟩ := hp
    · rw [isolated (s.framed p ch) (State.isIsolated_of_isolated hi) (State.listens_of_closed (Or.inl hi))]
    · rw [unused hello (s.framed p ch) (State.listens_of_closed (Or.inr hu))]
  case outbound =>
    refine (event_goodFrame_of_hears _ hr hh).trans ?_
    rw [ifListening_of_closed (s := s.heard p) _ hp]
  case hello =>
    have hi : (s.framed p .notice).isIsolated p = false := by simp [State.isIsolated, hu]
    refine (event_message_of_hears .notice _ hr hh).trans ?_
    simp only [hi, Bool.false_eq_true, if_false]
    rw [protocolError_of_unused (s := s.framed p .notice) hu]

/-! ### Hello (R48, R56, R57) -/

theorem profileOf_named {f : BitVec 2} {claimed : Profile}
    (h : f = 1 ∧ claimed = .caching ∨ f = 2 ∧ claimed = .streaming) : profileOf f = some claimed := by
  obtain ⟨rfl, rfl⟩ | ⟨rfl, rfl⟩ := h <;> rfl

theorem exec_hello_of_hears {s : State} {p : Port} {f : BitVec 2} {claimed : Profile} (hr : s.inReset = false)
    (hh : s.hears p = true) (hi : s.isIsolated p = false) (hf : profileOf f = some claimed) :
    exec (.hello p f) s =
      .next (if (s.link p).outbound.any OutMessage.isControl then s.framed p .notice
        else helloTaken p claimed (s.framed p .notice)) := by
  have hi' : (s.framed p .notice).isIsolated p = false := hi
  refine (event_message_of_hears .notice _ hr hh).trans ?_
  simp [helloArrives, hi', hf, State.controlWaits]

/-- Settles O23: a Hello by the gate of a waiting control message, and then by the state of its port. -/
theorem helloIsDisposedOfByPortState : Obligations.HelloIsDisposedOfByPortState := by
  intro s p f claimed hr hh hf
  have named := profileOf_named hf
  have exec_taken (hi : s.isIsolated p = false) (hgate : ∀ m ∈ (s.link p).outbound, m.isControl = false) :
      exec (.hello p f) s = .next (helloTaken p claimed (s.framed p .notice)) := by
    have open_gate : (s.link p).outbound.any OutMessage.isControl = false := by simpa using hgate
    simp [exec_hello_of_hears hr hh hi named, open_gate]
  refine ⟨fun hgate => ⟨fun ho hp => ?joins, fun ho hp => ?mismatch, fun hu => ?unused, fun hopen => ?repeated⟩,
    fun hwaits => ?gated⟩
  case joins =>
    rw [exec_taken (State.isIsolated_of_joined (Or.inl ho)) hgate]
    simp [helloTaken, ho, hp, queueMessage, State.modifyLink]
  case mismatch =>
    rw [exec_taken (State.isIsolated_of_joined (Or.inl ho)) hgate]
    simp [helloTaken, ho, hp, queueMessage, State.modifyLink]
  case unused =>
    rw [exec_taken (by simp [State.isIsolated, hu]) hgate]
    simp [helloTaken, hu, queueMessage, State.modifyLink]
  case repeated =>
    rw [exec_taken (State.isIsolated_of_joined (Or.inr hopen)) hgate]
    obtain ho | ⟨d, hd⟩ := hopen
    · simp [helloTaken, ho]
    · simp [helloTaken, hd]
  case gated =>
    have waits : (s.link p).outbound.any OutMessage.isControl = true := by simpa using hwaits
    cases hi : s.isIsolated p with
    | false => simp [exec_hello_of_hears hr hh hi named, waits]
    | true =>
      have hi' : (s.framed p .notice).isIsolated p = true := hi
      refine (event_message_of_hears .notice _ hr hh).trans ?_
      simp [helloArrives, hi']

/-! ### Protocol errors (R43, R45, R50, R51, R52) -/

theorem Txn.probedLine_of_probesLine {t : Txn} {l : LineNo} (h : t.ProbesLine l) : t.probedLine = l := by
  cases h with
  | victim v hp hv => simp [Txn.probedLine, hp, hv]
  | own hp =>
    unfold Txn.probedLine
    split
    · next e _ => exact absurd e hp
    · rfl

theorem Txn.find_probe_of_awaits {t : Txn} {p : Port} (h : t.awaits p = true) :
    ∃ m, (t.probes.find? fun m => decide (m.port = p) && m.outcome.isNone) = some m := by
  rw [← Option.isSome_iff_exists, List.find?_isSome]
  simpa [Txn.awaits] using h

theorem State.judgeAnswer_of_found {s : State} {p : Port} {k : SlotId} (hk : k.val < 32) {t : Txn} {m : Probe}
    (l : LineNo) (o : ProbeOutcome) (ht : s.txn k = some t)
    (hm : (t.probes.find? fun m => decide (m.port = p) && m.outcome.isNone) = some m) :
    s.judgeAnswer p ⟨k.val, hk⟩ (s.slot k).gen l o =
      if t.probedLine ≠ l then .error
      else if o = .written ∧ m.role = .sharer ∧ m.kind = .invalidate then .error else .taken k := by
  simp [State.judgeAnswer, ht, hm]

theorem answerArrives_of_error {s : State} {p : Port} {n : Fin 32} {g : Bool} {l : LineNo} {f : BitVec 2}
    {o : ProbeOutcome} (hf : outcomeOf f = some o) (h : s.judgeAnswer p n g l o = .error) :
    answerArrives p n g l f s = protocolError p s := by
  simp [answerArrives, hf, h]

theorem exec_of_breach {s : State} {p : Port} {c : Instr} {ch : InChannel} (hr : s.inReset = false)
    (hh : s.hears p = true) (hj : s.joined p) (h : Breach s p c ch) :
    exec c s = .next (protocolError p (s.framed p ch)) := by
  cases h with
  | kind ch code => exact event_message_of_joined ch _ hr hh hj
  | outcome => exact event_message_of_joined .answer _ hr hh hj
  | profile f =>
    have hi : (s.framed p .notice).isIsolated p = false := State.isIsolated_of_joined (s := s.framed p .notice) hj
    refine (event_message_of_hears .notice _ hr hh).trans ?_
    simp [hi]
  | tag k tag l htag =>
    rw [exec_request_of_joined k tag l hr hh hj, requestArrives, if_neg (by simpa using htag)]
  | release l hp | releaseDirty l hp =>
    refine (event_message_of_joined .notice _ hr hh hj).trans ?_
    rw [releaseArrives, s.framed_port, if_pos hp]
  | streamDone tag hp =>
    rw [exec_streamDone_of_joined tag hr hh hj, streamDoneArrives, s.framed_port, if_pos hp]
  | line k t l' l o ho ht ha hn hl =>
    obtain ⟨m, hm⟩ := Txn.find_probe_of_awaits ha
    obtain ⟨x, hx⟩ := outcomeOf_of_ne_zero ho
    have wrong : t.probedLine ≠ l := Txn.probedLine_of_probesLine hn ▸ hl
    have judged := State.judgeAnswer_of_found (by omega) l x ht hm
    rw [if_pos wrong] at judged
    rw [exec_answer_of_joined _ _ l o hr hh hj, answerArrives_of_error hx (by simpa using judged)]
  | written k t m l ht hn hm hrole hkind =>
    have judged := State.judgeAnswer_of_found (by omega) l .written ht hm
    rw [if_neg (not_not.mpr (Txn.probedLine_of_probesLine hn)), if_pos ⟨rfl, hrole, hkind⟩] at judged
    rw [exec_answer_of_joined _ _ l 2 hr hh hj, answerArrives_of_error rfl (by simpa using judged)]

/-- Settles O24: by the kinds of breach, each of which the arrival checks answer by `protocolError`. -/
theorem protocolErrorsIsolateThePort : Obligations.ProtocolErrorsIsolateThePort := by
  intro s p hr hh hj
  refine ⟨fun c ch h => exec_of_breach hr hh hj h, fun code => ?_⟩
  refine (event_goodFrame_of_hears _ hr hh).trans ?_
  rw [ifListening_of_joined (s := s.heard p) _ hj]
  rfl

end Sys2Proof.Machine
end

section
/-! PROOFS. The isolation of a port: its queues, its Cleanup job, its probes and its leases (R63 to R67, R126, R137,
R155). -/

namespace Sys2Proof.Machine

open Sys2Proof

/-! ### The state in which an isolation's endings begin -/

theorem quiesceCheck_frame (s : State) :
    ∃ v u n, quiesceCheck s = { s with service := v, unit := u, notify := n } := by
  unfold quiesceCheck completeLong
  split
  · split
    · exact ⟨_, _, _, rfl⟩
    · exact ⟨_, _, _, rfl⟩
  · exact ⟨_, _, _, rfl⟩

@[simp] theorem quiesceCheck_port (s : State) (q : Port) : (quiesceCheck s).port q = s.port q := by
  obtain ⟨v, u, n, e⟩ := quiesceCheck_frame s
  rw [e]
  rfl

@[simp] theorem quiesceCheck_sweep (s : State) : (quiesceCheck s).sweep = s.sweep := by
  obtain ⟨v, u, n, e⟩ := quiesceCheck_frame s
  rw [e]

@[simp] theorem removeParked_port (p q : Port) (s : State) : (removeParked p s).port q = s.port q :=
  quiesceCheck_port _ q

@[simp] theorem discardPort_port (p q : Port) (s : State) : (discardPort p s).port q = s.port q := rfl

/-- The state with the isolated port's queues and parked requests gone and its Cleanup job arranged. -/
def isolationArranged (p : Port) (s : State) : State :=
  let v := removeParked p (discardPort p s)
  if (v.port p).profile = .caching then arrangeCleanup p v else v

/-- The slots whose phase or lease the isolation ends, in the free order. -/
def isolationEnded (p : Port) (s : State) : List SlotId :=
  shuffle (s.endedByLoss p ++ s.leasedBy p).length (markLost p s).freeCount (s.endedByLoss p ++ s.leasedBy p)

/-- The state with the port's unanswered probes marked Lost, in which the endings begin. -/
def isolationLost (p : Port) (s : State) : State :=
  { markLost p (isolationArranged p s) with
    freeCount := (isolationArranged p s).freeCount + (isolationEnded p (isolationArranged p s)).length }

theorem markLost_freeCount (p : Port) (s : State) : (markLost p s).freeCount = s.freeCount := by
  rw [markLost_slots]

theorem isolationEffects_eq (p : Port) (s : State) :
    isolationEffects p s =
      cleanupTest p
        ((isolationEnded p (isolationArranged p s)).foldl (fun x k => endByIsolation p k x) (isolationLost p s)) := by
  have length : (isolationEnded p (isolationArranged p s)).length =
      ((isolationArranged p s).endedByLoss p ++ (isolationArranged p s).leasedBy p).length :=
    (shuffle_perm _ _ _).length_eq
  rw [isolationLost, length, ← markLost_freeCount p (isolationArranged p s)]
  rfl

theorem mem_endedByLoss {s : State} {p : Port} {k : SlotId} :
    k ∈ s.endedByLoss p ↔
      ∃ t, s.txn k = some t ∧ t.awaits p = true ∧ ∀ m ∈ t.probes, m.port ≠ p → m.outcome ≠ none := by
  simp only [State.endedByLoss, List.mem_filter, mem_allSlots, true_and]
  cases s.txn k with
  | none => simp
  | some t =>
    have answered : (t.probes.all fun m => m.outcome.isSome || decide (m.port = p)) = true ↔
        ∀ m ∈ t.probes, m.port ≠ p → m.outcome ≠ none := by
      simp only [List.all_eq_true, Bool.or_eq_true, Option.isSome_iff_ne_none, decide_eq_true_eq]
      exact forall₂_congr fun m _ => by tauto
    simp [answered]

theorem mem_leasedBy {s : State} {p : Port} {k : SlotId} :
    k ∈ s.leasedBy p ↔ ∃ t, s.txn k = some t ∧ t.phase = some .leased ∧ t.originPort = some p := by
  simp only [State.leasedBy, List.mem_filter, mem_allSlots, true_and]
  cases s.txn k <;> simp

theorem mem_isolationEnded {s : State} {p : Port} {k : SlotId} :
    k ∈ isolationEnded p s ↔ ∃ t, s.txn k = some t ∧
      (t.awaits p = true ∧ (∀ m ∈ t.probes, m.port ≠ p → m.outcome ≠ none) ∨
        t.phase = some .leased ∧ t.originPort = some p) := by
  unfold isolationEnded
  rw [(shuffle_perm _ _ _).mem_iff, List.mem_append, mem_endedByLoss, mem_leasedBy, ← exists_or]
  exact exists_congr fun t => and_or_left.symm

/-! ### The frame of the arranging -/

theorem removeParked_walk (p : Port) (s : State) :
    Walk { s with parked := s.parked.filter fun q => decide (q.port ≠ p) } (removeParked p s) :=
  quiesceCheck_walk (.refl _)

theorem isolationArranged_walk (p : Port) (s : State) :
    Walk { discardPort p s with parked := s.parked.filter fun q => decide (q.port ≠ p) } (isolationArranged p s) := by
  unfold isolationArranged
  dsimp only
  split
  · exact (removeParked_walk p (discardPort p s)).trans (arrangeCleanup_walk p (.refl _))
  · exact removeParked_walk p (discardPort p s)

theorem isolationArranged_txn (p : Port) (s : State) (k : SlotId) : (isolationArranged p s).txn k = s.txn k :=
  (isolationArranged_walk p s).txn k

theorem isolationArranged_slot (p : Port) (s : State) (k : SlotId) : (isolationArranged p s).slot k = s.slot k :=
  (isolationArranged_walk p s).slot k

theorem isolationArranged_isIsolated {p : Port} {s : State} (h : s.isIsolated p = true) :
    (isolationArranged p s).isIsolated p = true :=
  isIsolated_quiet p ((isolationArranged_walk p s).ports p) h

theorem discardPort_link (p : Port) (s : State) :
    (discardPort p s).link p =
      { s.link p with
        outbound := [], resend := none, queue := [], tags := #v[.free, .free, .free, .free] } := by
  rw [discardPort, State.modifyLink, State.link_setLink_same]
  rfl

theorem isolationArranged_link {p : Port} {s : State} (h : s.isIsolated p = true) :
    (isolationArranged p s).link p =
      { s.link p with
        outbound := [], resend := none, queue := [], tags := #v[.free, .free, .free, .free] } :=
  ((isolationArranged_walk p s).isolated p h).trans (discardPort_link p s)

theorem arrangeCleanup_dir_wf {p : Port} {s : State} (h : s.dir.Wf) : (arrangeCleanup p s).dir.Wf :=
  dir_wf_of_moves (arrangeCleanup_moves p (refl_moves s)) h

theorem isolationArranged_dir_wf {p : Port} {s : State} (h : s.dir.Wf) : (isolationArranged p s).dir.Wf := by
  have parked : (removeParked p (discardPort p s)).dir.Wf :=
    dir_wf_of_moves (removeParked_moves p (discardPort_moves p (refl_moves s))) h
  unfold isolationArranged
  dsimp only
  split
  · exact arrangeCleanup_dir_wf parked
  · exact parked

/-! ### The probes marked Lost (R137) -/

theorem Txn.awaits_iff {t : Txn} {p : Port} : t.awaits p = true ↔ ∃ m ∈ t.probes, m.port = p ∧ m.outcome = none := by
  simp [Txn.awaits]

theorem Txn.losing_awaits (p : Port) (t : Txn) : (t.losing p).awaits p = false := by
  rw [← Bool.not_eq_true, Txn.awaits_iff]
  rintro ⟨m, hm, hp, ho⟩
  obtain ⟨n, -, rfl⟩ := List.mem_map.mp hm
  split at ho
  · cases ho
  · next h =>
    split at hp
    · contradiction
    · exact h ⟨hp, ho⟩

/-! ### The endings, in whatever order (R126, R137) -/

/-- What the endings in a list of slots leave: every other slot, and the link of the Isolated port, which no transaction
comes to await. -/
structure EndingsLeave (p : Port) (L : List SlotId) (s t : State) : Prop where
  isolated : t.isIsolated p = true
  link : t.link p = s.link p
  slots : ∀ j ∉ L, t.slot j = s.slot j
  waits : ∀ (k : SlotId) (x : Txn), t.txn k = some x → x.awaits p = false

theorem endings_leave {p : Port} {s : State} (L : List SlotId) (hd : s.dir.Wf) (hi : s.isIsolated p = true)
    (hw : ∀ (k : SlotId) (t : Txn), s.txn k = some t → t.awaits p = false) :
    EndingsLeave p L s (L.foldl (fun x k => endByIsolation p k x) s) := by
  induction L generalizing s with
  | nil => exact ⟨hi, rfl, fun _ _ => rfl, hw⟩
  | cons k L ih =>
    have own : Own k s (endByIsolation p k s) := endByIsolation_own p hd (.refl k s)
    have waits (j : SlotId) (t : Txn) (h : (endByIsolation p k s).txn j = some t) : t.awaits p = false := by
      by_cases e : j = k
      · subst e
        exact own.waits p hi (fun x hx => hw j x hx) t h
      · rw [State.txn, own.slots j e] at h
        exact hw j t h
    have rest := ih (s := endByIsolation p k s) (dir_wf_of_moves (endByIsolation_moves p k (refl_moves s)) hd)
      (isIsolated_quiet p (own.ports p) hi) waits
    refine ⟨rest.isolated, rest.link.trans (own.links p hi), fun j hj => ?_, rest.waits⟩
    have away : j ≠ k ∧ j ∉ L := by simpa using hj
    exact (rest.slots j away.2).trans (own.slots j away.1)

theorem isolationLost_dir_wf {p : Port} {s : State} (h : s.dir.Wf) : (isolationLost p s).dir.Wf := by
  rw [isolationLost, markLost_slots]
  exact isolationArranged_dir_wf h

theorem isolationLost_isIsolated {p : Port} {s : State} (h : s.isIsolated p = true) :
    (isolationLost p s).isIsolated p = true := by
  rw [isolationLost, markLost_slots]
  exact isolationArranged_isIsolated h

theorem isolationLost_link {p : Port} {s : State} (h : s.isIsolated p = true) :
    (isolationLost p s).link p =
      { s.link p with
        outbound := [], resend := none, queue := [], tags := #v[.free, .free, .free, .free] } := by
  rw [isolationLost, markLost_slots]
  exact isolationArranged_link h

theorem isolationLost_slot (p : Port) (s : State) (k : SlotId) :
    (isolationLost p s).slot k = { s.slot k with txn := (s.txn k).map (Txn.losing p) } := by
  rw [← isolationArranged_slot p s k, ← isolationArranged_txn p s k, isolationLost, markLost_slots]
  simp [State.slot, State.txn]

theorem isolationLost_waits (p : Port) (s : State) (k : SlotId) (t : Txn) (h : (isolationLost p s).txn k = some t) :
    t.awaits p = false := by
  rw [State.txn, isolationLost_slot] at h
  obtain ⟨u, -, rfl⟩ := Option.map_eq_some_iff.mp h
  exact u.losing_awaits p

/-- What an isolation's effects leave of the port's link and of the transactions (R65, R137). -/
theorem isolationEffects_leave {p : Port} {s : State} (hd : s.dir.Wf) (hi : s.isIsolated p = true) :
    EndingsLeave p (isolationEnded p (isolationArranged p s)) (isolationLost p s) (isolationEffects p s) := by
  rw [isolationEffects_eq]
  have ended := endings_leave (p := p) (isolationEnded p (isolationArranged p s)) (isolationLost_dir_wf hd)
    (isolationLost_isIsolated hi) (isolationLost_waits p s)
  generalize List.foldl _ (isolationLost p s) _ = u at ended
  have tested : Walk u (cleanupTest p u) := cleanupTest_walk p (.refl _)
  refine ⟨isIsolated_quiet p (tested.ports p) ended.isolated, (tested.isolated p ended.isolated).trans ended.link,
    fun j hj => (tested.slot j).trans (ended.slots j hj), fun k x hx => ended.waits k x ?_⟩
  rwa [← tested.txn k]

/-! ### The isolation of a joined port -/

theorem isolating_isIsolated (p : Port) (reason : IsolationReason) (s : State) :
    (isolating p reason s).isIsolated p = true := by
  simp [isolating, State.isIsolated]

theorem not_mem_isolationEnded {s : State} {p : Port} {k : SlotId} {t : Txn} (ht : s.txn k = some t)
    (hl : t.phase = some .leased → t.originPort ≠ some p) (hm : ∃ m ∈ t.probes, m.port ≠ p ∧ m.outcome = none) :
    k ∉ isolationEnded p (isolationArranged p s) := by
  rw [mem_isolationEnded]
  rintro ⟨u, hu, ⟨-, answered⟩ | ⟨leased, origin⟩⟩ <;> rw [isolationArranged_txn, ht] at hu <;> cases hu
  · obtain ⟨m, mem, other, unanswered⟩ := hm
    exact answered m mem other unanswered
  · exact hl leased origin

theorem not_has_diff_single (S : PortSet) (p : Port) : PortSet.has (PortSet.diff S (PortSet.single p)) p = false := by
  simp [has_diff, has_single]

theorem endByIsolation_of_not_leased {s : State} {k : SlotId} {t : Txn} (p : Port) (ht : s.txn k = some t)
    (h : t.phase ≠ some .leased) : endByIsolation p k s = phaseEnd k s := by
  simp [endByIsolation, ht, h]

/-! ### The Cleanup job (R67, R155) -/

theorem arrangeCleanup_of_no_drain {s : State} {p : Port} (h : (.drain p) ∉ s.sweep.jobs) :
    arrangeCleanup p s = enqueueJob (.cleanup p) s := by
  have none : (s.sweep.jobs.any fun j => decide (j = .drain p)) = false :=
    List.any_eq_false.mpr fun x hx e => h (of_decide_eq_true e ▸ hx)
  simp [arrangeCleanup, none]

/-- The sweep engine with the port's Drain job made its Cleanup job, in its place (R155). -/
def drainConverted (p : Port) (s : State) : State :=
  { s with sweep := { s.sweep with jobs := s.sweep.jobs.map fun x => if x = .drain p then .cleanup p else x } }

theorem arrangeCleanup_of_drain {s : State} {p : Port} {j : Job} {rest : List Job} (hj : s.sweep.jobs = j :: rest)
    (h : .drain p ∈ s.sweep.jobs) :
    arrangeCleanup p s =
      if j = .drain p then
        match s.sweep.walker with
        | .atSet i => advance (walkOn (.cleanup p) i.val (drainConverted p s))
        | .past => advance (drainConverted p s)
        | .idle => drainConverted p s
      else drainConverted p s := by
  have some : (s.sweep.jobs.any fun j => decide (j = .drain p)) = true :=
    List.any_eq_true.mpr ⟨_, h, decide_eq_true rfl⟩
  rw [arrangeCleanup, if_pos some]
  simp only [convertDrain, drainConverted, hj] <;> rfl

/-- Settles O26: the effects of an isolation by its parts, each of which leaves what the part before has made. -/
theorem isolationTakesThePortOut : Obligations.IsolationTakesThePortOut := by
  refine ⟨fun s p reason => ⟨fun hj => ?record, isolate_of_not_joined reason⟩,
    fun s u p reason hj hd hu => ?leaves, fun s v p reason hj hv => ?parts,
    fun s k t p ht hl => endByIsolation_of_not_leased p ht hl,
    fun s p => ⟨arrangeCleanup_of_no_drain, fun j rest t hjobs hdrain ht => ?job⟩⟩
  case record =>
    obtain ⟨d, record⟩ := isolate_record reason hj
    exact ⟨d, record, isolate_isPending reason hj, isolate_queue reason hj, isolate_up s p p reason⟩
  case leaves =>
    obtain ⟨reported, loss, -⟩ := isolate_leaves p reason s (State.joined_ne hj).1 (State.joined_ne hj).2
    have hi := isolating_isIsolated p reason s
    have leave := isolationEffects_leave (s := isolating p reason s) hd hi
    rw [← isolate_of_joined reason hj, ← hu] at leave
    refine ⟨leave.link.trans (isolationLost_link hi), ?_, ?_, leave.waits, fun k t ht hl hm => ?_⟩
    · rw [hu, reported, not_has_diff_single]
    · rw [hu, loss, not_has_diff_single]
    · have ht' : (isolating p reason s).txn k = some t := ht
      rw [leave.slots k (not_mem_isolationEnded ht' hl hm), isolationLost_slot, ht']
      rfl
  case parts =>
    have parked : v = removeParked p (discardPort p (isolating p reason s)) := hv
    have arranged : isolationArranged p (isolating p reason s) =
        if (s.port p).profile = .caching then arrangeCleanup p v else v := by
      rw [isolationArranged, ← parked]
      have profile : (v.port p).profile = (s.port p).profile := by simp [parked, isolating]
      rw [← profile]
    refine ⟨isolationArranged p (isolating p reason s), isolationEnded p (isolationArranged p (isolating p reason s)),
      arranged, fun k => ?_, ?_⟩
    · rw [mem_isolationEnded, isolationArranged_txn]
      rfl
    · rw [isolate_of_joined reason hj, isolationEffects_eq, isolationLost, markLost_slots]
      rfl
  case job =>
    have converted : t = drainConverted p s := ht
    rw [arrangeCleanup_of_drain hjobs hdrain, converted]
    exact ⟨fun h => if_neg h, fun h hw => by rw [if_pos h, hw], fun i h hw => by rw [if_pos h, hw]⟩

end Sys2Proof.Machine
end

section
/-! PROOFS. Ports that leave, notices, and the answers of probes; what a completion does (R44, R58 to R62, R83, R84,
R108, R124, R130). -/

namespace Sys2Proof.Machine

open Sys2Proof

/-! ### Goodbye and EvictPort (R58, R59) -/

theorem goodbyeArrives_of_online {s : State} {p : Port} (h : (s.port p).state = .online) :
    goodbyeArrives p s = enterDraining p s := by
  simp [goodbyeArrives, State.isOnline, h]

theorem goodbyeArrives_of_not_online {s : State} {p : Port} (h : (s.port p).state ≠ .online) :
    goodbyeArrives p s = s := by
  simp [goodbyeArrives, State.isOnline, h]

theorem exec_goodbye_of_joined {s : State} {p : Port} (hr : s.inReset = false) (hh : s.hears p = true)
    (hj : s.joined p) : exec (.goodbye p) s = .next (goodbyeArrives p (s.framed p .notice)) :=
  event_message_of_joined .notice _ hr hh hj

/-- The row of a command on an idle unit carries the command out in the started state (R162). -/
theorem exec_of_idle {s : State} {c : Instr} {code : Word} (hc : c.startCode = some code) (hr : s.inReset = false)
    (hidle : s.unit.inProgress = none) : exec c s = .next (commandBody code (s.started code)) := by
  rw [exec_of_startCode s hc, event_of_not_inReset _ hr, startCommand_of_idle code _ hidle]

theorem portOperand_val (p : Port) : portOperand p.val = some p := by
  simp [portOperand, p.isLt]

theorem opPort_started_of_word {s : State} {p : Port} (code : Word) (h : s.word 0 = p.val) :
    (s.started code).opPort = some p := by
  rw [opPort_started, h, portOperand_val]

theorem evictPort_of_online {s : State} {p : Port} (hp : s.opPort = some p) (ho : (s.port p).state = .online) :
    evictPort s = completePort .done p (enterDraining p s) := by
  simp [evictPort, hp, State.isOnline, ho]

/-- Settles O27: both rows by the state of the port. -/
theorem goodbyeAndEvictPortStartTheDrain : Obligations.GoodbyeAndEvictPortStartTheDrain := by
  refine ⟨fun s p hr hh hp => ?discarded, fun s p hr ho => ⟨fun hh => ?goodbye, fun hidle hw => ?evict⟩⟩
  case discarded =>
    have joined : s.joined p := hp.imp_right Or.inr
    have closed : ((s.framed p .notice).port p).state ≠ .online := by
      obtain h | ⟨d, h⟩ := hp <;> simp [h]
    rw [exec_goodbye_of_joined hr hh joined, goodbyeArrives_of_not_online closed]
  case goodbye =>
    rw [exec_goodbye_of_joined hr hh (Or.inr (Or.inl ho)), goodbyeArrives_of_online (s := s.framed p .notice) ho]
  case evict =>
    rw [exec_of_idle (c := .evictPort) rfl hr hidle]
    exact congrArg _ (evictPort_of_online (s := s.started 2) (opPort_started_of_word 2 hw) ho)

/-! ### Responses and tags (R44, R47) -/

theorem respond_eq_answered (p : Port) (tag : Tag) (r : Response) (s : State) :
    respond p tag r s = s.answered p tag r := by
  unfold respond State.answered
  split
  · rfl
  · simp [queueMessage, State.setTag, State.modifyLink]

theorem answered_of_free {s : State} {p : Port} {tag : Tag} (r : Response) (h : s.tagState p tag = .free) :
    s.answered p tag r = s := if_pos h

theorem answered_link {s : State} {p : Port} {tag : Tag} (r : Response) (h : s.tagState p tag ≠ .free) :
    (s.answered p tag r).link p =
      { s.link p with
        outbound := (s.link p).outbound ++ [.response tag r]
        tags := (s.link p).tags.set tag .answering } := by
  rw [State.answered, if_neg h, State.link_setLink_same]

theorem answered_frame (s : State) (p : Port) (tag : Tag) (r : Response) :
    ∃ l, s.answered p tag r = s.setLink p l ∧ l.up = (s.link p).up ∧ l.queue = (s.link p).queue := by
  unfold State.answered
  split
  · exact ⟨s.link p, (s.setLink_link_self p).symm, rfl, rfl⟩
  · exact ⟨_, rfl, rfl, rfl⟩

theorem tagState_answered {s : State} {p : Port} {tag : Tag} (r : Response) (g : Tag) :
    (s.answered p tag r).tagState p g =
      if g = tag ∧ s.tagState p tag ≠ .free then .answering else s.tagState p g := by
  by_cases h : s.tagState p tag = .free
  · simp [answered_of_free r h, h]
  · rw [State.tagState, answered_link r h]
    by_cases e : g = tag
    · subst e
      simp [h]
    · have ne : tag.val ≠ g.val := fun x => e (Fin.ext x.symm)
      simp [e, State.tagState, Vector.getElem_set_ne _ _ ne]

/-! ### The refusals of a drain (R60) -/

theorem refuseAll_cons (p : Port) (g : Tag) (gs : List Tag) (s : State) :
    refuseAll p (g :: gs) s = refuseAll p gs (s.answered p g (.refused .draining)) := by
  rw [refuseAll, List.foldl_cons, respond_eq_answered]
  rfl

/-- The refusals of a list of tags: one response for each tag that is not Free, whose tag is Answering then. -/
theorem refuseAll_link (p : Port) (gs : List Tag) (s : State) :
    ((refuseAll p gs s).link p).outbound = (s.link p).outbound ++
        (gs.filter fun g => decide (s.tagState p g ≠ .free)).map (fun g => .response g (.refused .draining)) ∧
      ∀ g, (refuseAll p gs s).tagState p g =
        if g ∈ gs.filter (fun g => decide (s.tagState p g ≠ .free)) then .answering else s.tagState p g := by
  induction gs generalizing s with
  | nil => simp [refuseAll]
  | cons x gs ih =>
    rw [refuseAll_cons]
    obtain ⟨outbound, tags⟩ := ih (s.answered p x (.refused .draining))
    have same (g : Tag) : (s.answered p x (.refused .draining)).tagState p g ≠ .free ↔ s.tagState p g ≠ .free := by
      rw [tagState_answered]
      split
      · next h => simp [h.1, h.2]
      · exact Iff.rfl
    simp only [same] at outbound tags
    by_cases hx : s.tagState p x = .free
    · rw [answered_of_free _ hx] at outbound tags ⊢
      simpa [hx] using And.intro outbound tags
    · refine ⟨?_, fun g => ?_⟩
      · rw [outbound, answered_link _ hx]
        simp [hx]
      · rw [tags, tagState_answered]
        by_cases hg : g = x
        · subst hg
          simp [hx]
        · simp [hg, hx]

theorem refuseAll_frame (p : Port) (gs : List Tag) (s : State) :
    ∃ l, refuseAll p gs s = s.setLink p l ∧ l.up = (s.link p).up ∧ l.queue = (s.link p).queue := by
  induction gs generalizing s with
  | nil => exact ⟨s.link p, (s.setLink_link_self p).symm, rfl, rfl⟩
  | cons g gs ih =>
    obtain ⟨l, e, up, queue⟩ := answered_frame s p g (.refused .draining)
    obtain ⟨m, e', up', queue'⟩ := ih (s.answered p g (.refused .draining))
    rw [e, State.link_setLink_same] at up' queue'
    exact ⟨m, by rw [refuseAll_cons, e', e, State.setLink_setLink], up'.trans up, queue'.trans queue⟩

/-! ### The entry to Draining (R60 to R62) -/

/-- The state in which the refusals of a drain begin: the port Draining, its request queue gone. -/
def drainEntered (p : Port) (s : State) : State :=
  (s.setPort p { s.port p with state := .draining (decide ((s.port p).profile ≠ .caching)) }).setLink p
    { s.link p with queue := [] }

/-- The state with the refusals made and the port's parked requests gone. -/
def drainRefused (p : Port) (s : State) : State :=
  { refuseAll p (s.waitingTags p) (drainEntered p s) with
    parked := s.parked.filter fun q => decide (q.port ≠ p) }

theorem drainRefused_frame (p : Port) (s : State) :
    ∃ l, drainRefused p s =
        { (drainEntered p s).setLink p l with parked := s.parked.filter fun q => decide (q.port ≠ p) } ∧
      l.up = (s.link p).up ∧ l.queue = [] := by
  obtain ⟨l, e, up, queue⟩ := refuseAll_frame p (s.waitingTags p) (drainEntered p s)
  have entered : (drainEntered p s).link p = { s.link p with queue := [] } := State.link_setLink_same _ p _
  rw [entered] at up queue
  exact ⟨l, by rw [drainRefused, e], up, queue⟩

theorem drainRefused_link (p : Port) (s : State) :
    ((drainRefused p s).link p).outbound =
        (s.link p).outbound ++ (s.answeredTags p).map (fun g => .response g (.refused .draining)) ∧
      (∀ g, (drainRefused p s).tagState p g = if g ∈ s.answeredTags p then .answering else s.tagState p g) ∧
      ((drainRefused p s).link p).queue = [] ∧ ((drainRefused p s).link p).up = (s.link p).up := by
  obtain ⟨outbound, tags⟩ := refuseAll_link p (s.waitingTags p) (drainEntered p s)
  have entered : (drainEntered p s).link p = { s.link p with queue := [] } := State.link_setLink_same _ p _
  have same (g : Tag) : (drainEntered p s).tagState p g = s.tagState p g := by
    rw [State.tagState, entered]
    rfl
  simp only [same] at outbound tags
  rw [entered] at outbound
  obtain ⟨l, e, up, queue⟩ := drainRefused_frame p s
  have link : (drainRefused p s).link p = l := by
    rw [e]
    exact State.link_setLink_same _ p l
  exact ⟨outbound, tags, link ▸ queue, link ▸ up⟩

theorem drainRefused_port (p : Port) (s : State) :
    (drainRefused p s).port p = { s.port p with state := .draining (decide ((s.port p).profile ≠ .caching)) } := by
  obtain ⟨l, e, -⟩ := drainRefused_frame p s
  rw [e]
  exact State.port_setPort_same _ p _

theorem drainRefused_slots (p : Port) (s : State) : (drainRefused p s).slots = s.slots := by
  obtain ⟨l, e, -⟩ := drainRefused_frame p s
  rw [e]
  rfl

theorem drainRefused_sweep (p : Port) (s : State) : (drainRefused p s).sweep = s.sweep := by
  obtain ⟨l, e, -⟩ := drainRefused_frame p s
  rw [e]
  rfl

/-- The state in which the drain's job joins the queue. -/
def drainReported (p : Port) (s : State) : State := quiesceCheck (drainRefused p s)

theorem drainReported_eq (p : Port) (s : State) :
    drainReported p s =
      quiesceCheck { refuseAll p (s.waitingTags p) (drainEntered p s) with
        parked := (refuseAll p (s.waitingTags p) (drainEntered p s)).parked.filter fun q => decide (q.port ≠ p) } := by
  obtain ⟨l, e, -⟩ := refuseAll_frame p (s.waitingTags p) (drainEntered p s)
  rw [drainReported, drainRefused, e]
  rfl

theorem enterDraining_eq (p : Port) (s : State) :
    enterDraining p s =
      drainTest p (if (s.port p).profile = .caching then enqueueJob (.drain p) (drainReported p s)
        else drainReported p s) := by
  have draining : (!decide ((s.port p).profile = .caching)) = decide ((s.port p).profile ≠ .caching) := by simp
  rw [drainReported_eq, enterDraining]
  simp only [draining, decide_eq_true_eq]
  rfl

theorem drainReported_walk (p : Port) (s : State) : Walk (drainRefused p s) (drainReported p s) :=
  quiesceCheck_walk (.refl _)

theorem enterDraining_walk (p : Port) (s : State) : Walk (drainRefused p s) (enterDraining p s) := by
  rw [enterDraining_eq]
  split
  · exact drainTest_walk p (enqueueJob_walk _ (drainReported_walk p s))
  · exact drainTest_walk p (drainReported_walk p s)

theorem Walk.tagState {s t : State} (w : Walk s t) (p : Port) (g : Tag) : t.tagState p g = s.tagState p g := by
  obtain ⟨n, e⟩ := w.links p
  rw [State.tagState, e]
  rfl

theorem Walk.outbound {s t : State} (w : Walk s t) (p : Port) :
    ∃ n, (t.link p).outbound = (s.link p).outbound ++ List.replicate n .farewell := by
  obtain ⟨n, e⟩ := w.links p
  exact ⟨n, by rw [e]⟩

theorem Walk.parked_port {s t : State} (w : Walk s t) {p : Port} (h : ∀ q ∈ s.parked, q.port ≠ p) :
    ∀ q ∈ t.parked, q.port ≠ p := by
  obtain ⟨f, -, e⟩ := w.parked
  intro q hq
  rw [e] at hq
  obtain ⟨r, hr, rfl⟩ := List.mem_map.mp hq
  exact h r hr

theorem PortRec.Quiet.of_draining {r q : PortRec} {d : Bool} (h : r.Quiet q) (hr : r.state = .draining d) :
    q.profile = r.profile ∧ q.reason = r.reason ∧ ((∃ d, q.state = .draining d) ∨ q.state = .offline) := by
  obtain ⟨profile, reason, same | ⟨b, -, done | left⟩ | ⟨isolated, -⟩⟩ := h
  · exact ⟨profile, reason, Or.inl ⟨d, same.trans hr⟩⟩
  · exact ⟨profile, reason, Or.inl ⟨true, done⟩⟩
  · exact ⟨profile, reason, Or.inr left⟩
  · rw [hr] at isolated
    cases isolated

/-! #### The drain's test (R62) -/

theorem drainTest_of_walking {s : State} {p : Port} (h : (s.port p).state = .draining false) : drainTest p s = s := by
  simp [drainTest, h]

theorem drainTest_of_waiting {s : State} {p : Port} (h : (s.port p).state = .draining true)
    (hw : s.hasOrigin p = true ∨ s.hasUnanswered p = true) : drainTest p s = s := by
  simp [drainTest, h, hw]

theorem drainTest_of_drained {s : State} {p : Port} (h : (s.port p).state = .draining true)
    (ho : s.hasOrigin p = false) (hu : s.hasUnanswered p = false) :
    drainTest p s =
      raise .portLeft (queueMessage p .farewell (s.setPort p { s.port p with state := .offline })) := by
  simp [drainTest, h, ho, hu]

theorem hasOrigin_of_slots {s t : State} (h : t.slots = s.slots) (p : Port) : t.hasOrigin p = s.hasOrigin p := by
  simp only [State.hasOrigin, State.activeTxns, txn_of_slots h]

theorem hasUnanswered_of_slots {s t : State} (h : t.slots = s.slots) (p : Port) :
    t.hasUnanswered p = s.hasUnanswered p := by
  simp only [State.hasUnanswered, State.activeTxns, txn_of_slots h]

theorem enqueueJob_of_busy {s : State} (j : Job) (h : s.sweep.jobs ≠ []) :
    enqueueJob j s = { s with sweep := { s.sweep with jobs := s.sweep.jobs ++ [j] } } := by
  simp [enqueueJob, h]

theorem drainReported_port (p : Port) (s : State) :
    (drainReported p s).port p = { s.port p with state := .draining (decide ((s.port p).profile ≠ .caching)) } := by
  rw [drainReported, quiesceCheck_port, drainRefused_port]

theorem drainReported_slots (p : Port) (s : State) : (drainReported p s).slots = s.slots :=
  (drainReported_walk p s).slots.trans (drainRefused_slots p s)

theorem quiesceCheck_link (s : State) (q : Port) : (quiesceCheck s).link q = s.link q := by
  obtain ⟨v, u, n, e⟩ := quiesceCheck_frame s
  rw [e]
  rfl

/-- Settles O28: the entry by its refusals, its job and its test; all after the refusals is within a walk's frame. -/
theorem enteringDrainingAnswersAndDrains : Obligations.EnteringDrainingAnswersAndDrains := by
  rintro s t p ho rfl
  have walk := enterDraining_walk p s
  have entry := enterDraining_eq p s
  obtain ⟨outbound, tags, queue, up⟩ := drainRefused_link p s
  have record := drainReported_port p s
  have refused := drainRefused_port p s
  obtain ⟨profile, reason, leaving⟩ := PortRec.Quiet.of_draining (walk.ports p) (by rw [refused])
  rw [refused] at profile reason
  obtain ⟨n, link⟩ := walk.links p
  have slots : (drainReported p s).slots = s.slots := drainReported_slots p s
  refine ⟨profile, reason, leaving, ?queue, ?up, ?slots, ?outbound, ?tags, ?parked, ?parts, ?refusals, ?queued,
    ?drained, ?waiting⟩
  case queue => rw [link, queue]
  case up => rw [link, up]
  case slots => rw [walk.slots, drainRefused_slots]
  case outbound => rw [link, ← outbound]; exact List.prefix_append _ _
  case tags => exact fun g => (walk.tagState p g).trans (tags g)
  case parked => exact walk.parked_port fun q hq => by simpa using (List.mem_filter.mp hq).2
  case parts =>
    intro a b ha hb
    have reported : b = drainReported p s := by rw [hb, ha, drainReported_eq]; rfl
    rw [entry, reported]
    exact ⟨fun h => by rw [if_pos h], fun h => by rw [if_neg h]⟩
  case refusals => exact fun x g gs => ⟨rfl, refuseAll_cons p g gs x⟩
  case queued =>
    intro hc hjobs
    have jobs : (drainReported p s).sweep = s.sweep := by
      rw [drainReported, quiesceCheck_sweep, drainRefused_sweep]
    have queued := enqueueJob_of_busy (s := drainReported p s) (.drain p) (by rwa [jobs])
    have draining : ((enqueueJob (.drain p) (drainReported p s)).port p).state = .draining false := by
      rw [queued]
      show ((drainReported p s).port p).state = _
      rw [record]
      simp [hc]
    rw [entry, if_pos hc, drainTest_of_walking draining]
    exact ⟨by rw [queued, jobs], draining⟩
  case drained =>
    intro hc horigin hunanswered
    have draining : ((drainReported p s).port p).state = .draining true := by
      rw [record]
      simp [hc]
    rw [entry, if_neg hc, drainTest_of_drained draining (by rw [hasOrigin_of_slots slots, horigin])
      (by rw [hasUnanswered_of_slots slots, hunanswered])]
    refine ⟨?_, raise_isPending _ _, ?_⟩
    · simp [queueMessage, State.modifyLink]
    · simp [queueMessage, State.modifyLink, drainReported, quiesceCheck_link, outbound]
  case waiting =>
    intro hc hw
    have draining : ((drainReported p s).port p).state = .draining true := by
      rw [record]
      simp [hc]
    rw [entry, if_neg hc, drainTest_of_waiting draining
      (by rwa [hasOrigin_of_slots slots, hasUnanswered_of_slots slots]), draining]

end Sys2Proof.Machine
end

section
/-! PROOFS. Releases, the end of a lease, the answers of probes, and what a completion does (R83, R84, R108, R124,
R130). -/

namespace Sys2Proof.Machine

open Sys2Proof

/-! ### Release and ReleaseDirty (R108) -/

theorem exec_release_of_joined {s : State} {p : Port} {c : Instr} {l : LineNo} (hr : s.inReset = false)
    (hh : s.hears p = true) (hj : s.joined p) (hp : (s.port p).profile ≠ .streaming)
    (hc : c = .release p l ∨ c = .releaseDirty p l) : exec c s = .next (applyRelease p l (s.framed p .notice)) := by
  have applied : releaseArrives p l (s.framed p .notice) = applyRelease p l (s.framed p .notice) := by
    rw [releaseArrives, s.framed_port, if_neg hp]
  obtain rfl | rfl := hc <;> exact (event_message_of_joined .notice _ hr hh hj).trans (congrArg _ applied)

theorem applyRelease_of_not_recorded {s : State} {p : Port} {l : LineNo}
    (h : ∀ w x, (changingLookup l s).stored l = some (w, x) → x.records p = false) :
    applyRelease p l s = changingLookup l s := by
  unfold applyRelease
  dsimp only
  split
  · rfl
  · rfl
  · next w holder e =>
    have other : holder ≠ p := by simpa [EntryState.records] using h _ _ e
    rw [if_neg other]
  · next w S e =>
    have absent : PortSet.has S p = false := h _ _ e
    simp [absent]

/-- Settles O29: by the entry that the changing lookup leaves. -/
theorem releaseTakesThePortOut : Obligations.ReleaseTakesThePortOut := by
  rintro s u c p l hr hh hj hp hc rfl
  rw [exec_release_of_joined hr hh hj hp hc]
  refine ⟨fun w h => ?_, fun w S h hS => ⟨fun h0 => ?_, fun h0 => ?_⟩, fun h => ?_⟩
  · simp [applyRelease, h]
  · simp only [applyRelease, h, hS, if_true, if_pos h0]
  · simp only [applyRelease, h, hS, if_true, if_neg h0]
  · rw [applyRelease_of_not_recorded h]

/-! ### Completion (R83, R84) -/

/-- The response a completion sends, as the state of its origin decides (R84). -/
def responseSent (t : Txn) (r : Option Response) (s : State) : State :=
  match t.origin, r with
  | .port p tag _, some r => respondAtCompletion p tag r s
  | .port _ _ _, none => s
  | .sweep _, _ => s

theorem freeSlot_eq_givenBack (s : State) (k : SlotId) : s.freeSlot k = s.givenBack k := rfl

theorem portTests_eq_tested (S : PortSet) (s : State) : portTests S s = s.tested S := rfl

theorem complete_eq_ended {s : State} {k : SlotId} {t : Txn} (r : Option Response) (h : s.txn k = some t) :
    complete k r s =
      if t.originPort.isSome then quiesceCheck ((responseSent t r s).ended k t t.reported)
      else (responseSent t r s).ended k t t.reported :=
  complete_eq k t r h

/-- All that a completion does once its slot is free and its claim's release has made requests Ready is within a walk's
frame. -/
theorem complete_walk {s : State} {k : SlotId} {t : Txn} (r : Option Response) (h : s.txn k = some t) :
    Walk (readyLine t.line ((responseSent t r s).givenBack k)) (complete k r s) := by
  have released : Walk (readyLine t.line ((responseSent t r s).givenBack k))
      ((responseSent t r s).ended k t t.reported) :=
    portTests_walk _ (advance_walk (sweepRelease_walk _ (.refl _)))
  rw [complete_eq_ended r h]
  split
  · exact quiesceCheck_walk released
  · exact released

theorem responseSent_frame (t : Txn) (r : Option Response) (s : State) :
    ∃ p l, responseSent t r s = s.setLink p l := by
  have unchanged : ∃ p l, s = s.setLink p l := ⟨0, _, (s.setLink_link_self 0).symm⟩
  have answered (p : Port) (tag : Tag) (r : Response) : ∃ p' l, respond p tag r s = s.setLink p' l := by
    obtain ⟨l, e, -⟩ := answered_frame s p tag r
    exact ⟨p, l, (respond_eq_answered p tag r s).trans e⟩
  unfold responseSent
  split
  · unfold respondAtCompletion
    split
    · exact answered _ _ _
    · exact answered _ _ _
    all_goals exact unchanged
  · exact unchanged
  · exact unchanged

theorem givenBack_slot (s : State) (k : SlotId) : (s.givenBack k).slot k = { gen := !(s.slot k).gen, txn := none } :=
  State.slot_setSlot_same s k _

theorem givenBack_slot_ne (s : State) {k j : SlotId} (h : j ≠ k) : (s.givenBack k).slot j = s.slot j :=
  State.slot_setSlot_ne s _ h

theorem complete_slot {s : State} {k : SlotId} {t : Txn} (r : Option Response) (h : s.txn k = some t) :
    (complete k r s).slot k = { gen := !(s.slot k).gen, txn := none } := by
  obtain ⟨p, l, e⟩ := responseSent_frame t r s
  rw [(complete_walk r h).slot k, e]
  exact givenBack_slot _ k

theorem complete_slot_ne {s : State} {k j : SlotId} {t : Txn} (r : Option Response) (h : s.txn k = some t)
    (hj : j ≠ k) : (complete k r s).slot j = s.slot j := by
  obtain ⟨p, l, e⟩ := responseSent_frame t r s
  rw [(complete_walk r h).slot j, e]
  exact givenBack_slot_ne _ hj

theorem Walk.parked_ready {s t : State} (w : Walk s t) {f : Parked → Prop}
    (hf : ∀ q b, f { q with ready := b } ↔ f q) (h : ∀ q ∈ s.parked, f q → q.ready = true) :
    ∀ q ∈ t.parked, f q → q.ready = true := by
  obtain ⟨g, hg, e⟩ := w.parked
  intro q hq hfq
  rw [e] at hq
  obtain ⟨r, hr, rfl⟩ := List.mem_map.mp hq
  exact hg r (h r hr ((hf r _).mp hfq))

theorem Walk.parked_same {s t : State} (w : Walk s t) :
    t.parked.map (fun q => { q with ready := true }) = s.parked.map fun q => { q with ready := true } := by
  obtain ⟨g, -, e⟩ := w.parked
  rw [e, List.map_map]
  rfl

/-- A parked request waits for the line's claim or for a way of its set. -/
def Parked.waitsFor (l : LineNo) (q : Parked) : Prop :=
  q.reason = .line ∧ q.line = l ∨ q.reason = .set ∧ setOf q.line = setOf l

theorem readyLine_parked (l : LineNo) (s : State) : ∀ q ∈ (readyLine l s).parked, q.waitsFor l → q.ready = true := by
  intro q hq hw
  simp only [readyLine, readySet, List.mem_map] at hq
  obtain ⟨r, ⟨x, -, rfl⟩, rfl⟩ := hq
  by_cases h1 : x.reason = .line ∧ x.line = l
  · simp [h1]
  · rw [if_neg h1] at hw ⊢
    by_cases h2 : x.reason = .set ∧ setOf x.line = setOf l
    · simp [h2]
    · rw [if_neg h2] at hw
      exact absurd hw (not_or.mpr ⟨h1, h2⟩)

theorem readyLine_parked_same (l : LineNo) (s : State) :
    (readyLine l s).parked.map (fun q => { q with ready := true }) =
      s.parked.map fun q => { q with ready := true } :=
  (readyLine_walk l (.refl s)).parked_same

theorem complete_parked {s : State} {k : SlotId} {t : Txn} (r : Option Response) (h : s.txn k = some t) :
    (∀ q ∈ (complete k r s).parked, q.waitsFor t.line → q.ready = true) ∧
      (complete k r s).parked.map (fun q => { q with ready := true }) =
        s.parked.map fun q => { q with ready := true } := by
  have walk := complete_walk r h
  obtain ⟨p, l, e⟩ := responseSent_frame t r s
  refine ⟨walk.parked_ready (f := Parked.waitsFor t.line) (fun _ _ => Iff.rfl) (readyLine_parked _ _), ?_⟩
  rw [walk.parked_same, readyLine_parked_same, e]
  rfl

theorem Walk.link_eq {s t : State} (w : Walk s t) (q : Port) :
    ∃ n, t.link q = { s.link q with outbound := (s.link q).outbound ++ List.replicate n .farewell } := w.links q

/-- The links after a completion: what its response has made of them, and Farewells. -/
theorem complete_link {s : State} {k : SlotId} {t : Txn} (r : Option Response) (h : s.txn k = some t) (q : Port) :
    ∃ n, (complete k r s).link q =
      { (responseSent t r s).link q with
        outbound := ((responseSent t r s).link q).outbound ++ List.replicate n .farewell } :=
  (complete_walk r h).links q

theorem responseSent_of_online {s : State} {t : Txn} {p : Port} {tag : Tag} {n : Nat} (r : Response)
    (ho : t.origin = .port p tag n) (hp : (s.port p).state = .online) :
    responseSent t (some r) s = s.answered p tag r := by
  simp [responseSent, ho, respondAtCompletion, hp, respond_eq_answered]

theorem responseSent_of_draining {s : State} {t : Txn} {p : Port} {tag : Tag} {n : Nat} (r : Response)
    (ho : t.origin = .port p tag n) (hp : ∃ d, (s.port p).state = .draining d) :
    responseSent t (some r) s = s.answered p tag (.refused .draining) := by
  obtain ⟨d, hp⟩ := hp
  simp [responseSent, ho, respondAtCompletion, hp, respond_eq_answered]

theorem responseSent_of_unsent {s : State} {t : Txn} {p : Port} {tag : Tag} {n : Nat} (r : Response)
    (ho : t.origin = .port p tag n)
    (h : (s.port p).state ≠ .online ∧ (∀ d, (s.port p).state ≠ .draining d) ∨ s.tagState p tag = .free) :
    responseSent t (some r) s = s := by
  simp only [responseSent, ho, respondAtCompletion]
  split
  · next hp =>
    rw [respond_eq_answered, answered_of_free r (h.resolve_left fun h => h.1 hp)]
  · next d hp =>
    rw [respond_eq_answered, answered_of_free _ (h.resolve_left fun h => h.2 d hp)]
  all_goals rfl

theorem responseSent_none (t : Txn) (s : State) : responseSent t none s = s := by
  unfold responseSent
  split
  · next e => cases e
  all_goals rfl

theorem Txn.reported_of_port {t : Txn} {p : Port} {tag : Tag} {n : Nat} (ho : t.origin = .port p tag n) :
    t.originPort.isSome = true ∧ t.reported = PortSet.insert t.probed p := by
  simp [Txn.reported, Txn.originPort, ho]

theorem Txn.reported_of_sweep {t : Txn} {o : SweepOwner} (ho : t.origin = .sweep o) :
    t.originPort.isSome = false ∧ t.reported = t.probed := by
  simp [Txn.reported, Txn.originPort, ho]

theorem complete_of_port {s : State} {k : SlotId} {t : Txn} {p : Port} {tag : Tag} {n : Nat} (r : Option Response)
    (h : s.txn k = some t) (ho : t.origin = .port p tag n) :
    complete k r s = quiesceCheck ((responseSent t r s).ended k t (PortSet.insert t.probed p)) := by
  obtain ⟨isPort, reported⟩ := Txn.reported_of_port ho
  rw [complete_eq_ended r h, if_pos isPort, reported]

theorem complete_of_sweep {s : State} {k : SlotId} {t : Txn} {o : SweepOwner} (r : Option Response)
    (h : s.txn k = some t) (ho : t.origin = .sweep o) : complete k r s = s.ended k t t.probed := by
  obtain ⟨notPort, reported⟩ := Txn.reported_of_sweep ho
  rw [complete_eq_ended r h, notPort, reported]
  simp [responseSent, ho]

/-- A response that is sent stands behind the port's outbound queue, its tag Answering. -/
theorem complete_answered {s : State} {k : SlotId} {t : Txn} {p : Port} {tag : Tag} {r : Option Response}
    {x : Response} (h : s.txn k = some t) (hx : responseSent t r s = s.answered p tag x)
    (hf : s.tagState p tag ≠ .free) :
    ((s.link p).outbound ++ [.response tag x]) <+: ((complete k r s).link p).outbound ∧
      (complete k r s).tagState p tag = .answering := by
  obtain ⟨n, link⟩ := complete_link r h p
  rw [hx, answered_link x hf] at link
  refine ⟨?_, ?_⟩
  · rw [link]
    exact List.prefix_append _ _
  · rw [State.tagState, link]
    simp

theorem answered_link_ne (s : State) {p q : Port} (tag : Tag) (r : Response) (h : q ≠ p) :
    (s.answered p tag r).link q = s.link q := by
  obtain ⟨l, e, -⟩ := answered_frame s p tag r
  rw [e, State.link_setLink_ne s l h]

theorem responseSent_link_ne {s : State} {t : Txn} {p q : Port} {tag : Tag} {n : Nat} (r : Response)
    (ho : t.origin = .port p tag n) (h : q ≠ p) : (responseSent t (some r) s).link q = s.link q := by
  simp only [responseSent, ho, respondAtCompletion, respond_eq_answered]
  split
  · exact answered_link_ne s tag _ h
  · exact answered_link_ne s tag _ h
  all_goals rfl

/-- Settles O32: a completion by the state of its origin; what follows its response by the frame of a walk. -/
theorem completionAnswersAndFreesTheSlot : Obligations.CompletionAnswersAndFreesTheSlot := by
  refine ⟨fun s u k t p tag n r ht ho hu => ?response, fun s u k t ht hu => ?silent, fun s u k t r ht hu => ?slot⟩
  case response =>
    have whole := complete_of_port (some r) ht ho
    subst hu
    refine ⟨fun hp => ⟨complete_answered ht (responseSent_of_online r ho hp), ?_⟩,
      fun hp => ⟨complete_answered ht (responseSent_of_draining r ho hp), ?_⟩, fun hp => ⟨?_, ?_, ?_⟩, fun q hq => ?_⟩
    · rw [whole, responseSent_of_online r ho hp]
    · rw [whole, responseSent_of_draining r ho hp]
    · obtain ⟨m, link⟩ := complete_link (some r) ht p
      rw [link, responseSent_of_unsent r ho hp]
    · rw [whole, responseSent_of_unsent r ho hp]
    · obtain ⟨m, link⟩ := complete_link (some r) ht p
      exact ⟨m, by rw [link, responseSent_of_unsent r ho hp]⟩
    · obtain ⟨m, link⟩ := complete_link (some r) ht q
      exact ⟨m, by rw [link, responseSent_link_ne r ho hq]⟩
  case silent =>
    subst hu
    refine ⟨fun p tag n ho => ?_, fun o ho => complete_of_sweep none ht ho, fun q => ?_⟩
    · rw [complete_of_port none ht ho, responseSent_none]
    · obtain ⟨m, link⟩ := complete_link none ht q
      exact ⟨m, by rw [link, responseSent_none]⟩
  case slot =>
    subst hu
    obtain ⟨ready, same⟩ := complete_parked r ht
    exact ⟨complete_slot r ht, fun j hj => complete_slot_ne r ht hj, ready, same⟩

/-! ### The end of a lease (R51, R124) -/

theorem State.txn_of_leaseOf {s : State} {p : Port} {tag : Tag} {k : SlotId} (h : s.leaseOf p tag = some k) :
    ∃ t, s.txn k = some t := by
  unfold State.leaseOf at h
  split at h
  · have := List.find?_some h
    cases ht : s.txn k with
    | none => simp [ht] at this
    | some t => exact ⟨t, rfl⟩
  · cases h

theorem modifyTxn_eq {s : State} {k : SlotId} {t : Txn} (f : Txn → Txn) (h : s.txn k = some t) :
    s.modifyTxn k f = s.setTxn k (f t) := by
  simp [State.modifyTxn, h]

@[simp] theorem State.txn_setTxn_same (s : State) (k : SlotId) (t : Txn) : (s.setTxn k t).txn k = some t := by
  rw [State.txn_setTxn, if_pos rfl]

theorem State.slot_setTxn_ne (s : State) {k j : SlotId} (t : Txn) (h : j ≠ k) : (s.setTxn k t).slot j = s.slot j :=
  State.slot_setSlot_ne s _ h

theorem State.gen_setTxn (s : State) (k : SlotId) (t : Txn) : ((s.setTxn k t).slot k).gen = (s.slot k).gen := by
  simp [State.setTxn]

theorem exec_streamDone_of_lease {s : State} {p : Port} {tag : Tag} {k : SlotId} {x : Txn} (hr : s.inReset = false)
    (hh : s.hears p = true) (hj : s.joined p) (hp : (s.port p).profile ≠ .caching) (hl : s.leaseOf p tag = some k)
    (hx : s.txn k = some x) :
    exec (.streamDone p tag) s =
      .next (complete k none
        (((s.framed p .notice).setTag p tag .free).setTxn k { x with deadline := none })) := by
  have hx' : ((s.framed p .notice).setTag p tag .free).txn k = some x := hx
  rw [exec_streamDone_of_joined tag hr hh hj, streamDoneArrives, s.framed_port, if_neg hp,
    s.framed_leaseOf, hl]
  exact congrArg (fun u => Host.Outcome.next (complete k none u)) (modifyTxn_eq _ hx')

/-- Settles O30: the lease's completion without a response, by the frame of its walk. -/
theorem streamDoneEndsTheLease : Obligations.StreamDoneEndsTheLease := by
  intro s p tag k hr hh hj hp hl
  obtain ⟨x, hx⟩ := State.txn_of_leaseOf hl
  refine ⟨_, exec_streamDone_of_lease hr hh hj hp hl hx, ?_⟩
  have ht := State.txn_setTxn_same ((s.framed p .notice).setTag p tag .free) k { x with deadline := none }
  have link : (((s.framed p .notice).setTag p tag .free).setTxn k { x with deadline := none }).link p =
      { (s.link p).heard.toggleExpected .notice with tags := (s.link p).tags.set tag .free } := by
    simp [State.setTxn, State.setTag, State.modifyLink]
  obtain ⟨n, hlink⟩ := complete_link none ht p
  rw [responseSent_none, link] at hlink
  refine ⟨?slot, fun j hj => ?slots, ?tag, fun y hy => ?parked, n, ?outbound⟩
  case slot => rw [complete_slot none ht, State.gen_setTxn]; rfl
  case slots => rw [complete_slot_ne none ht hj, State.slot_setTxn_ne _ _ hj]; rfl
  case tag => simp [State.tagState, hlink]
  case parked =>
    obtain rfl : x = y := Option.some.inj (hx.symm.trans hy)
    exact (complete_parked none ht).1
  case outbound => simp [hlink]

/-! ### Answers (R50, R130) -/

theorem outcomeOf_named {f : BitVec 2} {o : ProbeOutcome}
    (h : f = 1 ∧ o = .clean ∨ f = 2 ∧ o = .written ∨ f = 3 ∧ o = .absent) : outcomeOf f = some o ∧ f ≠ 0 := by
  obtain ⟨rfl, rfl⟩ | ⟨rfl, rfl⟩ | ⟨rfl, rfl⟩ := h <;> exact ⟨rfl, by decide⟩

/-- The outbound queue without the messages of slot k's probe under a generation (R130). -/
theorem withdraw_eq (p : Port) (k : SlotId) (g : Bool) (s : State) :
    withdraw p k g s = s.setLink p
      { s.link p with
        outbound := (s.link p).outbound.filter fun x =>
          match x with
          | .probe j h _ _ => !(decide (j = k) && decide (h = g))
          | _ => true } := by
  rw [withdraw, State.modifyLink]
  congr 3
  funext x
  cases x <;> rfl

theorem allAnswered_iff {t : Txn} : t.allAnswered = true ↔ ∀ m ∈ t.probes, m.outcome ≠ none := by
  simp [Txn.allAnswered, Option.isSome_iff_ne_none]

/-- The record of a transaction with an answer of port p's probe. -/
def Txn.answeredBy (p : Port) (o : ProbeOutcome) (t : Txn) : Txn :=
  { t with probes := t.probes.map fun m =>
    if m.port = p ∧ m.outcome = none then { m with outcome := some o } else m }

theorem takeAnswer_eq {s : State} {k : SlotId} {t : Txn} (p : Port) (o : ProbeOutcome) (h : s.txn k = some t) :
    takeAnswer k p o s =
      if (t.answeredBy p o).allAnswered then
        phaseEnd k (withdraw p k (s.slot k).gen (s.setTxn k (t.answeredBy p o)))
      else withdraw p k (s.slot k).gen (s.setTxn k (t.answeredBy p o)) := by
  have same : (withdraw p k (s.slot k).gen (s.setTxn k (t.answeredBy p o))).txn k = some (t.answeredBy p o) :=
    State.txn_setTxn_same s k _
  unfold takeAnswer
  rw [modifyTxn_eq _ h]
  dsimp only
  split
  · next u hu =>
    cases Option.some.inj (hu.symm.trans same)
    rfl
  · next hu => cases hu.symm.trans same

/-- Settles O31: the answer passes the checks, and its record is the one the phase goes on or ends with. -/
theorem answerIsRecorded : Obligations.AnswerIsRecorded := by
  intro s u p k t t' l m f o hr hh hj ht hl hm ho hw ht' hu
  obtain ⟨outcome, named⟩ := outcomeOf_named ho
  have judged := State.judgeAnswer_of_found (p := p) (show k.val < 32 by omega) l o ht hm
  rw [if_neg (not_not.mpr (Txn.probedLine_of_probesLine hl)), if_neg hw] at judged
  have framed : (s.framed p .answer).txn k = some t := ht
  have recorded : withdraw p k ((s.framed p .answer).slot k).gen ((s.framed p .answer).setTxn k (t.answeredBy p o)) =
      u := by
    have queue : (((s.framed p .answer).setTxn k (t.answeredBy p o)).link p).outbound = (s.link p).outbound := by
      simp [State.setTxn]
    rw [hu, ht', withdraw_eq, queue]
    rfl
  have exec_eq : exec (.answer p ⟨k.val, by omega⟩ (s.slot k).gen l f) s =
      .next (if (t.answeredBy p o).allAnswered then phaseEnd k u else u) := by
    rw [exec_answer_of_joined _ _ l f hr hh hj, answerArrives, outcome]
    simp only [State.framed_judgeAnswer, judged]
    rw [takeAnswer_eq p o framed, recorded]
  have all : (t.answeredBy p o).allAnswered = true ↔ ∀ m ∈ t'.probes, m.outcome ≠ none := by
    rw [ht', allAnswered_iff]
    rfl
  rw [exec_eq]
  refine ⟨fun ⟨m, hm, hn⟩ => ?_, fun h => ?_⟩
  · rw [if_neg fun h => all.mp h m hm hn]
  · rw [if_pos (all.mpr h)]

end Sys2Proof.Machine
end

section
/-! PROOFS. The slot arbiter and the checks of a request at its start (5.2, 5.3, 5.7). -/

namespace Sys2Proof.Machine

open Sys2Proof

/-! ### Whom the arbiter serves (R72 to R74) -/

theorem allSlots_rising : allSlots.Pairwise (· < ·) := by decide

theorem freeSlotId_eq_none {s : State} (h : ∀ k, s.txn k ≠ none) : s.freeSlotId = none := by
  simp [State.freeSlotId, h]

theorem freeSlotId_eq_some {s : State} {k : SlotId} (hk : s.txn k = none) (hj : ∀ j, j < k → s.txn j ≠ none) :
    s.freeSlotId = some k :=
  find_of_pairwise allSlots_rising (mem_allSlots k) (by simp [hk]) fun j lt => by
    simpa [Option.isSome_iff_ne_none] using hj j lt

theorem oldestReady_eq_some {s : State} {q : Parked} {older younger : List Parked}
    (h : s.parked = older ++ q :: younger) (hq : q.ready = true) (ho : ∀ r ∈ older, r.ready = false) :
    s.oldestReady = some q :=
  List.find?_eq_some_iff_append.mpr ⟨hq, older, younger, h, fun r hr => by simp [ho r hr]⟩

theorem oldestReady_eq_none {s : State} (h : ∀ q ∈ s.parked, q.ready = false) : s.oldestReady = none :=
  List.find?_eq_none.mpr fun q hq => by simp [h q hq]

/-- The positions from the pointer upward come in the order of their distance beyond it. -/
theorem positionsFrom_pairwise (ptr : Fin 9) :
    (positionsFrom ptr).Pairwise fun a b => (a.val + 9 - ptr.val) % 9 < (b.val + 9 - ptr.val) % 9 := by
  revert ptr
  decide

theorem mem_positionsFrom (ptr n : Fin 9) : n ∈ positionsFrom ptr := by
  revert ptr n
  decide

theorem roundRobin_eq_some {s : State} {n : Fin 9} (hn : s.presentAt n = true)
    (hm : ∀ m, s.presentAt m = true → s.beyond n ≤ s.beyond m) : s.roundRobin = some n := by
  refine find_of_pairwise (positionsFrom_pairwise s.rrPointer) (mem_positionsFrom _ n) hn fun m nearer => ?_
  rw [← Bool.not_eq_true]
  exact fun present => absurd (hm m present) (Nat.not_le.mpr nearer)

theorem roundRobin_eq_none {s : State} (h : ∀ m, s.presentAt m = false) : s.roundRobin = none :=
  List.find?_eq_none.mpr fun m _ => by simp [h m]

theorem handOut_of_no_slot {s : State} (h : s.freeSlotId = none) : s.handOut = none := by
  simp [State.handOut, h]

theorem handOut_of_ready {s : State} {k : SlotId} {q : Parked} (hk : s.freeSlotId = some k)
    (hq : s.oldestReady = some q) : s.handOut = some (.parked k q) := by
  simp [State.handOut, hk, hq]

theorem handOut_of_roundRobin {s : State} {k : SlotId} (hk : s.freeSlotId = some k) (hq : s.oldestReady = none) :
    s.handOut =
      match s.roundRobin with
      | none => none
      | some n => if h : n.val < 8 then some (.head k ⟨n.val, h⟩) else some (.sweep k) := by
  simp only [State.handOut, hk, hq] <;> rfl

/-! ### Who competes (R72, R149) -/

theorem headEligible_iff {s : State} {p : Port} :
    s.headEligible p = true ↔
      (s.link p).queue ≠ [] ∧ ((s.port p).state = .online ∨ ∃ d, (s.port p).state = .draining d) ∧
        (s.service = .running ∨ s.service = .halted) := by
  unfold State.headEligible
  cases (s.port p).state <;> simp

theorem presentAt_port {s : State} (p : Port) : s.presentAt ⟨p.val, by omega⟩ = s.headEligible p := by
  simp [State.presentAt, p.isLt]

theorem firstPending_isSome {s : State} : s.firstPending.isSome = true ↔ ∃ l, (l, .pending) ∈ s.sweep.workList := by
  simp [State.firstPending]

theorem Job.edits_eq_false {j : Job} : j.edits = false ↔ (∀ p, j ≠ .cleanup p) ∧ j ≠ .poisonClear := by
  cases j <;> simp [Job.edits]

theorem sweepCompetes_iff {s : State} :
    s.sweepCompetes = true ↔
      (∃ j rest, s.sweep.jobs = j :: rest ∧ (∀ p, j ≠ .cleanup p) ∧ j ≠ .poisonClear) ∧
        (∃ l, (l, .pending) ∈ s.sweep.workList) ∧ s.sweepActive < 4 := by
  unfold State.sweepCompetes
  cases s.sweep.jobs with
  | nil => simp
  | cons j rest =>
    simp only [Bool.and_eq_true, Bool.not_eq_true', Job.edits_eq_false, firstPending_isSome, decide_eq_true_eq,
      List.cons.injEq, and_assoc, exists_and_left, exists_eq_left']
    rfl

theorem presentAt_sweep (s : State) : s.presentAt 8 = s.sweepCompetes := rfl

/-- Settles O33: by the lowest free slot, the first Ready request and the first position from the pointer. -/
theorem arbiterServesInOrder : Obligations.ArbiterServesInOrder := by
  refine ⟨fun s h => handOut_of_no_slot (freeSlotId_eq_none h), fun s k hk hj => ?serves,
    fun s => ⟨fun p => (presentAt_port p).symm ▸ headEligible_iff, sweepCompetes_iff⟩⟩
  case serves =>
    have slot := freeSlotId_eq_some hk hj
    refine ⟨fun q older younger hq hready hold => handOut_of_ready slot (oldestReady_eq_some hq hready hold),
      fun hparked => ?_⟩
    have robin := handOut_of_roundRobin slot (oldestReady_eq_none hparked)
    refine ⟨fun p hp hm => ?_, fun hp hm => ?_, fun hm => ?_⟩
    · rw [robin, roundRobin_eq_some hp hm]
      simp [p.isLt]
    · rw [robin, roundRobin_eq_some hp hm]
      rfl
    · rw [robin, roundRobin_eq_none hm]

/-! ### The checks of R76 -/

theorem kindPermitted_eq_false {s : State} {p : Port} {kind : RequestKind} :
    kindPermitted (s.port p).profile kind = false ↔ s.mismatch p kind := by
  unfold State.mismatch
  cases (s.port p).profile <;> cases kind <;> simp [kindPermitted]

theorem attrResponse_eq_some {s : State} {kind : RequestKind} {line : LineNo} {a : Response} :
    attrResponse (s.attrOf line) kind = some a ↔ RegionAnswer s kind line a := by
  constructor
  · intro h
    cases ha : s.attrOf line with
    | untracked => rw [ha] at h; cases h; exact .untracked ha
    | tracked => rw [ha] at h; cases kind <;> cases h
    | streamInvalidate =>
      rw [ha] at h
      cases kind <;> cases h
      · exact .denied ha (Or.inl rfl)
      · exact .denied ha (Or.inr rfl)
  · rintro (ha | ⟨ha, rfl | rfl⟩) <;> rw [ha] <;> rfl

theorem regionAnswer_of_attrOf {s t : State} {kind : RequestKind} {line : LineNo} {a : Response}
    (h : t.attrOf line = s.attrOf line) (ha : RegionAnswer s kind line a) : RegionAnswer t kind line a := by
  rwa [← attrResponse_eq_some, h, attrResponse_eq_some]

/-- Checks 2 and 3 of R76 read the profile and the line's treatment alone. -/
theorem serves_of_attrOf {s t : State} {p : Port} {kind : RequestKind} {line : LineNo} (hp : t.port p = s.port p)
    (h : t.attrOf line = s.attrOf line) (hv : s.serves p kind line) : t.serves p kind line := by
  refine ⟨?_, fun a ha => hv.2 a (regionAnswer_of_attrOf h.symm ha)⟩
  rw [State.mismatch, hp]
  exact hv.1

theorem startRequest_of_halted {s : State} (k : SlotId) (q : Parked) (h : s.service = .halted) :
    startRequest k q true s = answerAtOnce k q.port q.tag (.refused .halted) s := by
  simp [startRequest, h]

section checks

variable {s : State} {k : SlotId} {q : Parked} {fromQueue : Bool}

theorem startRequest_of_mismatch (hs : ¬ (fromQueue = true ∧ s.service = .halted)) (hm : s.mismatch q.port q.kind) :
    startRequest k q fromQueue s = answerAtOnce k q.port q.tag (.refused .kindNotPermitted) s := by
  rw [startRequest, if_neg hs, if_pos (kindPermitted_eq_false.mpr hm)]

theorem startRequest_of_answer {a : Response} (hs : ¬ (fromQueue = true ∧ s.service = .halted))
    (hm : ¬ s.mismatch q.port q.kind) (ha : RegionAnswer s q.kind q.line a) :
    startRequest k q fromQueue s = answerAtOnce k q.port q.tag a s := by
  rw [startRequest, if_neg hs, if_neg (mt kindPermitted_eq_false.mp hm), attrResponse_eq_some.mpr ha]

theorem startRequest_of_serves (hs : ¬ (fromQueue = true ∧ s.service = .halted))
    (hv : s.serves q.port q.kind q.line) :
    startRequest k q fromQueue s =
      if s.claimed q.line then parkOnLine k q s
      else startHandling k q.port q.kind q.line
        (s.setTxn k (openedTxn (.port q.port q.tag q.order) (.request q.kind) q.line)) := by
  obtain ⟨hm, ha⟩ := hv
  have unanswered : attrResponse (s.attrOf q.line) q.kind = none :=
    Option.eq_none_iff_forall_not_mem.mpr fun a h => ha a (attrResponse_eq_some.mp h)
  rw [startRequest, if_neg hs, if_neg (mt kindPermitted_eq_false.mp hm), unanswered]
  rfl

end checks

/-! ### Answers and parkings of an Online port's request -/

theorem quiesceCheck_of_not_quiescing {s : State} (h : s.service ≠ .quiescing) : quiesceCheck s = s := by
  simp [quiesceCheck, h]

theorem drainTest_of_online {s : State} {p : Port} (h : (s.port p).state = .online) : drainTest p s = s := by
  simp [drainTest, h]

theorem cleanupTest_of_online {s : State} {p : Port} (h : (s.port p).state = .online) : cleanupTest p s = s := by
  simp [cleanupTest, h]

theorem members_single (p : Port) : PortSet.members (PortSet.single p) = [p] := by
  revert p
  decide

theorem portTests_of_online {s : State} {p : Port} (h : (s.port p).state = .online) :
    portTests (PortSet.single p) s = s := by
  simp [portTests, members_single, drainTest_of_online h, cleanupTest_of_online h]

theorem respondAtCompletion_of_online {s : State} {p : Port} (tag : Tag) (r : Response)
    (h : (s.port p).state = .online) : respondAtCompletion p tag r s = s.answered p tag r := by
  rw [respondAtCompletion, h, respond_eq_answered]

theorem answered_port (s : State) (p q : Port) (tag : Tag) (r : Response) : (s.answered p tag r).port q = s.port q := by
  obtain ⟨l, e, -⟩ := answered_frame s p tag r
  rw [e]
  rfl

theorem answered_service (s : State) (p : Port) (tag : Tag) (r : Response) :
    (s.answered p tag r).service = s.service := by
  obtain ⟨l, e, -⟩ := answered_frame s p tag r
  rw [e]
  rfl

theorem answerAtOnce_of_online {s : State} (k : SlotId) {p : Port} (tag : Tag) (r : Response)
    (ho : (s.port p).state = .online) (hs : s.service ≠ .quiescing) :
    answerAtOnce k p tag r s = (s.answered p tag r).givenBack k := by
  have online : (((s.answered p tag r).givenBack k).port p).state = .online := by
    rw [← ho, ← answered_port s p p tag r]
    rfl
  have service : ((s.answered p tag r).givenBack k).service ≠ .quiescing := by
    rw [← answered_service s p tag r] at hs
    exact hs
  rw [answerAtOnce, respondAtCompletion_of_online tag r ho, freeSlot_eq_givenBack, portTests_of_online online,
    quiesceCheck_of_not_quiescing service]

theorem joinParked_of_online {s : State} {q : Parked} (ho : (s.port q.port).state = .online) :
    joinParked q s = quiesceCheck (s.parkedWith q) := by
  unfold joinParked State.parkedWith
  rw [respondAtCompletion_of_online _ _ ho, insertParked_eq]
  congr 1
  by_cases h : s.parked.length < 16
  · rw [if_pos h, if_neg (show ¬ Config.parkedPlaces ≤ s.parked.length from Nat.not_le.mpr h)]
  · rw [if_neg h, if_pos (show Config.parkedPlaces ≤ s.parked.length from Nat.not_lt.mp h)]

theorem parkOnLine_of_online {s : State} (k : SlotId) {q : Parked} (ho : (s.port q.port).state = .online) :
    parkOnLine k q s = quiesceCheck ((s.givenBack k).parkedWith { q with reason := .line, ready := false }) :=
  joinParked_of_online (s := s.givenBack k) (q := { q with reason := .line, ready := false }) ho

theorem parkedWith_service (s : State) (q : Parked) : (s.parkedWith q).service = s.service := by
  unfold State.parkedWith
  split
  · rfl
  · exact answered_service s _ _ _

/-! ### A queue head and a Ready request (R76, R89) -/

/-- The request that the head of port p's queue is once it is taken. -/
def State.headRequest (s : State) (p : Port) (r : Request) : Parked :=
  { port := p, tag := r.tag, kind := r.kind, line := r.line, order := s.nextOrder, reason := .line, ready := false }

theorem exec_takeQueueHead {s : State} {k : SlotId} {p : Port} {r : Request} {rest : List Request}
    (hr : s.inReset = false) (h : s.handOut = some (.head k p)) (hq : (s.link p).queue = r :: rest) :
    exec .takeQueueHead s =
      .next (startRequest k (s.headRequest p r) true (s.taken p rest)) := by
  have hand : s.begun.handOut = some (.head k p) := h
  have queue : (s.begun.link p).queue = r :: rest := hq
  have pointer : nextPosition ⟨p.val, by omega⟩ = ⟨p.val + 1, by omega⟩ := by
    exact dif_pos (show p.val + 1 < 9 by omega)
  refine (event_of_not_inReset _ hr).trans ?_
  simp only [takeHead, hand, queue, pointer]
  rfl

theorem handOut_head_service {s : State} {k : SlotId} {p : Port} (h : s.handOut = some (.head k p)) :
    s.service = .running ∨ s.service = .halted := by
  unfold State.handOut at h
  split at h
  · cases h
  · split at h
    · cases h
    · split at h
      · cases h
      · next n hn =>
        split at h
        · next lt =>
          cases h
          have present := List.find?_some hn
          rw [State.presentAt, dif_pos lt] at present
          exact (headEligible_iff.mp present).2.2
        · cases h

theorem exec_takeQueueHead_of_none {s : State} (hr : s.inReset = false) (h : ∀ k p, s.handOut ≠ some (.head k p)) :
    exec .takeQueueHead s = .next s.begun := by
  refine (event_of_not_inReset _ hr).trans ?_
  unfold takeHead
  split
  · next k p e => exact absurd e (h k p)
  all_goals rfl

/-- Settles O34: the checks of R76 in their order, on the state in which the head has been taken. -/
theorem queueHeadIsServed : Obligations.QueueHeadIsServed := by
  refine ⟨fun s k p r rest hr hand hq ho => ?_, fun s hr h => exec_takeQueueHead_of_none hr h⟩
  have running : (s.taken p rest).service ≠ .quiescing := by
    intro e
    obtain h | h := handOut_head_service hand <;> rw [show s.service = _ from e] at h <;> cases h
  have online : ((s.taken p rest).port p).state = .online := ho
  have open_gate (h : s.service ≠ .halted) : ¬ (true = true ∧ (s.taken p rest).service = .halted) := fun e => h e.2
  rw [exec_takeQueueHead hr hand hq]
  refine ⟨fun h => ?halted, fun h hm => ?mismatch, fun h hm a ha => ?answer, fun h hv hc => ?parked,
    fun h hv hc => ?started⟩
  case halted =>
    rw [startRequest_of_halted (s := s.taken p rest) k _ h]
    exact congrArg _ (answerAtOnce_of_online k r.tag _ online running)
  case mismatch =>
    rw [startRequest_of_mismatch (s := s.taken p rest) (q := s.headRequest p r) (open_gate h) hm]
    exact congrArg _ (answerAtOnce_of_online k r.tag _ online running)
  case answer =>
    rw [startRequest_of_answer (s := s.taken p rest) (q := s.headRequest p r) (open_gate h) hm
      (regionAnswer_of_attrOf (s := s) rfl ha)]
    exact congrArg _ (answerAtOnce_of_online k r.tag a online running)
  case parked =>
    rw [startRequest_of_serves (s := s.taken p rest) (q := s.headRequest p r) (open_gate h)
        (serves_of_attrOf (s := s) rfl rfl hv),
      if_pos (show (s.taken p rest).claimed (s.headRequest p r).line = true from hc)]
    refine congrArg _ ((parkOnLine_of_online k (q := s.headRequest p r) online).trans ?_)
    exact quiesceCheck_of_not_quiescing (by rw [parkedWith_service]; exact running)
  case started =>
    rw [startRequest_of_serves (s := s.taken p rest) (q := s.headRequest p r) (open_gate h)
        (serves_of_attrOf (s := s) rfl rfl hv),
      if_neg (Bool.eq_false_iff.mp (show (s.taken p rest).claimed (s.headRequest p r).line = false from hc))]
    rfl

theorem exec_restartParked {s : State} {k : SlotId} {q : Parked} (hr : s.inReset = false)
    (h : s.handOut = some (.parked k q)) : exec .restartParked s = .next (startRequest k q false (s.unparked q)) := by
  have hand : s.begun.handOut = some (.parked k q) := h
  refine (event_of_not_inReset _ hr).trans ?_
  simp only [restartOldest, hand]
  rfl

theorem exec_restartParked_of_none {s : State} (hr : s.inReset = false)
    (h : ∀ k q, s.handOut ≠ some (.parked k q)) : exec .restartParked s = .next s.begun := by
  refine (event_of_not_inReset _ hr).trans ?_
  unfold restartOldest
  split
  · next k q e => exact absurd e (h k q)
  all_goals rfl

/-- Settles O35: the checks of R76 but the first, on the state in which the request has left the list. -/
theorem readyRequestIsRestarted : Obligations.ReadyRequestIsRestarted := by
  refine ⟨fun s k q hr hand ho => ?_, fun s hr h => exec_restartParked_of_none hr h⟩
  have online : ((s.unparked q).port q.port).state = .online := ho
  have gate : ¬ (false = true ∧ (s.unparked q).service = .halted) := by simp
  rw [exec_restartParked hr hand]
  refine ⟨fun h hm => ?mismatch, fun h hm a ha => ?answer, fun hv hc => ?parked, fun hv hc => ?started⟩
  case mismatch =>
    rw [startRequest_of_mismatch (s := s.unparked q) gate hm,
      answerAtOnce_of_online (s := s.unparked q) k q.tag _ online h]
  case answer =>
    rw [startRequest_of_answer (s := s.unparked q) gate hm (regionAnswer_of_attrOf (s := s) rfl ha),
      answerAtOnce_of_online (s := s.unparked q) k q.tag a online h]
  case parked =>
    rw [startRequest_of_serves (s := s.unparked q) gate (serves_of_attrOf (s := s) rfl rfl hv),
      if_pos (show (s.unparked q).claimed q.line = true from hc)]
    exact congrArg _ (parkOnLine_of_online k online)
  case started =>
    rw [startRequest_of_serves (s := s.unparked q) gate (serves_of_attrOf (s := s) rfl rfl hv),
      if_neg (Bool.eq_false_iff.mp (show (s.unparked q).claimed q.line = false from hc))]

end Sys2Proof.Machine
end

section
/-! PROOFS. The start of probe phases, of caching and of streaming requests, and the allocation of a way (5.6, 6.3, 7.3,
8.1). -/

namespace Sys2Proof.Machine

open Sys2Proof

/-! ### The start of a probe phase (R128, R132) -/

theorem allPorts_nodup : allPorts.Nodup := by decide

theorem members_nodup (S : PortSet) : (PortSet.members S).Nodup := allPorts_nodup.filter _

theorem queueMessage_eq (p : Port) (m : OutMessage) (s : State) :
    queueMessage p m s = s.setLink p { s.link p with outbound := (s.link p).outbound ++ [m] } := rfl

/-- One message to each of a list of ports changes their links alone. -/
theorem queueMessages_eq {L : List Port} (hL : L.Nodup) (m : OutMessage) (s : State) :
    ∃ v, L.foldl (fun x q => queueMessage q m x) s = { s with links := v } ∧
      ∀ p, (L.foldl (fun x q => queueMessage q m x) s).link p =
        if p ∈ L then { s.link p with outbound := (s.link p).outbound ++ [m] } else s.link p := by
  induction L generalizing s with
  | nil => exact ⟨s.links, rfl, fun p => by simp⟩
  | cons q L ih =>
    obtain ⟨fresh, rest⟩ := List.nodup_cons.mp hL
    obtain ⟨v, e, links⟩ := ih rest (queueMessage q m s)
    refine ⟨v, e, fun p => (links p).trans ?_⟩
    by_cases hp : p = q
    · subst hp
      simp [fresh, queueMessage_eq]
    · have same : (queueMessage q m s).link p = s.link p := State.link_setLink_ne s _ hp
      simp [hp, same]

/-- The probes of a phase carry the slot's generation as it stood at the phase's start. -/
theorem queueProbes_eq {s : State} {k : SlotId} {g : Bool} (L : List Port) (l : LineNo) (kind : ProbeKind)
    (h : (s.slot k).gen = g) :
    L.foldl (fun x q => queueMessage q (.probe k (x.slot k).gen l kind) x) s =
      L.foldl (fun x q => queueMessage q (.probe k g l kind) x) s := by
  induction L generalizing s with
  | nil => rfl
  | cons q L ih =>
    simp only [List.foldl_cons, h]
    exact ih h

theorem probedTxn_eq {s : State} {k : SlotId} {t : Txn} (ph : Phase) (l : LineNo) (g : RecallTargets)
    (h : s.txn k = some t) :
    issueProbes k ph l g s =
      (PortSet.members g.ports).foldl (fun x q => queueMessage q (.probe k (s.slot k).gen l g.kind) x)
        (s.setTxn k { t with
          phase := some ph
          probes := (PortSet.members g.ports).map fun q =>
            { port := q, kind := g.kind, role := g.role, outcome := none }
          reprobed := false
          deadline := some { start := s.now, interval := s.probeInterval }
          probed := PortSet.union t.probed g.ports }) := by
  unfold issueProbes
  simp only [modifyTxn_eq _ h]
  exact queueProbes_eq _ l g.kind (State.gen_setTxn s k _)

/-- Settles O36: the record by one change of the slot, the probes by one message to each target. -/
theorem phaseStartQueuesItsProbes : Obligations.PhaseStartQueuesItsProbes := by
  rintro s u k t ph l g ht rfl
  rw [probedTxn_eq ph l g ht]
  generalize hv : State.setTxn s k _ = v
  obtain ⟨x, e, links⟩ := queueMessages_eq (members_nodup g.ports) (.probe k (s.slot k).gen l g.kind) v
  have txn (j : SlotId) : (List.foldl (fun x q => queueMessage q (.probe k (s.slot k).gen l g.kind) x) v
      (PortSet.members g.ports)).slot j = v.slot j := by rw [e]; rfl
  refine ⟨?_, fun p => ?_, fun j hj => ?_, ?_, ?_⟩
  · rw [State.txn, txn, ← hv]
    exact State.txn_setTxn_same s k _
  · have link : v.link p = s.link p := by rw [← hv]; rfl
    simp only [links, link, mem_members]
  · rw [txn, ← hv, State.slot_setTxn_ne s _ hj]
  · rw [txn, ← hv, State.gen_setTxn]
  · rw [e, ← hv]
    rfl

/-! ### The start of caching requests (Fig. 6-5) -/

theorem startHandling_caching {kind : RequestKind} (k : SlotId) (p : Port) (l : LineNo) (s : State)
    (h : kind = .readShared ∨ kind = .readExclusive ∨ kind = .upgrade) :
    startHandling k p kind l s = startCaching k p kind l s := by
  obtain rfl | rfl | rfl := h <;> rfl

theorem grantOn_of_result {kind : RequestKind} {p : Port} {x y : EntryState} {r : Response} (k : SlotId)
    (i : SetIdx) (w : Way) (s : State) (h : grantResult kind p (some x) = some (y, r)) :
    grantOn k p kind i w x s = complete k (some r) (grant i w y s) := by
  simp only [grantOn, h]

theorem grantResult_holder {kind : RequestKind} (p : Port)
    (h : kind = .readShared ∨ kind = .readExclusive ∨ kind = .upgrade) :
    grantResult kind p (some (.exclusive p)) = some (.exclusive p, .grantExclusive false) := by
  obtain rfl | rfl | rfl := h <;> exact if_pos rfl

theorem grantResult_sharers {kind : RequestKind} (p : Port) (S : PortSet)
    (h : kind = .readExclusive ∨ kind = .upgrade) :
    grantResult kind p (some (.shared S)) = some (.exclusive p, .grantExclusive (!PortSet.has S p)) := by
  obtain rfl | rfl := h <;> rfl

theorem grantResult_absent {kind : RequestKind} (p : Port) (h : kind = .readExclusive ∨ kind = .upgrade) :
    grantResult kind p none = some (.exclusive p, .grantExclusive true) := by
  obtain rfl | rfl := h <;> rfl

/-- Settles O37: by the entry that the changing lookup leaves. -/
theorem cachingRequestIsStarted : Obligations.CachingRequestIsStarted := by
  rintro s u k p kind l hkind rfl
  rw [startHandling_caching k p l s hkind]
  refine ⟨fun h => ?absent, fun w c q h => ?poisoned, fun w h => ?own, fun w q h hq => ?holder,
    fun w S h => ⟨fun hk => ?share, fun hk h0 => ?alone, fun hk h0 => ?others⟩⟩
  case absent => simp only [startCaching, h]
  case poisoned => simp only [startCaching, h]
  case own =>
    simp only [startCaching, h, if_true]
    exact grantOn_of_result k _ w _ (grantResult_holder p hkind)
  case holder => simp only [startCaching, h, if_neg hq]
  case share =>
    subst hk
    simp only [startCaching, h, true_or, if_true]
    exact grantOn_of_result k _ w _ rfl
  case alone =>
    simp only [startCaching, h, if_pos (Or.inr h0)]
    exact grantOn_of_result k _ w _ (grantResult_sharers p S (hkind.resolve_left hk))
  case others =>
    simp only [startCaching, h, if_neg (not_or.mpr ⟨hk, h0⟩)]

/-! ### The start of streaming requests (Fig. 7-4) -/

theorem enterLease_of_online {s : State} {k : SlotId} {t : Txn} {p : Port} {tag : Tag} {n : Nat}
    (ht : s.txn k = some t) (ho : t.origin = .port p tag n) (hp : (s.port p).state = .online) :
    enterLease k p s =
      (s.setTxn k { t with
        phase := some .leased, response := none
        deadline := some { start := s.now, interval := s.leaseInterval } }).answered p tag .streamGo := by
  have online : s.isOnline p = true := decide_eq_true hp
  have origin : (s.txn k).bind Txn.originTag = some tag := by simp [ht, Txn.originTag, ho]
  rw [enterLease, if_pos online, origin]
  simp only [modifyTxn_eq _ ht, respond_eq_answered]

theorem State.isOnline_eq_false {s : State} {p : Port} (h : (s.port p).state ≠ .online) : s.isOnline p = false :=
  decide_eq_false h

theorem enterLease_of_not_online {s : State} (k : SlotId) {p : Port} (hp : (s.port p).state ≠ .online) :
    enterLease k p s = complete k (some (.refused .draining)) s := by
  rw [enterLease, State.isOnline_eq_false hp]
  rfl

/-- Settles O38: by the entry that the changing lookup leaves, and by the origin's state at the lease. -/
theorem streamingRequestIsStarted : Obligations.StreamingRequestIsStarted := by
  refine ⟨?starts, fun s k t p tag n ht ho => ⟨enterLease_of_online ht ho, enterLease_of_not_online k⟩⟩
  rintro s u k p l rfl
  refine ⟨fun h => ⟨?_, ?_⟩, fun w S h => ⟨?_, ?_⟩, fun w q h => ⟨?_, ?_⟩, fun w c q h => ⟨?_, ?_⟩⟩
  all_goals simp only [startHandling, startStreamRead, startStreamWrite, h, EntryState.holders]

/-! ### Parking with reason Set (R86) -/

theorem PortRec.Quiet.online_iff {r q : PortRec} (h : r.Quiet q) : q.state = .online ↔ r.state = .online := by
  obtain ⟨-, -, same | ⟨b, draining, done | left⟩ | ⟨isolated, cleaned⟩⟩ := h
  · rw [same]
  · simp [draining, done]
  · simp [draining, left]
  · simp [isolated, cleaned]

theorem Walk.online_iff {s t : State} (w : Walk s t) (p : Port) :
    (t.port p).state = .online ↔ (s.port p).state = .online := (w.ports p).online_iff

theorem Walk.parked_length {s t : State} (w : Walk s t) : t.parked.length = s.parked.length := by
  obtain ⟨f, -, e⟩ := w.parked
  rw [e, List.length_map]

/-- The state in which a parking transaction's request joins the list (R86). -/
def State.unclaimed (s : State) (k : SlotId) (t : Txn) (S : PortSet) : State :=
  (releaseClaim t.line (s.givenBack k)).tested S

theorem unclaimed_walk (s : State) (k : SlotId) (t : Txn) (S : PortSet) :
    Walk (readyLine t.line (s.givenBack k)) (s.unclaimed k t S) :=
  portTests_walk S (sweepRelease_walk _ (.refl _))

theorem parkOnSet_of_online {s : State} {k : SlotId} {t : Txn} {p : Port} {tag : Tag} {n : Nat} {kind : RequestKind}
    (ht : s.txn k = some t) (ho : t.origin = .port p tag n) (hk : t.kind = .request kind)
    (hp : (s.port p).state = .online) :
    parkOnSet k s =
      quiesceCheck ((s.unclaimed k t (PortSet.insert t.probed p)).parkedWith
        { port := p, tag := tag, kind := kind, line := t.line, order := n, reason := .set, ready := false }) := by
  have walk := unclaimed_walk s k t (PortSet.insert t.probed p)
  have online : ((s.unclaimed k t (PortSet.insert t.probed p)).port p).state = .online := (walk.online_iff p).mpr hp
  rw [parkOnSet_eq k t p tag n kind ht ho hk, (Txn.reported_of_port ho).2]
  exact joinParked_of_online online

theorem parkedWith_of_room {s : State} (q : Parked) (h : s.parked.length < 16) :
    q ∈ (s.parkedWith q).parked ∧ (s.parkedWith q).parked.length = s.parked.length + 1 := by
  rw [State.parkedWith, if_pos h]
  refine ⟨by simp, ?_⟩
  have whole := congrArg List.length
    (List.takeWhile_append_dropWhile (p := fun r : Parked => decide (r.order ≤ q.order)) (l := s.parked))
  simp only [List.length_append, List.length_cons] at whole ⊢
  omega

theorem parkedWith_of_full {s : State} (q : Parked) (h : 16 ≤ s.parked.length) :
    s.parkedWith q = s.answered q.port q.tag .retry := if_neg (Nat.not_lt.mpr h)

theorem answered_parked (s : State) (p : Port) (tag : Tag) (r : Response) : (s.answered p tag r).parked = s.parked := by
  obtain ⟨l, e, -⟩ := answered_frame s p tag r
  rw [e]
  rfl

theorem parkedWith_slots (s : State) (q : Parked) : (s.parkedWith q).slots = s.slots := by
  unfold State.parkedWith
  split
  · rfl
  · obtain ⟨l, e, -⟩ := answered_frame s q.port q.tag .retry
    rw [e]
    rfl

theorem quiesceCheck_parked (s : State) : (quiesceCheck s).parked = s.parked := by
  obtain ⟨v, u, n, e⟩ := quiesceCheck_frame s
  rw [e]

theorem slot_of_slots {s t : State} (h : t.slots = s.slots) (k : SlotId) : t.slot k = s.slot k := by
  unfold State.slot
  rw [h]

theorem quiesceCheck_slots (s : State) : (quiesceCheck s).slots = s.slots :=
  (quiesceCheck_walk (.refl s)).slots

theorem readyLine_givenBack_parked (l : LineNo) (s : State) (k : SlotId) :
    (readyLine l (s.givenBack k)).parked.length = s.parked.length := by
  simp [readyLine, readySet, State.givenBack]

/-! ### The use of an empty way (R15, R16, R95, R119) -/

theorem takeWay_of_grant {kind : RequestKind} {p : Port} {y : EntryState} {r : Response} {s : State} (k : SlotId)
    (l : LineNo) (w : Way) (hk : kind ≠ .streamWrite) (hp : (s.port p).state = .online)
    (h : grantResult kind p none = some (y, r)) :
    takeWay k p kind l w s =
      complete k (some r) (place (setOf l) w { tag := entryTag l, state := y }
        (s.modifyTxn k fun t => { t with heldWay := none })) := by
  have online : s.isOnline p = true := decide_eq_true hp
  rw [takeWay, if_neg hk, if_pos online, h]

theorem takeWay_of_streamWrite (k : SlotId) (p : Port) (l : LineNo) (w : Way) (s : State) :
    takeWay k p .streamWrite l w s = enterLease k p (s.modifyTxn k fun t => { t with heldWay := some w }) := rfl

theorem takeWay_of_not_online {kind : RequestKind} {p : Port} {s : State} (k : SlotId) (l : LineNo) (w : Way)
    (hk : kind ≠ .streamWrite) (hp : (s.port p).state ≠ .online) :
    takeWay k p kind l w s = complete k (some (.refused .draining)) s := by
  rw [takeWay, if_neg hk, State.isOnline_eq_false hp]
  rfl

/-! ### Allocation (R12, R13, R95, R119) -/

theorem isolated_of_isIsolated {s : State} {p : Port} (h : s.isIsolated p = true) :
    ∃ d, (s.port p).state = .isolated d := by
  unfold State.isIsolated at h
  split at h
  · next d e => exact ⟨d, e⟩
  all_goals cases h

theorem scrubWay_of_exclusive {s : State} {i : SetIdx} {w : Way} {e : Entry} {h : Port} (hw : s.way i w = some e)
    (he : e.state = .exclusive h) : scrubWay i w s = if s.isIsolated h then convert i w h s else s := by
  simp only [scrubWay, hw, he]

theorem scrubWay_of_shared {s : State} {i : SetIdx} {w : Way} {e : Entry} {S : PortSet} (hw : s.way i w = some e)
    (he : e.state = .shared S) :
    scrubWay i w s =
      if PortSet.diff S s.isolatedPorts = S then s
      else if PortSet.diff S s.isolatedPorts = 0 then retire i w s
      else rewrite i w (.shared (PortSet.diff S s.isolatedPorts)) s := by
  simp only [scrubWay, hw, he]

theorem scrubSet_online_iff (s : State) (i : SetIdx) (p : Port) :
    ((scrubSet i s).port p).state = .online ↔ (s.port p).state = .online :=
  (scrubSet_walk i (.refl s)).online_iff p

/-- What the allocation does on each outcome of its way search (R12, R95). -/
theorem allocate_of_outcome (k : SlotId) (p : Port) (kind : RequestKind) (l : LineNo) (s : State) {u : State}
    (hu : u = scrubSet (setOf l) s) :
    allocate k p kind l s =
      match u.searchOutcome (setOf l) with
      | .free w => takeWay k p kind l w u
      | .victim w => recallVictim k (setOf l) w u
      | .noRoomForNow => if u.isOnline p then parkOnSet k u else complete k (some (.refused .draining)) u
      | .noRoom => complete k (some (.denied .noRoom)) u := by
  delta allocate
  extract_lets x
  have same : x = u := hu.symm
  clear_value x
  subst same
  rfl

/-- Settles O39: the parking by its completion, the lookups way by way, the allocation by the search's outcome. -/
theorem allocationFollowsTheSearch : Obligations.AllocationFollowsTheSearch := by
  refine ⟨fun s u v k t p tag n kind q ht ho hk hp hu hq hv => ?parking, fun _ _ => rfl, fun s i w => ?lookup, ?search⟩
  case parking =>
    have walk := unclaimed_walk s k t (PortSet.insert t.probed p)
    have whole : u = quiesceCheck (v.parkedWith q) := by
      rw [hu, hv, hq]
      exact parkOnSet_of_online ht ho hk hp
    have hv' : v = s.unclaimed k t (PortSet.insert t.probed p) := hv
    rw [← hv'] at walk
    have slots : u.slots = v.slots := by rw [whole, quiesceCheck_slots, parkedWith_slots]
    have length : v.parked.length = s.parked.length :=
      walk.parked_length.trans (readyLine_givenBack_parked t.line s k)
    refine ⟨whole, ?_, fun j hj => ?_, length, fun hroom => ?_, fun hfull => ?_, ?_⟩
    · rw [slot_of_slots slots, walk.slot k]
      exact givenBack_slot s k
    · rw [slot_of_slots slots, walk.slot j]
      exact givenBack_slot_ne s hj
    · obtain ⟨mem, len⟩ := parkedWith_of_room (s := v) q (by rwa [length])
      rw [whole, quiesceCheck_parked]
      exact ⟨mem, by rw [len, length]⟩
    · have full := parkedWith_of_full (s := v) q (by rwa [length])
      have tag_eq (g : Tag) : v.tagState p g = s.tagState p g := walk.tagState p g
      have checked : u.tagState p tag = (v.parkedWith q).tagState p tag := by
        rw [whole, State.tagState, quiesceCheck_link]
        rfl
      refine ⟨by rw [whole, quiesceCheck_parked, full, answered_parked], ?_⟩
      rw [checked, full, hq, tagState_answered, tag_eq]
      by_cases hf : s.tagState p tag = .free <;> simp [hf]
    · exact walk.parked_ready (f := Parked.waitsFor t.line) (fun _ _ => Iff.rfl) (readyLine_parked _ _)
  case lookup =>
    refine ⟨fun h => by simp only [scrubWay, h], fun e he => ⟨fun c q h => by simp only [scrubWay, he, h],
      fun h hh => ⟨fun hi => ?_, fun hi => ?_⟩, fun S S' hS hS' => ?_⟩⟩
    · rw [scrubWay_of_exclusive he hh, if_neg fun hx => ?_]
      obtain ⟨d, hd⟩ := isolated_of_isIsolated hx
      exact hi d hd
    · rw [scrubWay_of_exclusive he hh, if_pos (State.isIsolated_of_isolated hi), convert]
    · rw [scrubWay_of_shared he hS, ← hS']
      exact ⟨fun h => if_pos h, fun h h0 => by rw [if_neg h, if_pos h0], fun h h0 => by rw [if_neg h, if_neg h0]⟩
  case search =>
    intro s u k p kind l hu
    have online : (u.port p).state = .online ↔ (s.port p).state = .online := by
      rw [hu]
      exact scrubSet_online_iff s (setOf l) p
    rw [allocate_of_outcome k p kind l s hu]
    refine ⟨fun w hw => ?_, fun w e hw he => ?_, fun h => ⟨fun hp => ?_, fun hp => ?_⟩, fun h => ?_⟩
    · simp only [hw]
      refine ⟨fun hk hp => ?_, fun hk hp => ?_, fun hk => ?_, fun hk hp => ?_⟩
      · rw [hk]
        exact takeWay_of_grant k l w (by decide) (online.mpr hp) rfl
      · have caching : kind ≠ .streamWrite := by obtain e | e := hk <;> rw [e] <;> decide
        exact takeWay_of_grant k l w caching (online.mpr hp) (grantResult_absent p hk)
      · rw [hk]
        exact takeWay_of_streamWrite k p l w u
      · exact takeWay_of_not_online k l w hk (mt online.mp hp)
    · simp only [hw, recallVictim, he]
    · have isOnline : u.isOnline p = true := decide_eq_true (online.mpr hp)
      simp only [h, isOnline, if_true]
    · simp only [h, State.isOnline_eq_false (mt online.mp hp), Bool.false_eq_true, if_false]
    · simp only [h]

end Sys2Proof.Machine
end

section
/-! PROOFS. The ends of probe phases, the ends of recalls, and what probe outcomes decide (6.2, 6.4, 7.2, 8.3). -/

namespace Sys2Proof.Machine

open Sys2Proof

/-! ### The end of a phase, by the transaction's origin and phase (R80) -/

/-- A transaction record once its phase has ended. -/
def Txn.phaseless (t : Txn) : Txn := { t with phase := none, probes := [], reprobed := false, deadline := none }

theorem phaseEnd_of_probing {s : State} {k : SlotId} {t : Txn} {p : Port} {tag : Tag} {n : Nat} {kind : RequestKind}
    (ht : s.txn k = some t) (ho : t.origin = .port p tag n) (hk : t.kind = .request kind)
    (hp : t.phase = some .probing) :
    phaseEnd k s = endProbing k p kind t.line t.probes (s.setTxn k t.phaseless) := by
  simp only [phaseEnd, ht, ho, hk, hp, Txn.phaseless]

theorem phaseEnd_of_victimProbing {s : State} {k : SlotId} {t : Txn} {p : Port} {tag : Tag} {n : Nat}
    {kind : RequestKind} {v : LineNo} {w : Way}
    (ht : s.txn k = some t) (ho : t.origin = .port p tag n) (hk : t.kind = .request kind)
    (hp : t.phase = some .victimProbing) (hv : t.victim = some v) (hw : t.heldWay = some w) :
    phaseEnd k s = endVictimRecall k p kind t.line v w (s.setTxn k t.phaseless) := by
  simp only [phaseEnd, ht, ho, hk, hp, hv, hw, Txn.phaseless]

theorem phaseEnd_of_sweepRecall {s : State} {k : SlotId} {t : Txn} {o : SweepOwner} (ht : s.txn k = some t)
    (ho : t.origin = .sweep o) (hk : t.kind = .sweepRecall) (hp : t.phase = some .probing) :
    phaseEnd k s = endRecall k t.line t.probes (s.setTxn k t.phaseless) := by
  simp only [phaseEnd, ht, ho, hk, hp, Txn.phaseless]

/-! ### The end of the Probing phase, by the request's kind -/

theorem endProbing_caching {kind : RequestKind} (k : SlotId) (p : Port) (l : LineNo) (probes : List Probe) (s : State)
    (h : kind = .readShared ∨ kind = .readExclusive ∨ kind = .upgrade) :
    endProbing k p kind l probes s = endCaching k p kind l probes s := by
  obtain rfl | rfl | rfl := h <;> rfl

section Ends

variable {k : SlotId} {p : Port} {l : LineNo} {probes : List Probe} {s u : State} {w : Way} {x : EntryState}

theorem endProbing_of_poisoned {kind : RequestKind} {c : PoisonCause} {q : Port} (hu : u = changingLookup l s)
    (h : u.stored l = some (w, .poisoned c q)) (hk : kind ≠ .streamWrite) :
    endProbing k p kind l probes s = complete k (some .poisoned) u := by
  subst hu
  cases kind
  case streamWrite => exact absurd rfl hk
  all_goals simp only [endProbing, endCaching, endStreamRead, h]

theorem endStreamWrite_of_poisoned {c : PoisonCause} {q : Port} (hu : u = changingLookup l s)
    (h : u.stored l = some (w, .poisoned c q)) :
    endStreamWrite k p l probes s =
      complete k (some .poisoned) (u.modifyTxn k fun t => { t with heldWay := none }) := by
  subst hu
  simp only [endStreamWrite, h]

theorem endStream_of_entry {kind : RequestKind} (hk : kind = .streamRead ∨ kind = .streamWrite)
    (hu : u = changingLookup l s) (h : u.stored l = some (w, x)) (hx : x.isPoisoned = false) :
    endProbing k p kind l probes s = enterLease k p (storeResidue (setOf l) w (applyOutcomes probes x) u) := by
  subst hu
  obtain rfl | rfl := hk <;> cases x
  case inl.poisoned | inr.poisoned => cases hx
  all_goals simp only [endProbing, endStreamRead, endStreamWrite, h]

theorem endStream_of_absent {kind : RequestKind} (hk : kind = .streamRead ∨ kind = .streamWrite)
    (hu : u = changingLookup l s) (h : u.stored l = none) :
    endProbing k p kind l probes s = enterLease k p u := by
  subst hu
  obtain rfl | rfl := hk
  all_goals simp only [endProbing, endStreamRead, endStreamWrite, h]

theorem endCaching_of_grant {kind : RequestKind} {y : EntryState} {r : Response} (hu : u = changingLookup l s)
    (h : u.stored l = some (w, x)) (hx : x.isPoisoned = false) (hp : (u.port p).state = .online)
    (hg : grantResult kind p (applyOutcomes probes x) = some (y, r)) :
    endCaching k p kind l probes s = complete k (some r) (grant (setOf l) w y u) := by
  subst hu
  have online : (changingLookup l s).isOnline p = true := decide_eq_true hp
  cases x
  case poisoned => cases hx
  all_goals simp only [endCaching, h, online, hg, if_true]

theorem endCaching_of_not_online {kind : RequestKind} (hu : u = changingLookup l s)
    (h : u.stored l = some (w, x)) (hx : x.isPoisoned = false) (hp : (u.port p).state ≠ .online) :
    endCaching k p kind l probes s =
      complete k (some (.refused .draining)) (storeResidue (setOf l) w (applyOutcomes probes x) u) := by
  subst hu
  have offline := State.isOnline_eq_false hp
  cases x
  case poisoned => cases hx
  all_goals simp only [endCaching, h, offline, Bool.false_eq_true, if_false, completeWithout]

theorem endCaching_absent_of_not_online {kind : RequestKind} (hu : u = changingLookup l s) (h : u.stored l = none)
    (hp : (u.port p).state ≠ .online) :
    endCaching k p kind l probes s = complete k (some (.refused .draining)) u := by
  subst hu
  simp only [endCaching, h, State.isOnline_eq_false hp, Bool.false_eq_true, if_false, completeWithout]

/-- The line of a caching request whose entry is gone: the way search decides (R100, R103). -/
theorem endCaching_absent_of_online {kind : RequestKind} (hu : u = changingLookup l s) (h : u.stored l = none)
    (hp : (u.port p).state = .online) :
    (∀ w, (scrubSet (setOf l) u).searchOutcome (setOf l) = .free w →
      endCaching k p kind l probes s = takeWay k p kind l w (scrubSet (setOf l) u)) ∧
    ((∀ w, (scrubSet (setOf l) u).searchOutcome (setOf l) ≠ .free w) →
      endCaching k p kind l probes s = complete k (some .retry) (scrubSet (setOf l) u)) := by
  subst hu
  have online : (changingLookup l s).isOnline p = true := decide_eq_true hp
  simp only [endCaching, h, online, if_true]
  generalize scrubSet (setOf l) (changingLookup l s) = v
  refine ⟨fun w hw => by simp only [hw], fun none => ?_⟩
  cases hv : v.searchOutcome (setOf l) with
  | free w => exact absurd hv (none w)
  | victim w => rfl
  | noRoomForNow => rfl
  | noRoom => rfl

end Ends

/-- Settles O40: by the entry that the changing lookup leaves, the request's kind and its port's state. -/
theorem probingEndsByKind : Obligations.ProbingEndsByKind := by
  intro s b u k t p tag n kind ht ho hk hphase hb hu
  have ends : phaseEnd k s = endProbing k p kind t.line t.probes b := by
    rw [hb]
    exact phaseEnd_of_probing ht ho hk hphase
  rw [ends]
  refine ⟨fun w c q h => ⟨fun hkind => endProbing_of_poisoned hu h hkind, fun hkind => ?_⟩,
    fun w x h hx => ⟨fun hkind => endStream_of_entry hkind hu h hx, fun hkind => ?_⟩,
    fun h => ⟨fun hkind => endStream_of_absent hkind hu h, fun hkind => ?_⟩⟩
  · subst hkind
    exact endStreamWrite_of_poisoned hu h
  · rw [endProbing_caching k p t.line t.probes b hkind]
    exact ⟨fun hp y r hg => endCaching_of_grant hu h hx hp hg, endCaching_of_not_online hu h hx⟩
  · rw [endProbing_caching k p t.line t.probes b hkind]
    refine ⟨endCaching_absent_of_not_online hu h, fun hp => ?_⟩
    obtain ⟨free, taken⟩ := endCaching_absent_of_online (k := k) (probes := t.probes) (kind := kind) hu h hp
    refine ⟨fun w y r hw hg => (free w hw).trans ?_, taken⟩
    have caching : kind ≠ .streamWrite := by obtain rfl | rfl | rfl := hkind <;> decide
    exact takeWay_of_grant k t.line w caching ((scrubSet_online_iff u _ p).mpr hp) hg

/-! ### The ends of recalls (R15, R96, R150) -/

section Recalls

variable {k : SlotId} {l : LineNo} {probes : List Probe} {s u : State} {w : Way}

theorem endRecall_of_entry {x : EntryState} (hu : u = changingLookup l s) (h : u.stored l = some (w, x))
    (hx : x.isPoisoned = false) :
    endRecall k l probes s = complete k none (storeResidue (setOf l) w (applyOutcomes probes x) u) := by
  subst hu
  cases x
  case poisoned => cases hx
  all_goals simp only [endRecall, h]

theorem endRecall_of_absent (hu : u = changingLookup l s) (h : u.stored l = none) :
    endRecall k l probes s = complete k none u := by
  subst hu
  simp only [endRecall, h]

theorem endRecall_of_poisoned {c : PoisonCause} {q : Port} (hu : u = changingLookup l s)
    (h : u.stored l = some (w, .poisoned c q)) : endRecall k l probes s = complete k none u := by
  subst hu
  simp only [endRecall, h]

/-- What a victim recall does with the way that the second lookup leaves (R15, R96). -/
theorem endVictimRecall_eq (p : Port) (kind : RequestKind) (v : LineNo) (hu : u = scrubWay (setOf l) w s) :
    endVictimRecall k p kind l v w s =
      if ((u.way (setOf l) w).map fun e => e.state.isPoisoned) = some true then
        allocate k p kind l (releaseClaim v (u.modifyTxn k fun t => { t with victim := none, heldWay := none }))
      else
        takeWay k p kind l w
          (releaseClaim v ((retire (setOf l) w u).modifyTxn k fun t => { t with victim := none })) := by
  subst hu
  rfl

end Recalls

/-- Settles O41: the emptied way by the grants on an absent line, the two recalls by the entry found again. -/
theorem recallsEnd : Obligations.RecallsEnd := by
  refine ⟨fun s k p l w => ⟨fun hp => ⟨?_, fun kind hk => ?_⟩, fun hp kind hk => ?_, takeWay_of_streamWrite k p l w s⟩,
    fun s b u k t o ht ho hk hphase hb hu => ?sweep,
    fun s b u k t p tag n kind v w ht ho hk hphase hv hw hb hu => ?victim⟩
  · exact takeWay_of_grant k l w (by decide) hp rfl
  · have caching : kind ≠ .streamWrite := by obtain rfl | rfl := hk <;> decide
    exact takeWay_of_grant k l w caching hp (grantResult_absent p hk)
  · exact takeWay_of_not_online k l w hk hp
  case sweep =>
    have ends : phaseEnd k s = endRecall k t.line t.probes b := by
      rw [hb]
      exact phaseEnd_of_sweepRecall ht ho hk hphase
    rw [ends]
    exact ⟨fun w x h hx => endRecall_of_entry hu h hx, endRecall_of_absent hu,
      fun w c q h => endRecall_of_poisoned hu h⟩
  case victim =>
    have ends : phaseEnd k s = endVictimRecall k p kind t.line v w b := by
      rw [hb]
      exact phaseEnd_of_victimProbing ht ho hk hphase hv hw
    rw [ends, endVictimRecall_eq p kind v hu]
    refine ⟨fun e he hx => if_pos ?_, fun h => if_neg ?_⟩
    · rw [he, ← hx]
      rfl
    · intro poisoned
      obtain ⟨e, he, hx⟩ := Option.map_eq_some_iff.mp poisoned
      rw [h e he] at hx
      cases hx

/-! ### Probe outcomes (Fig. 6-2, R93) -/

theorem Probe.gaveUp_iff (m : Probe) :
    m.gaveUp = true ↔
      m.kind = .invalidate ∧ (m.outcome = some .clean ∨ m.outcome = some .written) ∨ m.outcome = some .absent := by
  obtain ⟨q, kind, role, outcome⟩ := m
  rcases outcome with - | outcome
  · cases kind <;> simp [Probe.gaveUp]
  · cases outcome <;> cases kind <;> simp [Probe.gaveUp]

theorem Probe.keptCopy_iff (m : Probe) :
    m.keptCopy = true ↔ m.kind = .downgrade ∧ (m.outcome = some .clean ∨ m.outcome = some .written) := by
  obtain ⟨q, kind, role, outcome⟩ := m
  rcases outcome with - | outcome
  · cases kind <;> simp [Probe.keptCopy]
  · cases outcome <;> cases kind <;> simp [Probe.keptCopy]

theorem applyOutcomes_exclusive (m : Probe) :
    applyOutcomes [m] (.exclusive m.port) =
      if m.gaveUp then none
      else if m.keptCopy then some (.shared (PortSet.single m.port)) else some (.exclusive m.port) := by
  simp [applyOutcomes]

/-- The ports that a probe set shows to have given the line up. -/
def portsGone (probes : List Probe) : PortSet :=
  portsWhere fun q => probes.any fun m => decide (m.port = q) && m.gaveUp

theorem applyOutcomes_shared (probes : List Probe) (S : PortSet) :
    applyOutcomes probes (.shared S) =
      if PortSet.diff S (portsGone probes) = 0 then none else some (.shared (PortSet.diff S (portsGone probes))) := rfl

theorem foldl_insert_has (f : Port → Bool) (L : List Port) (S : PortSet) (q : Port) :
    PortSet.has (L.foldl (fun S p => if f p then PortSet.insert S p else S) S) q =
      (PortSet.has S q || (decide (q ∈ L) && f q)) := by
  induction L generalizing S with
  | nil => simp
  | cons p L ih =>
    rw [List.foldl_cons, ih]
    by_cases hq : q = p
    · subst hq
      cases hf : f q <;> simp [has_insert]
    · cases f p <;> simp [has_insert, hq]

theorem portsWhere_has (f : Port → Bool) (q : Port) : PortSet.has (portsWhere f) q = f q := by
  rw [portsWhere, foldl_insert_has]
  simp [PortSet.has, mem_allPorts]

theorem portsGone_has (probes : List Probe) (q : Port) :
    PortSet.has (portsGone probes) q = true ↔ ∃ m ∈ probes, m.port = q ∧ m.gaveUp = true := by
  simp [portsGone, portsWhere_has]

theorem eq_zero_iff_has (S : PortSet) : S = 0 ↔ ∀ q, PortSet.has S q ≠ true := by
  simp only [← members_eq_nil, List.eq_nil_iff_forall_not_mem, mem_members]

/-- Settles O42: a probed port by its one outcome, the sharers by the set of those that have given the line up. -/
theorem probeOutcomesDecideTheGrant : Obligations.ProbeOutcomesDecideTheGrant := by
  refine ⟨fun s i w => ⟨fun y => rfl, rfl⟩, fun h m hm => ?holder, fun S probes gone hgone => ?sharers,
    fun p S kind => ⟨rfl, rfl, fun hk => ⟨grantResult_absent p hk, grantResult_sharers p S hk⟩⟩⟩
  case holder =>
    subst hm
    rw [applyOutcomes_exclusive]
    refine ⟨fun given => if_pos (m.gaveUp_iff.mpr given), fun kept => ?_, fun lost => ?_⟩
    · have stays : m.gaveUp ≠ true := by
        rw [Ne, m.gaveUp_iff]
        obtain ⟨hk, ho | ho⟩ := kept <;> simp [hk, ho]
      rw [if_neg stays, if_pos (m.keptCopy_iff.mpr kept)]
    · have stays : m.gaveUp ≠ true := by simp [m.gaveUp_iff, lost]
      have noCopy : m.keptCopy ≠ true := by simp [m.keptCopy_iff, lost]
      rw [if_neg stays, if_neg noCopy]
  case sharers =>
    have gone_iff (q : Port) : PortSet.has (portsGone probes) q = true ↔ gone q := by
      simp only [portsGone_has, hgone, Probe.gaveUp_iff]
    have left_iff (q : Port) :
        PortSet.has (PortSet.diff S (portsGone probes)) q = true ↔ PortSet.has S q = true ∧ ¬ gone q := by
      simp [has_diff, ← gone_iff]
    rw [applyOutcomes_shared]
    refine ⟨fun all => if_pos ?_, fun ⟨q, hq⟩ => ⟨_, if_neg ?_, left_iff⟩⟩
    · rw [eq_zero_iff_has]
      intro q hq
      obtain ⟨mem, stays⟩ := (left_iff q).mp hq
      exact stays (all q mem)
    · rw [eq_zero_iff_has]
      exact fun none => none q ((left_iff q).mpr hq)

end Sys2Proof.Machine
end

section
/-! PROOFS. What a sweep job matches and recalls (Fig. 9-2, Fig. 9-3, Fig. 2-5), the walker's departure from its set,
and the start of a sweep recall (9.2, 9.3). -/

namespace Sys2Proof.Machine

open Sys2Proof

/-! ### Matching and recall targets -/

theorem regionRecallKind_iff {now after : Attribute} {x : EntryState} {k : ProbeKind} :
    regionRecallKind now after x = some k ↔ RegionRecall now after x k := by
  constructor
  · intro h
    cases x with
    | poisoned c q => cases now <;> cases after <;> cases h
    | shared S =>
      cases now <;> cases after <;> cases h
      all_goals exact .leftShared _ (by decide) S
    | exclusive q =>
      cases now <;> cases after <;> cases h
      case tracked.streamInvalidate.refl => exact .narrowed q
      all_goals exact .leftHeld _ (by decide) q
  · rintro (h | ⟨now, hn, S⟩ | ⟨now, hn, h⟩)
    · rfl
    · cases now <;> simp_all [regionRecallKind]
    · cases now <;> simp_all [regionRecallKind]

theorem State.regionRecall_iff {s : State} {i : RegionIdx} {r : Region} {l : LineNo} {x : EntryState} {k : ProbeKind} :
    s.regionRecall i r l x = some k ↔ RegionRecall (s.attrOf l) (s.attrAfter i r l) x k := regionRecallKind_iff

theorem State.jobMatches_iff {s : State} {j : Job} {l : LineNo} {x : EntryState} :
    s.jobMatches j l x = true ↔ Matching s l j x := by
  constructor
  · intro h
    cases j with
    | drain p => exact .drain p x h
    | cleanup p => exact .cleanup p x h
    | flush base limit =>
      simp only [State.jobMatches, inPages, Bool.and_eq_true, Bool.not_eq_true', decide_eq_true_eq] at h
      exact .flush base limit x h.1 h.2.1 h.2.2
    | regionChange i r =>
      obtain ⟨k, hk⟩ := Option.isSome_iff_exists.mp h
      exact .regionChange i r x k (State.regionRecall_iff.mp hk)
    | poisonClear =>
      cases x with
      | poisoned c q => exact .poisonClear c q
      | shared S => cases h
      | exclusive q => cases h
  · intro h
    cases h with
    | drain p x h => exact h
    | cleanup p x h => exact h
    | flush base limit x hx hb hl => simp [State.jobMatches, inPages, hx, hb, hl]
    | regionChange i r x k h => exact Option.isSome_iff_exists.mpr ⟨k, State.regionRecall_iff.mpr h⟩
    | poisonClear c q => rfl

theorem State.recallTargets_iff {s : State} {j : Job} {l : LineNo} {x : EntryState} {g : RecallTargets} :
    s.recallTargets j l x = some g ↔ Targets s l j x g := by
  constructor
  · intro h
    unfold State.recallTargets at h
    split at h
    · split at h
      · next hS => exact Option.some.inj h ▸ .drainShared _ _ hS
      · cases h
    · split at h
      · next hq =>
        subst hq
        exact Option.some.inj h ▸ .drainHeld _
      · cases h
    · exact Option.some.inj h ▸ .flushShared _ _ _
    · exact Option.some.inj h ▸ .flushHeld _ _ _
    · obtain ⟨k, hk, rfl⟩ := Option.map_eq_some_iff.mp h
      exact .regionShared _ _ _ k (State.regionRecall_iff.mp hk)
    · obtain ⟨k, hk, rfl⟩ := Option.map_eq_some_iff.mp h
      exact .regionHeld _ _ _ k (State.regionRecall_iff.mp hk)
    all_goals cases h
  · intro h
    cases h with
    | drainShared p S h => exact if_pos h
    | drainHeld p => exact if_pos rfl
    | flushShared base limit S => rfl
    | flushHeld base limit h => rfl
    | regionShared i r S k hk => exact Option.map_eq_some_iff.mpr ⟨k, State.regionRecall_iff.mpr hk, rfl⟩
    | regionHeld i r h k hk => exact Option.map_eq_some_iff.mpr ⟨k, State.regionRecall_iff.mpr hk, rfl⟩

theorem State.judges_iff_jobEntry {s : State} {j : Job} {l : LineNo} :
    s.judges j l = true ↔ ∃ x, s.jobEntry j l = some x ∧ Matching s l j x := by
  unfold State.judges
  cases s.jobEntry j l <;> simp [State.jobMatches_iff]

theorem State.judges_iff {s : State} {j : Job} {l : LineNo} : s.judges j l = true ↔ s.finds l j := by
  rw [State.judges_iff_jobEntry]
  have witness (o : Option (Way × EntryState)) (P : EntryState → Prop) :
      (∃ x, o.map (·.2) = some x ∧ P x) ↔ ∃ w x, o = some (w, x) ∧ P x := by
    rcases o with - | ⟨w, x⟩ <;> simp
  cases j <;> exact witness _ _

theorem Job.edits_iff {j : Job} : j.edits = true ↔ j.direct := by
  cases j <;> simp [Job.edits, Job.direct]

/-! ### The walker's departure from its set (R146) -/

theorem setWork_eq_marked (l : LineNo) (st : WorkStatus) (s : State) : setWork l st s = s.marked l st := rfl

theorem allHandled_eq_false {s : State} (h : ∃ y ∈ s.sweep.workList, y.2 ≠ .handled) : s.allHandled = false := by
  obtain ⟨y, hy, hn⟩ := h
  exact Bool.eq_false_iff.mpr fun all => hn (allHandled_iff.mp all y hy)

theorem leaveIfHandled_of_unhandled {s : State} (h : ∃ y ∈ s.sweep.workList, y.2 ≠ .handled) :
    leaveIfHandled s = s := by
  unfold leaveIfHandled
  split
  · rw [allHandled_eq_false h]
    rfl
  · rfl

theorem leaveIfHandled_of_handled {s : State} {j : Job} {rest : List Job} {i : SetIdx} (hj : s.sweep.jobs = j :: rest)
    (hw : s.sweep.walker = .atSet i) (h : ∀ y ∈ s.sweep.workList, y.2 = .handled) :
    leaveIfHandled s = advance (walkOn j (i.val + 1) s) := by
  simp only [leaveIfHandled, hj, hw, allHandled_iff.mpr h, if_true]

theorem advance_of_walking {s : State} {i : SetIdx} (h : s.sweep.walker = .atSet i) : advance s = s := by
  unfold advance
  cases s.sweep.jobs.length with
  | zero => rfl
  | succ n =>
    unfold completeJobs
    split
    · rfl
    · rw [if_neg (by simp [h])]

theorem marked_unhandled {s : State} {l : LineNo} (st : WorkStatus)
    (h : ∃ y ∈ s.sweep.workList, y.1 ≠ l ∧ y.2 ≠ .handled) :
    ∃ y ∈ (s.marked l st).sweep.workList, y.2 ≠ .handled := by
  obtain ⟨y, hy, hl, hn⟩ := h
  exact ⟨y, List.mem_map.mpr ⟨y, hy, if_neg hl⟩, hn⟩

theorem marked_not_mem {s : State} {l : LineNo} {st st' : WorkStatus} (h : st' ≠ st) :
    (l, st') ∉ (s.marked l st).sweep.workList := by
  intro mem
  obtain ⟨y, -, hy⟩ := List.mem_map.mp mem
  split at hy
  · exact h (Prod.ext_iff.mp hy).2.symm
  · next hn => exact hn (Prod.ext_iff.mp hy).1

/-! ### The release of a claim (R148) -/

theorem readyLine_eq (l : LineNo) (s : State) :
    readyLine l s =
      { s with parked := s.parked.map fun q : Parked =>
        { q with
          ready := q.ready ||
            decide (q.reason = .line ∧ q.line = l ∨ q.reason = .set ∧ setOf q.line = setOf l) } } := by
  simp only [readyLine, readySet, List.map_map]
  congr 1
  refine List.map_congr_left fun q _ => ?_
  by_cases line : q.reason = .line ∧ q.line = l
  · simp [line]
  · by_cases set : q.reason = .set ∧ setOf q.line = setOf l <;> simp [line, set]

theorem sweepRelease_of_not_waiting {s : State} {l : LineNo}
    (h : (l, .waiting) ∉ s.sweep.workList ∨ s.sweep.jobs = []) :
    sweepRelease l s = s := by
  unfold sweepRelease
  split
  · rfl
  · next j rest hj =>
    have absent : (l, WorkStatus.waiting) ∉ s.sweep.workList := h.resolve_right (by simp [hj])
    rw [if_neg]
    simpa using absent

theorem sweepRelease_of_waiting {s u : State} {l : LineNo} {j : Job} {rest : List Job} (hj : s.sweep.jobs = j :: rest)
    (h : (l, .waiting) ∈ s.sweep.workList) (hu : u = walkerLookup j l s) :
    sweepRelease l s =
      if u.judges j l then
        if j.edits then leaveIfHandled ((directEdit j l u).marked l .handled) else u.marked l .pending
      else leaveIfHandled (u.marked l .handled) := by
  subst hu
  have waits : (s.sweep.workList.any fun lw => decide (lw = (l, .waiting))) = true :=
    List.any_eq_true.mpr ⟨_, h, decide_eq_true rfl⟩
  simp only [sweepRelease, hj, waits, if_true, setWork_eq_marked]

/-! ### The start of a sweep recall (R75, R149) -/

theorem exec_startSweepRecall {s : State} (hr : s.inReset = false) :
    exec .startSweepRecall s = .next (serveSweep s.begun) := event_of_not_inReset _ hr

theorem serveSweep_of_sweep {s : State} {k : SlotId} {j : Job} {rest : List Job} {l : LineNo}
    (h : s.handOut = some (.sweep k)) (hj : s.sweep.jobs = j :: rest) (hl : s.firstPending = some l) :
    serveSweep s = startRecall k j l { s with rrPointer := 0 } := by
  simp only [serveSweep, h, hj, hl]
  rfl

theorem serveSweep_of_none {s : State} (h : ∀ k, s.handOut ≠ some (.sweep k)) : serveSweep s = s := by
  unfold serveSweep
  split
  · next k hk => exact absurd hk (h k)
  all_goals rfl

/-- A recall of an unclaimed line, by the targets of the entry found (R149). -/
theorem startRecall_of_unclaimed {s b u : State} {k : SlotId} (j : Job) {l : LineNo} (hc : s.claimed l = false)
    (hb : b = (s.setTxn k (openedTxn (.sweep j.owner) .sweepRecall l)).marked l .handled)
    (hu : u = changingLookup l b) :
    startRecall k j l s =
      leaveIfHandled
        (match (u.stored l).bind fun wx => u.recallTargets j l wx.2 with
        | some g =>
          issueProbes k .probing l g (countRecall j (u.modifyTxn k fun t => { t with targets := some g }))
        | none => complete k none u) := by
  subst hb hu
  simp only [startRecall, hc, Bool.false_eq_true, if_false] <;> rfl

theorem State.recalling_eq {u : State} {k : SlotId} {j : Job} {l : LineNo} (g : RecallTargets)
    (ht : u.txn k = some (openedTxn (.sweep j.owner) .sweepRecall l)) :
    countRecall j (u.modifyTxn k fun t => { t with targets := some g }) = u.recalling k j l g := by
  rw [modifyTxn_eq _ ht, countRecall, State.recalling]
  cases j.isCommand <;> rfl

theorem issueProbes_sweep {s : State} {k : SlotId} {t : Txn} (ph : Phase) (l : LineNo) (g : RecallTargets)
    (h : s.txn k = some t) : (issueProbes k ph l g s).sweep = s.sweep := by
  obtain ⟨v, e, -⟩ := queueMessages_eq (members_nodup g.ports) (.probe k (s.slot k).gen l g.kind)
    (s.setTxn k { t with
      phase := some ph
      probes := (PortSet.members g.ports).map fun q => { port := q, kind := g.kind, role := g.role, outcome := none }
      reprobed := false
      deadline := some { start := s.now, interval := s.probeInterval }
      probed := PortSet.union t.probed g.ports })
  rw [probedTxn_eq ph l g h, e]
  rfl

/-- A recall without targets completes beside a walker that stays at its set: the sweep engine is left as it is. -/
theorem complete_recall_sweep {u : State} {k : SlotId} {o : SweepOwner} {l : LineNo} {i : SetIdx}
    (ht : u.txn k = some (openedTxn (.sweep o) .sweepRecall l)) (hw : u.sweep.walker = .atSet i)
    (hl : (l, .waiting) ∉ u.sweep.workList) : (complete k none u).sweep = u.sweep := by
  rw [complete_of_sweep none ht rfl]
  have released : releaseClaim l (u.givenBack k) = readyLine l (u.givenBack k) :=
    sweepRelease_of_not_waiting (.inl hl)
  have stays : advance (readyLine l (u.givenBack k)) = readyLine l (u.givenBack k) := advance_of_walking hw
  rw [State.ended]
  show (portTests 0 (advance (releaseClaim l (u.givenBack k)))).sweep = _
  rw [released, stays]
  rfl

/-- The start of a sweep recall in the state the arbiter serves. -/
theorem exec_startSweepRecall_of_pending {s : State} {k : SlotId} {j : Job} {rest : List Job} {l : LineNo}
    (hr : s.inReset = false) (h : s.handOut = some (.sweep k)) (hj : s.sweep.jobs = j :: rest)
    (hl : s.firstPending = some l) :
    exec .startSweepRecall s = .next (startRecall k j l { s.begun with rrPointer := 0 }) := by
  have h' : s.begun.handOut = some (.sweep k) := h
  rw [exec_startSweepRecall hr, serveSweep_of_sweep h' hj hl]

/-- Settles O43: the start of the recall by the targets found, the departure and the release by the work list. -/
theorem sweepRecallIsStarted : Obligations.SweepRecallIsStarted := by
  refine ⟨fun s b u k j rest l hr h hj hl => ⟨fun hc => ?claimed, fun hc hb hu => ?unclaimed⟩, fun s hr h => ?none,
    fun s => ⟨leaveIfHandled_of_unhandled, fun j rest i => leaveIfHandled_of_handled⟩, fun s l => ?release,
    fun s l => ⟨sweepRelease_of_not_waiting, fun j rest u hj hw hu => ?judged⟩⟩
  case claimed =>
    have hc' : { s.begun with rrPointer := 0 }.claimed l = true := hc
    rw [exec_startSweepRecall_of_pending hr h hj hl, startRecall, if_pos hc']
    rfl
  case unclaimed =>
    have start := startRecall_of_unclaimed (s := { s.begun with rrPointer := 0 }) (k := k) (b := b) j hc hb hu
    have txn : u.txn k = some (openedTxn (.sweep j.owner) .sweepRecall l) := by
      rw [hu, State.txn, (changingLookup_walk l (.refl b)).slot k, hb]
      exact State.txn_setTxn_same s k _
    have sweep : u.sweep = (s.marked l .handled).sweep := by
      rw [hu, changingLookup_sweep, hb]
      rfl
    rw [exec_startSweepRecall_of_pending hr h hj hl, start]
    refine ⟨fun w x g hst hg => ?_, fun hg => ?_⟩
    · simp only [hst, Option.bind_some, State.recallTargets_iff.mpr hg, State.recalling_eq g txn]
      have probed : (issueProbes k .probing l g (u.recalling k j l g)).sweep =
          { (s.marked l .handled).sweep with jobCount := s.sweep.jobCount + if j.isCommand then 1 else 0 } := by
        have recorded : (u.recalling k j l g).txn k =
            some { openedTxn (.sweep j.owner) .sweepRecall l with targets := some g } := State.txn_setTxn_same u k _
        rw [issueProbes_sweep _ _ _ recorded, State.recalling, sweep]
        rfl
      refine ⟨trivial, fun other => ⟨_, congrArg _ (leaveIfHandled_of_unhandled ?_), rfl, probed⟩⟩
      rw [probed]
      exact marked_unhandled .handled other
    · have none : ((u.stored l).bind fun wx => u.recallTargets j l wx.2) = none := by
        rw [Option.bind_eq_none_iff]
        intro wx hwx
        refine Option.eq_none_iff_forall_not_mem.mpr fun g hx => hg wx.1 wx.2 g hwx (State.recallTargets_iff.mp hx)
      simp only [none]
      refine ⟨trivial, fun i hi other => ?_⟩
      have same : (complete k Option.none u).sweep = u.sweep := by
        refine complete_recall_sweep txn (i := i) (by rw [sweep]; exact hi) ?_
        rw [sweep]
        exact marked_not_mem (by decide)
      refine ⟨_, congrArg _ (leaveIfHandled_of_unhandled ?_), ?_, same.trans sweep⟩
      · rw [same, sweep]
        exact marked_unhandled .handled other
      · rw [complete_slot Option.none txn, hu, (changingLookup_walk l (.refl b)).slot k, hb]
        exact congrArg (fun g => Slot.mk (!g) Option.none) (State.gen_setTxn s k _)
  case none =>
    have h' : ∀ k, s.begun.handOut ≠ some (.sweep k) := h
    rw [exec_startSweepRecall hr, serveSweep_of_none h']
  case release =>
    rw [releaseClaim, readyLine_eq]
  case judged =>
    rw [sweepRelease_of_waiting hj hw hu]
    refine ⟨fun h => if_neg (mt State.judges_iff.mp h), fun h hd => ?_, fun h hd => ?_⟩
    · rw [if_pos (State.judges_iff.mpr h), if_neg (mt Job.edits_iff.mp hd)]
    · rw [if_pos (State.judges_iff.mpr h), if_pos (Job.edits_iff.mpr hd)]

end Sys2Proof.Machine
end

section
/-! PROOFS. The expiry of deadlines (5.5, 7.5, 8.1, 8.4) and the end of leases at an isolation (7.6). -/

namespace Sys2Proof.Machine

open Sys2Proof

/-! ### The repetition of probes (R133) -/

/-- One message to the port of each element of a list changes the links alone. -/
theorem queueEach_eq {α : Type} (dest : α → Port) (msg : α → OutMessage) (L : List α) (s : State) :
    ∃ v, L.foldl (fun x m => queueMessage (dest m) (msg m) x) s = { s with links := v } ∧
      ∀ p, (L.foldl (fun x m => queueMessage (dest m) (msg m) x) s).link p =
        { s.link p with outbound := (s.link p).outbound ++ (L.filter fun m => decide (dest m = p)).map msg } := by
  induction L generalizing s with
  | nil => exact ⟨s.links, rfl, fun p => by simp⟩
  | cons m L ih =>
    obtain ⟨v, e, links⟩ := ih (queueMessage (dest m) (msg m) s)
    refine ⟨v, e, fun p => (links p).trans ?_⟩
    by_cases hp : dest m = p
    · subst hp
      simp [queueMessage_eq]
    · have same : (queueMessage (dest m) (msg m) s).link p = s.link p := State.link_setLink_ne s _ (Ne.symm hp)
      simp [hp, same]

/-- The state in which slot k's unanswered probes are repeated. -/
def State.reprobing (s : State) (k : SlotId) (t : Txn) : State :=
  s.setTxn k { t with reprobed := true, deadline := some { start := s.now, interval := s.probeInterval } }

theorem reprobeSlot_of_due {s : State} {k : SlotId} {t : Txn} {l : LineNo} (ht : s.txn k = some t)
    (hp : t.inProbePhase = true) (hr : t.reprobed = false) (he : t.expired s.now = true) (hl : t.ProbesLine l) :
    reprobeSlot k s =
      (t.probes.filter fun m => m.outcome.isNone).foldl
        (fun x m => queueMessage m.port (.probe k (s.slot k).gen l m.kind) x) (s.reprobing k t) := by
  simp only [reprobeSlot, ht, hp, hr, he, Txn.probedLine_of_probesLine hl, Bool.not_false, Bool.and_true, if_true]
  rfl

theorem reprobeSlot_of_not_due {s : State} {k : SlotId} (h : ∀ t, s.txn k = some t → t.expired s.now = false) :
    reprobeSlot k s = s := by
  unfold reprobeSlot
  split
  · rfl
  · next t ht => simp [h t ht]

theorem probeTimeoutSlot_of_not_due {s : State} {k : SlotId} (h : ∀ t, s.txn k = some t → t.expired s.now = false) :
    probeTimeoutSlot k s = s := by
  unfold probeTimeoutSlot
  split
  · rfl
  · next t ht => simp [h t ht]

theorem leaseTimeoutSlot_of_not_due {s : State} {k : SlotId} (h : ∀ t, s.txn k = some t → t.expired s.now = false) :
    leaseTimeoutSlot k s = s := by
  unfold leaseTimeoutSlot
  split
  · rfl
  · next t ht => simp [h t ht]

theorem Txn.expired_eq_false {t : Txn} {now : Nat} (h : ∀ d, t.deadline = some d → now < d.start + d.interval) :
    t.expired now = false := by
  unfold Txn.expired
  split
  · next d hd => exact decide_eq_false (Nat.not_le.mpr (h d hd))
  · rfl

/-! ### The reports of ProbeTimeout (R134) -/

/-- What a report about other ports leaves of port p. -/
structure Spared (p : Port) (s t : State) : Prop where
  reported : PortSet.has t.reported p = PortSet.has s.reported p
  record : (s.port p).Quiet (t.port p)

theorem Spared.refl (p : Port) (s : State) : Spared p s s := ⟨rfl, .refl _⟩

theorem Spared.trans {p : Port} {s t u : State} (h : Spared p s t) (g : Spared p t u) : Spared p s u :=
  ⟨g.reported.trans h.reported, h.record.trans g.record⟩

theorem PortRec.Quiet.isolated_iff {r q : PortRec} (h : r.Quiet q) :
    (∃ d, q.state = .isolated d) ↔ ∃ d, r.state = .isolated d := by
  obtain ⟨-, -, same | ⟨b, draining, done | left⟩ | ⟨isolated, cleaned⟩⟩ := h
  · rw [same]
  · simp [draining, done]
  · simp [draining, left]
  · simp [isolated, cleaned]

theorem Spared.joined {p : Port} {s t : State} (h : Spared p s t) (hj : s.joined p) : t.joined p := by
  obtain ⟨-, -, same | ⟨b, draining, done | left⟩ | ⟨isolated, cleaned⟩⟩ := h.record
  · rwa [State.joined, same]
  · exact Or.inr (Or.inr ⟨true, done⟩)
  · exact Or.inl left
  · exact absurd isolated ((State.joined_ne hj).2 false)

theorem isolate_spares {s : State} {p q : Port} (reason : IsolationReason) (h : p ≠ q) :
    Spared p s (isolate q reason s) := by
  by_cases hj : s.joined q
  · obtain ⟨reported, -⟩ := isolate_leaves q reason s (State.joined_ne hj).1 (State.joined_ne hj).2
    have effects : Moves false (isolating q reason s) (isolate q reason s) := by
      rw [isolate_of_joined reason hj]
      exact isolationEffects_moves q .refl
    have record := effects.ports_quiet p
    refine ⟨by simp [reported, has_diff, has_single, h], ?_⟩
    rwa [isolating, raise_port, dropLoss_port, dropReport_port, State.port_setPort_ne s _ h] at record
  · rw [isolate_of_not_joined reason hj]
    exact .refl p s

/-- The state in which ProbeTimeout stands reported for port p. -/
def State.reporting (s : State) (p : Port) : State :=
  { s with freeCount := s.freeCount + 1, reported := PortSet.insert s.reported p }

theorem reportTimeout_cases (p : Port) (s : State) :
    reportTimeout p s = s.reporting p ∨ reportTimeout p s = isolate p .probeTimeout (s.reporting p) := by
  unfold reportTimeout
  dsimp only
  split
  · exact Or.inr rfl
  · exact Or.inl rfl

theorem reportTimeout_spares {s : State} {p q : Port} (h : p ≠ q) : Spared p s (reportTimeout q s) := by
  have reporting : Spared p s (s.reporting q) := ⟨by simp [State.reporting, has_insert, h], .refl _⟩
  obtain e | e := reportTimeout_cases q s
  · rwa [e]
  · rw [e]
    exact reporting.trans (isolate_spares _ h)

/-- ProbeTimeout has reached port p: its report stands or the port is isolated with that reason. -/
def State.timedOut (s : State) (p : Port) : Prop :=
  PortSet.has s.reported p = true ∨ (∃ d, (s.port p).state = .isolated d) ∧ (s.port p).reason = .probeTimeout

theorem Spared.timedOut {p : Port} {s t : State} (h : Spared p s t) (hs : s.timedOut p) : t.timedOut p := by
  obtain reported | ⟨isolated, reason⟩ := hs
  · exact Or.inl (h.reported.trans reported)
  · exact Or.inr ⟨h.record.isolated_iff.mpr isolated, h.record.2.1.trans reason⟩

theorem reportTimeout_timedOut {s : State} {p : Port} (h : s.joined p) : (reportTimeout p s).timedOut p := by
  obtain e | e := reportTimeout_cases p s
  · exact Or.inl (by simp [e, State.reporting, has_insert])
  · have joined : (s.reporting p).joined p := h
    obtain ⟨d, record⟩ := isolate_record .probeTimeout joined
    rw [e]
    exact Or.inr (by simp [record])

theorem reportTimeouts {L : List Port} (hL : L.Nodup) (s : State) (p : Port) :
    (p ∉ L → Spared p s (L.foldl (fun x q => reportTimeout q x) s)) ∧
      (p ∈ L → s.joined p → (L.foldl (fun x q => reportTimeout q x) s).timedOut p) := by
  induction L generalizing s with
  | nil => exact ⟨fun _ => .refl p s, nofun⟩
  | cons q L ih =>
    obtain ⟨fresh, rest⟩ := List.nodup_cons.mp hL
    obtain ⟨spared, reached⟩ := ih rest (reportTimeout q s)
    refine ⟨fun hp => ?_, fun hp hj => ?_⟩
    · obtain ⟨hq, hp⟩ := not_or.mp (mt List.mem_cons.mpr hp)
      exact (reportTimeout_spares hq).trans (spared hp)
    · by_cases hq : p = q
      · subst hq
        exact (spared fresh).timedOut (reportTimeout_timedOut hj)
      · exact reached (List.mem_of_ne_of_mem hq hp) ((reportTimeout_spares hq).joined hj)

theorem Txn.mem_unanswered {t : Txn} {p : Port} : p ∈ t.unanswered ↔ t.awaits p = true := by
  simp [Txn.unanswered, mem_allPorts]

/-- The second expiry of a probe deadline reaches the ports still unanswered and no other. -/
theorem probeTimeoutSlot_of_due {s : State} {k : SlotId} {t : Txn} (ht : s.txn k = some t)
    (hp : t.inProbePhase = true) (hr : t.reprobed = true) (he : t.expired s.now = true) (p : Port) :
    (t.awaits p = true → s.joined p → (probeTimeoutSlot k s).timedOut p) ∧
      (t.awaits p = false → Spared p s (probeTimeoutSlot k s)) := by
  have whole : probeTimeoutSlot k s =
      inFreeOrder t.unanswered reportTimeout (s.setTxn k { t with deadline := none }) := by
    simp only [probeTimeoutSlot, ht, hp, hr, he, Bool.and_true, if_true]
  rw [whole, inFreeOrder]
  generalize hv : State.mk .. = v
  have perm := shuffle_perm t.unanswered.length (s.setTxn k { t with deadline := none }).freeCount t.unanswered
  have nodup := perm.nodup_iff.mpr (allPorts_nodup.filter fun q => t.awaits q)
  obtain ⟨spared, reached⟩ := reportTimeouts nodup v p
  have same : Spared p s v := by
    rw [← hv]
    exact ⟨rfl, .refl _⟩
  refine ⟨fun ha hj => reached (perm.mem_iff.mpr (Txn.mem_unanswered.mpr ha)) (same.joined hj), fun ha => ?_⟩
  refine same.trans (spared fun mem => ?_)
  rw [Txn.mem_unanswered.mp (perm.mem_iff.mp mem)] at ha
  cases ha

/-! ### Standing reports (R134, log 24) -/

/-- A report about port p stands or has isolated it. -/
def State.answersReport (s : State) (p : Port) : Prop :=
  PortSet.has s.reported p = true ∨ ∃ d, (s.port p).state = .isolated d

theorem Moves.answersReport {b : Bool} {s t : State} (m : Moves b s t) {p : Port} (h : s.answersReport p) :
    t.answersReport p := by
  obtain reported | ⟨d, isolated⟩ := h
  · exact m.reports_stand p reported
  · obtain ⟨y, record⟩ := m.isolated p d isolated
    exact Or.inr ⟨y, by rw [record]⟩

theorem Act.answersReport {k : Bool} {s t : State} (a : Act false k s t) {p : Port} (h : s.answersReport p) :
    t.answersReport p := by
  cases a with
  | moves _ m => exact m.answersReport h
  | begins u v _ m b n =>
    have stands : v.answersReport p := by cases b <;> exact m.answersReport h
    exact n.answersReport stands
  | unisolate hc => cases hc
  | acknowledge _ u v m =>
    obtain ⟨n, e⟩ := acknowledgeFlag_eq v u
    rw [e]
    exact m.answersReport h

theorem exec_answersReport {c : Instr} {s t : State} {p : Port} (hc : mayClear c = false) (hr : c.resets = false)
    (h : exec c s = .next t) (hs : s.answersReport p) : t.answersReport p := by
  obtain ⟨u, hx, he⟩ := exec_effect c s
  obtain rfl : u = t := by rw [hx] at h; cases h; rfl
  cases he with
  | held _ => exact hs
  | act _ _ a => exact Act.answersReport (hc ▸ a) hs
  | hardReset e => subst e; cases hr
  | release wide e _ => subst e; cases hr

/-- Settles O44: a due deadline by its expiry, a standing report by the effects of the commands. -/
theorem deadlinesExpire : Obligations.DeadlinesExpire := by
  refine ⟨fun s k t d hr ht hd hdue => ⟨fun hphase => ⟨fun hre l hl => ?again, fun hre => ?second⟩,
      fun p hphase ho => ?lease⟩,
    fun c s u p hwf hc hres hrep hu => exec_answersReport (mayClear_of_wellFormed hwf hc) hres hu (Or.inl hrep),
    fun s k hr hnot => ?idle⟩
  case again =>
    have phase := inProbePhase_iff.mpr hphase.symm
    have due := reprobeSlot_of_due (s := s.begun) ht phase hre ((expired_iff hd).mpr hdue) hl
    have sent := queueEach_eq Probe.port (fun m : Probe => .probe k (s.begun.slot k).gen l m.kind)
      (t.probes.filter fun m => m.outcome.isNone) (s.begun.reprobing k t)
    generalize List.foldl _ (s.begun.reprobing k t) _ = u at due sent
    obtain ⟨v, e, links⟩ := sent
    refine ⟨u, (event_of_not_inReset _ hr).trans (congrArg _ due), ?_, fun p => ?_, ?_, fun j hj => ?_, ?_⟩
    · rw [e]
      exact State.txn_setTxn_same s.begun k _
    · rw [links p, List.filter_filter]
      simp only [Bool.and_comm]
      rfl
    · rw [e]
      rfl
    · rw [e]
      exact State.slot_setTxn_ne s.begun _ hj
    · rw [e]
      exact State.gen_setTxn s.begun k _
  case second =>
    have phase := inProbePhase_iff.mpr hphase.symm
    refine ⟨_, event_of_not_inReset _ hr, fun p => ?_⟩
    obtain ⟨reached, spared⟩ :=
      probeTimeoutSlot_of_due (s := s.begun) ht phase hre ((expired_iff hd).mpr hdue) p
    refine ⟨reached, fun ha => ?_⟩
    have same := spared ha
    exact ⟨same.reported, same.record.2.1, same.record.isolated_iff.mp⟩
  case lease =>
    have due : t.expired s.begun.now = true := (expired_iff hd).mpr hdue
    have ht' : s.begun.txn k = some t := ht
    refine (event_of_not_inReset _ hr).trans ?_
    simp only [leaseTimeoutSlot, ht', hphase, due, ho, decide_true, Bool.and_true, if_true]
  case idle =>
    have early : ∀ t, s.begun.txn k = some t → t.expired s.begun.now = false :=
      fun t ht => Txn.expired_eq_false fun d => hnot t d ht
    exact ⟨(event_of_not_inReset _ hr).trans (congrArg _ (reprobeSlot_of_not_due early)),
      (event_of_not_inReset _ hr).trans (congrArg _ (probeTimeoutSlot_of_not_due early)),
      (event_of_not_inReset _ hr).trans (congrArg _ (leaseTimeoutSlot_of_not_due early))⟩

end Sys2Proof.Machine
end

section
/-! PROOFS. The end of leases at an isolation (7.6, 8.4), with no law of the directory table assumed. -/

namespace Sys2Proof.Machine

open Sys2Proof

/-! ### What the work of one slot leaves beside it -/

/-- What the work of slot k's transaction leaves, whatever the directory table records: the other slots, and of an
Isolated port its tags and its absence from the parked list. -/
structure Beside (k : SlotId) (s t : State) : Prop where
  slots : ∀ j : SlotId, j ≠ k → t.slot j = s.slot j
  ports : ∀ p : Port, (s.port p).Quiet (t.port p)
  tags : ∀ p : Port, s.isIsolated p = true → (t.link p).tags = (s.link p).tags
  parked : ∀ p : Port, s.isIsolated p = true → ∀ q ∈ t.parked, q.port = p → ∃ r ∈ s.parked, r.port = p

variable {k : SlotId} {a s t u : State}

theorem Own.beside (h : Own k s t) : Beside k s t :=
  ⟨h.slots, h.ports, fun p hp => congrArg Link.tags (h.links p hp), h.parked⟩

theorem Beside.trans (h : Beside k s t) (g : Beside k t u) : Beside k s u where
  slots j hj := (g.slots j hj).trans (h.slots j hj)
  ports p := (h.ports p).trans (g.ports p)
  tags p hp := (g.tags p (isIsolated_quiet p (h.ports p) hp)).trans (h.tags p hp)
  parked p hp q hq hqp := by
    obtain ⟨r, hr, hrp⟩ := g.parked p (isIsolated_quiet p (h.ports p) hp) q hq hqp
    exact h.parked p hp r hr hrp

theorem Beside.isIsolated (h : Beside k s t) {p : Port} (hp : s.isIsolated p = true) : t.isIsolated p = true :=
  isIsolated_quiet p (h.ports p) hp

theorem queueMessage_beside (k : SlotId) (p : Port) (m : OutMessage) (s : State) : Beside k s (queueMessage p m s) where
  slots _ _ := rfl
  ports q := .refl (s.port q)
  tags q _ := by
    by_cases h : q = p
    · subst h
      rw [queueMessage_eq, State.link_setLink_same]
    · rw [queueMessage_eq, State.link_setLink_ne s _ h]
  parked _ _ q hq e := ⟨q, hq, e⟩

theorem setTxn_beside (k : SlotId) (t : Txn) (s : State) : Beside k s (s.setTxn k t) where
  slots _ hj := State.slot_setSlot_ne s _ hj
  ports q := .refl (s.port q)
  tags _ _ := rfl
  parked _ _ q hq e := ⟨q, hq, e⟩

theorem modifyTxn_beside (k : SlotId) (f : Txn → Txn) (s : State) : Beside k s (s.modifyTxn k f) := by
  unfold State.modifyTxn
  split
  · exact setTxn_beside k _ s
  · exact (Own.refl k s).beside

theorem issueProbes_beside (k : SlotId) (ph : Phase) (l : LineNo) (g : RecallTargets) (s : State) :
    Beside k s (issueProbes k ph l g s) := by
  have fold (L : List Port) (u : State) (h : Beside k s u) :
      Beside k s (L.foldl (fun x q => queueMessage q (.probe k (x.slot k).gen l g.kind) x) u) := by
    induction L generalizing u with
    | nil => exact h
    | cons q L ih => exact ih _ (h.trans (queueMessage_beside k q _ u))
  exact fold _ _ (modifyTxn_beside k _ s)

theorem recallVictim_beside (k : SlotId) (i : SetIdx) (w : Way) (s : State) :
    Beside k s (recallVictim k i w s) := by
  unfold recallVictim
  split
  · exact (Own.refl k s).beside
  · exact (modifyTxn_beside k _ s).trans (issueProbes_beside k _ _ _ _)

theorem allocate_beside {p : Port} (kind : RequestKind) (l : LineNo) (ho : s.originIs k p) :
    Beside k s (allocate k p kind l s) := by
  have scrubbed : Walk s (scrubSet (setOf l) s) := scrubSet_walk _ (.refl _)
  rw [allocate_of_outcome k p kind l s rfl]
  generalize scrubSet (setOf l) s = v at scrubbed
  refine (scrubbed.own k).beside.trans ?_
  split
  · exact (takeWay_own p kind l _ (.refl k v)).beside
  · exact recallVictim_beside k _ _ v
  · split
    · next hp =>
      have open_ : v.isIsolated p = false := by
        unfold State.isIsolated
        rw [of_decide_eq_true hp]
      exact (parkOnSet_own p (scrubbed.originIs ho) open_ (.refl k v)).beside
    · exact (complete_own _ (.refl k v)).beside
  · exact (complete_own _ (.refl k v)).beside

theorem endVictimRecall_beside {p : Port} (kind : RequestKind) (l v : LineNo) (w : Way) (ho : s.originIs k p) :
    Beside k s (endVictimRecall k p kind l v w s) := by
  have scrubbed : Walk s (scrubWay (setOf l) w s) := scrubWay_walk _ _ (.refl _)
  rw [endVictimRecall_eq p kind v rfl]
  generalize scrubWay (setOf l) w s = x at scrubbed
  refine (scrubbed.own k).beside.trans ?_
  split
  · have released : Walk (x.modifyTxn k fun t => { t with victim := none, heldWay := none }) (releaseClaim v _) :=
      releaseClaim_walk v (.refl _)
    refine ((modifyTxn_beside k _ x).trans (released.own k).beside).trans (allocate_beside kind l ?_)
    exact released.originIs (originIs_modifyTxn _ (fun _ => rfl) (scrubbed.originIs ho))
  · have emptied : Own k x (retire (setOf l) w x) := (retire_walk _ _ (.refl x)).own k
    exact (takeWay_own p kind l w
      (Own.walk (modifyTxn_own _ (fun _ => by exact Or.inl rfl) emptied) (releaseClaim_walk v (.refl _)))).beside

theorem phaseEnd_beside (k : SlotId) (s : State) : Beside k s (phaseEnd k s) := by
  unfold phaseEnd
  split
  · exact (Own.refl k s).beside
  · next t ht =>
    have emptied := setTxn_beside k t.phaseless s
    dsimp only
    split
    · next p tag n kind origin _ _ =>
      split
      · refine emptied.trans (endVictimRecall_beside kind t.line _ _ fun x o g m hx hg => ?_)
        cases Option.some.inj ((State.txn_setTxn_same s k t.phaseless).symm.trans hx)
        exact (Origin.port.inj (hg.symm.trans origin)).1
      · exact emptied
    · exact emptied.trans (endProbing_own _ _ _ _ (.refl k _)).beside
    · exact emptied.trans (endRecall_own _ _ (.refl k _)).beside
    · exact (Own.refl k s).beside

/-! ### The end of a lease (R126) -/

theorem endByIsolation_of_none {p : Port} (h : s.txn k = none) : endByIsolation p k s = s := by
  simp only [endByIsolation, h]

theorem endByIsolation_of_leased {x : Txn} (p : Port) (ht : s.txn k = some x) (hl : x.phase = some .leased) :
    endByIsolation p k s = endLeaseByIsolation p k s := by
  simp only [endByIsolation, ht, if_pos hl]

theorem endLeaseByIsolation_of_reserved {x : Txn} {w : Way} (p : Port) (ht : s.txn k = some x)
    (hk : x.kind = .request .streamWrite) (hw : x.heldWay = some w) :
    endLeaseByIsolation p k s =
      complete k none
        (place (setOf x.line) w { tag := entryTag x.line, state := .poisoned .leaseLost p }
          (s.setTxn k { x with heldWay := none, deadline := none })) := by
  simp only [endLeaseByIsolation, ht, hk, hw, modifyTxn_eq _ ht]

/-- The end of a lease is a completion, of the transaction's record in the same slot. -/
theorem endLeaseByIsolation_completes {x : Txn} (p : Port) (ht : s.txn k = some x) :
    ∃ v y, endLeaseByIsolation p k s = complete k none v ∧ v.txn k = some y ∧ (v.slot k).gen = (s.slot k).gen ∧
      Own k s v := by
  unfold endLeaseByIsolation
  rw [ht]
  dsimp only
  split
  · next w _ _ =>
    rw [modifyTxn_eq _ ht]
    have placed : Walk (s.setTxn k { x with heldWay := none, deadline := none }) (place _ w _ _) :=
      place_walk (setOf x.line) w { tag := entryTag x.line, state := .poisoned .leaseLost p } (.refl _)
    have recorded : Own k s (s.setTxn k { x with heldWay := none, deadline := none }) := by
      have changed := modifyTxn_own (k := k) (a := s) (s := s)
        (fun t => { t with heldWay := none, deadline := none }) (fun _ => Or.inl rfl) (.refl k s)
      rwa [modifyTxn_eq _ ht] at changed
    refine ⟨_, _, rfl, (placed.txn k).trans (State.txn_setTxn_same s k _), ?_, recorded.walk placed⟩
    rw [placed.slot k, State.gen_setTxn]
  · exact ⟨s, x, rfl, ht, rfl, .refl k s⟩

theorem endByIsolation_beside (p : Port) (k : SlotId) (s : State) : Beside k s (endByIsolation p k s) := by
  cases ht : s.txn k with
  | none =>
    rw [endByIsolation_of_none ht]
    exact (Own.refl k s).beside
  | some x =>
    by_cases hl : x.phase = some .leased
    · obtain ⟨v, y, e, -, -, own⟩ := endLeaseByIsolation_completes p ht
      rw [endByIsolation_of_leased p ht hl, e]
      exact (complete_own none own).beside
    · simp only [endByIsolation, ht, if_neg hl]
      exact phaseEnd_beside k s

theorem endByIsolation_slot_of_leased {x : Txn} (p : Port) (ht : s.txn k = some x) (hl : x.phase = some .leased) :
    (endByIsolation p k s).slot k = { gen := !(s.slot k).gen, txn := none } := by
  obtain ⟨v, y, e, txn, gen, -⟩ := endLeaseByIsolation_completes p ht
  rw [endByIsolation_of_leased p ht hl, e, complete_slot none txn, gen]

/-! ### The endings of an isolation, in whatever order -/

theorem endings_keep_empty (p : Port) (L : List SlotId) (h : s.txn k = none) :
    (L.foldl (fun x j => endByIsolation p j x) s).slot k = s.slot k := by
  induction L generalizing s with
  | nil => rfl
  | cons j L ih =>
    have same : (endByIsolation p j s).slot k = s.slot k := by
      by_cases e : k = j
      · subst e
        rw [endByIsolation_of_none h]
      · exact (endByIsolation_beside p j s).slots k e
    rw [List.foldl_cons, ih (by rw [State.txn, same]; exact h), same]

theorem endings_end_leases (p : Port) {L : List SlotId} {x : Txn} (ht : s.txn k = some x)
    (hl : x.phase = some .leased) (hk : k ∈ L) :
    (L.foldl (fun x j => endByIsolation p j x) s).slot k = { gen := !(s.slot k).gen, txn := none } := by
  induction L generalizing s with
  | nil => cases hk
  | cons j L ih =>
    rw [List.foldl_cons]
    by_cases e : k = j
    · subst e
      have done := endByIsolation_slot_of_leased p ht hl
      rw [endings_keep_empty p L (by rw [State.txn, done]), done]
    · have same := (endByIsolation_beside p j s).slots k e
      rw [ih (by rw [State.txn, same]; exact ht) (List.mem_of_ne_of_mem e hk), same]

/-- The endings leave an Isolated port's tags, and park no request of it. -/
theorem endings_keep_isolated (p : Port) (L : List SlotId) (hi : s.isIsolated p = true) :
    ((L.foldl (fun x j => endByIsolation p j x) s).link p).tags = (s.link p).tags ∧
      ((∀ q ∈ s.parked, q.port ≠ p) → ∀ q ∈ (L.foldl (fun x j => endByIsolation p j x) s).parked, q.port ≠ p) ∧
      (L.foldl (fun x j => endByIsolation p j x) s).isIsolated p = true := by
  induction L generalizing s with
  | nil => exact ⟨rfl, id, hi⟩
  | cons j L ih =>
    have first := endByIsolation_beside p j s
    obtain ⟨tags, parked, isolated⟩ := ih (first.isIsolated hi)
    refine ⟨tags.trans (first.tags p hi), fun none => parked fun q hq e => ?_, isolated⟩
    obtain ⟨r, hr, hrp⟩ := first.parked p hi q hq e
    exact none r hr hrp

theorem isolationArranged_parked (p : Port) (s : State) : ∀ q ∈ (isolationArranged p s).parked, q.port ≠ p := by
  obtain ⟨f, -, e⟩ := (isolationArranged_walk p s).parked
  intro q hq
  rw [e] at hq
  obtain ⟨r, hr, rfl⟩ := List.mem_map.mp hq
  exact of_decide_eq_true (List.mem_filter.mp hr).2

theorem isolationLost_parked (p : Port) (s : State) : ∀ q ∈ (isolationLost p s).parked, q.port ≠ p := by
  rw [isolationLost, markLost_slots]
  exact isolationArranged_parked p s

/-- Settles O45: the leases end among the endings of the isolation, which touch no other slot. -/
theorem isolationEndsLeases : Obligations.IsolationEndsLeases := by
  refine ⟨fun s u p reason hj hu => ?isolated, fun s k t p w ht hl hk hw => ?lease⟩
  case lease => rw [endByIsolation_of_leased p ht hl, endLeaseByIsolation_of_reserved p ht hk hw]
  case isolated =>
    have marked : (isolating p reason s).isIsolated p = true := isolating_isIsolated p reason s
    rw [hu, isolate_of_joined reason hj, isolationEffects_eq]
    obtain ⟨tags, parked, isolated⟩ := endings_keep_isolated p
      (isolationEnded p (isolationArranged p (isolating p reason s))) (isolationLost_isIsolated marked)
    have tested : Walk _ (cleanupTest p ((isolationEnded p (isolationArranged p (isolating p reason s))).foldl
      (fun x k => endByIsolation p k x) (isolationLost p (isolating p reason s)))) := cleanupTest_walk p (.refl _)
    refine ⟨fun k t ht hl ho => ?_, ?_, fun g => ?_⟩
    · have arranged : (isolationArranged p (isolating p reason s)).txn k = some t :=
        (isolationArranged_txn p _ k).trans ht
      have listed := mem_isolationEnded.mpr ⟨t, arranged, Or.inr ⟨hl, ho⟩⟩
      have slot := isolationLost_slot p (isolating p reason s) k
      have txn : (isolationLost p (isolating p reason s)).txn k = some (t.losing p) := by
        rw [State.txn, slot]
        exact congrArg (Option.map (Txn.losing p)) ht
      rw [tested.slot k, endings_end_leases p txn hl listed, slot]
      rfl
    · exact tested.parked_port (parked (isolationLost_parked p _))
    · rw [State.tagState, tested.isolated p isolated, tags, isolationLost_link marked]
      fin_cases g <;> rfl

end Sys2Proof.Machine
end

section
/-! PROOFS. The lookups of a line, the edits of one way, and the threshold test (1.2 to 1.6, 1.8, 8.5). -/

namespace Sys2Proof.Machine

open Sys2Proof

/-! ### The stored entry of a line (R4) -/

theorem State.way_of_findWay {s : State} {l : LineNo} {w : Way} (h : s.findWay l = some w) :
    ∃ e, s.way (setOf l) w = some e ∧ e.tag = entryTag l := by
  have found := List.find?_some h
  split at found
  · next e he => exact ⟨e, he, of_decide_eq_true found⟩
  · cases found

theorem State.stored_eq_some {s : State} {l : LineNo} {w : Way} {x : EntryState} :
    s.stored l = some (w, x) ↔ s.findWay l = some w ∧ ∃ e, s.way (setOf l) w = some e ∧ e.state = x := by
  unfold State.stored
  cases hf : s.findWay l with
  | none => simp
  | some v =>
    obtain ⟨e, he, -⟩ := State.way_of_findWay hf
    simp only [he, Option.some.injEq, Prod.mk.injEq]
    constructor
    · rintro ⟨rfl, rfl⟩
      exact ⟨rfl, e, he, rfl⟩
    · rintro ⟨rfl, e', he', rfl⟩
      rw [he] at he'
      exact ⟨rfl, congrArg Entry.state (Option.some.inj he')⟩

theorem State.stored_eq_none {s : State} {l : LineNo} : s.stored l = none ↔ s.findWay l = none := by
  unfold State.stored
  cases hf : s.findWay l with
  | none => simp
  | some v =>
    obtain ⟨e, he, -⟩ := State.way_of_findWay hf
    simp [he]

/-- A line is found in the same way while no tag of its set changes. -/
theorem State.findWay_congr {s t : State} {l : LineNo}
    (h : ∀ v, (t.way (setOf l) v).map Entry.tag = (s.way (setOf l) v).map Entry.tag) : t.findWay l = s.findWay l := by
  unfold State.findWay
  congr 1
  funext v
  have same := h v
  cases ht : t.way (setOf l) v <;> cases hs : s.way (setOf l) v <;> simp_all

/-! ### The lookups (R4 to R6) -/

theorem changingLookup_of_stored {s : State} {l : LineNo} {w : Way} {x : EntryState} (h : s.stored l = some (w, x)) :
    changingLookup l s = scrubWay (setOf l) w s := by
  simp only [changingLookup, (State.stored_eq_some.mp h).1]

theorem observingLookup_of_stored {s : State} {l : LineNo} {w : Way} {x : EntryState} (h : s.stored l = some (w, x)) :
    observingLookup l s = convertWay (setOf l) w s := by
  simp only [observingLookup, (State.stored_eq_some.mp h).1]

theorem lookups_of_absent {s : State} {l : LineNo} (h : s.stored l = none) :
    changingLookup l s = s ∧ observingLookup l s = s ∧ s.observed l = none := by
  have absent := State.stored_eq_none.mp h
  simp [changingLookup, observingLookup, State.observed, absent, h]

theorem lookups_of_poisoned {s : State} {l : LineNo} {w : Way} {c : PoisonCause} {q : Port}
    (h : s.stored l = some (w, .poisoned c q)) :
    changingLookup l s = s ∧ observingLookup l s = s ∧ s.observed l = some (w, .poisoned c q) := by
  obtain ⟨-, e, he, hx⟩ := State.stored_eq_some.mp h
  rw [changingLookup_of_stored h, observingLookup_of_stored h]
  simp [scrubWay, convertWay, State.observed, he, hx, h]

theorem lookups_of_exclusive {s : State} {l : LineNo} {w : Way} {q : Port} (h : s.stored l = some (w, .exclusive q)) :
    changingLookup l s = (if s.isIsolated q then convert (setOf l) w q s else s) ∧
      observingLookup l s = changingLookup l s ∧ s.observed l = some (w, .exclusive q) := by
  obtain ⟨-, e, he, hx⟩ := State.stored_eq_some.mp h
  rw [changingLookup_of_stored h, observingLookup_of_stored h]
  simp [scrubWay, convertWay, State.observed, he, hx, h]

theorem lookups_of_shared {s : State} {l : LineNo} {w : Way} {S : PortSet} (h : s.stored l = some (w, .shared S)) :
    changingLookup l s =
        (if PortSet.diff S s.isolatedPorts = S then s
        else if PortSet.diff S s.isolatedPorts = 0 then retire (setOf l) w s
        else rewrite (setOf l) w (.shared (PortSet.diff S s.isolatedPorts)) s) ∧
      observingLookup l s = s ∧
      s.observed l = if PortSet.diff S s.isolatedPorts = 0 then none
        else some (w, .shared (PortSet.diff S s.isolatedPorts)) := by
  obtain ⟨-, e, he, hx⟩ := State.stored_eq_some.mp h
  rw [changingLookup_of_stored h, observingLookup_of_stored h]
  simp only [scrubWay_of_shared he hx, convertWay, State.observed, he, hx, h, and_self]

theorem isolatedPorts_has_iff {s : State} {p : Port} :
    PortSet.has s.isolatedPorts p = true ↔ ∃ d, (s.port p).state = .isolated d := by
  rw [isolatedPorts_has]
  exact ⟨isolated_of_isIsolated, State.isIsolated_of_isolated⟩

/-- A converted line is found Poisoned, in the same way (R6). -/
theorem stored_of_converted {s : State} {l : LineNo} {w : Way} {q : Port} (hd : s.dir.Wf)
    (h : s.stored l = some (w, .exclusive q)) :
    (convert (setOf l) w q s).stored l = some (w, .poisoned .holderLost q) := by
  obtain ⟨found, e, he, -⟩ := State.stored_eq_some.mp h
  have at_way : (convert (setOf l) w q s).way (setOf l) w = some { e with state := .poisoned .holderLost q } := by
    rw [convert, way_poisonRise, way_rewrite _ he hd]
  refine State.stored_eq_some.mpr ⟨(State.findWay_congr fun v => ?_).trans found, _, at_way, rfl⟩
  by_cases hv : v = w
  · subst hv
    rw [at_way, he]
    rfl
  · rw [convert, way_poisonRise, way_rewrite_ne _ (Or.inr hv) hd]

theorem State.shared_ne_zero {s : State} {l : LineNo} {w : Way} {S : PortSet} (hd : s.dir.Wf)
    (h : s.stored l = some (w, .shared S)) : S ≠ 0 := by
  obtain ⟨-, e, he, hx⟩ := State.stored_eq_some.mp h
  have shaped := (hd.set_wf (setOf l)).shaped w e he
  rw [hx] at shaped
  simpa [EntryState.shaped] using shaped

/-- Settles O46: by the stored entry, each lookup reaching its one way. -/
theorem lookupsFilterIsolatedPorts : Obligations.LookupsFilterIsolatedPorts := by
  refine ⟨fun s p => isolatedPorts_has_iff, fun s l hd => ⟨lookups_of_absent, fun w c q => lookups_of_poisoned,
    fun w q h => ?exclusive, fun w S S' h hS => ?shared⟩⟩
  case exclusive =>
    obtain ⟨changing, observing, observed⟩ := lookups_of_exclusive h
    refine ⟨fun open_ => ?_, fun isolated => ?_⟩
    · have stays : changingLookup l s = s := changing.trans (if_neg fun hx => ?_)
      · exact ⟨stays, observing.trans stays, observed⟩
      · obtain ⟨d, hd⟩ := isolated_of_isIsolated hx
        exact open_ d hd
    · have converts : changingLookup l s = convert (setOf l) w q s :=
        changing.trans (if_pos (State.isIsolated_of_isolated isolated))
      exact ⟨converts, observing, converts ▸ stored_of_converted hd h⟩
  case shared =>
    obtain ⟨changing, observing, observed⟩ := lookups_of_shared h
    rw [← hS] at changing observed
    have nonempty := State.shared_ne_zero hd h
    refine ⟨observing, fun h0 => ⟨observed.trans (if_pos h0), changing.trans ?_⟩,
      fun h0 => observed.trans (if_neg h0), fun same _ => changing.trans (if_pos same), fun differs h0 => ?_⟩
    · rw [if_neg (h0 ▸ nonempty.symm), if_pos h0]
    · rw [changing, if_neg differs, if_neg h0]

/-! ### The edits of one way (R8 to R10, R15, R16, R18) -/

/-- The table of t is that of s with x in way w of set i and rc as that set's recency order. -/
structure EditsWay (i : SetIdx) (w : Way) (x : Option Entry) (rc : List Way) (s t : State) : Prop where
  edited : t.way i w = x
  ways : ∀ j v, j ≠ i ∨ v ≠ w → t.way j v = s.way j v
  recency : (t.dirSet i).recency = rc
  others : ∀ j, j ≠ i → (t.dirSet j).recency = (s.dirSet j).recency

theorem editsWay_of_dirSet {i : SetIdx} {w : Way} {x : Option Entry} {rc : List Way} {s t : State}
    (same : t.dirSet i = { ways := (s.dirSet i).ways.set w x, recency := rc })
    (other : ∀ j, j ≠ i → t.dirSet j = s.dirSet j) : EditsWay i w x rc s t := by
  refine ⟨?_, fun j v hv => ?_, by rw [same], fun j hj => by rw [other j hj]⟩
  · rw [State.way, same]
    show ((s.dirSet i).ways.set w x)[w] = x
    rw [ways_set, if_pos rfl]
  · by_cases hj : j = i
    · subst hj
      rw [State.way, same, State.way]
      show ((s.dirSet j).ways.set w x)[v] = _
      rw [ways_set, if_neg (hv.resolve_left (not_not.mpr rfl))]
    · rw [State.way, other j hj, State.way]

theorem editsWay_of_putSet {i : SetIdx} {w : Way} {x : Option Entry} {rc : List Way} {s t : State} (hd : s.dir.Wf)
    (h : t.dir.sets = putSet s.dir.sets i { ways := (s.dirSet i).ways.set w x, recency := rc }) :
    EditsWay i w x rc s t :=
  editsWay_of_dirSet (by rw [State.dirSet, h, getSet_putSet_same _ _ _ hd.rising])
    fun j hj => by rw [State.dirSet, h, getSet_putSet_ne _ _ hj, State.dirSet]

theorem SetRec.occupied_of_entry {r : SetRec} {w : Way} {e : Entry} (h : r.ways[w] = some e) : r.occupied w = true := by
  rw [SetRec.occupied, h]
  rfl

theorem erase_of_empty {s : State} {i : SetIdx} {w : Way} (hd : s.dir.Wf) (h : s.way i w = none) :
    (s.dirSet i).recency.erase w = (s.dirSet i).recency := by
  refine List.erase_of_not_mem fun mem => ?_
  have occupied := ((hd.set_wf i).recency_iff w).mp mem
  have empty : (getSet s.dir.sets i).ways[w] = none := h
  rw [SetRec.occupied, empty] at occupied
  cases occupied

theorem retire_of_empty {s : State} {i : SetIdx} {w : Way} (h : s.way i w = none) : retire i w s = s := by
  simp only [retire, h]

theorem retire_of_entry {s : State} {i : SetIdx} {w : Way} {e : Entry} (h : s.way i w = some e) :
    retire i w s =
      readySet i { s with dir :=
        { sets := putSet s.dir.sets i
            { ways := (s.dirSet i).ways.set w none, recency := (s.dirSet i).recency.erase w }
          occupancy := s.dir.occupancy - 1
          poisoned := if e.state.isPoisoned then s.dir.poisoned - 1 else s.dir.poisoned } } := by
  simp only [retire, h]

/-- An entry is counted, and a Poisoned one twice (R20, R21). -/
theorem Directory.Wf.counted {s : State} {i : SetIdx} {w : Way} {e : Entry} (hd : s.dir.Wf) (h : s.way i w = some e) :
    1 ≤ s.dir.occupancy ∧ (e.state.isPoisoned = true → 1 ≤ s.dir.poisoned) := by
  have hw : (getSet s.dir.sets i).ways[w] = some e := h
  have entries := SetRec.entryCount_set (getSet s.dir.sets i) w none []
  have poisons := SetRec.poisonCount_set (getSet s.dir.sets i) w none []
  have entriesBound := hd.entryCount_le i
  have poisonsBound := hd.poisonCount_le i
  rw [SetRec.occupied_of_entry hw] at entries
  simp only [Bool.toNat_true, Option.isSome_none, Bool.toNat_false] at entries
  refine ⟨by omega, fun hp => ?_⟩
  simp only [hw, poisonedIn, hp, Bool.toNat_true, Bool.toNat_false] at poisons
  omega

/-- The state with entry e placed in an empty way, before a Poisoned entry is counted. -/
def State.placed (s : State) (i : SetIdx) (w : Way) (e : Entry) : State :=
  { s with dir :=
    { s.dir with
      sets := putSet s.dir.sets i
        { ways := (s.dirSet i).ways.set w (some e), recency := w :: (s.dirSet i).recency.erase w }
      occupancy := s.dir.occupancy + 1 } }

theorem place_of_empty {s : State} {i : SetIdx} {w : Way} (e : Entry) (h : s.way i w = none) :
    place i w e s = if e.state.isPoisoned then poisonRise (s.placed i w e) else s.placed i w e := by
  simp only [place, retire_of_empty h, State.placed]

theorem rewrite_of_entry {s : State} {i : SetIdx} {w : Way} {e : Entry} (x : EntryState) (h : s.way i w = some e) :
    rewrite i w x s =
      s.setDirSet i { ways := (s.dirSet i).ways.set w (some { e with state := x })
                      recency := (s.dirSet i).recency } := by
  simp only [rewrite, h]

theorem touch_of_entry {s : State} {i : SetIdx} {w : Way} {e : Entry} (h : s.way i w = some e) :
    touch i w s = s.setDirSet i { ways := (s.dirSet i).ways, recency := w :: (s.dirSet i).recency.erase w } := by
  simp only [touch, h]

theorem grant_of_entry {s : State} {i : SetIdx} {w : Way} {e : Entry} (x : EntryState) (hd : s.dir.Wf)
    (h : s.way i w = some e) :
    grant i w x s =
      (rewrite i w x s).setDirSet i
        { ways := (s.dirSet i).ways.set w (some { e with state := x })
          recency := w :: (s.dirSet i).recency.erase w } := by
  have same : (rewrite i w x s).dirSet i =
      { ways := (s.dirSet i).ways.set w (some { e with state := x }), recency := (s.dirSet i).recency } := by
    rw [rewrite_of_entry x h]
    exact getSet_putSet_same _ _ _ hd.rising
  rw [grant, touch_of_entry (way_rewrite x h hd), same]

/-- The table after set i is replaced twice. -/
theorem dirSet_setDirSet_twice {s : State} (i : SetIdx) (r q : SetRec) (hd : s.dir.Wf) :
    ((s.setDirSet i r).setDirSet i q).dirSet i = q ∧
      ∀ j, j ≠ i → ((s.setDirSet i r).setDirSet i q).dirSet j = s.dirSet j := by
  refine ⟨getSet_putSet_same _ _ _ (putSet_rising s.dir.sets i r hd.rising), fun j hj => ?_⟩
  exact (getSet_putSet_ne _ _ hj).trans (getSet_putSet_ne _ _ hj)

theorem poisonRise_isPending (s : State) : (poisonRise s).isPending .linePoisoned = true :=
  isPending_of_rises (thresholdTest_rises _) (raise_isPending _ _)

/-- Settles O47: each edit by the set it puts in the place of the old one. -/
theorem directoryEditsTouchOneWay : Obligations.DirectoryEditsTouchOneWay := by
  intro s i w hd
  refine ⟨fun e t he ht => ?retired, fun e t he hp ht => ?placed, fun e t he hp ht => ?poisoned,
    fun e x t he ht => ?rewritten, fun e x t he ht => ?granted⟩
  case retired =>
    obtain ⟨entries, poisons⟩ := Directory.Wf.counted hd he
    rw [retire_of_entry he] at ht
    have edit : EditsWay i w none ((s.dirSet i).recency.erase w) s t := editsWay_of_putSet hd (by rw [ht]; rfl)
    refine ⟨edit.edited, edit.ways, edit.recency, edit.others, ?_, ?_, by rw [ht]; rfl, by rw [ht]; rfl⟩
    · rw [ht]
      exact Nat.sub_add_cancel entries
    · rw [ht]
      show (if e.state.isPoisoned then s.dir.poisoned - 1 else s.dir.poisoned) + _ = _
      cases hp : e.state.isPoisoned
      · rfl
      · exact Nat.sub_add_cancel (poisons hp)
  case placed =>
    rw [place_of_empty e he, hp] at ht
    simp only [Bool.false_eq_true, if_false] at ht
    have edit : EditsWay i w (some e) (w :: (s.dirSet i).recency.erase w) s t := editsWay_of_putSet hd (by rw [ht]; rfl)
    rw [erase_of_empty hd he] at edit
    exact ⟨edit.edited, edit.ways, edit.recency, edit.others, by rw [ht]; rfl, by rw [ht]; rfl, by rw [ht]; rfl⟩
  case poisoned =>
    rw [place_of_empty e he, if_pos hp] at ht
    have dir : t.dir = { (s.placed i w e).dir with poisoned := s.dir.poisoned + 1 } := by rw [ht, poisonRise_dir]; rfl
    have edit : EditsWay i w (some e) (w :: (s.dirSet i).recency.erase w) s t :=
      editsWay_of_putSet hd (by rw [dir]; rfl)
    rw [erase_of_empty hd he] at edit
    refine ⟨edit.edited, edit.ways, edit.recency, edit.others, by rw [dir]; rfl, by rw [dir], ?_, ?_⟩
    · rw [ht]
      exact poisonRise_isPending _
    · rw [dir]
      exact ht
  case rewritten =>
    rw [rewrite_of_entry x he] at ht
    have edit : EditsWay i w (some { e with state := x }) (s.dirSet i).recency s t :=
      editsWay_of_putSet hd (by rw [ht]; rfl)
    refine ⟨edit.edited, edit.ways, fun j => ?_, by rw [ht]; rfl, by rw [ht]; rfl, by rw [ht]; rfl⟩
    by_cases hj : j = i
    · rw [hj, edit.recency]
    · exact edit.others j hj
  case granted =>
    rw [grant_of_entry x hd he, rewrite_of_entry x he] at ht
    obtain ⟨same, other⟩ := dirSet_setDirSet_twice (s := s) i
      { ways := (s.dirSet i).ways.set w (some { e with state := x }), recency := (s.dirSet i).recency }
      { ways := (s.dirSet i).ways.set w (some { e with state := x }), recency := w :: (s.dirSet i).recency.erase w } hd
    rw [← ht] at same other
    have edit := editsWay_of_dirSet same other
    exact ⟨edit.edited, edit.ways, edit.recency, edit.others, by rw [ht]; rfl, by rw [ht]; rfl, by rw [ht]; rfl⟩

/-! ### The threshold test (R140, R141, R178) -/

theorem completeLong_quiesce_of_not_inProgress {s : State} (st : CommandStatus) (r : Word)
    (h : s.unit.inProgress ≠ some .quiesce) : completeLong .quiesce st r s = s := if_neg h

/-- What the entry to Halted does to the service state, the causes and a Quiesce in progress. -/
theorem enterHalted_halts (s : State) :
    (enterHalted s).service = .halted ∧ (enterHalted s).isPending .halted = true ∧
      (s.unit.inProgress = some .quiesce →
        (enterHalted s).unit =
            { s.unit with inProgress := none, status := .wrongState, results := #v[3, 0, 0, 0] } ∧
          (enterHalted s).isPending .commandDone = true) ∧
      (s.unit.inProgress ≠ some .quiesce → (enterHalted s).unit = s.unit) := by
  have raised : (raise .halted { s with service := .halted }).isPending .halted = true := raise_isPending _ _
  by_cases h : s.unit.inProgress = some .quiesce
  · have whole : enterHalted s =
        completeCommand .wrongState 3 0 0 0 (raise .halted { s with service := .halted }) := if_pos h
    rw [whole]
    exact ⟨rfl, isPending_of_rises (raise_rises _ _) raised, fun _ => ⟨rfl, raise_isPending _ _⟩, fun hn => absurd h hn⟩
  · have whole : enterHalted s = raise .halted { s with service := .halted } :=
      completeLong_quiesce_of_not_inProgress _ _ h
    rw [whole]
    exact ⟨rfl, raised, fun hq => absurd hq h, fun _ => rfl⟩

/-- The state once ThresholdNear has been raised, if it is to be. -/
def State.nearTested (s : State) : State :=
  if 2 ≤ s.threshold ∧ s.dir.poisoned + 1 = s.threshold then raise .thresholdNear s else s

theorem nearTested_frame (s : State) : ∃ n, s.nearTested = { s with notify := n } := by
  unfold State.nearTested
  split
  · exact ⟨_, rfl⟩
  · exact ⟨s.notify, rfl⟩

theorem thresholdTest_eq (s : State) :
    thresholdTest s =
      if s.threshold ≤ s.dir.poisoned ∧ (s.service = .running ∨ s.service = .quiescing) then enterHalted s.nearTested
      else s.nearTested := by
  obtain ⟨n, e⟩ := nearTested_frame s
  have whole : thresholdTest s =
      if s.nearTested.threshold ≤ s.nearTested.dir.poisoned ∧
          (s.nearTested.service = .running ∨ s.nearTested.service = .quiescing) then enterHalted s.nearTested
      else s.nearTested := rfl
  rw [whole, e]

/-- Settles O48: the test for ThresholdNear first, then the entry to Halted. -/
theorem thresholdTestHaltsThePart : Obligations.ThresholdTestHaltsThePart := by
  refine ⟨fun s => rfl, fun s t ht => ?_⟩
  obtain ⟨n, e⟩ := nearTested_frame s
  have whole := thresholdTest_eq s
  refine ⟨fun h2 hnear => ?near, fun hmany hservice => ?halts, fun hkeeps => ?keeps, fun hfar => ?far, ?frame⟩
  case near =>
    have raised : s.nearTested.isPending .thresholdNear = true := by
      rw [State.nearTested, if_pos ⟨h2, hnear⟩]
      exact raise_isPending _ _
    rw [if_neg fun h => by omega] at whole
    rw [ht, whole]
    exact raised
  case halts =>
    rw [if_pos ⟨hmany, hservice⟩, e] at whole
    rw [ht, whole]
    exact enterHalted_halts _
  case keeps =>
    have not : ¬(s.threshold ≤ s.dir.poisoned ∧ (s.service = .running ∨ s.service = .quiescing)) := by
      rintro ⟨many, service⟩
      obtain few | quiesced | halted := hkeeps
      · omega
      · simp [quiesced] at service
      · simp [halted] at service
    rw [if_neg not, e] at whole
    rw [ht, whole]
    exact ⟨rfl, rfl⟩
  case far =>
    rw [if_neg fun h => by omega, State.nearTested, if_neg fun h => by omega] at whole
    exact ht.trans whole
  case frame =>
    obtain ⟨v, u, n, frame⟩ := thresholdTest_frame s
    rw [ht, frame]

end Sys2Proof.Machine
end

section
/-! PROOFS. The classes of ways and the way search (1.7), the operand checks (R166), and the port commands (R167). -/

namespace Sys2Proof.Machine

open Sys2Proof

/-! ### Claims, holds and classes (R11, R81, Fig. 1-4) -/

theorem State.claimed_iff {s : State} {l : LineNo} :
    s.claimed l = true ↔ ∃ k t, s.txn k = some t ∧ (t.line = l ∨ t.victim = some l) := by
  simp only [State.claimed, State.claimant, List.find?_isSome, Prod.exists, mem_activeTxns, claims_iff]

theorem State.held_iff {s : State} {i : SetIdx} {w : Way} :
    s.held i w = true ↔ ∃ k t, s.txn k = some t ∧ setOf t.line = i ∧ t.heldWay = some w := by
  simp only [State.held, List.any_eq_true, Prod.exists, mem_activeTxns, Bool.and_eq_true, decide_eq_true_eq]

theorem State.classify_of_held {s : State} {i : SetIdx} {w : Way} (h : s.held i w = true) :
    s.classify i w = .busy := if_pos h

theorem State.classify_of_empty {s : State} {i : SetIdx} {w : Way} (h : s.held i w = false) (hw : s.way i w = none) :
    s.classify i w = .free := by
  simp [State.classify, h, hw]

theorem State.classify_of_entry {s : State} {i : SetIdx} {w : Way} {e : Entry} (h : s.held i w = false)
    (hw : s.way i w = some e) :
    s.classify i w =
      if s.claimed (lineOf i e.tag) then .busy else if e.state.isPoisoned then .poisoned else .eligible := by
  simp [State.classify, h, hw]

/-! ### The way search (Fig. 1-5) -/

theorem allWays_rising : allWays.Pairwise (· < ·) := by decide

theorem State.findFree_eq_none {s : State} {i : SetIdx} (h : ∀ w, s.classify i w ≠ .free) :
    (allWays.find? fun w => decide (s.classify i w = .free)) = none :=
  List.find?_eq_none.mpr fun w _ => by simp [h w]

theorem State.searchOutcome_of_free {s : State} {i : SetIdx} {w : Way} (hw : s.classify i w = .free)
    (lower : ∀ v, v < w → s.classify i v ≠ .free) : s.searchOutcome i = .free w := by
  have found : (allWays.find? fun w => decide (s.classify i w = .free)) = some w :=
    find_of_pairwise allWays_rising (mem_allWays w) (decide_eq_true hw) fun v hv => decide_eq_false (lower v hv)
  simp only [State.searchOutcome, found]

theorem State.searchOutcome_of_eligible {s : State} {i : SetIdx} {w : Way} {nearer farther : List Way}
    (none_free : ∀ w, s.classify i w ≠ .free) (order : (s.dirSet i).recency = nearer ++ w :: farther)
    (hw : s.classify i w = .eligible) (behind : ∀ v ∈ farther, s.classify i v ≠ .eligible) :
    s.searchOutcome i = .victim w := by
  have found : ((s.dirSet i).recency.reverse.find? fun w => decide (s.classify i w = .eligible)) = some w := by
    rw [List.find?_eq_some_iff_append]
    refine ⟨decide_eq_true hw, farther.reverse, nearer.reverse, by simp [order], fun v hv => ?_⟩
    simp [behind v (List.mem_reverse.mp hv)]
  simp only [State.searchOutcome, State.findFree_eq_none none_free, found]

theorem State.searchOutcome_of_none {s : State} {i : SetIdx} (none_free : ∀ w, s.classify i w ≠ .free)
    (none_eligible : ∀ w, s.classify i w ≠ .eligible) :
    s.searchOutcome i =
      if allWays.any fun w => decide (s.classify i w = .busy) then .noRoomForNow else .noRoom := by
  have found : ((s.dirSet i).recency.reverse.find? fun w => decide (s.classify i w = .eligible)) = none :=
    List.find?_eq_none.mpr fun w _ => by simp [none_eligible w]
  simp only [State.searchOutcome, State.findFree_eq_none none_free, found]

/-- Settles O49: the classes by what holds, fills and claims the way; the search by the first of each class. -/
theorem waySearchPicksByClass : Obligations.WaySearchPicksByClass := by
  refine ⟨fun s i w => ⟨State.classify_of_held, fun h => ⟨State.classify_of_empty h, fun e he => ?_⟩⟩,
    fun _ _ _ => State.held_iff, fun _ _ => State.claimed_iff,
    fun s i => ⟨fun w => State.searchOutcome_of_free,
      fun none_free => ⟨fun w nearer farther => State.searchOutcome_of_eligible none_free,
        fun none_eligible ⟨w, hw⟩ => ?_, fun poisoned => ?_⟩⟩⟩
  · rw [State.classify_of_entry h he]
    refine ⟨fun hc => if_pos hc, fun hc => ?_⟩
    rw [hc]
    exact ⟨fun hp => if_pos hp, fun hp => by rw [hp]; rfl⟩
  · rw [State.searchOutcome_of_none none_free none_eligible, if_pos]
    exact List.any_eq_true.mpr ⟨w, mem_allWays w, decide_eq_true hw⟩
  · rw [State.searchOutcome_of_none none_free fun w => by rw [poisoned w]; nofun, if_neg]
    simp [poisoned]

/-! ### The operand checks (R166, Fig. 12-8) -/

theorem portOperand_of_large {v : Nat} (h : 8 ≤ v) : portOperand v = none := dif_neg (Nat.not_lt.mpr h)

theorem indexOperand_of_large {v : Nat} (h : 8 ≤ v) : indexOperand v = none := dif_neg (Nat.not_lt.mpr h)

theorem pageOperand_of_large {v : Nat} (h : 1048576 ≤ v) : pageOperand v = none := dif_neg (Nat.not_lt.mpr h)

theorem lineOperand_of_large {v : Nat} (h : 67108864 ≤ v) : lineOperand v = none := dif_neg (Nat.not_lt.mpr h)

theorem profileOperand_of_large {v : Nat} (h : 3 ≤ v) : profileOperand v = none := by
  rw [profileOperand, if_neg (by omega), if_neg (by omega), if_neg (by omega)]

section Operands

variable {s : State}

theorem opProfile_eq_none (h : 8 ≤ s.operand 0 ∨ 3 ≤ s.operand 1) : s.opProfile = none := by
  unfold State.opProfile
  obtain h | h := h
  · rw [State.opPort, portOperand_of_large h]
  · rw [profileOperand_of_large h]
    cases s.opPort <;> rfl

theorem opRegion_eq_none
    (h : 8 ≤ s.operand 0 ∨ s.operand 1 % 4 = 3 ∨ 1048576 ≤ s.operandPair 2 3 ∨ 1048576 ≤ s.operandPair 4 5) :
    s.opRegion = none := by
  unfold State.opRegion
  split
  · next i a base limit hi ha hbase hlimit =>
    obtain h | h | h | h := h
    · cases (indexOperand_of_large h).symm.trans hi
    · rw [h] at ha
      cases ha
    · cases (pageOperand_of_large h).symm.trans hbase
    · cases (pageOperand_of_large h).symm.trans hlimit
  · rfl

theorem opRange_eq_none (h : 1048576 ≤ s.operandPair 0 1 ∨ 1048576 ≤ s.operandPair 2 3) : s.opRange = none := by
  unfold State.opRange
  split
  · next base limit hbase hlimit =>
    obtain h | h := h
    · cases (pageOperand_of_large h).symm.trans hbase
    · cases (pageOperand_of_large h).symm.trans hlimit
  · rfl

theorem opTiming_eq_none (h : s.operand 0 = 0 ∨ 4096 ≤ s.operand 0 ∨ s.operand 1 = 0) : s.opTiming = none :=
  if_neg (by omega)

theorem opThreshold_eq_none (h : s.operand 0 = 0 ∨ 256 ≤ s.operand 0) : s.opThreshold = none :=
  if_neg (by omega)

end Operands

theorem commandBody_of_unnamed {code : Word} (h : code.toNat = 0 ∨ 16 ≤ code.toNat) :
    commandBody code = badOperand := by
  unfold commandBody
  split
  iterate 15 · omega
  · rfl

/-- A command whose body refuses its operands completes BadOperand and changes nothing else. -/
theorem exec_of_badOperand {s : State} {c : Instr} {code : Word} (hs : s.takesCommand) (hc : c.startCode = some code)
    (h : commandBody code (s.started code) = badOperand (s.started code)) :
    exec c s = .next ((s.started code).completed .badOperand 0 0 0 0) := by
  obtain ⟨hr, hidle⟩ := hs
  rw [exec_of_idle hc hr hidle, h]
  rfl

/-- Settles O52: each check by the operand that its command reads first. -/
theorem operandCheckComesFirst : Obligations.OperandCheckComesFirst := by
  intro s hs c code hc h
  refine exec_of_badOperand hs hc ?_
  obtain ⟨hport, hv⟩ | ⟨rfl, hv⟩ | ⟨rfl, hv⟩ | ⟨rfl, hv⟩ | ⟨hline, hv⟩ | ⟨rfl, hv⟩ | ⟨rfl, hv⟩ | ⟨rfl, hv⟩ := h
  · have none : (s.started code).opPort = none := portOperand_of_large hv
    obtain rfl | rfl | rfl := hport <;> cases hc
    · show evictPort _ = _
      simp only [evictPort, none]
    · show isolatePort _ = _
      simp only [isolatePort, none]
    · show clearIsolation _ = _
      simp only [clearIsolation, none]
  · have none : (s.started code).opProfile = none := opProfile_eq_none hv
    cases hc
    show setPortProfile _ = _
    simp only [setPortProfile, none]
  · have none : (s.started code).opRegion = none := opRegion_eq_none hv
    cases hc
    show writeRegion _ = _
    simp only [writeRegion, none]
  · have none : (s.started code).opRange = none := opRange_eq_none hv
    cases hc
    show flush _ = _
    simp only [flush, none]
  · have none : (s.started code).opLine = none := lineOperand_of_large hv
    obtain rfl | rfl | rfl := hline <;> cases hc
    · show lookupLine _ = _
      simp only [lookupLine, none]
    · show nextPoisoned _ = _
      simp only [nextPoisoned, none]
    · show clearPoison _ = _
      simp only [clearPoison, none]
  · have none : (s.started code).opTiming = none := opTiming_eq_none hv
    cases hc
    show setTiming _ = _
    simp only [setTiming, none]
  · have none : (s.started code).opThreshold = none := opThreshold_eq_none hv
    cases hc
    show setPoisonThreshold _ = _
    simp only [setPoisonThreshold, none]
  · rw [commandBody_of_unnamed hv]

/-! ### The port commands (R55, R59, R64, R68) -/

theorem exec_of_takesCommand {s : State} {c : Instr} {code : Word} (hs : s.takesCommand)
    (hc : c.startCode = some code) :
    exec c s = .next (commandBody code (s.started code)) := exec_of_idle hc hs.1 hs.2

theorem profileOperand_eq {v : Nat} {f : Profile}
    (h : v = 0 ∧ f = .unused ∨ v = 1 ∧ f = .caching ∨ v = 2 ∧ f = .streaming) :
    profileOperand v = some f := by
  obtain ⟨rfl, rfl⟩ | ⟨rfl, rfl⟩ | ⟨rfl, rfl⟩ := h <;> rfl

theorem stateFor_eq (f : Profile) : stateFor f = if f = .unused then .unused else .offline := by
  cases f <;> rfl

theorem stateFor_word (f : Profile) : word (stateFor f).code = if f = .unused then 0 else 1 := by
  cases f <;> rfl

theorem completePort_eq (st : CommandStatus) (p : Port) (s : State) :
    completePort st p s = s.completed st (s.portStateWord p) 0 0 0 := rfl

theorem completePortReason_eq (st : CommandStatus) (p : Port) (s : State) :
    completePortReason st p s = s.completed st (s.portStateWord p) (s.reasonWord p) 0 0 := rfl

section PortCommands

variable {s : State} {p : Port}

theorem setPortProfile_of_settable {f : Profile} (h : s.opProfile = some (p, f))
    (hp : (s.port p).state = .unused ∨ (s.port p).state = .offline) :
    setPortProfile s = completePort .done p (s.setPort p { s.port p with profile := f, state := stateFor f }) := by
  obtain hp | hp := hp <;> simp only [setPortProfile, h, hp]

theorem setPortProfile_of_not_settable {f : Profile} (h : s.opProfile = some (p, f))
    (hu : (s.port p).state ≠ .unused) (ho : (s.port p).state ≠ .offline) :
    setPortProfile s = completePort .wrongState p s := by
  simp only [setPortProfile, h]
  split
  · next e => exact absurd e hu
  · next e => exact absurd e ho
  all_goals rfl

theorem evictPort_of_not_online (h : s.opPort = some p) (hp : (s.port p).state ≠ .online) :
    evictPort s = completePort .wrongState p s := by
  simp [evictPort, h, State.isOnline_eq_false hp]

theorem isolatePort_of_used (h : s.opPort = some p) (hp : (s.port p).state ≠ .unused) :
    isolatePort s = completePortReason .done p (isolate p .command s) := by
  simp [isolatePort, h, hp]

theorem isolatePort_of_unused (h : s.opPort = some p) (hp : (s.port p).state = .unused) :
    isolatePort s = completePortReason .wrongState p s := by
  simp [isolatePort, h, hp]

theorem clearIsolation_of_cleaned (h : s.opPort = some p) (hp : (s.port p).state = .isolated true) :
    clearIsolation s = completePortReason .done p (s.setPort p { s.port p with state := .offline }) := by
  simp [clearIsolation, h, hp]

theorem clearIsolation_of_not_cleaned (h : s.opPort = some p) (hp : (s.port p).state ≠ .isolated true) :
    clearIsolation s = completePortReason .wrongState p s := by
  simp [clearIsolation, h, hp]

end PortCommands

theorem opProfile_started {s : State} {p : Port} {f : Profile} (code : Word) (hw : s.word 0 = p.val)
    (hf : s.word 1 = 0 ∧ f = .unused ∨ s.word 1 = 1 ∧ f = .caching ∨ s.word 1 = 2 ∧ f = .streaming) :
    (s.started code).opProfile = some (p, f) := by
  have profile : profileOperand ((s.started code).operand 1) = some f := profileOperand_eq hf
  simp only [State.opProfile, opPort_started_of_word code hw, profile]

/-- Settles O53: each command by its body on the named port's state. -/
theorem portCommandsActByPortState : Obligations.PortCommandsActByPortState := by
  intro s p hs hw
  refine ⟨fun f hf => ⟨fun hp => ?profile, fun hu ho => ?keeps⟩, fun hp => ?evict, fun hj => ?isolate, fun hi => ?again,
    fun hp => ?unused, fun hp => ?clear, fun hp => ?wrong⟩
  case profile =>
    refine (exec_of_takesCommand hs (code := 1) rfl).trans (congrArg _ ?_)
    refine (setPortProfile_of_settable (opProfile_started 1 hw hf) hp).trans ?_
    rw [completePort_eq, State.portStateWord, State.port_setPort_same, stateFor_word, stateFor_eq]
    rfl
  case keeps =>
    refine (exec_of_takesCommand hs (code := 1) rfl).trans (congrArg _ ?_)
    exact setPortProfile_of_not_settable (opProfile_started 1 hw hf) hu ho
  case evict =>
    refine (exec_of_takesCommand hs (code := 2) rfl).trans (congrArg _ ?_)
    exact evictPort_of_not_online (opPort_started_of_word 2 hw) hp
  case isolate =>
    have joined : (s.started 3).joined p := hj
    refine (exec_of_takesCommand hs (code := 3) rfl).trans (congrArg _ ?_)
    refine (isolatePort_of_used (opPort_started_of_word 3 hw) (State.joined_ne joined).1).trans ?_
    obtain ⟨d, record⟩ := isolate_record .command joined
    rw [completePortReason_eq, State.portStateWord, State.reasonWord, record]
    rfl
  case again =>
    obtain ⟨d, hd⟩ := hi
    have isolated : ((s.started 3).port p).state = .isolated d := hd
    refine (exec_of_takesCommand hs (code := 3) rfl).trans (congrArg _ ?_)
    refine (isolatePort_of_used (opPort_started_of_word 3 hw) fun h => nomatch isolated.symm.trans h).trans ?_
    rw [isolate_of_not_joined _ fun joined => (State.joined_ne joined).2 d isolated, completePortReason_eq,
      State.portStateWord, isolated]
    rfl
  case unused =>
    refine (exec_of_takesCommand hs (code := 3) rfl).trans (congrArg _ ?_)
    have unused : ((s.started 3).port p).state = .unused := hp
    refine (isolatePort_of_unused (opPort_started_of_word 3 hw) unused).trans ?_
    rw [completePortReason_eq, State.portStateWord, unused]
    rfl
  case clear =>
    refine (exec_of_takesCommand hs (code := 4) rfl).trans (congrArg _ ?_)
    refine (clearIsolation_of_cleaned (opPort_started_of_word 4 hw) hp).trans ?_
    rw [completePortReason_eq, State.portStateWord, State.reasonWord, State.port_setPort_same]
    rfl
  case wrong =>
    refine (exec_of_takesCommand hs (code := 4) rfl).trans (congrArg _ ?_)
    exact clearIsolation_of_not_cleaned (opPort_started_of_word 4 hw) hp

end Sys2Proof.Machine
end

section
/-! PROOFS. The sweep engine's queue, its walk and the reports of its jobs, and the commands that queue jobs (9.1 to
9.4, 10.3). -/

namespace Sys2Proof.Machine

open Sys2Proof

/-! ### The queue and the running job (R145, R151) -/

theorem startRunning_of_empty {s : State} (h : s.sweep.jobs = []) :
    startRunning s = { s with sweep := { s.sweep with walker := .idle, workList := [] } } := by
  simp only [startRunning, h]

theorem startRunning_of_jobs {s : State} {j : Job} {rest : List Job} (h : s.sweep.jobs = j :: rest) :
    startRunning s = walkOn j 0 { s with sweep := { s.sweep with jobCount := 0 } } := by
  simp only [startRunning, h]

theorem enqueueJob_of_idle {s : State} (j : Job) (h : s.sweep.jobs = []) :
    enqueueJob j s = advance (walkOn j 0 { s with sweep := { s.sweep with jobs := [j], jobCount := 0 } }) := by
  simp only [enqueueJob, h, List.nil_append, if_true]
  rw [startRunning_of_jobs (j := j) (rest := []) rfl]

theorem advance_of_empty {s : State} (h : s.sweep.jobs = []) : advance s = s := by
  simp only [advance, h, List.length_nil, completeJobs]

theorem recallActive_eq_false {s : State} {j : Job} (h : ∀ k t, s.txn k = some t → t.origin ≠ .sweep j.owner) :
    s.recallActive j = false := by
  rw [← Bool.not_eq_true, recallActive_iff]
  rintro ⟨k, t, ht, ho⟩
  exact h k t ht ho

theorem advance_of_waiting {s : State} {j : Job} {rest : List Job} (hj : s.sweep.jobs = j :: rest)
    (h : s.sweep.walker ≠ .past ∨ ∃ k t, s.txn k = some t ∧ t.origin = .sweep j.owner) : advance s = s := by
  have not : ¬(s.sweep.walker = .past ∧ s.recallActive j = false) := by
    rintro ⟨past, inactive⟩
    obtain h | h := h
    · exact h past
    · rw [(recallActive_iff s j).mpr h] at inactive
      cases inactive
  simp only [advance, hj, List.length_cons, completeJobs, if_neg not]

theorem advance_of_done {s : State} {j : Job} {rest : List Job} (hj : s.sweep.jobs = j :: rest)
    (hp : s.sweep.walker = .past) (h : ∀ k t, s.txn k = some t → t.origin ≠ .sweep j.owner) :
    advance s = advance (startRunning (reportJob j { s with sweep := { s.sweep with jobs := rest } })) := by
  have next : (startRunning (reportJob j { s with sweep := { s.sweep with jobs := rest } })).sweep.jobs = rest := by
    rw [startRunning_jobs, reportJob_sweep]
  generalize hu : startRunning (reportJob j { s with sweep := { s.sweep with jobs := rest } }) = u at next
  rw [advance, advance, next, hj, List.length_cons, ← hu]
  simp only [completeJobs, hj, hp, recallActive_eq_false h, and_self, if_true]

/-! ### The walk (R146, log 5) -/

theorem restSet_of_le {start n : Nat} {m : SetIdx} (h : restSet start n = some m) : start ≤ m.val := by
  unfold restSet at h
  split at h
  · split at h
    · next le =>
      cases h
      exact le
    · cases h
  · cases h

theorem setsFrom_eq_route (s : State) (n : Nat) (stop : Option SetIdx) : s.setsFrom n stop = s.route n stop := by
  cases stop with
  | none => rfl
  | some m =>
    simp only [State.setsFrom, State.route, State.listedSets, List.filter_filter, Bool.decide_and, Bool.and_comm]

theorem walkOn_eq (j : Job) (n : Nat) (s : State) :
    ∃ stop : Option SetIdx, (∀ m, stop = some m → n ≤ m.val) ∧
      walkOn j n s = visitSets j stop (s.route n stop) { s with freeCount := s.freeCount + 1 } := by
  refine ⟨restSet n (Config.freeChoice s.freeCount), fun m => restSet_of_le, ?_⟩
  rw [walkOn, setsFrom_eq_route]

theorem visitSets_of_handled {s : State} {j : Job} {stop : Option SetIdx} {i : SetIdx} {rest : List SetIdx}
    (h : ∀ x ∈ (arriveAt j i s).sweep.workList, x.2 = .handled) (hs : stop ≠ some i) :
    visitSets j stop (i :: rest) s = visitSets j stop rest (arriveAt j i s) := by
  simp only [visitSets, allHandled_iff.mpr h, hs, ne_eq, not_false_eq_true, and_self, if_true]

theorem visitSets_of_stop {s : State} {j : Job} {stop : Option SetIdx} {i : SetIdx} {rest : List SetIdx}
    (h : (∃ x ∈ (arriveAt j i s).sweep.workList, x.2 ≠ .handled) ∨ stop = some i) :
    visitSets j stop (i :: rest) s = arriveAt j i s := by
  simp only [visitSets]
  refine if_neg ?_
  rintro ⟨all, goes⟩
  obtain waits | rests := h
  · rw [allHandled_eq_false waits] at all
    cases all
  · exact goes rests

/-! ### The arrival at a set (R146, R147) -/

/-- The work list that an arrival makes of the lines of its set. -/
def State.workOf (u : State) (j : Job) (lines : List LineNo) : List (LineNo × WorkStatus) :=
  (lines.filter fun l => u.judges j l).map fun l => (l, u.joinStatus j l)

theorem arriveAt_eq (j : Job) (i : SetIdx) (s : State) {u : State} {lines : List LineNo} (hl : lines = s.linesOf i)
    (hu : u = lines.foldl (fun x l => walkerLookup j l x) s) :
    arriveAt j i s =
      ((u.workOf j lines).filter fun x => decide (x.2 = .handled)).foldl (fun x y => directEdit j y.1 x)
        { u with sweep := { u.sweep with walker := .atSet i, workList := u.workOf j lines } } := by
  rw [List.foldl_filter, hu, hl]
  simp only [decide_eq_true_eq]
  rfl

theorem workOf_sublist (u : State) (j : Job) (lines : List LineNo) :
    ((u.workOf j lines).map Prod.fst).Sublist lines := by
  have firsts : (u.workOf j lines).map Prod.fst = lines.filter fun l => u.judges j l := by
    simp [State.workOf, Function.comp_def]
  rw [firsts]
  exact List.filter_sublist

theorem joinStatus_iff {u : State} {j : Job} {l : LineNo} {st : WorkStatus} :
    u.joinStatus j l = st ↔
      u.claimed l = true ∧ st = .waiting ∨
        u.claimed l = false ∧ (j.direct ∧ st = .handled ∨ ¬ j.direct ∧ st = .pending) := by
  unfold State.joinStatus
  rw [← Job.edits_iff]
  cases u.claimed l <;> cases j.edits <;> simp [eq_comm]

theorem mem_workOf {u : State} {j : Job} {lines : List LineNo} {l : LineNo} {st : WorkStatus} :
    (l, st) ∈ u.workOf j lines ↔ l ∈ lines ∧ u.finds l j ∧
      (u.claimed l = true ∧ st = .waiting ∨
        u.claimed l = false ∧ (j.direct ∧ st = .handled ∨ ¬ j.direct ∧ st = .pending)) := by
  rw [← joinStatus_iff, ← State.judges_iff]
  simp only [State.workOf, List.mem_map, List.mem_filter, Prod.mk.injEq]
  constructor
  · rintro ⟨m, ⟨hm, hj⟩, rfl, rfl⟩
    exact ⟨hm, hj, rfl⟩
  · rintro ⟨hm, hj, hs⟩
    exact ⟨l, ⟨hm, hj⟩, rfl, hs⟩

/-! ### The lookups and edits of the walker (R31, R146, R154, R157) -/

theorem recordsPort_of_stored {s : State} {l : LineNo} {w : Way} {x : EntryState} {p : Port}
    (h : s.stored l = some (w, x)) : s.recordsPort l p = x.records p := by
  simp only [State.recordsPort, h]

theorem recordsPort_eq_false {s : State} {l : LineNo} {p : Port}
    (h : ∀ w x, s.stored l = some (w, x) → x.records p = false) : s.recordsPort l p = false := by
  unfold State.recordsPort
  split
  · next w x hx => exact h w x hx
  · rfl

theorem tightens_iff {now after : Attribute} : tightens now after = true ↔ after ≠ now ∧ after ≠ .tracked := by
  cases now <;> cases after <;> simp [tightens]

theorem walkerLookup_regionChange (s : State) (i : RegionIdx) (r : Region) (l : LineNo) :
    walkerLookup (.regionChange i r) l s =
      if tightens (s.attrOf l) (s.attrAfter i r l) then changingLookup l s else observingLookup l s := rfl

theorem directEdit_poisonClear {s : State} {l : LineNo} {w : Way} {x : EntryState} (h : s.stored l = some (w, x)) :
    directEdit .poisonClear l s =
      { retire (setOf l) w s with sweep := { s.sweep with jobCount := s.sweep.jobCount + 1 } } := by
  simp only [directEdit, (State.stored_eq_some.mp h).1, retire_sweep]

/-! ### The reports of completed jobs (R35, R62, R67, R151) -/

theorem reportJob_drain {s : State} {p : Port} {d : Bool} (h : (s.port p).state = .draining d) :
    reportJob (.drain p) s = drainTest p (s.setPort p { s.port p with state := .draining true }) := by
  simp only [reportJob, h]

theorem hasCleanupJob_iff {s : State} {p : Port} : s.hasCleanupJob p = true ↔ .cleanup p ∈ s.sweep.jobs := by
  simp [State.hasCleanupJob]

theorem cleanupTest_of_waiting {s : State} {p : Port} (hp : (s.port p).state = .isolated false)
    (h : .cleanup p ∈ s.sweep.jobs ∨ s.hasOrigin p = true) : cleanupTest p s = s := by
  rw [← hasCleanupJob_iff] at h
  simp [cleanupTest, hp, h]

theorem cleanupTest_of_cleaned {s : State} {p : Port} (hp : (s.port p).state = .isolated false)
    (hj : .cleanup p ∉ s.sweep.jobs) (ho : s.hasOrigin p = false) :
    cleanupTest p s = raise .cleanupDone (s.setPort p { s.port p with state := .isolated true }) := by
  have none : s.hasCleanupJob p = false := Bool.eq_false_iff.mpr fun h => hj (hasCleanupJob_iff.mp h)
  simp [cleanupTest, hp, none, ho]

/-! ### A job with nothing to do (log 5) -/

theorem linesOf_of_empty {s : State} (h : s.dir.sets = []) (i : SetIdx) : s.linesOf i = [] := by
  have empty (w : Way) : s.way i w = none := by
    rw [State.way, State.dirSet, h]
    exact SetRec.empty_way w
  simp [State.linesOf, empty]

theorem arriveAt_of_empty {s : State} (j : Job) (i : SetIdx) (h : s.dir.sets = []) :
    arriveAt j i s = { s with sweep := { s.sweep with walker := .atSet i, workList := [] } } :=
  arriveAt_eq j i s (linesOf_of_empty h i).symm rfl

/-- The walk over an empty directory: past its end, or at rest at a set. -/
theorem walkOn_of_empty {s : State} (j : Job) (h : s.dir.sets = []) :
    walkOn j 0 s =
        { s with freeCount := s.freeCount + 1, sweep := { s.sweep with walker := .past, workList := [] } } ∨
      ∃ m, walkOn j 0 s =
        { s with freeCount := s.freeCount + 1, sweep := { s.sweep with walker := .atSet m, workList := [] } } := by
  obtain ⟨stop, -, e⟩ := walkOn_eq j 0 s
  cases stop with
  | none =>
    have route : s.route 0 none = [] := by simp [State.route, h]
    rw [route] at e
    exact Or.inl e
  | some m =>
    have route : s.route 0 (some m) = [m] := by simp [State.route, h]
    rw [route, visitSets_of_stop (Or.inr rfl)] at e
    exact Or.inr ⟨m, e.trans (arriveAt_of_empty j m h)⟩

/-- A job queued with nothing to do completes at once, or its walker rests at a set. -/
theorem enqueueJob_of_settled {s : State} (j : Job) (hs : s.settled) (hj : j.owner = .command) :
    enqueueJob j s =
        startRunning (reportJob j { s with
          freeCount := s.freeCount + 1
          sweep := { jobs := [], walker := .past, workList := [], jobCount := 0 } }) ∨
      ∃ m, enqueueJob j s =
        { s with
          freeCount := s.freeCount + 1
          sweep := { jobs := [j], walker := .atSet m, workList := [], jobCount := 0 } } := by
  obtain ⟨sets, jobs, recalls⟩ := hs
  rw [enqueueJob_of_idle j jobs]
  obtain past | ⟨m, rests⟩ := walkOn_of_empty
    (s := { s with sweep := { s.sweep with jobs := [j], jobCount := 0 } }) j sets
  · refine Or.inl ((congrArg advance past).trans ?_)
    refine (advance_of_done (j := j) (rest := []) ?_ ?_ ?_).trans (advance_of_empty ?_)
    · rfl
    · rfl
    · exact fun k t ht => hj ▸ recalls k t ht
    · rw [startRunning_jobs, reportJob_sweep]
  · refine Or.inr ⟨m, (congrArg advance rests).trans ?_⟩
    exact advance_of_walking (i := m) rfl

/-! ### The commands with a sweep job (R168, R169) -/

theorem indexOperand_val (i : RegionIdx) : indexOperand i.val = some i := by
  simp [indexOperand, i.isLt]

theorem pageOperand_val (a : Page) : pageOperand a.val = some a := by
  simp [pageOperand, a.isLt]

theorem attrOperand_eq {v : Nat} {a : Attribute}
    (h : v = 0 ∧ a = .untracked ∨ v = 1 ∧ a = .tracked ∨ v = 2 ∧ a = .streamInvalidate) : attrOperand v = some a := by
  obtain ⟨rfl, rfl⟩ | ⟨rfl, rfl⟩ | ⟨rfl, rfl⟩ := h <;> rfl

/-- The operands of WriteRegion name a record (R168). -/
structure State.namesRecord (s : State) (i : RegionIdx) (r : Region) : Prop where
  index : s.word 0 = i.val
  enabled : r.enabled = decide (32768 ≤ s.word 1)
  attr : s.word 1 % 4 = 0 ∧ r.attr = .untracked ∨ s.word 1 % 4 = 1 ∧ r.attr = .tracked ∨
    s.word 1 % 4 = 2 ∧ r.attr = .streamInvalidate
  base : s.wordPair 2 3 = r.base.val
  limit : s.wordPair 4 5 = r.limit.val

theorem opRegion_started {s : State} {i : RegionIdx} {r : Region} (code : Word) (h : s.namesRecord i r) :
    (s.started code).opRegion = some (i, r) := by
  have index : indexOperand ((s.started code).operand 0) = some i := by
    rw [← indexOperand_val i, ← h.index]
    rfl
  have attr : attrOperand ((s.started code).operand 1 % 4) = some r.attr := attrOperand_eq h.attr
  have base : pageOperand ((s.started code).operandPair 2 3) = some r.base := by
    rw [← pageOperand_val r.base, ← h.base]
    rfl
  have limit : pageOperand ((s.started code).operandPair 4 5) = some r.limit := by
    rw [← pageOperand_val r.limit, ← h.limit]
    rfl
  simp only [State.opRegion, index, attr, base, limit]
  obtain ⟨enabled, base, limit, attr⟩ := r
  obtain rfl : enabled = _ := h.enabled
  rfl

theorem opRange_started {s : State} {base limit : Page} (code : Word) (hb : s.wordPair 0 1 = base.val)
    (hl : s.wordPair 2 3 = limit.val) : (s.started code).opRange = some (base, limit) := by
  have base_eq : pageOperand ((s.started code).operandPair 0 1) = some base := by
    rw [← pageOperand_val base, ← hb]
    rfl
  have limit_eq : pageOperand ((s.started code).operandPair 2 3) = some limit := by
    rw [← pageOperand_val limit, ← hl]
    rfl
  simp only [State.opRange, base_eq, limit_eq]

/-- A command's job queued with nothing to do, by what its report does. -/
theorem enqueue_command_settled {s u : State} {c : LongCommand} {j : Job} (hs : s.settled) (hj : j.owner = .command)
    (hu : reportJob j { s with
        freeCount := s.freeCount + 1
        unit := { s.unit with inProgress := some c }
        sweep := { jobs := [], walker := .past, workList := [], jobCount := 0 } } =
      { u with sweep := { jobs := [], walker := .past, workList := [], jobCount := 0 } }) :
    enqueueJob j { s with unit := { s.unit with inProgress := some c } } =
        { u with sweep := { jobs := [], walker := .idle, workList := [], jobCount := 0 } } ∨
      ∃ m, enqueueJob j { s with unit := { s.unit with inProgress := some c } } = s.resting c j m := by
  obtain e | ⟨m, e⟩ :=
    enqueueJob_of_settled (s := { s with unit := { s.unit with inProgress := some c } }) j hs hj
  · refine Or.inl (e.trans ?_)
    rw [hu, startRunning_of_empty rfl]
  · exact Or.inr ⟨m, e⟩

theorem writeRegion_of_quiesced {s : State} {i : RegionIdx} {r : Region} (h : s.opRegion = some (i, r))
    (hq : s.service = .quiesced) : writeRegion s = enqueueJob (.regionChange i r) (beginLong .writeRegion s) := by
  simp only [writeRegion, h, if_pos hq]

theorem writeRegion_of_not_quiesced {s : State} {i : RegionIdx} {r : Region} (h : s.opRegion = some (i, r))
    (hq : s.service ≠ .quiesced) : writeRegion s = s.completed .wrongState 0 0 0 0 := by
  simp only [writeRegion, h, if_neg hq]
  rfl

theorem flush_of_range {s : State} {base limit : Page} (h : s.opRange = some (base, limit)) :
    flush s = enqueueJob (.flush base limit) (beginLong .flush s) := by
  simp only [flush, h]

theorem exec_writeRegion_of_quiesced {s : State} {i : RegionIdx} {r : Region} (hs : s.takesCommand)
    (h : s.namesRecord i r) (hq : s.service = .quiesced) :
    exec .writeRegion s =
      .next (enqueueJob (.regionChange i r)
        { s.started 5 with unit := { (s.started 5).unit with inProgress := some .writeRegion } }) :=
  (exec_of_takesCommand hs (code := 5) rfl).trans
    (congrArg _ (writeRegion_of_quiesced (opRegion_started 5 h) hq))

theorem exec_flush_of_range {s : State} {base limit : Page} (hs : s.takesCommand) (hb : s.wordPair 0 1 = base.val)
    (hl : s.wordPair 2 3 = limit.val) :
    exec .flush s =
      .next (enqueueJob (.flush base limit)
        { s.started 8 with unit := { (s.started 8).unit with inProgress := some .flush } }) :=
  (exec_of_takesCommand hs (code := 8) rfl).trans (congrArg _ (flush_of_range (opRange_started 8 hb hl)))

theorem exec_clearAllPoison {s : State} (hs : s.takesCommand) :
    exec .clearAllPoison s =
      .next (enqueueJob .poisonClear
        { s.started 12 with unit := { (s.started 12).unit with inProgress := some .clearAllPoison } }) :=
  exec_of_takesCommand hs (code := 12) rfl

theorem outcome_next_or {t u : State} {f : SetIdx → State} (h : t = u ∨ ∃ m, t = f m) :
    (.next t : Host.Outcome State Fault Refusal) = .next u ∨
      ∃ m, (.next t : Host.Outcome State Fault Refusal) = .next (f m) :=
  h.imp (congrArg _) (Exists.imp fun _ => congrArg _)

/-- Settles O54: the commands by their jobs, the walk by its route, the arrival by its work list, the queue by its
head. -/
theorem sweepCommandsQueueTheirJobs : Obligations.SweepCommandsQueueTheirJobs := by
  refine ⟨fun s hs => ⟨fun i r hi he ha hb hl => ⟨fun hq => ?region, fun hq => ?wrong⟩, fun base limit hb hl => ?flush,
      ?clear⟩,
    fun s j => ⟨enqueueJob_of_busy j, enqueueJob_of_idle j⟩, fun s j n => walkOn_eq j n s,
    fun s j stop => ⟨rfl, fun i rest => ⟨visitSets_of_handled, visitSets_of_stop⟩⟩,
    fun s u j i lines hl hu => ⟨u.workOf j lines, workOf_sublist u j lines, fun l st => mem_workOf,
      arriveAt_eq j i s hl hu⟩,
    fun s l p base limit i r => ⟨rfl, rfl, rfl, fun w x h hx => ?_, fun h => ?_, fun ha ht => ?_, fun h => ?_, rfl,
      fun w c q h => directEdit_poisonClear h⟩,
    fun s => ⟨fun h => ⟨advance_of_empty h, startRunning_of_empty h⟩,
      fun j rest hj => ⟨startRunning_of_jobs hj, advance_of_waiting hj, advance_of_done hj⟩⟩,
    fun s p => ⟨fun d => reportJob_drain, fun h => ⟨drainTest_of_waiting h, drainTest_of_drained h⟩, rfl,
      fun h => ⟨cleanupTest_of_waiting h, cleanupTest_of_cleaned h⟩,
      fun base limit h => completeLong_of_inProgress _ _ h,
      fun h => completeLong_of_inProgress _ _ h, fun i r h => ?_⟩⟩
  case region =>
    have names : s.namesRecord i r := ⟨hi, he, ha, hb, hl⟩
    rw [exec_writeRegion_of_quiesced hs names hq]
    exact ⟨rfl, fun settled => outcome_next_or (enqueue_command_settled (s := s.started 5) settled rfl
      (u := ((s.started 5).walked.withRegion i r).completed .done 0 0 0 0) rfl)⟩
  case wrong =>
    have names : s.namesRecord i r := ⟨hi, he, ha, hb, hl⟩
    exact (exec_of_takesCommand hs (code := 5) rfl).trans
      (congrArg _ (writeRegion_of_not_quiesced (opRegion_started 5 names) hq))
  case flush =>
    rw [exec_flush_of_range hs hb hl]
    exact ⟨rfl, fun settled => outcome_next_or (enqueue_command_settled (s := s.started 8) settled rfl
      (u := (s.started 8).walked.completed .done 0 0 0 0) rfl)⟩
  case clear =>
    rw [exec_clearAllPoison hs]
    exact ⟨rfl, fun settled => outcome_next_or (enqueue_command_settled (s := s.started 12) settled rfl
      (u := (s.started 12).walked.completed .done 0 0 0 0) rfl)⟩
  · simp only [walkerLookup, recordsPort_of_stored h, hx, if_true]
  · simp only [walkerLookup, recordsPort_eq_false h, Bool.false_eq_true, if_false]
  · rw [walkerLookup_regionChange, if_pos (tightens_iff.mpr ⟨ha, ht⟩)]
  · rw [walkerLookup_regionChange, if_neg]
    rw [tightens_iff]
    rintro ⟨ha, ht⟩
    exact h.elim ha ht
  · have busy : (s.withRegion i r).unit.inProgress = some .writeRegion := h
    exact completeLong_of_inProgress .done _ busy

end Sys2Proof.Machine
end

section
/-! PROOFS. The abort of a command (R158, R165), and the service state and parameter commands (R91, R174 to R179). -/

namespace Sys2Proof.Machine

open Sys2Proof

/-! ### What leaves the region table (R35) -/

theorem retire_regions (i : SetIdx) (w : Way) (s : State) : (retire i w s).regions = s.regions := by
  obtain ⟨d, q, e⟩ := retire_frame i w s
  rw [e]

theorem rewrite_regions (i : SetIdx) (w : Way) (x : EntryState) (s : State) :
    (rewrite i w x s).regions = s.regions := by
  obtain ⟨d, e, -⟩ := rewrite_frame i w x s
  rw [e]

theorem poisonRise_regions (s : State) : (poisonRise s).regions = s.regions := by
  obtain ⟨v, u, n, e⟩ := poisonRise_frame s
  rw [e]

theorem convert_regions (i : SetIdx) (w : Way) (h : Port) (s : State) : (convert i w h s).regions = s.regions := by
  rw [convert, poisonRise_regions, rewrite_regions]

theorem scrubWay_regions (i : SetIdx) (w : Way) (s : State) : (scrubWay i w s).regions = s.regions := by
  unfold scrubWay
  split
  · rfl
  · split
    · rfl
    · split
      · exact convert_regions _ _ _ s
      · rfl
    · dsimp only
      split
      · rfl
      · split
        · exact retire_regions _ _ s
        · exact rewrite_regions _ _ _ s

theorem convertWay_regions (i : SetIdx) (w : Way) (s : State) : (convertWay i w s).regions = s.regions := by
  unfold convertWay
  split
  · rfl
  · split
    · split
      · exact convert_regions _ _ _ s
      · rfl
    · rfl
    · rfl

theorem changingLookup_regions (l : LineNo) (s : State) : (changingLookup l s).regions = s.regions := by
  unfold changingLookup
  split
  · exact scrubWay_regions _ _ s
  · rfl

theorem observingLookup_regions (l : LineNo) (s : State) : (observingLookup l s).regions = s.regions := by
  unfold observingLookup
  split
  · exact convertWay_regions _ _ s
  · rfl

theorem walkerLookup_regions (j : Job) (l : LineNo) (s : State) : (walkerLookup j l s).regions = s.regions := by
  cases j with
  | drain p => exact observingLookup_regions l s
  | flush base limit => exact observingLookup_regions l s
  | poisonClear => exact observingLookup_regions l s
  | regionChange i r =>
    rw [walkerLookup_regionChange]
    split
    · exact changingLookup_regions l s
    · exact observingLookup_regions l s
  | cleanup p =>
    unfold walkerLookup
    dsimp only
    split
    · rfl
    · exact observingLookup_regions l s

theorem directEdit_regions (j : Job) (l : LineNo) (s : State) : (directEdit j l s).regions = s.regions := by
  unfold directEdit
  split
  · exact changingLookup_regions l s
  · split
    · exact retire_regions _ _ s
    · rfl
  all_goals rfl

theorem foldl_regions {α : Type} (f : State → α → State) (hf : ∀ s x, (f s x).regions = s.regions) (L : List α)
    (s : State) : (L.foldl f s).regions = s.regions := by
  induction L generalizing s with
  | nil => rfl
  | cons x L ih => rw [List.foldl_cons, ih, hf]

theorem arriveAt_regions (j : Job) (i : SetIdx) (s : State) : (arriveAt j i s).regions = s.regions := by
  rw [arriveAt_eq j i s rfl rfl]
  have edits := foldl_regions (fun s (x : LineNo × WorkStatus) => directEdit j x.1 s)
    fun s x => directEdit_regions j x.1 s
  have lookups := foldl_regions (fun s l => walkerLookup j l s) fun s l => walkerLookup_regions j l s
  exact (edits _ _).trans (lookups _ s)

theorem visitSets_regions (j : Job) (stop : Option SetIdx) (L : List SetIdx) (s : State) :
    (visitSets j stop L s).regions = s.regions := by
  induction L generalizing s with
  | nil => rfl
  | cons i L ih =>
    unfold visitSets
    dsimp only
    split
    · rw [ih, arriveAt_regions]
    · exact arriveAt_regions j i s

theorem startRunning_regions (s : State) : (startRunning s).regions = s.regions := by
  unfold startRunning
  split
  · rfl
  · exact visitSets_regions _ _ _ _

theorem drainTest_regions (p : Port) (s : State) : (drainTest p s).regions = s.regions := by
  unfold drainTest
  split
  · split <;> rfl
  all_goals rfl

theorem cleanupTest_regions (p : Port) (s : State) : (cleanupTest p s).regions = s.regions := by
  unfold cleanupTest
  split
  · split <;> rfl
  all_goals rfl

/-- The report of a job that is no command's leaves the region table. -/
theorem reportJob_regions {j : Job} (h : j.isCommand = false) (s : State) : (reportJob j s).regions = s.regions := by
  cases j with
  | drain p =>
    unfold reportJob
    dsimp only
    split
    · exact drainTest_regions p _
    all_goals rfl
  | cleanup p => exact cleanupTest_regions p s
  | flush base limit => cases h
  | regionChange i r => cases h
  | poisonClear => cases h

/-- With no command's job queued, the jobs that complete leave the region table, and no command's job comes. -/
theorem completeJobs_of_no_command (n : Nat) {s : State} (h : ∀ j ∈ s.sweep.jobs, j.isCommand = false) :
    (completeJobs n s).regions = s.regions ∧ ∀ j ∈ (completeJobs n s).sweep.jobs, j.isCommand = false := by
  induction n generalizing s with
  | zero => exact ⟨rfl, h⟩
  | succ n ih =>
    unfold completeJobs
    split
    · exact ⟨rfl, h⟩
    · next j rest hj =>
      split
      · have only : ∀ x ∈ j :: rest, x.isCommand = false := hj ▸ h
        have next : (startRunning (reportJob j { s with sweep := { s.sweep with jobs := rest } })).sweep.jobs =
            rest := by rw [startRunning_jobs, reportJob_sweep]
        obtain ⟨regions, jobs⟩ := ih (s := startRunning (reportJob j { s with sweep := { s.sweep with jobs := rest } }))
          (next.symm ▸ fun x hx => only x (List.mem_cons_of_mem j hx))
        rw [startRunning_regions, reportJob_regions (only j (List.mem_cons_self ..))] at regions
        exact ⟨regions, jobs⟩
      · exact ⟨rfl, h⟩

/-! ### The abort of a command with a sweep job (R158) -/

theorem exec_abort {s : State} (v : Word) (hr : s.inReset = false) :
    exec (.abort v) s = .next (abortCommand s.begun) := event_of_not_inReset _ hr

theorem abortCommand_of_job {s : State} {x : LongCommand} (hx : s.unit.inProgress = some x) (hq : x ≠ .quiesce) :
    abortCommand s = removeCommandJob (s.completed .aborted s.abortedCount 0 0 0) := by
  cases x with
  | quiesce => exact absurd rfl hq
  | writeRegion => simp only [abortCommand, hx]; rfl
  | flush => simp only [abortCommand, hx]; rfl
  | clearAllPoison => simp only [abortCommand, hx]; rfl

/-- The aborted job's queue without it: the jobs left and its recalls orphaned. -/
theorem removeCommandJob_eq (s : State) :
    removeCommandJob s =
      match s.sweep.jobs with
      | [] => s.withoutCommandJob
      | j :: _ => if j.isCommand then advance (startRunning s.withoutCommandJob) else s.withoutCommandJob := by
  have orphaned : orphanRecalls { s with sweep :=
      { s.sweep with jobs := s.sweep.jobs.filter fun j => !j.isCommand } } = s.withoutCommandJob :=
    orphanRecalls_slots _
  simp only [removeCommandJob, orphaned] <;> rfl

theorem abortedCount_of_empty {s : State} (h : s.sweep.jobs = []) : s.abortedCount = 0 := by
  simp only [State.abortedCount, h]

theorem abortedCount_of_jobs {s : State} {j : Job} {rest : List Job} (h : s.sweep.jobs = j :: rest) :
    s.abortedCount = if j.isCommand then BitVec.ofNat 16 s.sweep.jobCount else 0 := by
  simp only [State.abortedCount, h] <;> rfl

theorem withoutCommandJob_jobs (s : State) : ∀ j ∈ s.withoutCommandJob.sweep.jobs, j.isCommand = false := by
  intro j hj
  simpa using (List.mem_filter.mp hj).2

/-- What the next job's start and completion leave of an aborted command's unit and of the region table. -/
structure AbortLeaves (s t : State) : Prop where
  unit : t.unit = s.unit
  done : s.isPending .commandDone = true → t.isPending .commandDone = true
  regions : t.regions = s.regions
  jobs : ∀ j ∈ t.sweep.jobs, j.isCommand = false

theorem advance_abortLeaves {s : State} (hu : s.unit.inProgress = none)
    (h : ∀ j ∈ s.sweep.jobs, j.isCommand = false) : AbortLeaves s (advance (startRunning s)) := by
  have walk : Walk s (advance (startRunning s)) := advance_walk (startRunning_walk (.refl s))
  have moves : Moves false s (advance (startRunning s)) := advance_moves (startRunning_moves .refl)
  obtain ⟨regions, jobs⟩ := completeJobs_of_no_command (startRunning s).sweep.jobs.length
    (s := startRunning s) (by rw [startRunning_jobs]; exact h)
  exact ⟨walk.unit hu, isPending_of_rises moves.rises, regions.trans (startRunning_regions s), jobs⟩

theorem removeCommandJob_abortLeaves {s : State} (hu : s.unit.inProgress = none) :
    AbortLeaves s (removeCommandJob s) := by
  have jobs := withoutCommandJob_jobs s
  have removed : AbortLeaves s s.withoutCommandJob := ⟨rfl, id, rfl, jobs⟩
  rw [removeCommandJob_eq]
  split
  · exact removed
  · split
    · have rest := advance_abortLeaves (s := s.withoutCommandJob) hu jobs
      exact ⟨rest.unit, rest.done, rest.regions, rest.jobs⟩
    · exact removed

theorem completed_isPending (s : State) (st : CommandStatus) (a b c d : Word) :
    (s.completed st a b c d).isPending .commandDone = true :=
  raise_isPending .commandDone
    { s with unit := { s.unit with inProgress := none, status := st, results := #v[a, b, c, d] } }

theorem abortCommand_of_quiesce {s : State} (hx : s.unit.inProgress = some .quiesce) :
    abortCommand s = abortQuiesce s := by
  simp only [abortCommand, hx]

/-- Settles O55: the abort by the command in progress, its job's removal by the queue's head. -/
theorem abortEndsTheCommandInProgress : Obligations.AbortEndsTheCommandInProgress := by
  intro s v hr
  rw [exec_abort v hr]
  refine ⟨fun h => ?idle, fun x hx hq => ⟨fun hj => ?empty, fun j rest hj => ⟨fun hc => ?behind, fun hc => ?running⟩⟩,
    fun x hx hq => ?leaves, fun hx => ⟨fun hlow => ?quiesce, fun hhigh => ?halts⟩⟩
  case idle =>
    have idle : s.begun.unit.inProgress = none := h
    simp only [abortCommand, idle]
  case empty =>
    have jobs : (s.begun.completed .aborted 0 0 0 0).sweep.jobs = [] := hj
    rw [abortCommand_of_job (s := s.begun) hx hq, abortedCount_of_empty (s := s.begun) hj, removeCommandJob_eq]
    simp only [jobs]
  case behind =>
    have jobs : (s.begun.completed .aborted 0 0 0 0).sweep.jobs = j :: rest := hj
    rw [abortCommand_of_job (s := s.begun) hx hq, abortedCount_of_jobs (s := s.begun) hj, hc, removeCommandJob_eq]
    simp only [Bool.false_eq_true, if_false, jobs, hc]
  case running =>
    have jobs (n : Word) : (s.begun.completed .aborted n 0 0 0).sweep.jobs = j :: rest := hj
    rw [abortCommand_of_job (s := s.begun) hx hq, abortedCount_of_jobs (s := s.begun) hj, hc, removeCommandJob_eq]
    simp only [if_true, jobs, hc]
    rfl
  case leaves =>
    have removed := removeCommandJob_abortLeaves (s := s.begun.completed .aborted s.begun.abortedCount 0 0 0) rfl
    refine ⟨_, congrArg _ (abortCommand_of_job (s := s.begun) hx hq), by rw [removed.unit]; rfl,
      by rw [removed.unit]; rfl, fun j rest hj => ?_, removed.done (completed_isPending _ _ _ _ _ _),
      removed.regions, removed.jobs⟩
    rw [removed.unit, ← abortedCount_of_jobs hj]
    rfl
  case quiesce =>
    have low : ¬ s.begun.threshold ≤ s.begun.dir.poisoned := Nat.not_le.mpr hlow
    rw [abortCommand_of_quiesce (s := s.begun) hx, abortQuiesce, if_neg low]
    rfl
  case halts =>
    have high : s.begun.threshold ≤ s.begun.dir.poisoned := hhigh
    rw [abortCommand_of_quiesce (s := s.begun) hx, abortQuiesce, if_pos high]
    rfl

/-! ### The service state commands and the parameters (R91, R174 to R179) -/

theorem portWorkActive_iff {s : State} :
    s.portWorkActive = true ↔ ∃ k t p tag n, s.txn k = some t ∧ t.origin = .port p tag n := by
  have isPort (t : Txn) : t.originPort.isSome = true ↔ ∃ p tag n, t.origin = .port p tag n := by
    unfold Txn.originPort
    cases t.origin <;> simp
  simp only [State.portWorkActive, List.any_eq_true, Prod.exists, mem_activeTxns, isPort]
  exact ⟨fun ⟨k, t, ht, p, tag, n, ho⟩ => ⟨k, t, p, tag, n, ht, ho⟩,
    fun ⟨k, t, p, tag, n, ht, ho⟩ => ⟨k, t, ht, p, tag, n, ho⟩⟩

theorem quiesceCheck_of_rest {s : State} (hs : s.service = .quiescing) (hu : s.unit.inProgress = some .quiesce)
    (hp : s.parked = []) (hw : s.portWorkActive = false) :
    quiesceCheck s = { s with service := .quiesced }.completed .done 2 0 0 0 := by
  rw [quiesceCheck, if_pos ⟨hs, hw, hp⟩]
  exact completeLong_of_inProgress _ _ hu

theorem quiesceCheck_of_work {s : State} (h : s.service ≠ .quiescing ∨ s.parked ≠ [] ∨ s.portWorkActive = true) :
    quiesceCheck s = s := by
  refine if_neg ?_
  rintro ⟨quiescing, none, empty⟩
  obtain h | h | h := h
  · exact h quiescing
  · exact h empty
  · rw [h] at none
    cases none

theorem quiesce_of_not_quiesced {s : State} (h : s.service ≠ .quiesced) :
    quiesce s = quiesceCheck (beginLong .quiesce { s with service := .quiescing }) := if_neg h

/-- Settles O56: each command by its body, the quiescing by what work is left. -/
theorem serviceStateAndParametersAreCommanded : Obligations.ServiceStateAndParametersAreCommanded := by
  refine ⟨fun s => ⟨fun hs hu hp hw => ?_, fun h => ?_⟩, fun s hs => ⟨fun h => ?quiesced, fun h hw hp => ?atOnce,
    fun h hw => ?waits, fun h => ?refused, fun h => ?resumed, fun h1 h2 h3 => ?timing, fun h1 h2 => ?threshold⟩⟩
  · refine quiesceCheck_of_rest hs hu hp ?_
    rw [← Bool.not_eq_true, portWorkActive_iff]
    rintro ⟨k, t, p, tag, n, ht, ho⟩
    exact hw k t ht p tag n ho
  · rw [← portWorkActive_iff] at h
    exact quiesceCheck_of_work h
  case quiesced =>
    have quiesced : (s.started 6).service = .quiesced := h
    refine (exec_of_takesCommand hs (code := 6) rfl).trans (congrArg _ ((if_pos quiesced).trans ?_))
    rw [State.serviceWord, quiesced]
    rfl
  case atOnce =>
    refine (exec_of_takesCommand hs (code := 6) rfl).trans (congrArg _ ?_)
    refine (quiesce_of_not_quiesced (s := s.started 6) h).trans ?_
    refine (quiesceCheck_of_rest ?_ ?_ ?_ ?_).trans ?_
    · rfl
    · rfl
    · exact hp
    · exact hw
    · rfl
  case waits =>
    refine (exec_of_takesCommand hs (code := 6) rfl).trans (congrArg _ ?_)
    refine (quiesce_of_not_quiesced (s := s.started 6) h).trans ?_
    exact quiesceCheck_of_work (Or.inr hw.symm)
  case refused =>
    exact (exec_of_takesCommand hs (code := 7) rfl).trans (congrArg _ (if_pos (show _ ≤ _ from h)))
  case resumed =>
    exact (exec_of_takesCommand hs (code := 7) rfl).trans (congrArg _ (if_neg (show ¬ _ ≤ _ from Nat.not_le.mpr h)))
  case timing =>
    have named : (s.started 13).opTiming = some (s.word 0, s.word 1) := if_pos ⟨h1, h2, h3⟩
    refine (exec_of_takesCommand hs (code := 13) rfl).trans (congrArg _ ?_)
    show setTiming (s.started 13) = _
    simp only [setTiming, named]
    rfl
  case threshold =>
    have named : (s.started 14).opThreshold = some (s.word 0) := if_pos ⟨h1, h2⟩
    refine (exec_of_takesCommand hs (code := 14) rfl).trans (congrArg _ ?_)
    show setPoisonThreshold (s.started 14) = _
    simp only [setPoisonThreshold, named, State.poisonedWord, thresholdTest_dir]
    rfl

end Sys2Proof.Machine
end

section
/-! PROOFS. The commands that read and clear the directory (R22, R143, R170 to R173, Fig. 12-9). -/

namespace Sys2Proof.Machine

open Sys2Proof

/-! ### The claim and the record of a line as LookupLine shows them (Fig. 12-9) -/

theorem claimant_of_claims {s : State} {l : LineNo} {k : SlotId} {t : Txn} (hd : s.ClaimsDisjoint)
    (ht : s.txn k = some t) (hc : t.claims l = true) : s.claimant l = some (k, t) := by
  have claimed : (s.claimant l).isSome = true := State.claimed_iff.mpr ⟨k, t, ht, (claims_iff t l).mp hc⟩
  obtain ⟨⟨j, u⟩, found⟩ := Option.isSome_iff_exists.mp claimed
  have hu : s.txn j = some u := mem_activeTxns.mp (List.mem_of_find?_eq_some found)
  have claims : u.claims l = true := by simpa using List.find?_some found
  obtain rfl : k = j := hd k j t u l ht hu hc claims
  rw [found, Option.some.inj (ht.symm.trans hu)]

theorem claimant_eq_none {s : State} {l : LineNo} (h : ∀ k t, s.txn k = some t → t.line ≠ l ∧ t.victim ≠ some l) :
    s.claimant l = none := by
  rw [← Option.not_isSome_iff_eq_none]
  intro claimed
  obtain ⟨k, t, ht, hl | hv⟩ := State.claimed_iff.mp claimed
  · exact (h k t ht).1 hl
  · exact (h k t ht).2 hv

theorem phaseCode_eq (t : Txn) : phaseCode t.phase = t.phaseNumber := by
  unfold Txn.phaseNumber
  rcases t.phase with - | ph
  · rfl
  · cases ph <;> rfl

theorem lookupWord2_of_line {s : State} {l : LineNo} {k : SlotId} {t : Txn} (h : s.claimant l = some (k, t))
    (hl : t.line = l) : s.lookupWord2 l = BitVec.ofNat 16 (32768 + k.val * 256 + t.phaseNumber) := by
  simp only [State.lookupWord2, h, hl, if_true, phaseCode_eq, word, Nat.add_zero]

theorem lookupWord2_of_victim {s : State} {l : LineNo} {k : SlotId} {t : Txn} (h : s.claimant l = some (k, t))
    (hl : t.line ≠ l) : s.lookupWord2 l = BitVec.ofNat 16 (32768 + 16384 + k.val * 256 + t.phaseNumber) := by
  simp only [State.lookupWord2, h, hl, if_false, phaseCode_eq, word]

theorem claimShown_lookupWord2 (s : State) (l : LineNo) : ClaimShown s l (s.lookupWord2 l) := by
  cases h : s.claimant l with
  | none =>
    have unclaimed : s.claimed l = false := by simp [State.claimed, h]
    have shown : s.lookupWord2 l = 0 := by simp only [State.lookupWord2, h]
    rw [shown]
    refine .unclaimed fun k t ht => not_or.mp fun hc => ?_
    rw [State.claimed_iff.mpr ⟨k, t, ht, hc⟩] at unclaimed
    cases unclaimed
  | some kt =>
    obtain ⟨k, t⟩ := kt
    have ht : s.txn k = some t := mem_activeTxns.mp (List.mem_of_find?_eq_some h)
    by_cases hl : t.line = l
    · rw [lookupWord2_of_line h hl]
      exact .line k t ht hl
    · rw [lookupWord2_of_victim h hl]
      have claims : t.claims l = true := by simpa using List.find?_some h
      exact .victim k t ht hl (((claims_iff t l).mp claims).resolve_left hl)

theorem ClaimShown.eq_lookupWord2 {s : State} {l : LineNo} {c : Word} (hd : s.ClaimsDisjoint) (h : ClaimShown s l c) :
    c = s.lookupWord2 l := by
  cases h with
  | unclaimed h => simp only [State.lookupWord2, claimant_eq_none h]
  | line k t ht h => rw [lookupWord2_of_line (claimant_of_claims hd ht ((claims_iff t l).mpr (Or.inl h))) h]
  | victim k t ht hl h => rw [lookupWord2_of_victim (claimant_of_claims hd ht ((claims_iff t l).mpr (Or.inr h))) hl]

theorem Attribute.code_eq (a : Attribute) : a.code = a.number := by
  cases a <;> rfl

theorem State.covering_iff {s : State} {i : RegionIdx} {l : LineNo} :
    s.covering i l ↔ (s.regions[i]).covers (pageOf l) = true := Region.covers_iff.symm

theorem lookupWord3_of_record {s : State} {l : LineNo} {i : RegionIdx}
    (h : coveringRecord s.regions (pageOf l) = some i) :
    s.lookupWord3 l = BitVec.ofNat 16 ((s.region i).attr.number + 16 + i.val * 256) := by
  simp only [State.lookupWord3, h, Attribute.code_eq, word]

theorem recordShown_lookupWord3 (s : State) (l : LineNo) : RecordShown s l (s.lookupWord3 l) := by
  cases h : coveringRecord s.regions (pageOf l) with
  | none =>
    have shown : s.lookupWord3 l = 0 := by
      simp only [State.lookupWord3, h]
      rfl
    rw [shown]
    exact .uncovered fun i hi => List.find?_eq_none.mp h i (mem_allRegions i) (State.covering_iff.mp hi)
  | some i =>
    rw [lookupWord3_of_record h]
    obtain ⟨covers, before, after, order, lower⟩ := List.find?_eq_some_iff_append.mp h
    refine .covered i (State.covering_iff.mpr covers) fun j hj hc => ?_
    have rising := allRegions_rising
    have mem := mem_allRegions j
    rw [order] at rising mem
    rcases List.mem_append.mp mem with hb | ha
    · have no := lower j hb
      rw [State.covering_iff.mp hc] at no
      cases no
    · rcases List.mem_cons.mp ha with rfl | ha
      · exact lt_irrefl _ hj
      · have sorted := (List.pairwise_append.mp rising).2.1
        exact lt_asymm hj ((List.pairwise_cons.mp sorted).1 j ha)

theorem RecordShown.eq_lookupWord3 {s : State} {l : LineNo} {r : Word} (h : RecordShown s l r) :
    r = s.lookupWord3 l := by
  cases h with
  | uncovered h =>
    have none : coveringRecord s.regions (pageOf l) = none :=
      List.find?_eq_none.mpr fun i _ hi => h i (State.covering_iff.mpr hi)
    simp only [State.lookupWord3, none]
    rfl
  | covered i h hi =>
    refine (lookupWord3_of_record (find_of_pairwise allRegions_rising (mem_allRegions i) (State.covering_iff.mp h)
      fun j hj => ?_)).symm
    exact Bool.eq_false_iff.mpr fun hc => hi j hj (State.covering_iff.mpr hc)

/-! ### LookupLine (R170) -/

theorem lineOperand_val (l : LineNo) : lineOperand l.val = some l := by
  simp [lineOperand, l.isLt]

theorem opLine_started {s : State} {l : LineNo} (code : Word) (h : s.wordPair 0 1 = l.val) :
    (s.started code).opLine = some l := by
  rw [← lineOperand_val l, ← h]
  rfl

theorem lookupLine_of_line {s u : State} {l : LineNo} (h : s.opLine = some l) (hu : u = observingLookup l s) :
    lookupLine s =
      u.completed .done (lookupWord0 (u.observed l)) (lookupWord1 (u.observed l)) (u.lookupWord2 l)
        (u.lookupWord3 l) := by
  subst hu
  simp only [lookupLine, h]
  rfl

theorem PoisonCause.code_bits (c : PoisonCause) : c.code * 4096 = if c = .leaseLost then 4096 else 0 := by
  cases c <;> rfl

/-! ### What the conversions of a scan store (R6, R171) -/

/-- A stored entry as an observing lookup leaves it: Poisoned if its holder is Isolated (R6). -/
def State.afterObserving (s : State) : Option (Way × EntryState) → Option (Way × EntryState)
  | some (w, .exclusive h) => if s.isIsolated h then some (w, .poisoned .holderLost h) else some (w, .exclusive h)
  | o => o

theorem State.afterObserving_idem (s : State) (o : Option (Way × EntryState)) :
    s.afterObserving (s.afterObserving o) = s.afterObserving o := by
  rcases o with - | ⟨w, S | h | ⟨c, q⟩⟩
  · rfl
  · rfl
  · unfold State.afterObserving
    cases hi : s.isIsolated h <;> simp [hi]
  · rfl

theorem State.afterObserving_isSome (s : State) (o : Option (Way × EntryState)) :
    (s.afterObserving o).isSome = o.isSome := by
  rcases o with - | ⟨w, S | h | ⟨c, q⟩⟩
  · rfl
  · rfl
  · unfold State.afterObserving
    cases hi : s.isIsolated h <;> simp [hi]
  · rfl

/-- What a run of observing lookups of a list of lines leaves. -/
structure Scanned (L : List LineNo) (s t : State) : Prop where
  wf : t.dir.Wf
  stored : ∀ n, t.stored n = if n ∈ L then s.afterObserving (s.stored n) else s.stored n
  recency : ∀ j, (t.dirSet j).recency = (s.dirSet j).recency
  occupancy : t.dir.occupancy = s.dir.occupancy
  frame : t = { s with dir := t.dir, service := t.service, unit := t.unit, notify := t.notify }
  idle : s.unit.inProgress = none → t.unit = s.unit

theorem Scanned.unchanged {l : LineNo} {s : State} (hd : s.dir.Wf) (h : s.afterObserving (s.stored l) = s.stored l) :
    Scanned [l] s s := by
  refine ⟨hd, fun n => ?_, fun _ => rfl, rfl, rfl, fun _ => rfl⟩
  by_cases hn : n = l
  · simp [hn, h]
  · simp [hn]

theorem entryTag_setOf_inj {l n : LineNo} (ht : entryTag l = entryTag n) (hs : setOf l = setOf n) : l = n := by
  rw [← lineOf_setOf_entryTag l, ht, hs, lineOf_setOf_entryTag]

/-- A conversion leaves the entry of every other line. -/
theorem convert_stored_ne {s : State} {l n : LineNo} {w : Way} {h : Port} (hd : s.dir.Wf)
    (hl : s.stored l = some (w, .exclusive h)) (hn : n ≠ l) :
    (convert (setOf l) w h s).stored n = s.stored n := by
  obtain ⟨found, e, he, hx⟩ := State.stored_eq_some.mp hl
  have tag : e.tag = entryTag l := by
    obtain ⟨e', he', tag⟩ := State.way_of_findWay found
    rwa [← Option.some.inj (he.symm.trans he')] at tag
  have at_way : (convert (setOf l) w h s).way (setOf l) w = some { e with state := .poisoned .holderLost h } := by
    rw [convert, way_poisonRise, way_rewrite _ he hd]
  have elsewhere (j : SetIdx) (v : Way) (hv : j ≠ setOf l ∨ v ≠ w) :
      (convert (setOf l) w h s).way j v = s.way j v := by
    rw [convert, way_poisonRise, way_rewrite_ne _ hv hd]
  have same : (convert (setOf l) w h s).findWay n = s.findWay n := by
    refine State.findWay_congr fun v => ?_
    by_cases hv : setOf n = setOf l ∧ v = w
    · rw [hv.1, hv.2, at_way, he]
      rfl
    · rw [elsewhere _ _ (not_and_or.mp hv)]
  cases hs : s.stored n with
  | none => exact State.stored_eq_none.mpr (same.trans (State.stored_eq_none.mp hs))
  | some vx =>
    obtain ⟨v, x⟩ := vx
    obtain ⟨foundN, f, hf, hfx⟩ := State.stored_eq_some.mp hs
    refine State.stored_eq_some.mpr ⟨same.trans foundN, f, ?_, hfx⟩
    rw [elsewhere _ _ (not_and_or.mp ?_), hf]
    rintro ⟨hset, rfl⟩
    obtain ⟨f', hf', tagN⟩ := State.way_of_findWay foundN
    rw [hset, he] at hf'
    exact hn (entryTag_setOf_inj (tagN.symm.trans (Option.some.inj hf' ▸ tag)) hset)

theorem convert_recency {s : State} {i : SetIdx} {w : Way} {e : Entry} (h : Port) (hd : s.dir.Wf)
    (he : s.way i w = some e) (j : SetIdx) : ((convert i w h s).dirSet j).recency = (s.dirSet j).recency := by
  have sets : (convert i w h s).dir.sets = (rewrite i w (.poisoned .holderLost h) s).dir.sets := by
    rw [convert, poisonRise_dir]
  have edit : EditsWay i w (some { e with state := .poisoned .holderLost h }) (s.dirSet i).recency s
      (convert i w h s) := editsWay_of_putSet hd (by rw [sets, rewrite_of_entry _ he]; rfl)
  by_cases hj : j = i
  · rw [hj, edit.recency]
  · exact edit.others j hj

theorem convert_occupancy {s : State} {i : SetIdx} {w : Way} {e : Entry} (h : Port) (he : s.way i w = some e) :
    (convert i w h s).dir.occupancy = s.dir.occupancy := by
  rw [convert, poisonRise_dir, rewrite_of_entry _ he]
  rfl

theorem convert_scanned {l : LineNo} {s : State} {w : Way} {h : Port} (hd : s.dir.Wf)
    (hl : s.stored l = some (w, .exclusive h)) (hi : s.isIsolated h = true) :
    Scanned [l] s (convert (setOf l) w h s) := by
  obtain ⟨-, e, he, hx⟩ := State.stored_eq_some.mp hl
  have notPoisoned : e.state.isPoisoned = false := by
    rw [hx]
    rfl
  obtain ⟨d, v, u, n, frame⟩ := convert_frame (setOf l) w h s
  have walk : Walk s (convert (setOf l) w h s) := poisonRise_walk (rewrite_walk _ _ _ (.refl s))
  refine ⟨convert_dir_wf hd _ _ h e he notPoisoned, fun n => ?_, convert_recency h hd he, convert_occupancy h he, ?_,
    walk.unit⟩
  · by_cases hn : n = l
    · rw [hn, stored_of_converted hd hl, hl]
      simp [State.afterObserving, hi]
    · rw [convert_stored_ne hd hl hn]
      simp [hn]
  · rw [frame]

theorem observingLookup_scanned (l : LineNo) {s : State} (hd : s.dir.Wf) : Scanned [l] s (observingLookup l s) := by
  cases hs : s.stored l with
  | none =>
    rw [(lookups_of_absent hs).2.1]
    exact .unchanged hd (by rw [hs]; rfl)
  | some wx =>
    obtain ⟨w, x⟩ := wx
    cases x with
    | shared S =>
      rw [(lookups_of_shared hs).2.1]
      exact .unchanged hd (by rw [hs]; rfl)
    | poisoned c q =>
      rw [(lookups_of_poisoned hs).2.1]
      exact .unchanged hd (by rw [hs]; rfl)
    | exclusive h =>
      obtain ⟨changing, observing, -⟩ := lookups_of_exclusive hs
      rw [observing, changing]
      split
      · next hi => exact convert_scanned hd hs hi
      · next hi => exact .unchanged hd (by rw [hs]; exact if_neg hi)

theorem Scanned.isIsolated {L : List LineNo} {s t : State} (h : Scanned L s t) (p : Port) :
    t.isIsolated p = s.isIsolated p := by
  rw [h.frame]
  rfl

theorem Scanned.afterObserving {L : List LineNo} {s t : State} (h : Scanned L s t) :
    t.afterObserving = s.afterObserving := by
  funext o
  unfold State.afterObserving
  simp only [h.isIsolated]

theorem Scanned.cons {l : LineNo} {L : List LineNo} {s t u : State} (h : Scanned [l] s t) (g : Scanned L t u) :
    Scanned (l :: L) s u where
  wf := g.wf
  stored n := by
    rw [g.stored, h.afterObserving, h.stored]
    by_cases hl : n = l <;> by_cases hL : n ∈ L <;> simp [hl, hL, State.afterObserving_idem]
  recency j := (g.recency j).trans (h.recency j)
  occupancy := g.occupancy.trans h.occupancy
  frame := by
    rw [g.frame, h.frame]
  idle hu := by rw [g.idle (by rw [h.idle hu]; exact hu), h.idle hu]

theorem scan_scanned (L : List LineNo) {s : State} (hd : s.dir.Wf) :
    Scanned L s (L.foldl (fun x m => observingLookup m x) s) := by
  induction L generalizing s with
  | nil => exact ⟨hd, fun n => by simp, fun _ => rfl, rfl, rfl, fun _ => rfl⟩
  | cons l L ih =>
    have first := observingLookup_scanned l hd
    exact first.cons (ih first.wf)

/-! ### The lines of a scan (R171) -/

theorem mem_listedSets_of_way {s : State} {i : SetIdx} {w : Way} {e : Entry} (h : s.way i w = some e) :
    i ∈ s.listedSets := by
  by_contra absent
  have unlisted : getSet s.dir.sets i = SetRec.empty := by
    have key (l : List (SetIdx × SetRec)) (hl : i ∉ l.map Prod.fst) : getSet l i = SetRec.empty := by
      induction l with
      | nil => rfl
      | cons x l ih =>
        obtain ⟨hx, rest⟩ := not_or.mp (mt List.mem_cons.mpr hl)
        exact (if_neg (Ne.symm hx)).trans (ih rest)
    exact key _ absent
  rw [State.way, State.dirSet, unlisted, SetRec.empty_way] at h
  cases h

theorem mem_entryLines {s : State} {l : LineNo} (h : (s.stored l).isSome = true) : l ∈ s.entryLines := by
  obtain ⟨⟨w, x⟩, hx⟩ := Option.isSome_iff_exists.mp h
  obtain ⟨found, -⟩ := State.stored_eq_some.mp hx
  obtain ⟨e, he, tag⟩ := State.way_of_findWay found
  refine List.mem_flatMap.mpr ⟨setOf l, mem_listedSets_of_way he, ?_⟩
  refine List.mem_filterMap.mpr ⟨w, mem_allWays w, ?_⟩
  rw [he, Option.map_some, tag, lineOf_setOf_entryTag]

theorem lowestLine_eq_none {L : List LineNo} : lowestLine L = none ↔ L = [] := by
  cases L with
  | nil => simp [lowestLine]
  | cons l L =>
    simp only [lowestLine, reduceCtorEq, iff_false]
    split <;> simp

theorem lowestLine_spec {L : List LineNo} {m : LineNo} (h : lowestLine L = some m) : m ∈ L ∧ ∀ n ∈ L, m ≤ n := by
  induction L generalizing m with
  | nil => cases h
  | cons l L ih =>
    cases low : lowestLine L with
    | none =>
      simp only [lowestLine, low, Option.some.injEq] at h
      simp [h, lowestLine_eq_none.mp low]
    | some k =>
      obtain ⟨mem, least⟩ := ih low
      simp only [lowestLine, low, Option.some.injEq] at h
      split at h
      · next le =>
        subst h
        exact ⟨List.mem_cons_self .., List.forall_mem_cons.mpr ⟨le_rfl, fun n hn => le.trans (least n hn)⟩⟩
      · next lt =>
        subst h
        exact ⟨List.mem_cons_of_mem l mem, List.forall_mem_cons.mpr ⟨(not_le.mp lt).le, least⟩⟩

theorem lowestLine_eq_some {L : List LineNo} {m : LineNo} (hm : m ∈ L) (h : ∀ n ∈ L, m ≤ n) :
    lowestLine L = some m := by
  cases low : lowestLine L with
  | none =>
    rw [lowestLine_eq_none.mp low] at hm
    cases hm
  | some k =>
    obtain ⟨mem, least⟩ := lowestLine_spec low
    rw [le_antisymm (least m hm) (h k mem)]

/-! ### NextPoisoned (R171) -/

/-- The lines at or above a line that NextPoisoned scans. -/
def State.linesFrom (s : State) (l : LineNo) : List LineNo := s.entryLines.filter fun m => decide (l ≤ m)

theorem mem_linesFrom_of_stored {s : State} {l m : LineNo} (hm : l ≤ m) (h : (s.stored m).isSome = true) :
    m ∈ s.linesFrom l := List.mem_filter.mpr ⟨mem_entryLines h, decide_eq_true hm⟩

theorem le_of_mem_linesFrom {s : State} {l m : LineNo} (h : m ∈ s.linesFrom l) : l ≤ m :=
  of_decide_eq_true (List.mem_filter.mp h).2

theorem nextPoisoned_of_none {s t : State} {l : LineNo} (h : s.opLine = some l)
    (ht : t = (s.linesFrom l).foldl (fun x m => observingLookup m x) s) (none : ∀ m, l ≤ m → t.poisonOf m = none) :
    nextPoisoned s = t.completed .done 0 0 0 t.poisonedWord := by
  have empty : ((s.linesFrom l).filter fun m => (t.poisonOf m).isSome) = [] :=
    List.filter_eq_nil_iff.mpr fun m hm => by simp [none m (le_of_mem_linesFrom hm)]
  have lowest : lowestLine ((s.linesFrom l).filter fun m => (t.poisonOf m).isSome) = Option.none :=
    lowestLine_eq_none.mpr empty
  subst ht
  rw [State.linesFrom] at lowest ⊢
  simp only [nextPoisoned, h, lowest]
  rfl

/-- The bits of a Poisoned entry's cause and port in a result word (Fig. 12-9). -/
theorem poisonBits_eq (c : PoisonCause) (q : Port) :
    poisonBits c q = q.val * 256 + if c = .leaseLost then 4096 else 0 := by
  rw [poisonBits, PoisonCause.code_bits]

theorem nextPoisoned_of_some {s t : State} {l m : LineNo} {c : PoisonCause} {q : Port} (h : s.opLine = some l)
    (ht : t = (s.linesFrom l).foldl (fun x m => observingLookup m x) s) (hm : m ∈ s.linesFrom l)
    (hq : t.poisonOf m = some (c, q)) (lower : ∀ n, l ≤ n → n < m → t.poisonOf n = none) :
    nextPoisoned s =
      t.completed .done (word (32768 + poisonBits c q)) (word (m.val / 65536)) (word (m.val % 65536))
        t.poisonedWord := by
  have lowest : lowestLine ((s.linesFrom l).filter fun m => (t.poisonOf m).isSome) = some m := by
    refine lowestLine_eq_some (List.mem_filter.mpr ⟨hm, by rw [hq]; rfl⟩) fun n hn => not_lt.mp fun lt => ?_
    obtain ⟨listed, poisoned⟩ := List.mem_filter.mp hn
    rw [lower n (le_of_mem_linesFrom listed) lt] at poisoned
    cases poisoned
  subst ht
  rw [State.linesFrom] at lowest hq ⊢
  simp only [nextPoisoned, h, lowest, hq]
  rfl

/-- Whatever it finds, NextPoisoned completes Done in the state its scan leaves. -/
theorem nextPoisoned_completes {s t : State} {l : LineNo} (h : s.opLine = some l)
    (ht : t = (s.linesFrom l).foldl (fun x m => observingLookup m x) s) :
    ∃ a b c d, nextPoisoned s = t.completed .done a b c d := by
  unfold nextPoisoned
  rw [h]
  subst ht
  rw [State.linesFrom]
  dsimp only
  split
  · exact ⟨_, _, _, _, rfl⟩
  · split
    · exact ⟨_, _, _, _, rfl⟩
    · exact ⟨_, _, _, _, rfl⟩

theorem poisonOf_isSome_stored {s : State} {m : LineNo} {c : PoisonCause} {q : Port} (h : s.poisonOf m = some (c, q)) :
    (s.stored m).isSome = true := by
  unfold State.poisonOf at h
  cases hs : s.stored m with
  | none =>
    rw [hs] at h
    cases h
  | some wx => rfl

theorem Scanned.stored_isSome {L : List LineNo} {s t : State} (h : Scanned L s t) (n : LineNo) :
    (t.stored n).isSome = (s.stored n).isSome := by
  rw [h.stored]
  split
  · exact s.afterObserving_isSome _
  · rfl

theorem afterObserving_of_not_held {s : State} {m : LineNo} (h : ∀ w q, ¬ s.heldByIsolated m w q) :
    s.afterObserving (s.stored m) = s.stored m := by
  unfold State.afterObserving
  split
  · next w q hs =>
    rw [if_neg fun hi => h w q ⟨hs, isolated_of_isIsolated hi⟩]
    exact hs.symm
  · rfl

theorem Scanned.stored_of_held {L : List LineNo} {s t : State} (h : Scanned L s t) {m : LineNo} {w : Way} {q : Port}
    (hm : m ∈ L) (held : s.heldByIsolated m w q) : t.stored m = some (w, .poisoned .holderLost q) := by
  obtain ⟨hs, hi⟩ := held
  rw [h.stored, if_pos hm, hs]
  exact if_pos (State.isIsolated_of_isolated hi)

theorem Scanned.stored_of_not_held {L : List LineNo} {s t : State} (h : Scanned L s t) {m : LineNo}
    (hm : m ∉ L ∨ ∀ w q, ¬ s.heldByIsolated m w q) : t.stored m = s.stored m := by
  rw [h.stored]
  split
  · next mem => exact afterObserving_of_not_held (hm.resolve_left (not_not.mpr mem))
  · rfl

/-- Settles O57: LookupLine by the line's one claim and one record, NextPoisoned by what its scan leaves. -/
theorem directoryReadsReport : Obligations.DirectoryReadsReport := by
  intro s l hs hw
  refine ⟨fun u hd hu => ⟨⟨_, _, claimShown_lookupWord2 u l, recordShown_lookupWord3 u l⟩, fun c r hc hr => ?lookup⟩,
    fun hd => ?next⟩
  case lookup =>
    have walk : Walk (s.started 9) u := by
      rw [hu]
      exact observingLookup_walk l (.refl _)
    have disjoint : u.ClaimsDisjoint := by
      intro k j t x m ht hx
      rw [walk.txn] at ht hx
      exact hd k j t x m ht hx
    have whole : exec .lookupLine s =
        .next (u.completed .done (lookupWord0 (u.observed l)) (lookupWord1 (u.observed l)) c r) := by
      rw [hc.eq_lookupWord2 disjoint, hr.eq_lookupWord3]
      exact (exec_of_takesCommand hs (code := 9) rfl).trans
        (congrArg _ (lookupLine_of_line (opLine_started 9 hw) hu))
    rw [whole]
    refine ⟨fun h => by rw [h]; rfl, fun w S h => by rw [h]; rfl, fun w q h => by rw [h]; rfl, fun w x q h => ?_⟩
    rw [h, lookupWord0, PoisonCause.code_bits]
    rfl
  case next =>
    have named := opLine_started 10 hw
    generalize ht : ((s.started 10).linesFrom l).foldl (fun x m => observingLookup m x) (s.started 10) = t
    have scanned : Scanned ((s.started 10).linesFrom l) (s.started 10) t := by
      rw [← ht]
      exact scan_scanned _ hd
    obtain ⟨a, b, c, d, whole⟩ := nextPoisoned_completes named ht.symm
    refine ⟨_, (exec_of_takesCommand hs (code := 10) rfl).trans (congrArg _ whole), rfl, rfl,
      completed_isPending _ _ _ _ _ _, fun none => ?_, fun m x q hm hq lower => ?_, fun m w q hm held => ?_,
      fun m hm => ?_, scanned.recency, scanned.occupancy, ?_⟩
    · have found := whole.symm.trans (nextPoisoned_of_none named ht.symm none)
      exact congrArg (fun z => z.unit.results) found
    · have listed : m ∈ (s.started 10).linesFrom l := by
        refine mem_linesFrom_of_stored hm ?_
        rw [← scanned.stored_isSome]
        exact poisonOf_isSome_stored hq
      have found := whole.symm.trans (nextPoisoned_of_some named ht.symm listed hq lower)
      refine (congrArg (fun z => z.unit.results) found).trans ?_
      rw [poisonBits_eq, ← Nat.add_assoc]
      rfl
    · refine scanned.stored_of_held (mem_linesFrom_of_stored hm ?_) held
      exact congrArg Option.isSome held.1
    · refine scanned.stored_of_not_held (hm.imp (fun lt mem => ?_) id)
      exact absurd lt (not_lt.mpr (le_of_mem_linesFrom mem))
    · rw [scanned.frame]
      rfl

end Sys2Proof.Machine
end

section
/-! PROOFS. The commands that clear the directory (R22, R143, R172, R173), the notification unit (11), and the accesses
of the window (R160, R161, Fig. 12-6, Fig. 12-7). -/

namespace Sys2Proof.Machine

open Sys2Proof

/-! ### ClearPoison and ClearDirectory -/

theorem clearPoison_of_poisoned {s u : State} {l : LineNo} {w : Way} {c : PoisonCause} {q : Port}
    (h : s.opLine = some l) (hu : u = changingLookup l s) (hq : u.stored l = some (w, .poisoned c q)) :
    clearPoison s =
      (retire (setOf l) w u).completed .done (word (poisonBits c q)) (retire (setOf l) w u).poisonedWord 0 0 := by
  subst hu
  simp only [clearPoison, h, hq]
  rfl

theorem clearPoison_of_not_poisoned {s u : State} {l : LineNo} (h : s.opLine = some l) (hu : u = changingLookup l s)
    (hq : ∀ w c q, u.stored l ≠ some (w, .poisoned c q)) : clearPoison s = u.completed .wrongState 0 0 0 0 := by
  subst hu
  simp only [clearPoison, h]
  split
  · next w c q e => exact absurd e (hq w c q)
  all_goals rfl

/-- The report of a list of sets' emptying makes the requests parked on them with reason Set Ready. -/
theorem readySets_eq (L : List SetIdx) (s : State) :
    L.foldl (fun x i => readySet i x) s =
      { s with parked := s.parked.map fun q : Parked =>
        { q with ready := q.ready || decide (q.reason = .set ∧ setOf q.line ∈ L) } } := by
  induction L generalizing s with
  | nil => simp
  | cons i L ih =>
    rw [List.foldl_cons, ih]
    simp only [readySet, List.map_map]
    congr 1
    refine List.map_congr_left fun q _ => ?_
    by_cases here : q.reason = .set ∧ setOf q.line = i
    · simp [here]
    · by_cases hr : q.reason = .set
      · have other : setOf q.line ≠ i := fun e => here ⟨hr, e⟩
        simp [hr, other]
      · simp [hr]

theorem anyPortJoined_iff {s : State} :
    s.anyPortJoined = true ↔ ∃ p : Port, (s.port p).state ≠ .unused ∧ (s.port p).state ≠ .offline := by
  simp only [State.anyPortJoined, List.any_eq_true, mem_allPorts, true_and]
  refine exists_congr fun p => ?_
  cases (s.port p).state <;> simp

theorem clearDirectory_of_quiesced {s : State} (hs : s.service = .quiesced)
    (hp : ∀ p : Port, (s.port p).state = .unused ∨ (s.port p).state = .offline) :
    clearDirectory s = (clearEntries s).completed .done (word s.dir.occupancy) 0 0 0 := by
  refine if_pos ⟨hs, ?_⟩
  rw [← Bool.not_eq_true, anyPortJoined_iff]
  rintro ⟨p, hu, ho⟩
  exact (hp p).elim hu ho

theorem clearDirectory_of_not_allowed {s : State}
    (h : s.service ≠ .quiesced ∨ ∃ p : Port, (s.port p).state ≠ .unused ∧ (s.port p).state ≠ .offline) :
    clearDirectory s = s.completed .wrongState 0 0 0 0 := by
  refine if_neg ?_
  rintro ⟨quiesced, none⟩
  obtain h | h := h
  · exact h quiesced
  · rw [anyPortJoined_iff.mpr h] at none
    cases none

/-- Settles O58: ClearPoison by the entry its lookup leaves, ClearDirectory by the state of the part. -/
theorem directoryClearsRetireEntries : Obligations.DirectoryClearsRetireEntries := by
  intro s hs
  refine ⟨fun l u hw hu => ⟨fun w c q hq => ?poisoned, fun hq => ?other⟩, fun hq hp => ?cleared, fun h => ?refused⟩
  case poisoned =>
    refine (exec_of_takesCommand hs (code := 11) rfl).trans (congrArg _ ?_)
    refine (clearPoison_of_poisoned (opLine_started 11 hw) hu hq).trans ?_
    rw [poisonBits_eq]
    rfl
  case other =>
    refine (exec_of_takesCommand hs (code := 11) rfl).trans (congrArg _ ?_)
    exact clearPoison_of_not_poisoned (opLine_started 11 hw) hu hq
  case cleared =>
    have cleared := readySets_eq s.listedSets { s.started 15 with dir := { sets := [], occupancy := 0, poisoned := 0 } }
    refine ⟨clearEntries (s.started 15), ?_, ?_, ?_⟩
    · exact (exec_of_takesCommand hs (code := 15) rfl).trans (congrArg _ (clearDirectory_of_quiesced hq hp))
    · exact cleared.trans (by rw [show clearEntries (s.started 15) = _ from cleared])
    · exact congrArg State.parked cleared
  case refused =>
    exact (exec_of_takesCommand hs (code := 15) rfl).trans (congrArg _ (clearDirectory_of_not_allowed h))

/-! ### Causes (R180 to R182) -/

theorem Cause.exists_number {n : Nat} (h : 1 ≤ n ∧ n ≤ 10) : ∃ x : Cause, x.number = n := by
  obtain ⟨h1, h10⟩ := h
  interval_cases n
  · exact ⟨.halted, rfl⟩
  · exact ⟨.portIsolated, rfl⟩
  · exact ⟨.linePoisoned, rfl⟩
  · exact ⟨.protocolError, rfl⟩
  · exact ⟨.cleanupDone, rfl⟩
  · exact ⟨.portLeft, rfl⟩
  · exact ⟨.portJoined, rfl⟩
  · exact ⟨.strayMessage, rfl⟩
  · exact ⟨.commandDone, rfl⟩
  · exact ⟨.thresholdNear, rfl⟩

theorem causeNumbers_rising : causeNumbers.Pairwise fun a b => 1 ≤ a ∧ a < b := by decide

theorem mem_causeNumbers {n : Nat} : n ∈ causeNumbers ↔ 1 ≤ n ∧ n ≤ 10 := by
  simp only [causeNumbers, List.mem_cons, List.not_mem_nil, or_false]
  omega

/-- The flags of the causes both pending and enabled. -/
def State.shownFlags (s : State) : BitVec 10 := s.notify.pendingFlags &&& s.notify.enables

theorem shownFlags_getLsbD (s : State) (x : Cause) :
    s.shownFlags.getLsbD (x.number - 1) = (s.isPending x && s.isEnabled x) := by
  simp [State.shownFlags, State.isPending, State.isEnabled]

theorem causeNumber_of_lowest {s : State} {x : Cause} (hp : s.isPending x = true) (he : s.isEnabled x = true)
    (h : ∀ y : Cause, y.number < x.number → s.isPending y = false ∨ s.isEnabled y = false) :
    s.causeNumber = x.number := by
  have found : (causeNumbers.find? fun n => s.shownFlags.getLsbD (n - 1)) = some x.number := by
    refine find_of_pairwise causeNumbers_rising (mem_causeNumbers.mpr x.number_bounds) ?_ fun n hn => ?_
    · rw [shownFlags_getLsbD, hp, he]
      rfl
    · have bound := x.number_bounds.2
      obtain ⟨y, rfl⟩ := Cause.exists_number (n := n) ⟨hn.1, by omega⟩
      rw [shownFlags_getLsbD]
      obtain none | none := h y hn.2 <;> simp [none]
  exact congrArg (Option.getD · 0) found

theorem shownFlags_eq_zero {s : State} (h : ∀ x : Cause, s.isPending x = false ∨ s.isEnabled x = false) :
    s.shownFlags = 0 := by
  refine BitVec.eq_of_getLsbD_eq fun i hi => ?_
  obtain ⟨x, hx⟩ := Cause.exists_number (n := i + 1) ⟨by omega, by omega⟩
  have flag := shownFlags_getLsbD s x
  rw [hx, Nat.add_sub_cancel] at flag
  rw [flag]
  obtain none | none := h x <;> simp [none]

theorem causeNumber_of_none {s : State} (h : s.shownFlags = 0) : s.causeNumber = 0 := by
  have none : (causeNumbers.find? fun n => s.shownFlags.getLsbD (n - 1)) = none :=
    List.find?_eq_none.mpr fun n _ => by simp [h]
  exact congrArg (Option.getD · 0) none

theorem irq_eq {s : State} (hr : s.inReset = false) : s.irq = decide (s.shownFlags ≠ 0) := by
  rw [State.irq, hr]
  rfl

theorem acknowledgeFlag_of_number {v : Word} {x : Cause} (s : State) (h : v = BitVec.ofNat 16 x.number) :
    acknowledgeFlag v s =
      { s with notify :=
        { s.notify with pendingFlags := s.notify.pendingFlags &&& ~~~ (1#10 <<< (x.number - 1)) } } := by
  have number : v.toNat = x.number := by
    subst h
    cases x <;> rfl
  rw [acknowledgeFlag, number, if_pos x.number_bounds]
  rfl

theorem acknowledgeFlag_of_other {v : Word} (s : State) (h : v.toNat = 0 ∨ 11 ≤ v.toNat) : acknowledgeFlag v s = s :=
  if_neg (by omega)

theorem writtenWord_of_window {s : State} {v r : Word}
    (h : s.window.wide = true ∧ r = v ∨ s.window.wide = false ∧ r = v.extractLsb' 8 8 ++ s.window.writeByte) :
    s.writtenWord v = r := by
  obtain ⟨wide, e⟩ | ⟨narrow, e⟩ := writtenWord_eq s v <;> obtain ⟨h, rfl⟩ | ⟨h, rfl⟩ := h
  · exact e
  · rw [wide] at h
    cases h
  · rw [narrow] at h
    cases h
  · exact e

theorem setWidth_setWidth_and (r : Word) : (r.setWidth 10).setWidth 16 = r &&& 0x03FF#16 := by
  refine BitVec.eq_of_toNat_eq ?_
  have mask : r.toNat &&& 1023 = r.toNat % 1024 := Nat.and_two_pow_sub_one_eq_mod r.toNat 10
  rw [BitVec.toNat_setWidth, BitVec.toNat_setWidth, BitVec.toNat_and]
  refine Eq.trans ?_ mask.symm
  omega

theorem exec_acknowledgeCause {s : State} {v r : Word} (hr : s.inReset = false) (h : s.writtenWord v = r) :
    exec (.acknowledgeCause v) s = .next (acknowledgeFlag r s.begun) := by
  rw [← h]
  exact event_of_not_inReset _ hr

theorem exec_enableWordWrite {s : State} {v r : Word} (hr : s.inReset = false) (h : s.writtenWord v = r) :
    exec (.enableWordWrite v) s = .next (writeEnables r s.begun) := by
  rw [← h]
  exact event_of_not_inReset _ hr

/-! ### What the words of the window read (Fig. 12-6, Fig. 12-7) -/

section Reads

variable {s : State} (hr : s.inReset = false)

include hr

theorem readWord_operand {w : WordNo} (h : w.val < 6) : s.readWord w = s.window.operands[w.val] := by
  obtain ⟨n, hn⟩ := w
  simp only at h
  interval_cases n <;> simp [State.readWord, hr]

theorem readWord_result {w : WordNo} (n : Fin 4) (h : w.val = 9 + n.val) : s.readWord w = s.unit.results[n.val] := by
  obtain ⟨m, hm⟩ := w
  obtain rfl : m = 9 + n.val := h
  fin_cases n <;> simp [State.readWord, hr]

theorem readWord_unreadable {w : WordNo} (h : w = 0x06 ∨ w = 0x07 ∨ w = 0x18 ∨ w = 0x1E ∨ w = 0x1F) :
    s.readWord w = 0 := by
  obtain rfl | rfl | rfl | rfl | rfl := h <;> simp [State.readWord, hr]

theorem readWord_cause : s.readWord 0x17 = BitVec.ofNat 16 s.causeNumber := by
  simp [State.readWord, hr, word]

theorem readWord_enables : s.readWord 0x19 = s.notify.enables.setWidth 16 := by
  simp [State.readWord, hr]

end Reads

/-- Settles O59: the cause word by its search, the two writes by the word written. -/
theorem causesAreShownAcknowledgedAndEnabled : Obligations.CausesAreShownAcknowledgedAndEnabled := by
  intro s hr
  refine ⟨fun x hp he hlow => ⟨?_, ?_⟩, fun h => ⟨?_, ?_⟩, fun v r hv => ⟨fun x hx => ?_, fun h => ?_, ?_⟩⟩
  · rw [readWord_cause hr, causeNumber_of_lowest hp he hlow]
  · rw [irq_eq hr]
    refine decide_eq_true fun zero => ?_
    have flag := shownFlags_getLsbD s x
    simp [zero, hp, he] at flag
  · rw [readWord_cause hr, causeNumber_of_none (shownFlags_eq_zero h)]
    rfl
  · rw [irq_eq hr, shownFlags_eq_zero h]
    rfl
  · rw [exec_acknowledgeCause hr (writtenWord_of_window hv), acknowledgeFlag_of_number _ hx]
    rfl
  · rw [exec_acknowledgeCause hr (writtenWord_of_window hv), acknowledgeFlag_of_other _ h]
  · refine ⟨writeEnables r s.begun, exec_enableWordWrite hr (writtenWord_of_window hv), rfl, fun x => ?_, ?_⟩
    · have low : x.number - 1 < 10 := by
        have := x.number_bounds
        omega
      simp [State.isEnabled, writeEnables, low]
    · have running : (writeEnables r s.begun).inReset = false := hr
      rw [readWord_enables running]
      exact setWidth_setWidth_and r

/-! ### The accesses (R160, R161) -/

theorem highByte_eq (v : Word) : highByte v = v.extractLsb' 8 8 := by
  ext i hi
  simp [highByte]

theorem lowByte_eq (v : Word) : lowByte v = v.extractLsb' 0 8 := by
  ext i hi
  simp [lowByte]

theorem writeWord_of_operand {w : WordNo} (v : Word) (s : State) (h : w.val < 6) :
    writeWord w v s = { s with window := { s.window with operands := s.window.operands.set w.val v } } := dif_pos h

theorem writeWord_of_ignored {w : WordNo} (v : Word) (s : State) (h : 6 ≤ w.val) (hw : hasOwnRow w = false) :
    writeWord w v s = s := by
  have none : ¬(w = 0x06 ∨ w = 0x07 ∨ w = 0x18 ∨ w = 0x19) := of_decide_eq_false hw
  simp only [not_or] at none
  obtain ⟨h6, h7, h18, h19⟩ := none
  rw [writeWord, dif_neg (Nat.not_lt.mpr h), if_neg h6, if_neg h7, if_neg h18, if_neg h19]

theorem exec_registerWrite {s : State} {v r : Word} (w : WordNo) (hr : s.inReset = false) (h : s.writtenWord v = r) :
    exec (.registerWrite w v) s = .next (writeWord w r s.begun) := by
  rw [← h]
  exact event_of_not_inReset _ hr

theorem writtenWord_of_wide {s : State} (v : Word) (h : s.window.wide = true) : s.writtenWord v = v :=
  writtenWord_of_window (Or.inl ⟨h, rfl⟩)

theorem writtenWord_of_narrow {s : State} (v : Word) (h : s.window.wide = false) :
    s.writtenWord v = v.extractLsb' 8 8 ++ s.window.writeByte := writtenWord_of_window (Or.inr ⟨h, rfl⟩)

theorem exec_lowByteWrite {s : State} {w : WordNo} {b : Byte} (hr : s.inReset = false) (h : s.window.wide = false) :
    exec (.lowByteWrite w b) s = .next { s.begun with window := { s.window with writeByte := b } } := by
  have narrow : ¬ s.begun.window.wide = true := by simp [State.begun, h]
  exact (event_of_not_inReset _ hr).trans (congrArg _ (if_neg narrow))

theorem exec_lowByteRead {s : State} {w : WordNo} (hr : s.inReset = false) (h : s.window.wide = false) :
    exec (.lowByteRead w) s =
      .next { s.begun with window := { s.window with
        readCapture := (s.readWord w).extractLsb' 8 8
        captured := some w
        dataOut := (s.readWord w).extractLsb' 0 8 } } := by
  have narrow : ¬ s.begun.window.wide = true := by simp [State.begun, h]
  refine (event_of_not_inReset _ hr).trans (congrArg _ ((if_neg narrow).trans ?_))
  rw [highByte_eq, lowByte_eq]
  rfl

theorem exec_highByteRead {s : State} {w : WordNo} (hr : s.inReset = false) (h : s.window.wide = false) :
    exec (.highByteRead w) s =
      .next (if s.window.captured = some w then
        { s.begun with window := { s.window with captured := none, dataOut := s.window.readCapture } }
      else { s.begun with window := { s.window with dataOut := (s.readWord w).extractLsb' 8 8 } }) := by
  have narrow : ¬ s.begun.window.wide = true := by simp [State.begun, h]
  refine (event_of_not_inReset _ hr).trans (congrArg _ ((if_neg narrow).trans ?_))
  rw [highByte_eq]
  rfl

/-! ### The words of the status registers (Fig. 12-7) -/

theorem CommandStatus.code_eq (st : CommandStatus) : st.code = st.number := by
  cases st <;> rfl

theorem ServiceState.code_eq (v : ServiceState) : v.code = BitVec.ofNat 16 v.number := by
  cases v <;> rfl

theorem Job.codes_eq (j : Job) : j.code + j.portCode * 16 = j.shown := by
  cases j <;> rfl

theorem PortState.code_eq (x : PortState) : x.code = x.number := by
  cases x <;> rfl

theorem IsolationReason.code_eq (x : IsolationReason) : x.code = x.number := by
  cases x <;> rfl

theorem statusWord_eq (s : State) :
    s.statusWord = BitVec.ofNat 16 ((if s.unit.inProgress = none then 0 else 32768) + s.unit.status.number) := by
  rw [State.statusWord, CommandStatus.code_eq, State.busy]
  cases s.unit.inProgress <;> rfl

theorem detailWord_eq (s : State) (p q : Port) :
    s.detailWord p q = BitVec.ofNat 16 (s.detailByte p + s.detailByte q * 256) := by
  simp only [State.detailWord, State.portDetail, State.detailByte, PortState.code_eq, IsolationReason.code_eq, word]

theorem allSlots_eq_finRange : allSlots = List.finRange 24 := by decide

theorem activeTxns_length (s : State) : s.activeTxns.length = (List.finRange 24).countP fun k => (s.txn k).isSome := by
  rw [State.activeTxns, List.length_filterMap_eq_countP, allSlots_eq_finRange]
  simp only [Option.isSome_map]

theorem sweepAt_eq (s : State) (k : SlotId) : s.sweepAt k = ((s.txn k).map Txn.fromSweep).getD false := by
  unfold State.sweepAt
  cases s.txn k with
  | none => rfl
  | some t =>
    simp only [Option.map_some, Option.getD_some, Txn.originPort, Txn.fromSweep]
    cases t.origin <;> rfl

theorem engineWord0_eq (s : State) :
    s.engineWord0 =
      BitVec.ofNat 16 (((List.finRange 24).countP fun k => (s.txn k).isSome) +
        ((List.finRange 24).countP fun k => ((s.txn k).map Txn.fromSweep).getD false) * 256) := by
  rw [State.engineWord0, activeTxns_length, sweepActive_eq, allSlots_eq_finRange, funext (sweepAt_eq s)]
  rfl

theorem sweepWord1_of_jobs {s : State} {j : Job} {rest : List Job} (h : s.sweep.jobs = j :: rest) :
    s.sweepWord1 = BitVec.ofNat 16 (j.shown + s.sweep.jobs.length * 256) := by
  simp only [State.sweepWord1, h, Job.codes_eq, word]

/-- Settles O60: the accesses by the mode of the window, each word by its number. -/
theorem windowAccessesMoveWordsAndBytes : Obligations.WindowAccessesMoveWordsAndBytes := by
  intro s w v b hr
  refine ⟨fun hwide => ⟨fun h => ?_, fun h hw => ?_, ?_, ?_, ?_⟩,
    fun hnarrow => ⟨fun h => ?_, fun h hw => ?_, ?_, ?_, fun hc => ?_, fun hc => ?_⟩, readWord_operand hr,
    readWord_unreadable hr, ?_, readWord_result hr, ?_, ?_, ?_, ?_, ?_, fun h => ?_, fun i h => ?_, fun h => ?_,
    fun h => ?_, fun j rest h => ?_, ?_, ?_, ?_, ?_, ?_, ?_, ?_⟩
  · rw [exec_registerWrite w hr (writtenWord_of_wide v hwide), writeWord_of_operand v _ h]
    rfl
  · rw [exec_registerWrite w hr (writtenWord_of_wide v hwide), writeWord_of_ignored v _ h hw]
  · exact (event_of_not_inReset _ hr).trans (congrArg _ (if_pos hwide))
  · exact (event_of_not_inReset _ hr).trans (congrArg _ (if_pos hwide))
  · exact (event_of_not_inReset _ hr).trans (congrArg _ (if_pos hwide))
  · rw [exec_registerWrite w hr (writtenWord_of_narrow v hnarrow), writeWord_of_operand _ _ h]
    rfl
  · rw [exec_registerWrite w hr (writtenWord_of_narrow v hnarrow), writeWord_of_ignored _ _ h hw]
  · rw [exec_lowByteWrite hr hnarrow]
  · rw [exec_lowByteRead hr hnarrow]
  · rw [exec_highByteRead hr hnarrow, if_pos hc]
  · rw [exec_highByteRead hr hnarrow, if_neg hc]
  · rw [State.readWord_commandStatus hr, statusWord_eq]
  · rw [← ServiceState.code_eq]
    simp [State.readWord, hr]
  · simp [State.readWord, hr, word]
  · simp [State.readWord, hr, word]
  · rw [← engineWord0_eq]
    simp [State.readWord, hr]
  · simp [State.readWord, hr, State.engineWord1, word]
  · simp [State.readWord, hr, State.sweepWord0, h]
  · simp [State.readWord, hr, State.sweepWord0, h, word]
  · simp [State.readWord, hr, State.sweepWord0, h, word]
  · simp [State.readWord, hr, State.sweepWord1, h]
  · rw [← sweepWord1_of_jobs h]
    simp [State.readWord, hr]
  · simp [State.readWord, hr, word]
  · simp [State.readWord, hr, word]
  · simp [State.readWord, hr, word]
  all_goals
    rw [← detailWord_eq]
    simp [State.readWord, hr]

end Sys2Proof.Machine
end
